-- ==== Sys2Proof/Word.lean ====
section
/-! DEFINITION. The number and name types of the SLV-8260 (00_scope, Numbers at a Glance). -/

namespace Sys2Proof

/-- One byte of a frame, of write data or of a request word. -/
abbrev Byte := BitVec 8

/-- A stage agent, 0..15. -/
abbrev Agent := Fin 16

/-- A pool, 0..7. -/
abbrev PoolId := Fin 8

/-- The identifier an agent gives an outstanding transaction, 0..7 (R84). -/
abbrev StageTag := Fin 8

/-- The index of a memory tag, 0..63 (R120). -/
abbrev TagIndex := Fin 64

/-- One of the 511 buffer records (R1). The handle's number, 1..511, is the index plus 1; handle 0 names no record. -/
abbrev Handle := Fin 511

/-- A set of agents: bit n stands for agent n (11, head of the chapter). -/
abbrev AgentSet := BitVec 16

/-- The 29 notice positions (R165, 11.2). -/
abbrev NoticeSet := BitVec 29

end Sys2Proof
end

