-- ==== Sys2Proof/Syntax.lean ====
section
/-! DEFINITION. The commands: one constructor of `Instr` per row of spec/opcode_table.json. -/

namespace Sys2Proof

/-- Direction of a stage access (R84). -/
inductive AccessKind
  | read
  | write
deriving DecidableEq, Repr

/-- A transaction as it stands on an agent's request channel (R84). The handle and the offset are the two parts of the
32-bit stage address (R101). The size, 1..256, is held less 1, so that no other size can be written. -/
structure Txn where
  agent : Agent
  tag : StageTag
  kind : AccessKind
  address : BitVec 32
  sizeLess1 : BitVec 8
  data : List Byte
deriving DecidableEq, Repr

/-- Number of bytes of a transaction, 1..256 (R84). -/
def Txn.size (t : Txn) : Nat := t.sizeLess1.toNat + 1

/-- The commands of the block. Operands of the management commands are as wide as the fields of their frames (11.2), so
that an argument outside its range can be sent and is answered as R171 and R180 state. -/
inductive Instr
  /-- R84. An agent offers a transaction on its request channel. -/
  | transactionIssue (t : Txn)
  /-- R90. The input arbiter grants the next occupied waiting place. -/
  | inputArbiterGrant
  /-- R113. The held access is re-checked. -/
  | heldAccessRecheck
  /-- R122. The memory controller answers the request with this tag byte. -/
  | memoryResponse (tagByte : Byte) (good : Bool) (data : List Byte)
  /-- R16. The drain of this buffer completes. -/
  | drainCompletion (h : Handle)
  /-- R134. The scrub engine reports completion. -/
  | scrubCompletion
  /-- R135. The scrub engine reports failure. -/
  | scrubFailure
  /-- R132. The idle scrub engine takes the head of its queue. -/
  | scrubTakeHead
  /-- R140. The divider makes a tick; SCL is low at it or not (R168). -/
  | tick (sclLow : Bool)
  /-- R123. This tag's time has run out. -/
  | tagExpiry (i : TagIndex)
  /-- R142. The tick that makes a mark; SCL is low at it or not (R168). -/
  | mark (sclLow : Bool)
  /-- R143. The MARK pulse ends. -/
  | markPulseEnd
  /-- R128. The settling interval has run. -/
  | settlingIntervalEnd
  /-- R127. MREADY falls. -/
  | linkDown
  /-- R128. MREADY is high. -/
  | linkUp
  /-- R181. RESET is seen low at two consecutive samples. -/
  | resetAssert
  /-- R181. RESET is seen high; the ADDR pins are sampled. -/
  | resetRelease (addrPins : BitVec 2)
  /-- R166. A START or repeated START with an address byte. The ADDR pins matter only where the frame that a repeated
  START takes runs PART_RESET (R165). -/
  | i2cAddress (address : BitVec 7) (read : Bool) (addrPins : BitVec 2)
  /-- R167. A write transaction ends at STOP. The ADDR pins matter only where its frame runs PART_RESET (R165). -/
  | frameTaken (addrPins : BitVec 2)
  /-- R169. The host reads one byte for each entry, which says whether it acknowledged that byte; then STOP, or not. -/
  | answerRead (acks : List Bool) (stop : Bool)
  /-- R168. The idle count has reached its end. -/
  | i2cIdleTimeout
  /-- R150 -/
  | openGroup
  /-- R151 -/
  | stageDefine (handle : BitVec 16) (pool : Byte) (base : BitVec 24) (length : BitVec 16)
  /-- R151 -/
  | stageMove (handle : BitVec 16) (base : BitVec 24)
  /-- R151 -/
  | stageResize (handle : BitVec 16) (length : BitVec 16)
  /-- R151 -/
  | stageRetire (handle : BitVec 16)
  /-- R151 -/
  | stagePool (pool : Byte) (claimSet borrowSet : AgentSet) (scrub lendLimit : Byte) (lowMark : BitVec 16)
  /-- R151 -/
  | stageUnpool (pool : Byte)
  /-- R153. CLOSE_GROUP with mode NOW. -/
  | closeGroupNow
  /-- R154. CLOSE_GROUP with mode MARK. -/
  | closeGroupMark
  /-- R157 -/
  | abandonGroup
  /-- R164 -/
  | readGroup
  /-- R38 -/
  | forceRelease (handle : BitVec 16)
  /-- R80 -/
  | forceReturn (handle : BitVec 16) (borrower : Byte)
  /-- R40 -/
  | admitBuffer (handle : BitVec 16)
  /-- R41 -/
  | rescrub (handle : BitVec 16)
  /-- R117 -/
  | setAgent (agent mode : Byte)
  /-- R172 -/
  | agentReset (agent : Byte)
  /-- R118 -/
  | clearFault (agent : Byte)
  /-- R119 -/
  | readFault (agent : Byte)
  /-- R21 -/
  | readBuffer (handle : BitVec 16)
  /-- R29 -/
  | readPool (pool : Byte)
  /-- R47 -/
  | readQueue (agent : Byte)
  /-- R148 -/
  | readCycle
  /-- R173 -/
  | find (kind value : Byte) (start : BitVec 16)
  /-- R141 -/
  | setTimebase (divisor : Byte)
  /-- R146 -/
  | setCycle (length guard : BitVec 24)
  /-- R144. PACING with mode ON. -/
  | pacingOn
  /-- R144. PACING with mode OFF. -/
  | pacingOff
  /-- R172 -/
  | setMemlimit (limit : BitVec 16)
  /-- R175 -/
  | readNotices
  /-- R175 -/
  | ackNotices (positions : BitVec 32)
  /-- R176 -/
  | setNoticeEnable (positions : BitVec 32)
  /-- R177 -/
  | identify
  /-- R178; the ADDR pins are sampled (R165). -/
  | partReset (addrPins : BitVec 2)
  /-- R167. A data byte from the host. -/
  | i2cDataByte (b : Byte)
deriving DecidableEq, Repr

end Sys2Proof
end

