-- ==== Sys2Proof/Config.lean ====
section
/-! DEFINITION. What the part fixes once, and the free values: the two orders the spec leaves open. -/

namespace Sys2Proof

/-- The settling interval after part reset, in ticks (R128, R140). -/
def Config.settlingTicks : Nat := 1024

/-- The idle timeout of the management port, in ticks (R140, R168). -/
def Config.idleTicks : Nat := 25000

/-- Units of physical memory, 1 GiB (R2, R159). -/
def Config.memoryUnits : Nat := 262144

/-- Capacity of an inbound queue (R44). -/
def Config.queueCapacity : Nat := 8

/-- Capacity of a lend list (R69). -/
def Config.lendCapacity : Nat := 4

/-- Capacity of the staged edit set (R149). -/
def Config.stagedCapacity : Nat := 32

/-- Scrub bursts in flight at once (R120, R133). -/
def Config.burstCapacity : Nat := 4

/-- FREE VALUE (log 4). Which of two events of one tick is taken first, where the rules allow either order (R170, R174). -/
opaque Config.freeOrder : Nat → Bool

/-- FREE VALUE (log 3). Which of several expiries outstanding at one tick is taken next: R123 gives no order among them. -/
opaque Config.freePick : Nat → Nat

end Sys2Proof
end

