-- ==== Sys2Proof/Machine/State.lean ====
section
/-! DEFINITION. The state of the SLV-8260, block by block (00_scope, Block Overview), and its part-reset values. Plain data.
INVENTORY.md lists every field with its rule. -/

namespace Sys2Proof.Machine

/-! ### Custody unit -/

/-- The seven custody states (R2). -/
inductive BufState
  | void | free | held | inTransit | draining | scrubbing | withheld
deriving DecidableEq, Repr

/-- An entry of a lend list (R69); the deadline is the marks remaining, or absent. -/
structure Lend where
  borrower : Agent
  deadline : Option Nat
deriving DecidableEq, Repr

/-- A buffer record (R2). The fields pool, base, length and written are absent in VOID (R3): they then stand at 0 and no,
no check reads them, and READ_BUFFER reports them as absent (log 14). -/
structure BufRec where
  state : BufState
  pool : PoolId
  base : Nat
  length : Nat
  generation : BitVec 8
  custodian : Option Agent
  target : Option Agent
  sealed : Bool
  written : Bool
  lends : List Lend
  expired : AgentSet
  inFlight : Nat
deriving DecidableEq, Repr

/-- A pool record (R22). `tripped` is the low flag: no is ARMED, yes is TRIPPED. -/
structure PoolRec where
  defined : Bool
  claimSet : AgentSet
  borrowSet : AgentSet
  scrubs : Bool
  lendLimit : Nat
  lowMark : Nat
  tripped : Bool
  freeList : List Handle
  members : Nat
deriving DecidableEq, Repr

/-- The custody unit: buffer table, pool records, inbound queues (R1, R22, R44). -/
structure Custody where
  bufs : Vector BufRec 511
  pools : Vector PoolRec 8
  queues : Vector (List Handle) 16
deriving DecidableEq, Repr

/-- Part reset of a buffer record (R4). -/
def BufRec.reset : BufRec :=
  { state := .void, pool := 0, base := 0, length := 0, generation := 0, custodian := none, target := none
    sealed := false, written := false, lends := [], expired := 0, inFlight := 0 }

/-- Part reset of a pool record (R23). -/
def PoolRec.reset : PoolRec :=
  { defined := false, claimSet := 0, borrowSet := 0, scrubs := false, lendLimit := 0, lowMark := 0, tripped := false
    freeList := [], members := 0 }

/-- Part reset of the custody unit (R4, R23, R45). -/
def Custody.reset : Custody :=
  { bufs := Vector.replicate 511 BufRec.reset, pools := Vector.replicate 8 PoolRec.reset
    queues := Vector.replicate 16 [] }

/-! ### Stage port controller -/

/-- The phase of an outstanding transaction (R87). -/
inductive Phase
  | tagWait
  | inMemory (index : TagIndex) (generation : BitVec 2)
deriving DecidableEq, Repr

/-- The stage port controller: waiting places (R84), outstanding tables keyed by stage tag (R87), arbiter pointer (R90). -/
structure StagePort where
  waiting : Vector (Option Txn) 16
  outstanding : Vector (Vector (Option Phase) 8) 16
  pointer : Agent
deriving DecidableEq, Repr

/-- Part reset of the stage port controller (R98). -/
def StagePort.reset : StagePort :=
  { waiting := Vector.replicate 16 none, outstanding := Vector.replicate 16 (Vector.replicate 8 none), pointer := 15 }

/-! ### Access checker -/

/-- The eight fault kinds (R114). -/
inductive FaultKind
  | tagReuse | shape | undefinedHandle | unavailable | notEntitled | sealedWrite | borrowerWrite | outOfRange
deriving DecidableEq, Repr

/-- A fault record (R114). The handle is the number 0..511 of the stage address. -/
structure FaultRec where
  kind : FaultKind
  handle : BitVec 9
  offset : BitVec 23
  access : AccessKind
  sizeLess1 : BitVec 8
  bufState : Option BufState
  cycleCount : BitVec 32
deriving DecidableEq, Repr

/-- An agent record (R116). -/
structure AgentRec where
  online : Bool
  slot : Option FaultRec
deriving DecidableEq, Repr

/-- The access checker: agent records (R116) and the hold place (R112). -/
structure Checker where
  agents : Vector AgentRec 16
  hold : Option Txn
deriving DecidableEq, Repr

/-- Part reset of the access checker (R98, R116). -/
def Checker.reset : Checker :=
  { agents := Vector.replicate 16 ⟨false, none⟩, hold := none }

/-! ### Memory port -/

/-- Whom the end of a memory request is reported to (R120). -/
inductive Owner
  | access (agent : Agent) (tag : StageTag) (handle : Handle)
  | burst (handle : Handle) (number : Nat)
deriving DecidableEq, Repr

/-- What a busy tag holds besides its generation (R120). -/
structure TagUse where
  owner : Owner
  timeLeft : Nat
deriving DecidableEq, Repr

/-- A memory tag record (R120): busy exactly when `use` is present. -/
structure TagRec where
  generation : BitVec 2
  use : Option TagUse
deriving DecidableEq, Repr

/-- The link state (R127). -/
inductive Link
  | up | down
deriving DecidableEq, Repr

/-- The two requesters at the memory arbiter (R125). -/
inductive Requester
  | checker | scrub
deriving DecidableEq, Repr

/-- The memory port: tag table (R120), link (R127), settling interval as ticks left or run out (R128), preference (R125). -/
structure MemPort where
  tags : Vector TagRec 64
  link : Link
  settling : Option Nat
  preference : Requester
deriving DecidableEq, Repr

/-- Part reset of the memory port (R120, R125, R128). -/
def MemPort.reset : MemPort :=
  { tags := Vector.replicate 64 ⟨0, none⟩, link := .down, settling := some Config.settlingTicks, preference := .checker }

/-! ### Scrub engine -/

/-- The scrub context (R131). The in-flight set lists burst numbers, each with the memory tag it holds. -/
structure ScrubCtx where
  handle : Handle
  base : Nat
  count : Nat
  issue : Nat
  inFlight : List (Nat × TagIndex)
deriving DecidableEq, Repr

/-- The engine's four states; the context is present in every state but IDLE (R131). -/
inductive Engine
  | idle
  | issuing (c : ScrubCtx)
  | paused (c : ScrubCtx)
  | failing (c : ScrubCtx)
deriving DecidableEq, Repr

/-- The scrub engine: queue (R130) and engine (R131). -/
structure ScrubUnit where
  queue : List Handle
  engine : Engine
deriving DecidableEq, Repr

/-- Part reset of the scrub engine (R130, R131). -/
def ScrubUnit.reset : ScrubUnit := { queue := [], engine := .idle }

/-! ### Cycle timer -/

/-- A cycle length with its guard window (R139). -/
structure CycleSet where
  length : Nat
  guard : Nat
deriving DecidableEq, Repr

/-- The cycle timer (R139), its divider count (R140) and the MARK pin (R143). -/
structure Timer where
  divisor : Nat
  divider : Nat
  pacing : Bool
  running : CycleSet
  pendingSet : Option CycleSet
  position : Nat
  cycleCount : BitVec 32
  markPin : Bool
deriving DecidableEq, Repr

/-- Part reset of the cycle timer (R139, R143). -/
def Timer.reset : Timer :=
  { divisor := 25, divider := 0, pacing := false, running := ⟨33333, 1000⟩, pendingSet := none, position := 0
    cycleCount := 0, markPin := false }

/-! ### Edit stage -/

/-- The settings a POOL entry carries (R151). -/
structure PoolSettings where
  claimSet : AgentSet
  borrowSet : AgentSet
  scrubs : Bool
  lendLimit : Nat
  lowMark : Nat
deriving DecidableEq, Repr

/-- A staged edit (R151). -/
inductive Edit
  | define (h : Handle) (p : PoolId) (base length : Nat)
  | move (h : Handle) (base : Nat)
  | resize (h : Handle) (length : Nat)
  | retire (h : Handle)
  | pool (p : PoolId) (settings : PoolSettings)
  | unpool (p : PoolId)
deriving DecidableEq, Repr

/-- Group states (R149). -/
inductive GroupState
  | idle | openForEdits | armed
deriving DecidableEq, Repr

/-- Why a group is rejected (R163). -/
inductive Reason
  | notVoid | notFree | noPool | hasMembers | overlap | outsideMemory
deriving DecidableEq, Repr

/-- A rejection: failing entry, reason, and for OVERLAP the two handles, lower first (R163). -/
structure Rejection where
  index : Nat
  reason : Reason
  pair : Option (Handle × Handle)
deriving DecidableEq, Repr

/-- An outcome record (R163): APPLIED when there is no rejection. -/
structure GroupOutcome where
  rejection : Option Rejection
  cycleCount : Option (BitVec 32)
  entries : Nat
deriving DecidableEq, Repr

/-- The edit stage (R149). -/
structure EditStage where
  group : GroupState
  staged : List Edit
  target : Option (BitVec 32)
  outcome : Option GroupOutcome
deriving DecidableEq, Repr

/-- Part reset of the edit stage (R149). -/
def EditStage.reset : EditStage := { group := .idle, staged := [], target := none, outcome := none }

/-! ### Management port -/

/-- Receiver states (R165). -/
inductive Receiver
  | idle | receiving | discarding | sending
deriving DecidableEq, Repr

/-- The statuses of an answer frame (R171, 11.2). -/
inductive HostStatus
  | none | ok | working | busy | check | short | unknown | range | wrongState | expired | noLend | noGroup | groupArmed
  | groupFull | noPacing
deriving DecidableEq, Repr

/-- The answer frame (R165). -/
structure HostAnswer where
  status : HostStatus
  payload : List Byte
deriving DecidableEq, Repr

/-- What a FIND seeks (R173). -/
inductive FindKey
  | byState (st : BufState)
  | byCustodian (a : Agent)
  | expiredLends
deriving DecidableEq, Repr

/-- A FIND scan under way: key, start handle, next record to examine (R174). -/
structure Scan where
  key : FindKey
  start : Handle
  next : Handle
deriving DecidableEq, Repr

/-- The management port (R165). The command state is WORKING exactly while `scan` is present (R170). `sendRest` holds the
bytes of the answer frame not yet sent in the read under way: the answer as it stood at the address byte (R169). -/
structure Mgmt where
  ownAddress : BitVec 7
  receiver : Receiver
  frame : List Byte
  sendRest : List Byte
  scan : Option Scan
  answer : HostAnswer
  notices : NoticeSet
  enable : NoticeSet
  memLimit : Nat
  idleCount : Nat
deriving DecidableEq, Repr

/-- Part reset of the management port, with the ADDR pins as sampled (R165). -/
def Mgmt.reset (addrPins : BitVec 2) : Mgmt :=
  { ownAddress := 0x38#7 + addrPins.setWidth 7, receiver := .idle, frame := [], sendRest := [], scan := none
    answer := ⟨.none, []⟩, notices := 0, enable := 0, memLimit := 255, idleCount := 0 }

/-! ### What the part has sent (the model's own logs, log 10) -/

/-- Response statuses (R86). -/
inductive RespStatus
  | done | refused | memError | memTimeout | memDown | agentOffline | cancelled
deriving DecidableEq, Repr

/-- A response on an agent's response channel (R85). -/
structure Response where
  agent : Agent
  tag : StageTag
  status : RespStatus
  fault : Option FaultKind
  data : List Byte
deriving DecidableEq, Repr

/-- A request on the memory request channel (R121). -/
structure MemRequest where
  tagByte : Byte
  kind : AccessKind
  address : Nat
  size : Nat
  data : List Byte
deriving DecidableEq, Repr

/-- What the port does on SDA in answer to one byte, or for one byte of a read (R166, R167, R169). -/
inductive BusOut
  | ack (given : Bool)
  | byte (b : Byte)
deriving DecidableEq, Repr

/-- Everything sent so far on the three channels, oldest first. -/
structure Sent where
  responses : List Response
  requests : List MemRequest
  bus : List BusOut
deriving DecidableEq, Repr

/-! ### The machine -/

/-- The state of the part. `resetLow` is yes from assertion of RESET to its release (R181). `freeCount` numbers the free
values drawn (the model's own, log 10). `pending` is the queue of waiting commands, first in, first out. -/
structure State where
  custody : Custody
  stage : StagePort
  checker : Checker
  mem : MemPort
  scrub : ScrubUnit
  timer : Timer
  edit : EditStage
  mgmt : Mgmt
  resetLow : Bool
  sent : Sent
  freeCount : Nat
  pending : List Instr
deriving DecidableEq, Repr

/-- The part right after part reset (R178): every block at its part-reset values. The ADDR pins are taken as low (log 9). -/
def State.reset : State :=
  { custody := Custody.reset, stage := StagePort.reset, checker := Checker.reset, mem := MemPort.reset
    scrub := ScrubUnit.reset, timer := Timer.reset, edit := EditStage.reset, mgmt := Mgmt.reset 0
    resetLow := false, sent := ⟨[], [], []⟩, freeCount := 0, pending := [] }

/-- Faults that stop the machine. The document describes none: every command has a next state in every state, so no
meaning raises one and the type has no constructor (INVENTORY.md, Faults). -/
inductive Fault
deriving DecidableEq, Repr

/-- Reasons a command is refused for want of a meaning. -/
inductive Refusal
  /-- Raised by an arm of `exec` for a command that has no meaning yet; safe. No arm raises it. -/
  | notModelled (mnemonic : String)
deriving DecidableEq, Repr

end Sys2Proof.Machine
end

