-- ==== Sys2Proof/Machine/Flags.lean ====
section
/-! DEFINITION. The notice set and IRQ (R175, R176), the pool's low flag (R33, R34), and the code tables of chapter 11. -/

namespace Sys2Proof.Machine

/-! ### Notices -/

/-- The notices (R165). -/
inductive Notice
  | fault (a : Agent)
  | poolLow (p : PoolId)
  | lendExpired | scrubFailed | groupDone | memoryLate | memoryDown
deriving DecidableEq, Repr

/-- The position of a notice (11.2). -/
def Notice.position : Notice → Nat
  | .fault a => a.val
  | .poolLow p => 16 + p.val
  | .lendExpired => 24
  | .scrubFailed => 25
  | .groupDone => 26
  | .memoryLate => 27
  | .memoryDown => 28

/-- The set that holds one notice. -/
def Notice.bit (n : Notice) : NoticeSet := BitVec.twoPow 29 n.position

/-- The FAULT positions, bits 15..0: ACK_NOTICES leaves them as they stand (R175). -/
def faultPositions : NoticeSet := 0xFFFF#29

/-- Whether a notice is pending. -/
def State.notice (s : State) (n : Notice) : Bool := s.mgmt.notices.getLsbD n.position

/-- Set a notice; one already set stays set (R175). -/
def State.raise (n : Notice) (s : State) : State :=
  { s with mgmt.notices := s.mgmt.notices ||| n.bit }

/-- Clear a notice. -/
def State.lower (n : Notice) (s : State) : State :=
  { s with mgmt.notices := s.mgmt.notices &&& ~~~ n.bit }

/-- R176: IRQ is asserted exactly while a notice is both pending and enabled. -/
def State.irq (s : State) : Bool := s.mgmt.notices &&& s.mgmt.enable != 0

/-! ### Low flag -/

/-- R34: after an event the flag is TRIPPED when the free count is below the low mark, ARMED when it is not. -/
def PoolRec.setLowFlag (p : PoolRec) : PoolRec := { p with tripped := decide (p.freeList.length < p.lowMark) }

/-- R34: a handle that joins re-arms a TRIPPED flag once the free count is at least the low mark. -/
def PoolRec.rearm (p : PoolRec) : PoolRec :=
  { p with tripped := p.tripped && decide (p.freeList.length < p.lowMark) }

/-! ### Codes (11.1, 11.2, 11.3) -/

/-- Buffer state codes (11.1). -/
def BufState.code : BufState → Nat
  | .void => 0 | .free => 1 | .held => 2 | .inTransit => 3 | .draining => 4 | .scrubbing => 5 | .withheld => 6

/-- Fault kind codes (11.1). -/
def FaultKind.code : FaultKind → Nat
  | .tagReuse => 1 | .shape => 2 | .undefinedHandle => 3 | .unavailable => 4 | .notEntitled => 5 | .sealedWrite => 6
  | .borrowerWrite => 7 | .outOfRange => 8

/-- Response status codes (11.1). -/
def RespStatus.code : RespStatus → Nat
  | .done => 0 | .refused => 1 | .memError => 2 | .memTimeout => 3 | .memDown => 4 | .agentOffline => 5 | .cancelled => 6

/-- The fault kind field of a response: 0 unless the status is REFUSED (11.1). -/
def Response.faultCode (r : Response) : Nat :=
  match r.fault with
  | some k => k.code
  | none => 0

/-- Answer frame status codes (11.2). -/
def HostStatus.code : HostStatus → Nat
  | .none => 0 | .ok => 1 | .working => 2 | .busy => 3 | .check => 4 | .short => 5 | .unknown => 6 | .range => 7
  | .wrongState => 8 | .expired => 9 | .noLend => 10 | .noGroup => 11 | .groupArmed => 12 | .groupFull => 13
  | .noPacing => 14

/-- Rejection reason codes (11.3). -/
def Reason.code : Reason → Nat
  | .notVoid => 1 | .notFree => 2 | .noPool => 3 | .hasMembers => 4 | .overlap => 5 | .outsideMemory => 6

/-- Group state codes (11.3). -/
def GroupState.code : GroupState → Nat
  | .idle => 0 | .openForEdits => 1 | .armed => 2

/-- The answer codes of custody requests (R93). -/
inductive Code
  | ok | renewed | empty | full | notAllowed | notHolder | stale | wrongState | lent | isSealed | notSealed | self
  | expired | noLend | noPool | offline | malformed
deriving DecidableEq, Repr

/-- Answer codes as bytes (11.1). -/
def Code.byte : Code → Nat
  | .ok => 0 | .renewed => 1 | .empty => 2 | .full => 3 | .notAllowed => 4 | .notHolder => 5 | .stale => 6
  | .wrongState => 7 | .lent => 8 | .isSealed => 9 | .notSealed => 10 | .self => 11 | .expired => 12 | .noLend => 13
  | .noPool => 14 | .offline => 15 | .malformed => 16

end Sys2Proof.Machine
end

