-- ==== Sys2Proof/Machine/Operands.lean ====
section
/-! DEFINITION. Operand forms: byte order, numbers of handles, agents and pools, the stage address, the memory tag byte,
the custody request word, the argument fields of a frame. -/

namespace Sys2Proof.Machine

/-! ### Byte order (least significant byte first: 00_scope Conventions, 11) -/

/-- The low `n` bytes of a number. -/
def le : Nat → Nat → List Byte
  | 0, _ => []
  | n + 1, k => BitVec.ofNat 8 k :: le n (k / 256)

/-- The whole number that some bytes make (R180). -/
def unle : List Byte → Nat
  | [] => 0
  | b :: bs => b.toNat + 256 * unle bs

/-! ### Numbers -/

/-- The number 1..511 of a handle. -/
def handleNum (h : Handle) : Nat := h.val + 1

/-- The record a number names; none for 0 and above 511 (R21, R92, R180). -/
def handleOf (n : Nat) : Option Handle :=
  if h : 1 ≤ n ∧ n ≤ 511 then some ⟨n - 1, by omega⟩ else none

/-- The agent a number names; none above 15. -/
def agentOf (n : Nat) : Option Agent :=
  if h : n < 16 then some ⟨n, h⟩ else none

/-- The pool a number names; none above 7. -/
def poolOf (n : Nat) : Option PoolId :=
  if h : n < 8 then some ⟨n, h⟩ else none

/-- Membership in a set of agents (11: bit n stands for member n). -/
def memAgent (a : Agent) (set : AgentSet) : Bool := set.getLsbD a.val

/-- A set with an agent added. -/
def addAgent (a : Agent) (set : AgentSet) : AgentSet := set ||| BitVec.twoPow 16 a.val

/-- A set without an agent. -/
def dropAgent (a : Agent) (set : AgentSet) : AgentSet := set &&& ~~~ BitVec.twoPow 16 a.val

end Sys2Proof.Machine

namespace Sys2Proof

/-! ### Stage address (R101) -/

/-- Bits 31..23: the handle field. -/
def Txn.handleField (t : Txn) : BitVec 9 := t.address.extractLsb' 23 9

/-- Bits 22..0: the offset. -/
def Txn.offsetField (t : Txn) : BitVec 23 := t.address.extractLsb' 0 23

/-- The buffer record a transaction names; none for the request aperture, handle 0. -/
def Txn.handle (t : Txn) : Option Handle := Machine.handleOf t.handleField.toNat

/-- The byte offset as a number. -/
def Txn.offset (t : Txn) : Nat := t.offsetField.toNat

end Sys2Proof

namespace Sys2Proof.Machine

/-! ### Memory tag byte (11.1: index in bits 5..0, generation in bits 7..6) -/

/-- The tag byte sent with a request. -/
def tagByteOf (i : TagIndex) (g : BitVec 2) : Byte := g ++ BitVec.ofNat 6 i.val

/-- The index a tag byte names. -/
def tagByteIndex (b : Byte) : TagIndex := (b.extractLsb' 0 6).toFin

/-- The generation a tag byte carries. -/
def tagByteGeneration (b : Byte) : BitVec 2 := b.extractLsb' 6 2

/-! ### Custody request word (R92, R179) -/

/-- A well-formed custody request. -/
inductive Request
  | claim (p : PoolId)
  | release (h : Handle) (g : BitVec 8)
  | pass (h : Handle) (g : BitVec 8) (target : Agent)
  | accept
  | recall (h : Handle) (g : BitVec 8)
  | seal (h : Handle) (g : BitVec 8)
  | unseal (h : Handle) (g : BitVec 8)
  | lend (h : Handle) (g : BitVec 8) (borrower : Agent)
  | giveBack (h : Handle) (g : BitVec 8)
deriving DecidableEq, Repr

/-- R92, R179: the request a word spells, or none where it is malformed. All eight bytes are read before any record. -/
def decodeRequest (w : List Byte) : Option Request :=
  let generation := w.getD 1 0
  let number := unle [w.getD 2 0, w.getD 3 0]
  let argument := (w.getD 4 0).toNat
  let handle := handleOf number
  let unused := (generation, number, argument)
  if unle [w.getD 5 0, w.getD 6 0, w.getD 7 0] ≠ 0 then none
  else
    match (w.getD 0 0).toNat with
    | 1 => if generation = 0 ∧ number = 0 then (poolOf argument).map .claim else none
    | 2 => if argument = 0 then handle.map fun h => .release h generation else none
    | 3 => handle.bind fun h => (agentOf argument).map fun a => .pass h generation a
    | 4 => if unused = (0, 0, 0) then some .accept else none
    | 5 => if argument = 0 then handle.map fun h => .recall h generation else none
    | 6 => if argument = 0 then handle.map fun h => .seal h generation else none
    | 7 => if argument = 0 then handle.map fun h => .unseal h generation else none
    | 8 => handle.bind fun h => (agentOf argument).map fun a => .lend h generation a
    | 9 => if argument = 0 then handle.map fun h => .giveBack h generation else none
    | _ => none

/-! ### Argument fields of a frame (R180) -/

/-- The number that `n` argument bytes starting at byte `k` make. -/
def argument (k n : Nat) (args : List Byte) : Nat := unle ((args.drop k).take n)

/-- The buffer state that a state code names (11.1). -/
def bufStateOf (n : Nat) : Option BufState :=
  match n with
  | 0 => some .void
  | 1 => some .free
  | 2 => some .held
  | 3 => some .inTransit
  | 4 => some .draining
  | 5 => some .scrubbing
  | 6 => some .withheld
  | _ => none

/-- R173: what a FIND's kind and value name; none where it is answered RANGE. -/
def findKeyOf (kind value : Nat) : Option FindKey :=
  match kind with
  | 0 => (bufStateOf value).map .byState
  | 1 => (agentOf value).map .byCustodian
  | 2 => if value = 0 then some .expiredLends else none
  | _ => none

end Sys2Proof.Machine
end

