-- ==== Sys2Proof/Machine/Ops.lean ====
section
/-! DEFINITION. The shared operations: tables, the transitions of a buffer record, the access checks and forwarding, the
memory arbiter, the scrub engine's moves, part reset. -/

namespace Sys2Proof

/-- R104: the access lies within one 256-byte block, and for handle 0 it has size 8 at offset 0. -/
def Txn.shapeOk (t : Txn) : Bool :=
  decide (t.offset % 256 + t.size ≤ 256) && (t.handle.isSome || (t.size == 8 && t.offset == 0))

end Sys2Proof

namespace Sys2Proof.Machine

/-! ### Tables -/

/-- Read a table. -/
def nth {α : Type} {n : Nat} (v : Vector α n) (i : Fin n) : α := v[i.val]

/-- Write one place of a table. -/
def put {α : Type} {n : Nat} (v : Vector α n) (i : Fin n) (a : α) : Vector α n := v.set i.val a

/-- Change every place of a table. -/
def mapAll {α β : Type} {n : Nat} (v : Vector α n) (f : α → β) : Vector β n := ⟨(v.toList.map f).toArray, by simp⟩

namespace State

/-- The buffer record of a handle. -/
def buf (s : State) (h : Handle) : BufRec := nth s.custody.bufs h

/-- Write a buffer record. -/
def setBuf (s : State) (h : Handle) (r : BufRec) : State := { s with custody.bufs := put s.custody.bufs h r }

/-- The record of a pool. -/
def pool (s : State) (p : PoolId) : PoolRec := nth s.custody.pools p

/-- Write a pool record. -/
def setPool (s : State) (p : PoolId) (r : PoolRec) : State := { s with custody.pools := put s.custody.pools p r }

/-- The inbound queue of an agent (R44). -/
def queue (s : State) (a : Agent) : List Handle := nth s.custody.queues a

/-- Write an inbound queue. -/
def setQueue (s : State) (a : Agent) (q : List Handle) : State := { s with custody.queues := put s.custody.queues a q }

/-- The waiting place of an agent (R84). -/
def waiting (s : State) (a : Agent) : Option Txn := nth s.stage.waiting a

/-- Write a waiting place. -/
def setWaiting (s : State) (a : Agent) (t : Option Txn) : State := { s with stage.waiting := put s.stage.waiting a t }

/-- The outstanding-table entry of a stage tag (R87). -/
def entry (s : State) (a : Agent) (g : StageTag) : Option Phase := nth (nth s.stage.outstanding a) g

/-- Write an outstanding-table entry. -/
def setEntry (s : State) (a : Agent) (g : StageTag) (e : Option Phase) : State :=
  { s with stage.outstanding := put s.stage.outstanding a (put (nth s.stage.outstanding a) g e) }

/-- The record of an agent (R116). -/
def agent (s : State) (a : Agent) : AgentRec := nth s.checker.agents a

/-- Write an agent record. -/
def setAgentRec (s : State) (a : Agent) (r : AgentRec) : State := { s with checker.agents := put s.checker.agents a r }

/-- The record of a memory tag (R120). -/
def tag (s : State) (i : TagIndex) : TagRec := nth s.mem.tags i

/-- Write a memory tag record. -/
def setTag (s : State) (i : TagIndex) (r : TagRec) : State := { s with mem.tags := put s.mem.tags i r }

/-- Whether an agent is ONLINE (R116). -/
def online (s : State) (a : Agent) : Bool := (s.agent a).online

/-! ### What the part sends -/

/-- Deliver a response on an agent's response channel (R85). -/
def respond (s : State) (r : Response) : State := { s with sent.responses := s.sent.responses ++ [r] }

/-- Answer a transaction. -/
def answerTxn (s : State) (t : Txn) (status : RespStatus) (data : List Byte := []) : State :=
  s.respond ⟨t.agent, t.tag, status, none, data⟩

/-- Send a request to the memory controller (R121). -/
def sendRequest (s : State) (q : MemRequest) : State := { s with sent.requests := s.sent.requests ++ [q] }

/-- Drive SDA for one byte (R166, R167, R169). -/
def sendBus (s : State) (o : BusOut) : State := { s with sent.bus := s.sent.bus ++ [o] }

/-- Replace the answer frame (R169). -/
def setAnswer (s : State) (status : HostStatus) (payload : List Byte := []) : State :=
  { s with mgmt.answer := ⟨status, payload⟩ }

/-! ### Transitions of a buffer record -/

/-- R18: the buffer becomes FREE. Its generation steps, its handle joins the tail of its pool's free list, the low flag
re-arms. The fields take the FREE values of R3. -/
def becomeFree (s : State) (h : Handle) : State :=
  let r := s.buf h
  let p := s.pool r.pool
  (s.setBuf h { r with
      state := .free, generation := r.generation + 1, custodian := none, target := none, sealed := false
      written := false, lends := [], expired := 0, inFlight := 0 }).setPool
    r.pool { p with freeList := p.freeList ++ [h] }.rearm

/-- R14: the buffer enters SCRUBBING, with the fields of R3, and its handle joins the tail of the scrub queue. -/
def enterScrubbing (s : State) (h : Handle) : State :=
  let s1 := s.setBuf h { s.buf h with
    state := .scrubbing, custodian := none, target := none, sealed := false, lends := [], expired := 0, inFlight := 0 }
  { s1 with scrub.queue := s1.scrub.queue ++ [h] }

/-- The last three rows of R13: SCRUBBING where the pool scrubs on release and the buffer is written, else FREE. -/
def settleRelease (s : State) (h : Handle) : State :=
  if (s.pool (s.buf h).pool).scrubs && (s.buf h).written then s.enterScrubbing h else s.becomeFree h

/-- R13: the release path. Lends have been refused or dropped before it. -/
def releasePath (s : State) (h : Handle) : State :=
  let s1 := s.setBuf h { s.buf h with custodian := none, target := none, sealed := false, lends := [] }
  if 0 < (s.buf h).inFlight then s1.setBuf h { s1.buf h with state := .draining } else s1.settleRelease h

/-- Take a handle out of an inbound queue, from whatever position; the others keep their order (R46). -/
def leaveQueue (s : State) (a : Agent) (h : Handle) : State := s.setQueue a ((s.queue a).filter (· ≠ h))

/-- R38, R42: an IN_TRANSIT buffer leaves its target's inbound queue, lends are dropped, and the release path follows. -/
def forceOut (s : State) (h : Handle) : State :=
  match (s.buf h).state, (s.buf h).target with
  | .inTransit, some t => (s.leaveQueue t h).releasePath h
  | _, _ => s.releasePath h

/-- R16: a DRAINING buffer whose in-flight count is 0 completes its drain. -/
def completeDrain (s : State) (h : Handle) : State :=
  if (s.buf h).state = .draining ∧ (s.buf h).inFlight = 0 then s.settleRelease h else s

/-- R11: a forwarded access to the buffer ends. The decrement that brings a DRAINING buffer's count to 0 completes its
drain in the same event (R16). -/
def endInFlight (s : State) (h : Handle) : State :=
  (s.setBuf h { s.buf h with inFlight := (s.buf h).inFlight - 1 }).completeDrain h

/-- R19, R135: a failed scrub makes the buffer WITHHELD, with the fields of R3, and sets SCRUB_FAILED. -/
def withhold (s : State) (h : Handle) : State :=
  (s.setBuf h { s.buf h with
    state := .withheld, custodian := none, target := none, sealed := false, lends := [], expired := 0
    inFlight := 0 }).raise .scrubFailed

/-! ### Refusals and the fault slot -/

/-- R115: a refusal fills an empty fault slot and sets the agent's FAULT bit; an occupied slot keeps its record. -/
def fillSlot (s : State) (a : Agent) (f : FaultRec) : State :=
  match (s.agent a).slot with
  | none => (s.setAgentRec a { s.agent a with slot := some f }).raise (.fault a)
  | some _ => s

/-- R116, R118: the fault slot is emptied and the FAULT bit cleared. -/
def emptySlot (s : State) (a : Agent) : State :=
  (s.setAgentRec a { s.agent a with slot := none }).lower (.fault a)

/-- R102, R114: a transaction is answered REFUSED, and the refusal recorded. -/
def refuse (s : State) (t : Txn) (k : FaultKind) (st : Option BufState) : State :=
  (s.respond ⟨t.agent, t.tag, .refused, some k, []⟩).fillSlot t.agent
    { kind := k, handle := t.handleField, offset := t.offsetField, access := t.kind, sizeLess1 := t.sizeLess1
      bufState := st, cycleCount := s.timer.cycleCount }

end State

/-! ### Access checks -/

/-- Whether an agent is a listed borrower (R69). -/
def BufRec.lists (r : BufRec) (a : Agent) : Bool := r.lends.any fun l => decide (l.borrower = a)

/-- R109: the range check, made last. -/
def rangeCheck (r : BufRec) (t : Txn) : Option FaultKind :=
  if t.offset + t.size ≤ r.length * 4096 then none else some .outOfRange

/-- Checks 5 to 8 of R102 against one buffer record (R106 to R109): the fault kind of the first that fails. -/
def bufferCheck (r : BufRec) (t : Txn) : Option FaultKind :=
  match r.state with
  | .void => some .undefinedHandle
  | .free => some .notEntitled
  | .held =>
    if r.custodian = some t.agent then
      if t.kind = .write ∧ r.sealed = true then some .sealedWrite else rangeCheck r t
    else if r.lists t.agent then
      if t.kind = .write then some .borrowerWrite else rangeCheck r t
    else some .notEntitled
  | .inTransit => some .unavailable
  | .draining => some .unavailable
  | .scrubbing => some .unavailable
  | .withheld => some .unavailable

/-- Free memory tags, lowest index first. -/
def freeTags (m : MemPort) : List TagIndex := (List.finRange 64).filter fun i => (nth m.tags i).use.isNone

/-- R125, R126, R128: the arbiter grants only with the link UP and the settling interval run. -/
def MemPort.grants (m : MemPort) : Bool := decide (m.link = .up) && m.settling.isNone

/-- R133: the engine has a standing request while it is ISSUING, has bursts left and fewer than 4 in flight. -/
def Engine.wants : Engine → Bool
  | .issuing c => decide (c.issue < c.count) && decide (c.inFlight.length < Config.burstCapacity)
  | .idle => false
  | .paused _ => false
  | .failing _ => false

namespace State

/-- R111: forward an access under a memory tag: the tag becomes busy with the response limit as it stands (R121), the
in-flight count rises, a WRITE sets the written mark, the entry is IN_MEMORY, the request is sent. -/
def forward (s : State) (t : Txn) (h : Handle) (i : TagIndex) : State :=
  let r := s.buf h
  let g := (s.tag i).generation
  let s1 := s.setTag i ⟨g, some ⟨.access t.agent t.tag h, s.mgmt.memLimit⟩⟩
  let s2 := s1.setBuf h { r with inFlight := r.inFlight + 1, written := r.written || decide (t.kind = .write) }
  let s3 := s2.setEntry t.agent t.tag (some (.inMemory i g))
  s3.sendRequest
    { tagByte := tagByteOf i g, kind := t.kind, address := r.base * 4096 + t.offset, size := t.size
      data := if t.kind = .write then t.data else [] }

/-! ### Scrub engine -/

/-- R132: an IDLE engine with the link UP takes the head of the scrub queue. -/
def takeHead (s : State) : State :=
  match s.scrub.engine, s.mem.link, s.scrub.queue with
  | .idle, .up, h :: rest =>
    { s with scrub := ⟨rest, .issuing
      { handle := h, base := (s.buf h).base, count := (s.buf h).length * 16, issue := 0, inFlight := [] }⟩ }
  | _, _, _ => s

/-- R121, R133: issue the burst at the issue point under a memory tag. The grant turns the preference to the checker. -/
def issueBurst (s : State) (i : TagIndex) : State :=
  match s.scrub.engine with
  | .issuing c =>
    let g := (s.tag i).generation
    let s1 := s.setTag i ⟨g, some ⟨.burst c.handle c.issue, s.mgmt.memLimit⟩⟩
    let s2 := { s1 with
      scrub.engine := .issuing { c with issue := c.issue + 1, inFlight := c.inFlight ++ [(c.issue, i)] }
      mem.preference := .checker }
    s2.sendRequest
      { tagByte := tagByteOf i g, kind := .write, address := c.base * 4096 + c.issue * 256, size := 256
        data := List.replicate 256 0 }
  | .idle => s
  | .paused _ => s
  | .failing _ => s

/-- R134: with every burst issued and none in flight, an ISSUING engine reports completion and the buffer becomes FREE. -/
def finishScrub (s : State) : State :=
  match s.scrub.engine with
  | .issuing c =>
    if c.issue = c.count ∧ c.inFlight = [] then { s with scrub.engine := .idle }.becomeFree c.handle else s
  | .idle => s
  | .paused _ => s
  | .failing _ => s

/-- R135: with no burst in flight, a FAILING engine reports failure and the buffer becomes WITHHELD. -/
def failScrub (s : State) : State :=
  match s.scrub.engine with
  | .failing c => if c.inFlight = [] then { s with scrub.engine := .idle }.withhold c.handle else s
  | .idle => s
  | .issuing _ => s
  | .paused _ => s

/-- R134, R135: the engine takes a burst result. The burst leaves the in-flight set before its tag is offered to the arbiter, so
that below 4 in flight the engine's request stands again (R133) when the arbiter looks: log 33. -/
def burstEnd (s : State) (number : Nat) (good : Bool) : State :=
  match s.scrub.engine with
  | .issuing c =>
    let c1 := { c with inFlight := c.inFlight.filter fun b => b.1 ≠ number }
    if good then { s with scrub.engine := .issuing c1 }.finishScrub
    else { s with scrub.engine := .failing c1 }.failScrub
  | .failing c => { s with scrub.engine := .failing { c with inFlight := c.inFlight.filter fun b => b.1 ≠ number } }.failScrub
  | .idle => s
  | .paused _ => s

/-! ### The held access and the memory arbiter -/

/-- Checks 5 to 8 against the record a transaction names, as it stands (R102, R113). -/
def accessCheck (s : State) (t : Txn) (h : Handle) : Option FaultKind := bufferCheck (s.buf h) t

/-- The held access leaves the hold place. -/
def dropHold (s : State) : State := { s with checker.hold := none }

/-- R113: the held access is taken again with a granted tag: forwarded with it, or refused and the tag left free. Either
way the grant is the checker's turn, and the preference is SCRUB (R125, R126). -/
def recheckGranted (s : State) (i : TagIndex) : State :=
  match s.checker.hold with
  | none => s
  | some t =>
    let s1 := { s.dropHold with mem.preference := .scrub }
    match t.handle with
    | none => s1
    | some h =>
      match s.accessCheck t h with
      | some k => (s1.setEntry t.agent t.tag none).refuse t k (some (s.buf h).state)
      | none => s1.forward t h i

/-- R113, R127: the hold ends by link DOWN: the held access is re-checked and answered MEM_DOWN, or refused. -/
def recheckDown (s : State) : State :=
  match s.checker.hold with
  | none => s
  | some t =>
    let s1 := s.dropHold.setEntry t.agent t.tag none
    match t.handle with
    | none => s1
    | some h =>
      match s.accessCheck t h with
      | some k => s1.refuse t k (some (s.buf h).state)
      | none => s1.answerTxn t .memDown

/-- R125: who is granted which tag next, if any: the lowest-index free tag, to the one requester whose request stands, or
to the one the preference names where both stand. -/
def nextGrant (s : State) : Option (Requester × TagIndex) :=
  if s.mem.grants then
    match freeTags s.mem, s.checker.hold.isSome, s.scrub.engine.wants with
    | [], _, _ => none
    | _ :: _, false, false => none
    | i :: _, true, false => some (.checker, i)
    | i :: _, false, true => some (.scrub, i)
    | i :: _, true, true => some (s.mem.preference, i)
  else none

/-- One grant of the arbiter (R125). -/
def grantOnce (s : State) : State :=
  match s.nextGrant with
  | none => s
  | some (.checker, i) => s.recheckGranted i
  | some (.scrub, i) => s.issueBurst i

/-- R125: the arbiter grants until no request stands or no tag is free. At most five grants can follow one event: four
bursts and the one held access. -/
def arbitrate (s : State) : State := s.grantOnce.grantOnce.grantOnce.grantOnce.grantOnce

/-- What follows at once from an event that freed a tag, filled the scrub queue, ended a scrub or opened the arbiter: the engine
takes a head (R132) and the arbiter grants (R125). The engine takes its head before a freed tag is offered, so that its first
request competes with a held access for that tag: the model's choice, the rules giving no order (log 29). Where a burst's end
freed the tag, the engine's request stands already when the arbiter looks, as `burstEnd` says (log 33). A drain or scrub that
ended in the event is completed before `kick`, so the re-check of a held access sees the record after it (log 35). -/
def kick (s : State) : State := s.takeHead.arbitrate

/-! ### The end of a memory request -/

/-- R88: the stage port controller takes the report of an access's end: delivered where the entry stands, else discarded. -/
def report (s : State) (a : Agent) (g : StageTag) (i : TagIndex) (gen : BitVec 2) (status : RespStatus)
    (data : List Byte) : State :=
  if s.entry a g = some (.inMemory i gen) then (s.respond ⟨a, g, status, none, data⟩).setEntry a g none else s

/-- R116, R178: part reset, with the ADDR pins as sampled: every block at its part-reset values. -/
def partReset (s : State) (addrPins : BitVec 2) : State :=
  { s with
    custody := Custody.reset, stage := StagePort.reset, checker := Checker.reset, mem := MemPort.reset
    scrub := ScrubUnit.reset, timer := Timer.reset, edit := EditStage.reset, mgmt := Mgmt.reset addrPins
    resetLow := false }

end State

/-! ### The idle timeout (R168) -/

/-- Whether the idle count has reached its end in a transaction (R168). -/
def Mgmt.idleDue (m : Mgmt) : Bool := decide (m.receiver ≠ .idle) && decide (Config.idleTicks ≤ m.idleCount)

namespace State

/-- R168, R170: the port releases SDA and enters IDLE; a non-empty frame buffer is discarded, with SHORT, or BUSY while a
scan is under way, in the answer frame. -/
def idleTimeout (s : State) : State :=
  let s1 := { s with mgmt.receiver := .idle, mgmt.frame := [], mgmt.sendRest := [], mgmt.idleCount := 0 }
  if s.mgmt.frame = [] then s1
  else
    match s.mgmt.scan with
    | some _ => s1.setAnswer .busy
    | none => s1.setAnswer .short

/-- An idle timeout that is due is taken. -/
def settleIdle (s : State) : State := if s.mgmt.idleDue then s.idleTimeout else s

/-! ### Management commands -/

/-- R170, R181: a management command is run while the command state is READY; while it is WORKING the answer becomes BUSY;
while RESET is low no frame is received. An idle timeout that is still outstanding comes first, as before every row of the bus
(R168, log 2): the transaction that it ends was over before this frame. -/
def runCommand (s : State) (command : State → State) : State :=
  if s.resetLow then s
  else
    let s1 := s.settleIdle
    match s1.mgmt.scan with
    | some _ => s1.setAnswer .busy
    | none => command s1

end State

end Sys2Proof.Machine
end

