-- ==== Sys2Proof/Machine/Formats.lean ====
section
/-! DEFINITION. The byte layouts that the part sends: answer word, status word, answer frame, record images (11.1, 11.3). -/

namespace Sys2Proof.Machine

/-- A byte of single bits, bit 0 first. -/
def flagByte (bits : List Bool) : Nat := bits.foldr (fun b n => b.toNat + 2 * n) 0

/-! ### Stage port -/

/-- The fields of an answer word (R94). Those not filled are zero. -/
structure Answer where
  code : Code
  handle : Nat := 0
  generation : BitVec 8 := 0
  length : Nat := 0
  isSealed : Bool := false
  written : Bool := false
  fromAgent : Option Agent := none
deriving DecidableEq, Repr

/-- The eight bytes of an answer word (11.1). -/
def Answer.word (w : Answer) : List Byte :=
  le 1 w.code.byte ++ [w.generation] ++ le 2 w.handle ++ le 2 w.length
    ++ le 1 (flagByte [w.isSealed, w.written, w.fromAgent.isSome])
    ++ le 1 (match w.fromAgent with | some a => a.val | none => 0)

/-- The number of outstanding-table entries of an agent (R95). -/
def State.outstandingCount (s : State) (a : Agent) : Nat :=
  ((List.finRange 8).filter fun g => (s.entry a g).isSome).length

/-- The agent status word (R95, 11.1). -/
def State.statusWord (s : State) (a : Agent) : List Byte :=
  le 1 (flagByte [s.online a, (s.agent a).slot.isSome]) ++ le 1 (s.queue a).length ++ le 1 (s.outstandingCount a)
    ++ le 5 0

/-! ### Answer frame -/

/-- The byte that makes the 8-bit sum of a frame 0 (11.2). -/
def checkByte (bytes : List Byte) : Byte := 0 - bytes.foldl (· + ·) 0

/-- The bytes of an answer frame: status, payload length, payload, check byte (R169). -/
def HostAnswer.frame (a : HostAnswer) : List Byte :=
  let body := le 1 a.status.code ++ le 1 a.payload.length ++ a.payload
  body ++ [checkByte body]

/-! ### Record images (11.3) -/

/-- A present number, or 0. -/
def orZero (n : Option Nat) : Nat := n.getD 0

/-- One place of the lend list of a buffer image: borrower and deadline, or zeros. -/
def lendImage (l : Option Lend) : List Byte :=
  match l with
  | some l => le 1 l.borrower.val ++ le 1 (orZero l.deadline)
  | none => [0, 0]

/-- READ_BUFFER, 23 bytes. A field absent by R3 is 0 with its presence bit clear. -/
def BufRec.image (r : BufRec) : List Byte :=
  le 1 r.state.code
    ++ le 1 (flagByte [r.sealed, r.written, decide (r.state ≠ .void), r.custodian.isSome, r.target.isSome])
    ++ le 1 r.pool.val ++ [r.generation] ++ le 3 r.base ++ le 2 r.length
    ++ le 1 (orZero (r.custodian.map Fin.val)) ++ le 1 (orZero (r.target.map Fin.val)) ++ le 1 r.inFlight
    ++ le 2 r.expired.toNat ++ le 1 r.lends.length
    ++ lendImage r.lends[0]? ++ lendImage r.lends[1]? ++ lendImage r.lends[2]? ++ lendImage r.lends[3]?

/-- Numbers packed in fields of nine bits, the first lowest (READ_POOL, bytes 12..20). -/
def packNine : List Nat → Nat
  | [] => 0
  | n :: ns => n + 512 * packNine ns

/-- READ_POOL, 21 bytes. -/
def PoolRec.image (p : PoolRec) : List Byte :=
  le 1 (flagByte [p.defined, p.scrubs, p.tripped]) ++ le 2 p.claimSet.toNat ++ le 2 p.borrowSet.toNat
    ++ le 1 p.lendLimit ++ le 2 p.lowMark ++ le 2 p.members ++ le 2 p.freeList.length
    ++ le 9 (packNine ((p.freeList.take 8).map handleNum))

/-- READ_FAULT, 13 bytes; 1 byte when the slot is empty. -/
def AgentRec.image (a : AgentRec) : List Byte :=
  match a.slot with
  | none => le 1 (flagByte [a.online, false, false])
  | some f =>
    le 1 (flagByte [a.online, true, decide (f.access = .write)]) ++ le 1 f.kind.code ++ le 2 f.handle.toNat
      ++ le 3 f.offset.toNat ++ [f.sizeLess1]
      ++ le 1 (match f.bufState with | some st => st.code | none => 0xFF) ++ le 4 f.cycleCount.toNat

/-- Whether an outcome is a rejection. -/
def GroupOutcome.rejected (o : GroupOutcome) : Bool := o.rejection.isSome

/-- Bytes 6..17 of the group image: the outcome record, with the presence bit of the target (READ_GROUP). -/
def outcomeImage (target : Option (BitVec 32)) (o : Option GroupOutcome) : List Byte :=
  let rejection := o.bind GroupOutcome.rejection
  let count := o.bind GroupOutcome.cycleCount
  let pair := rejection.bind Rejection.pair
  le 1 (flagByte [target.isSome, o.isSome, rejection.isSome, count.isSome])
    ++ le 4 (orZero (count.map BitVec.toNat)) ++ le 1 (orZero (o.map GroupOutcome.entries))
    ++ le 1 (orZero (rejection.map Rejection.index)) ++ le 1 (orZero (rejection.map fun r => r.reason.code))
    ++ le 2 (orZero (pair.map fun p => handleNum p.1)) ++ le 2 (orZero (pair.map fun p => handleNum p.2))

/-- READ_GROUP, 18 bytes. -/
def EditStage.image (e : EditStage) : List Byte :=
  le 1 e.group.code ++ le 1 e.staged.length ++ le 4 (orZero (e.target.map BitVec.toNat))
    ++ outcomeImage e.target e.outcome

/-- READ_CYCLE, 21 bytes. -/
def Timer.image (t : Timer) : List Byte :=
  le 1 (flagByte [t.pacing, t.pendingSet.isSome]) ++ le 1 t.divisor ++ le 3 t.running.length ++ le 3 t.running.guard
    ++ le 3 (orZero (t.pendingSet.map CycleSet.length)) ++ le 3 (orZero (t.pendingSet.map CycleSet.guard))
    ++ le 3 t.position ++ le 4 t.cycleCount.toNat

/-- READ_QUEUE, 17 bytes: depth, then eight places head first, unused places 0. -/
def queueImage (q : List Handle) : List Byte :=
  le 1 q.length ++ (List.range 8).flatMap fun i => le 2 (orZero ((q[i]?).map handleNum))

/-- FIND, 5 bytes: the record found, as examined (R174). -/
def foundImage (h : Handle) (r : BufRec) : List Byte :=
  le 2 (handleNum h) ++ le 1 r.state.code ++ [r.generation]
    ++ le 1 (match r.custodian with | some a => a.val | none => 0xFF)

/-- READ_NOTICES, 8 bytes: notice set, enable mask. -/
def noticeImage (n : NoticeSet) : List Byte := le 4 n.toNat

end Sys2Proof.Machine
end

