-- ==== Sys2Proof/Machine/Custody.lean ====
section
/-! DEFINITION. Custody requests: the check order of each kind and its effect (R30, R31, R36, R51 to R59, R66, R67, R72, R74). -/

namespace Sys2Proof.Machine

/-! ### Checks: the first that fails gives the answer (R93) -/

/-- R93, checks 2 to 4: VOID, generation, role. -/
def holderCheck (r : BufRec) (a : Agent) (g : BitVec 8) : Option Code :=
  if r.state = .void then some .wrongState
  else if r.generation ≠ g then some .stale
  else if r.custodian ≠ some a then some .notHolder
  else none

/-- R93, checks 2 to 5 for a kind that requires the buffer in one state. -/
def stateCheck (r : BufRec) (a : Agent) (g : BitVec 8) (required : BufState) : Option Code :=
  match holderCheck r a g with
  | some c => some c
  | none => if r.state ≠ required then some .wrongState else none

/-- R30. -/
def State.claimCheck (s : State) (a : Agent) (p : PoolId) : Option Code :=
  let r := s.pool p
  if r.defined = false then some .noPool
  else if memAgent a r.claimSet = false then some .notAllowed
  else if r.freeList = [] then some .empty
  else none

/-- R36. -/
def State.releaseCheck (s : State) (a : Agent) (h : Handle) (g : BitVec 8) : Option Code :=
  match stateCheck (s.buf h) a g .held with
  | some c => some c
  | none => if (s.buf h).lends ≠ [] then some .lent else none

/-- R51. -/
def State.passCheck (s : State) (a : Agent) (h : Handle) (g : BitVec 8) (target : Agent) : Option Code :=
  match stateCheck (s.buf h) a g .held with
  | some c => some c
  | none =>
    if target = a then some .self
    else if s.online target = false then some .offline
    else if memAgent target (s.pool (s.buf h).pool).claimSet = false then some .notAllowed
    else if (s.buf h).lends ≠ [] then some .lent
    else if Config.queueCapacity ≤ (s.queue target).length then some .full
    else none

/-- R58. -/
def State.recallCheck (s : State) (a : Agent) (h : Handle) (g : BitVec 8) : Option Code :=
  stateCheck (s.buf h) a g .inTransit

/-- R66. -/
def State.sealCheck (s : State) (a : Agent) (h : Handle) (g : BitVec 8) : Option Code :=
  match stateCheck (s.buf h) a g .held with
  | some c => some c
  | none => if (s.buf h).sealed then some .isSealed else none

/-- R67. -/
def State.unsealCheck (s : State) (a : Agent) (h : Handle) (g : BitVec 8) : Option Code :=
  match stateCheck (s.buf h) a g .held with
  | some c => some c
  | none =>
    if (s.buf h).sealed = false then some .notSealed
    else if (s.buf h).lends ≠ [] then some .lent
    else none

/-- R72, orders 1 to 10. -/
def State.lendCheck (s : State) (a : Agent) (h : Handle) (g : BitVec 8) (borrower : Agent) : Option Code :=
  match stateCheck (s.buf h) a g .held with
  | some c => some c
  | none =>
    if (s.buf h).sealed = false then some .notSealed
    else if borrower = a then some .self
    else if s.online borrower = false then some .offline
    else if memAgent borrower (s.pool (s.buf h).pool).borrowSet = false then some .notAllowed
    else if Config.lendCapacity ≤ (s.buf h).lends.length ∧ (s.buf h).lists borrower = false then some .full
    else none

/-- R74, orders 2 and 3. -/
def State.returnCheck (s : State) (h : Handle) (g : BitVec 8) : Option Code :=
  if (s.buf h).state = .void then some .wrongState
  else if (s.buf h).generation ≠ g then some .stale
  else none

/-! ### Effects -/

/-- R31, R33: the head of the pool's free list becomes HELD by the requester; a CLAIM that takes the free count below the
low mark with the flag ARMED trips it and sets POOL_LOW. -/
def State.claimHead (s : State) (a : Agent) (p : PoolId) (h : Handle) (rest : List Handle) : State :=
  let r := s.pool p
  let low := decide (rest.length < r.lowMark)
  let s1 := s.setBuf h { s.buf h with
    state := .held, custodian := some a, target := none, sealed := false, written := false, lends := [], expired := 0
    inFlight := 0 }
  let s2 := s1.setPool p { r with freeList := rest, tripped := r.tripped || low }
  if low && !r.tripped then s2.raise (.poolLow p) else s2

/-- R52. -/
def State.passTo (s : State) (h : Handle) (target : Agent) : State :=
  (s.setBuf h { s.buf h with state := .inTransit, target := some target }).setQueue target (s.queue target ++ [h])

/-- R56. -/
def State.acceptHead (s : State) (a : Agent) (h : Handle) (rest : List Handle) : State :=
  (s.setBuf h { s.buf h with state := .held, custodian := some a, target := none }).setQueue a rest

/-- R59, R62: an IN_TRANSIT buffer leaves its target's queue and is HELD again by its custodian. -/
def State.bringBack (s : State) (h : Handle) : State :=
  let s1 :=
    match (s.buf h).target with
    | some t => s.leaveQueue t h
    | none => s
  s1.setBuf h { s.buf h with state := .held, target := none }

/-- R70: the deadline of a lend made or renewed now. -/
def PoolRec.deadline (p : PoolRec) : Option Nat := if p.lendLimit = 0 then none else some p.lendLimit

/-- R72: a listed borrower's entry gets a new deadline at its place; a new entry joins the tail, and the borrower leaves
the expired-borrower set. -/
def BufRec.lendTo (r : BufRec) (b : Agent) (deadline : Option Nat) : BufRec :=
  if r.lists b then
    { r with lends := r.lends.map fun l => if l.borrower = b then { l with deadline := deadline } else l }
  else { r with lends := r.lends ++ [⟨b, deadline⟩], expired := dropAgent b r.expired }

/-- The lend list without a borrower; the entries behind it keep their order (R69). -/
def BufRec.endLend (r : BufRec) (b : Agent) : BufRec := { r with lends := r.lends.filter fun l => l.borrower ≠ b }

/-- An expired borrower is told and leaves the set (R71). -/
def BufRec.endExpiry (r : BufRec) (b : Agent) : BufRec := { r with expired := dropAgent b r.expired }

/-! ### Answers (R94) -/

/-- The answer to a request that names a handle: handle and generation as named. -/
def namedAnswer (c : Code) (h : Handle) (g : BitVec 8) : Answer :=
  { code := c, handle := handleNum h, generation := g }

/-- The answer of a CLAIM answered OK. -/
def claimAnswer (h : Handle) (r : BufRec) : Answer :=
  { code := .ok, handle := handleNum h, generation := r.generation, length := r.length }

/-- The answer of an ACCEPT answered OK; the sender is the custodian before it. -/
def acceptAnswer (h : Handle) (r : BufRec) : Answer :=
  { code := .ok, handle := handleNum h, generation := r.generation, length := r.length, isSealed := r.sealed
    written := r.written, fromAgent := r.custodian }

/-- R93: a well-formed custody request of agent `a`, taken whole: the state after it, and its answer. -/
def State.takeRequest (s : State) (a : Agent) : Request → State × Answer
  | .claim p =>
    match s.claimCheck a p, (s.pool p).freeList with
    | some c, _ => (s, { code := c })
    | none, [] => (s, { code := .empty })
    | none, h :: rest => (s.claimHead a p h rest, claimAnswer h (s.buf h))
  | .release h g =>
    match s.releaseCheck a h g with
    | some c => (s, namedAnswer c h g)
    | none => (s.releasePath h, namedAnswer .ok h g)
  | .pass h g t =>
    match s.passCheck a h g t with
    | some c => (s, namedAnswer c h g)
    | none => (s.passTo h t, namedAnswer .ok h g)
  | .accept =>
    match s.queue a with
    | [] => (s, { code := .empty })
    | h :: rest => (s.acceptHead a h rest, acceptAnswer h (s.buf h))
  | .recall h g =>
    match s.recallCheck a h g with
    | some c => (s, namedAnswer c h g)
    | none => (s.bringBack h, namedAnswer .ok h g)
  | .seal h g =>
    match s.sealCheck a h g with
    | some c => (s, namedAnswer c h g)
    | none => (s.setBuf h { s.buf h with sealed := true }, namedAnswer .ok h g)
  | .unseal h g =>
    match s.unsealCheck a h g with
    | some c => (s, namedAnswer c h g)
    | none => (s.setBuf h { s.buf h with sealed := false }, namedAnswer .ok h g)
  | .lend h g b =>
    match s.lendCheck a h g b with
    | some c => (s, namedAnswer c h g)
    | none =>
      (s.setBuf h ((s.buf h).lendTo b (s.pool (s.buf h).pool).deadline),
        namedAnswer (if (s.buf h).lists b then .renewed else .ok) h g)
  | .giveBack h g =>
    match s.returnCheck h g with
    | some c => (s, namedAnswer c h g)
    | none =>
      if (s.buf h).lists a then (s.setBuf h ((s.buf h).endLend a), namedAnswer .ok h g)
      else if memAgent a (s.buf h).expired then (s.setBuf h ((s.buf h).endExpiry a), namedAnswer .expired h g)
      else (s, namedAnswer .noLend h g)

/-- R91, R92: a custody request given by its request word. -/
def State.custodyRequest (s : State) (a : Agent) (word : List Byte) : State × Answer :=
  match decodeRequest word with
  | none => (s, { code := .malformed })
  | some q => s.takeRequest a q

end Sys2Proof.Machine
end

