-- ==== Sys2Proof/Machine/Agents.lean ====
section
/-! DEFINITION. The agent commands: SET_AGENT, AGENT_RESET with its three parts, CLEAR_FAULT, READ_FAULT (R117 to R119, R172). -/

namespace Sys2Proof.Machine

/-! ### AGENT_RESET: the stage port controller's part (R96) -/

/-- R96, step 1: a waiting transaction is removed and answered CANCELLED. -/
def State.cancelWaiting (s : State) (a : Agent) : State :=
  match s.waiting a with
  | none => s
  | some t => (s.setWaiting a none).answerTxn t .cancelled

/-- R96, step 2: a held transaction of the agent is answered CANCELLED, its entry removed and the hold released. -/
def State.cancelHeld (s : State) (a : Agent) : State :=
  match s.checker.hold with
  | none => s
  | some t => if t.agent = a then (s.dropHold.setEntry a t.tag none).answerTxn t .cancelled else s

/-- R96, step 3, for one stage tag: an entry is answered CANCELLED and removed; its memory tag stays busy. -/
def State.cancelEntry (a : Agent) (s : State) (g : StageTag) : State :=
  match s.entry a g with
  | none => s
  | some _ => (s.setEntry a g none).respond ⟨a, g, .cancelled, none, []⟩

/-- R96: the cancellation event, entries in ascending stage tag order. -/
def State.cancelAgent (s : State) (a : Agent) : State :=
  (List.finRange 8).foldl (State.cancelEntry a) ((s.cancelWaiting a).cancelHeld a)

/-! ### AGENT_RESET: the custody unit's part, the sweep (R42) -/

/-- R42, step 1 (R82), for one record: the lends the agent gave are dropped. -/
def BufRec.dropGiven (a : Agent) (r : BufRec) : BufRec :=
  if r.state = .held ∧ r.custodian = some a then { r with lends := [] } else r

/-- R42, step 2 (R61), for one handle: a buffer whose custodian is the agent is released. -/
def State.sweepRelease (a : Agent) (s : State) (h : Handle) : State :=
  if (s.buf h).custodian = some a then s.forceOut h else s

/-- R42, step 4 (R83), for one record: the agent's lend entry and its expired membership are removed. -/
def BufRec.dropTaken (a : Agent) (r : BufRec) : BufRec := (r.endLend a).endExpiry a

/-- A change of every buffer record. -/
def State.mapBufs (s : State) (f : BufRec → BufRec) : State := { s with custody.bufs := mapAll s.custody.bufs f }

/-- R42: the sweep, its four steps in order, released handles in ascending order, returned ones in queue order (R62). -/
def State.sweep (s : State) (a : Agent) : State :=
  let s1 := s.mapBufs (BufRec.dropGiven a)
  let s2 := (List.finRange 511).foldl (State.sweepRelease a) s1
  let s3 := (s2.queue a).foldl State.bringBack s2
  s3.mapBufs (BufRec.dropTaken a)

/-! ### Commands -/

/-- AGENT_RESET (R172): the three parts, each whole; they concern different state. Then an idle engine takes a head. That all
three are taken in this one step, so that no other event comes between the command and a part or between two parts, is the model's
choice: R63, R97, R116 and R172 let other events fall before or after each part (log 36). -/
def cmdAgentReset (agent : Nat) (s : State) : State :=
  match agentOf agent with
  | none => s.setAnswer .range
  | some a => ((((s.cancelAgent a).emptySlot a).sweep a).setAnswer .ok).kick

/-- SET_AGENT (R117): mode 0 OFFLINE, 1 ONLINE; the payload gives the flag before. -/
def cmdSetAgent (agent mode : Nat) (s : State) : State :=
  match agentOf agent with
  | none => s.setAnswer .range
  | some a =>
    if mode ≤ 1 then
      (s.setAgentRec a { s.agent a with online := mode == 1 }).setAnswer .ok (le 1 (s.online a).toNat)
    else s.setAnswer .range

/-- CLEAR_FAULT (R118): the payload says whether the slot was occupied. -/
def cmdClearFault (agent : Nat) (s : State) : State :=
  match agentOf agent with
  | none => s.setAnswer .range
  | some a => (s.emptySlot a).setAnswer .ok (le 1 (s.agent a).slot.isSome.toNat)

/-- READ_FAULT (R119). -/
def cmdReadFault (agent : Nat) (s : State) : State :=
  match agentOf agent with
  | none => s.setAnswer .range
  | some a => s.setAnswer .ok (s.agent a).image

/-- AGENT_RESET (R172). -/
def execAgentReset (agent : Byte) (s : State) : Host.Outcome State Fault Refusal :=
  .next (s.runCommand (cmdAgentReset agent.toNat))

/-- SET_AGENT (R117). -/
def execSetAgent (agent mode : Byte) (s : State) : Host.Outcome State Fault Refusal :=
  .next (s.runCommand (cmdSetAgent agent.toNat mode.toNat))

/-- CLEAR_FAULT (R118). -/
def execClearFault (agent : Byte) (s : State) : Host.Outcome State Fault Refusal :=
  .next (s.runCommand (cmdClearFault agent.toNat))

/-- READ_FAULT (R119). -/
def execReadFault (agent : Byte) (s : State) : Host.Outcome State Fault Refusal :=
  .next (s.runCommand (cmdReadFault agent.toNat))

end Sys2Proof.Machine
end

