-- ==== Sys2Proof/Machine/Apply.lean ====
section
/-! DEFINITION. The apply of an edit group at the custody unit (R158 to R161) and its outcome (R163). -/

namespace Sys2Proof.Machine

/-- The working image: buffer and pool records as the earlier entries have changed them, and the handles that entries made
FREE or SCRUBBING, in the order of the entries (R158, R161). -/
structure Image where
  bufs : Vector BufRec 511
  pools : Vector PoolRec 8
  freed : List Handle
  scrubbed : List Handle
deriving DecidableEq, Repr

/-- R158, R160: a buffer that an entry defines, moves or resizes becomes SCRUBBING or FREE by its pool's setting in the
image. -/
def Image.place (im : Image) (h : Handle) (r : BufRec) : Image :=
  if (nth im.pools r.pool).scrubs then
    { im with
      bufs := put im.bufs h { r with state := .scrubbing }, freed := im.freed.filter (· ≠ h)
      scrubbed := im.scrubbed ++ [h] }
  else
    { im with bufs := put im.bufs h { r with state := .free } }

/-- A handle that an entry made FREE joins the list of those, at its tail. -/
def Image.noteFree (im : Image) (h : Handle) : Image := { im with freed := im.freed.filter (· ≠ h) ++ [h] }

/-- R160: the record of a defined buffer, but for its state. -/
def definedRec (p : PoolId) (base length : Nat) : BufRec := { BufRec.reset with pool := p, base := base, length := length }

/-- R160: a retired record: VOID, with its generation kept. -/
def retiredRec (r : BufRec) : BufRec := { BufRec.reset with generation := r.generation }

/-- R24: the values a POOL entry gives; an undefined pool starts with an empty free list and no members, a defined one
keeps them. -/
def PoolRec.configure (p : PoolRec) (c : PoolSettings) : PoolRec :=
  { p with
    defined := true, claimSet := c.claimSet, borrowSet := c.borrowSet, scrubs := c.scrubs, lendLimit := c.lendLimit
    lowMark := c.lowMark }

/-- R25: an undefined pool has its part-reset values. Its member count is 0, so its free list is empty. -/
def PoolRec.undefine (p : PoolRec) : PoolRec := { PoolRec.reset with freeList := p.freeList, members := p.members }

/-- R158: one entry against the working image: why it fails, or the image after it. -/
def applyEntry (im : Image) : Edit → Except Reason Image
  | .define h p base length =>
    if (nth im.bufs h).state ≠ .void then .error .notVoid
    else if (nth im.pools p).defined = false then .error .noPool
    else
      let pr := nth im.pools p
      let im1 := { im with pools := put im.pools p { pr with members := pr.members + 1 } }
      .ok ((im1.noteFree h).place h (definedRec p base length))
  | .move h base =>
    if (nth im.bufs h).state ≠ .free then .error .notFree
    else .ok (im.place h { nth im.bufs h with base := base })
  | .resize h length =>
    if (nth im.bufs h).state ≠ .free then .error .notFree
    else .ok (im.place h { nth im.bufs h with length := length })
  | .retire h =>
    let r := nth im.bufs h
    if r.state ≠ .free ∧ r.state ≠ .withheld then .error .notFree
    else
      let pr := nth im.pools r.pool
      .ok { im with
        bufs := put im.bufs h (retiredRec r), pools := put im.pools r.pool { pr with members := pr.members - 1 }
        freed := im.freed.filter (· ≠ h) }
  | .pool p c => .ok { im with pools := put im.pools p ((nth im.pools p).configure c) }
  | .unpool p =>
    if (nth im.pools p).members ≠ 0 then .error .hasMembers
    else .ok { im with pools := put im.pools p (nth im.pools p).undefine }

/-- R158: the entries from index `k` upward; at the first that fails, its index and reason. -/
def walkEntries (k : Nat) (im : Image) : List Edit → Except Rejection Image
  | [] => .ok im
  | e :: es =>
    match applyEntry im e with
    | .error why => .error { index := k, reason := why, pair := none }
    | .ok im1 => walkEntries (k + 1) im1 es

/-! ### The checks of R159 -/

/-- The handle whose place an entry sets. -/
def Edit.placed : Edit → Option Handle
  | .define h _ _ _ => some h
  | .move h _ => some h
  | .resize h _ => some h
  | .retire _ => none
  | .pool _ _ => none
  | .unpool _ => none

/-- The highest index, counted from `k`, of an entry that placed one of some handles (R159); `default` where none did. -/
def lastPlacing (hs : List Handle) (k default : Nat) : List Edit → Nat
  | [] => default
  | e :: es =>
    lastPlacing hs (k + 1) (match e.placed with | some h => if h ∈ hs then k else default | none => default) es

/-- The non-VOID buffers of a table, in ascending handle order. -/
def definedHandles (bufs : Vector BufRec 511) : List Handle :=
  (List.finRange 511).filter fun h => decide ((nth bufs h).state ≠ .void)

/-- Whether two buffers share a unit (R159): neither ends at or before the base of the other. -/
def sharesUnit (a b : BufRec) : Bool := decide (b.base < a.base + a.length) && decide (a.base < b.base + b.length)

/-- R159: the pair with the lowest lower handle and, for that handle, the lowest partner, in an ascending list. -/
def firstOverlap (bufs : Vector BufRec 511) : List Handle → Option (Handle × Handle)
  | [] => none
  | h :: hs =>
    match hs.find? fun k => sharesUnit (nth bufs h) (nth bufs k) with
    | some k => some (h, k)
    | none => firstOverlap bufs hs

/-- R159: the first buffer that does not lie wholly below 1 GiB. -/
def firstOutside (bufs : Vector BufRec 511) : List Handle → Option Handle :=
  List.find? fun h => decide (Config.memoryUnits < (nth bufs h).base + (nth bufs h).length)

/-- R159: the two checks on the resulting image, memory before overlap. -/
def checkImage (staged : List Edit) (im : Image) : Option Rejection :=
  let hs := definedHandles im.bufs
  match firstOutside im.bufs hs, firstOverlap im.bufs hs with
  | some h, _ => some { index := lastPlacing [h] 0 0 staged, reason := .outsideMemory, pair := none }
  | none, some (h, k) => some { index := lastPlacing [h, k] 0 0 staged, reason := .overlap, pair := some (h, k) }
  | none, none => none

/-! ### The apply -/

/-- Whether a record is a FREE buffer of a pool. -/
def BufRec.freeIn (r : BufRec) (p : PoolId) : Bool := decide (r.state = .free) && decide (r.pool = p)

/-- R161: a pool's free list after the apply: those that stay FREE in the pool keep their positions, those newly FREE join
the tail in the order of the entries that made them so. -/
def freeListAfter (s : State) (im : Image) (p : PoolId) : List Handle :=
  ((s.pool p).freeList.filter fun h => (nth im.bufs h).freeIn p)
    ++ im.freed.filter fun h => (nth im.bufs h).freeIn p && !(s.buf h).freeIn p

/-- R160, R161: the image becomes the table, and the collections change with it; every low flag is set anew. -/
def State.adopt (s : State) (im : Image) : State :=
  { s with
    custody.bufs := im.bufs
    custody.pools := Vector.ofFn fun p =>
      PoolRec.setLowFlag { nth im.pools p with freeList := freeListAfter s im p }
    scrub.queue := s.scrub.queue ++ im.scrubbed }

/-- The working image at the start of an apply: the table as it stands (R158). -/
def State.image (s : State) : Image := ⟨s.custody.bufs, s.custody.pools, [], []⟩

/-- R158, R159: the entries, then the checks on the image: the rejection, or the image to adopt. -/
def State.judge (s : State) (staged : List Edit) : Except Rejection Image :=
  match walkEntries 0 s.image staged with
  | .error r => .error r
  | .ok im =>
    match checkImage staged im with
    | some r => .error r
    | none => .ok im

/-- R158: the apply of a group: all of its entries, or none. -/
def State.applyGroup (s : State) (staged : List Edit) : State × Option Rejection :=
  match s.judge staged with
  | .ok im => (s.adopt im, none)
  | .error r => (s, some r)

/-- R153, R155: the staged set is presented to the custody unit; in the same event the outcome is written with the mark's
cycle count or none, the set emptied, the group IDLE, GROUP_DONE set. -/
def State.presentGroup (s : State) (cycleCount : Option (BitVec 32)) : State :=
  let (s1, rejection) := s.applyGroup s.edit.staged
  { s1 with
    edit := { group := .idle, staged := [], target := none
              outcome := some { rejection := rejection, cycleCount := cycleCount, entries := s.edit.staged.length } }
  }.raise .groupDone

end Sys2Proof.Machine
end

