-- ==== Sys2Proof/Machine/Groups.lean ====
section
/-! DEFINITION. The group commands of the edit stage (R150 to R157, R164). The edit stage makes the range checks itself, after
its group-state checks (R171). -/

namespace Sys2Proof.Machine

/-- OPEN_GROUP (R150). -/
def cmdOpenGroup (s : State) : State :=
  match s.edit.group with
  | .idle => { s with edit.group := .openForEdits, edit.staged := [] }.setAnswer .ok
  | .openForEdits => s.setAnswer .busy
  | .armed => s.setAnswer .busy

/-- R151: a staging command whose arguments make an entry, or none where one lies outside its range. -/
def stageEntry (e : Option Edit) (s : State) : State :=
  match s.edit.group, e with
  | .idle, _ => s.setAnswer .noGroup
  | .armed, _ => s.setAnswer .groupArmed
  | .openForEdits, none => s.setAnswer .range
  | .openForEdits, some e =>
    if Config.stagedCapacity ≤ s.edit.staged.length then s.setAnswer .groupFull
    else { s with edit.staged := s.edit.staged ++ [e] }.setAnswer .ok (le 1 s.edit.staged.length)

/-- A base in range (R151, R180). -/
def baseOf (n : Nat) : Option Nat := if n < 262144 then some n else none

/-- A length in range (R151, R180). -/
def lengthOf (n : Nat) : Option Nat := if 1 ≤ n ∧ n ≤ 2048 then some n else none

/-- The entry of STAGE_DEFINE (R151). -/
def defineEntry (handle pool base length : Nat) : Option Edit := do
  return .define (← handleOf handle) (← poolOf pool) (← baseOf base) (← lengthOf length)

/-- The entry of STAGE_MOVE (R151). -/
def moveEntry (handle base : Nat) : Option Edit := do
  return .move (← handleOf handle) (← baseOf base)

/-- The entry of STAGE_RESIZE (R151). -/
def resizeEntry (handle length : Nat) : Option Edit := do
  return .resize (← handleOf handle) (← lengthOf length)

/-- The entry of STAGE_RETIRE (R151). -/
def retireEntry (handle : Nat) : Option Edit := (handleOf handle).map .retire

/-- The entry of STAGE_POOL (R151): scrub 0 or 1, lend limit 0..255, low mark 0..511. -/
def poolEntry (pool : Nat) (claimSet borrowSet : AgentSet) (scrub lendLimit lowMark : Nat) : Option Edit :=
  if scrub ≤ 1 ∧ lendLimit ≤ 255 ∧ lowMark ≤ 511 then
    (poolOf pool).map fun p => .pool p ⟨claimSet, borrowSet, scrub == 1, lendLimit, lowMark⟩
  else none

/-- The entry of STAGE_UNPOOL (R151). -/
def unpoolEntry (pool : Nat) : Option Edit := (poolOf pool).map .unpool

/-- CLOSE_GROUP(NOW) (R153): applied at once; the payload is the outcome. The engine then takes a head if one joined (R161). -/
def cmdCloseNow (s : State) : State :=
  match s.edit.group with
  | .idle => s.setAnswer .noGroup
  | .armed => s.setAnswer .groupArmed
  | .openForEdits =>
    let s1 := s.presentGroup none
    (s1.setAnswer .ok (outcomeImage none s1.edit.outcome)).kick

/-- R147: the number of ticks before the tick that makes the next mark. -/
def Timer.timeToMark (t : Timer) : Nat := t.running.length - 1 - t.position

/-- R154: the target of a group closed for a mark. -/
def Timer.closeTarget (t : Timer) : BitVec 32 :=
  if t.running.guard ≤ t.timeToMark then t.cycleCount + 1 else t.cycleCount + 2

/-- CLOSE_GROUP(MARK) (R154). -/
def cmdCloseMark (s : State) : State :=
  match s.edit.group with
  | .idle => s.setAnswer .noGroup
  | .armed => s.setAnswer .groupArmed
  | .openForEdits =>
    if s.timer.pacing = false then s.setAnswer .noPacing
    else
      { s with edit.group := .armed, edit.target := some s.timer.closeTarget }.setAnswer .ok
        (le 4 s.timer.closeTarget.toNat)

/-- CLOSE_GROUP with a mode byte that names neither mode (R153): RANGE in OPEN, after the group-state checks. -/
def cmdCloseUnknown (s : State) : State :=
  match s.edit.group with
  | .idle => s.setAnswer .noGroup
  | .armed => s.setAnswer .groupArmed
  | .openForEdits => s.setAnswer .range

/-- CLOSE_GROUP with the mode byte of its frame (0 NOW, 1 MARK). -/
def cmdCloseGroup (mode : Nat) (s : State) : State :=
  match mode with
  | 0 => cmdCloseNow s
  | 1 => cmdCloseMark s
  | _ => cmdCloseUnknown s

/-- ABANDON_GROUP (R157): the answer gives the number of entries discarded. -/
def cmdAbandonGroup (s : State) : State :=
  match s.edit.group with
  | .idle => s.setAnswer .noGroup
  | .openForEdits =>
    { s with edit := { s.edit with group := .idle, staged := [], target := none } }.setAnswer .ok
      (le 1 s.edit.staged.length)
  | .armed =>
    { s with edit := { s.edit with group := .idle, staged := [], target := none } }.setAnswer .ok
      (le 1 s.edit.staged.length)

/-- READ_GROUP (R164). -/
def cmdReadGroup (s : State) : State := s.setAnswer .ok s.edit.image

/-- OPEN_GROUP (R150). -/
def execOpenGroup (s : State) : Host.Outcome State Fault Refusal := .next (s.runCommand cmdOpenGroup)

/-- STAGE_DEFINE (R151). -/
def execStageDefine (handle : BitVec 16) (pool : Byte) (base : BitVec 24) (length : BitVec 16) (s : State) :
    Host.Outcome State Fault Refusal :=
  .next (s.runCommand (stageEntry (defineEntry handle.toNat pool.toNat base.toNat length.toNat)))

/-- STAGE_MOVE (R151). -/
def execStageMove (handle : BitVec 16) (base : BitVec 24) (s : State) : Host.Outcome State Fault Refusal :=
  .next (s.runCommand (stageEntry (moveEntry handle.toNat base.toNat)))

/-- STAGE_RESIZE (R151). -/
def execStageResize (handle length : BitVec 16) (s : State) : Host.Outcome State Fault Refusal :=
  .next (s.runCommand (stageEntry (resizeEntry handle.toNat length.toNat)))

/-- STAGE_RETIRE (R151). -/
def execStageRetire (handle : BitVec 16) (s : State) : Host.Outcome State Fault Refusal :=
  .next (s.runCommand (stageEntry (retireEntry handle.toNat)))

/-- STAGE_POOL (R151). -/
def execStagePool (pool : Byte) (claimSet borrowSet : AgentSet) (scrub lendLimit : Byte) (lowMark : BitVec 16)
    (s : State) : Host.Outcome State Fault Refusal :=
  .next (s.runCommand
    (stageEntry (poolEntry pool.toNat claimSet borrowSet scrub.toNat lendLimit.toNat lowMark.toNat)))

/-- STAGE_UNPOOL (R151). -/
def execStageUnpool (pool : Byte) (s : State) : Host.Outcome State Fault Refusal :=
  .next (s.runCommand (stageEntry (unpoolEntry pool.toNat)))

/-- CLOSE_GROUP(NOW) (R153). -/
def execCloseGroupNow (s : State) : Host.Outcome State Fault Refusal := .next (s.runCommand cmdCloseNow)

/-- CLOSE_GROUP(MARK) (R154). -/
def execCloseGroupMark (s : State) : Host.Outcome State Fault Refusal := .next (s.runCommand cmdCloseMark)

/-- ABANDON_GROUP (R157). -/
def execAbandonGroup (s : State) : Host.Outcome State Fault Refusal := .next (s.runCommand cmdAbandonGroup)

/-- READ_GROUP (R164). -/
def execReadGroup (s : State) : Host.Outcome State Fault Refusal := .next (s.runCommand cmdReadGroup)

end Sys2Proof.Machine
end

