-- ==== Sys2Proof/Machine/HostCommands.lean ====
section
/-! DEFINITION. Force commands (R38, R40, R41, R80) and the management port's own commands (R172, R175 to R178). Arguments are
the whole numbers their bytes make, and are checked before the command is handed on (R171, R180). -/

namespace Sys2Proof.Machine

/-! ### Force commands -/

/-- FORCE_RELEASE (R38): the payload gives the state the release path chose and the generation. -/
def cmdForceRelease (handle : Nat) (s : State) : State :=
  match handleOf handle with
  | none => s.setAnswer .range
  | some h =>
    if (s.buf h).state = .held ∨ (s.buf h).state = .inTransit then
      let s1 := s.forceOut h
      (s1.setAnswer .ok (le 1 (s1.buf h).state.code ++ [(s1.buf h).generation])).kick
    else s.setAnswer .wrongState

/-- FORCE_RETURN (R80): the payload of OK and EXPIRED gives the generation and the entries left. -/
def cmdForceReturn (handle borrower : Nat) (s : State) : State :=
  match handleOf handle, agentOf borrower with
  | some h, some b =>
    let r := s.buf h
    if r.state = .held ∨ r.state = .inTransit then
      if r.lists b then
        (s.setBuf h (r.endLend b)).setAnswer .ok (r.generation :: le 1 (r.endLend b).lends.length)
      else if memAgent b r.expired then
        (s.setBuf h (r.endExpiry b)).setAnswer .expired (r.generation :: le 1 r.lends.length)
      else s.setAnswer .noLend
    else s.setAnswer .wrongState
  | some _, none => s.setAnswer .range
  | none, _ => s.setAnswer .range

/-- ADMIT (R40): the payload gives the new generation. -/
def cmdAdmit (handle : Nat) (s : State) : State :=
  match handleOf handle with
  | none => s.setAnswer .range
  | some h =>
    if (s.buf h).state = .withheld then
      let s1 := s.becomeFree h
      s1.setAnswer .ok [(s1.buf h).generation]
    else s.setAnswer .wrongState

/-- RESCRUB (R41). An idle engine takes the handle at once where the link is UP (R132). -/
def cmdRescrub (handle : Nat) (s : State) : State :=
  match handleOf handle with
  | none => s.setAnswer .range
  | some h =>
    if (s.buf h).state = .withheld then ((s.enterScrubbing h).setAnswer .ok).kick else s.setAnswer .wrongState

/-! ### The management port's own commands -/

/-- SET_MEMLIMIT (R172): the payload gives the limit before. -/
def cmdSetMemlimit (limit : Nat) (s : State) : State :=
  if 1 ≤ limit ∧ limit ≤ 1023 then
    { s with mgmt.memLimit := limit }.setAnswer .ok (le 2 s.mgmt.memLimit)
  else s.setAnswer .range

/-- R180: a set of notice positions, out of range where a bit above the 29 positions is set. -/
def positionsOf (n : Nat) : Option NoticeSet := if n < 2 ^ 29 then some (BitVec.ofNat 29 n) else none

/-- READ_NOTICES (R175). -/
def cmdReadNotices (s : State) : State :=
  s.setAnswer .ok (noticeImage s.mgmt.notices ++ noticeImage s.mgmt.enable)

/-- ACK_NOTICES (R175): each named bit but a FAULT bit is cleared; the payload gives the set as left. -/
def cmdAckNotices (positions : Nat) (s : State) : State :=
  match positionsOf positions with
  | none => s.setAnswer .range
  | some n =>
    let left := s.mgmt.notices &&& ~~~ (n &&& ~~~ faultPositions)
    { s with mgmt.notices := left }.setAnswer .ok (noticeImage left)

/-- SET_NOTICE_ENABLE (R176): the payload gives the mask before. -/
def cmdSetNoticeEnable (positions : Nat) (s : State) : State :=
  match positionsOf positions with
  | none => s.setAnswer .range
  | some n => { s with mgmt.enable := n }.setAnswer .ok (noticeImage s.mgmt.enable)

/-- IDENTIFY (R177): part code 0x8260, revision 1. -/
def cmdIdentify (s : State) : State := s.setAnswer .ok (le 2 0x8260 ++ le 1 1)

/-- PART_RESET (R178): the reset sets the answer frame to NONE. -/
def cmdPartReset (addrPins : BitVec 2) (s : State) : State := s.partReset addrPins

/-- FORCE_RELEASE (R38). -/
def execForceRelease (handle : BitVec 16) (s : State) : Host.Outcome State Fault Refusal :=
  .next (s.runCommand (cmdForceRelease handle.toNat))

/-- FORCE_RETURN (R80). -/
def execForceReturn (handle : BitVec 16) (borrower : Byte) (s : State) : Host.Outcome State Fault Refusal :=
  .next (s.runCommand (cmdForceReturn handle.toNat borrower.toNat))

/-- ADMIT (R40). -/
def execAdmitBuffer (handle : BitVec 16) (s : State) : Host.Outcome State Fault Refusal :=
  .next (s.runCommand (cmdAdmit handle.toNat))

/-- RESCRUB (R41). -/
def execRescrub (handle : BitVec 16) (s : State) : Host.Outcome State Fault Refusal :=
  .next (s.runCommand (cmdRescrub handle.toNat))

/-- SET_MEMLIMIT (R172). -/
def execSetMemlimit (limit : BitVec 16) (s : State) : Host.Outcome State Fault Refusal :=
  .next (s.runCommand (cmdSetMemlimit limit.toNat))

/-- READ_NOTICES (R175). -/
def execReadNotices (s : State) : Host.Outcome State Fault Refusal := .next (s.runCommand cmdReadNotices)

/-- ACK_NOTICES (R175). -/
def execAckNotices (positions : BitVec 32) (s : State) : Host.Outcome State Fault Refusal :=
  .next (s.runCommand (cmdAckNotices positions.toNat))

/-- SET_NOTICE_ENABLE (R176). -/
def execSetNoticeEnable (positions : BitVec 32) (s : State) : Host.Outcome State Fault Refusal :=
  .next (s.runCommand (cmdSetNoticeEnable positions.toNat))

/-- IDENTIFY (R177). -/
def execIdentify (s : State) : Host.Outcome State Fault Refusal := .next (s.runCommand cmdIdentify)

/-- PART_RESET (R178). -/
def execPartReset (addrPins : BitVec 2) (s : State) : Host.Outcome State Fault Refusal :=
  .next (s.runCommand (cmdPartReset addrPins))

end Sys2Proof.Machine
end

