-- ==== Sys2Proof/Machine/Reads.lean ====
section
/-! DEFINITION. The read commands: READ_BUFFER, READ_POOL, READ_QUEUE, READ_CYCLE (R21, R29, R47, R148). -/

namespace Sys2Proof.Machine

/-- READ_BUFFER (R21). -/
def cmdReadBuffer (handle : Nat) (s : State) : State :=
  match handleOf handle with
  | none => s.setAnswer .range
  | some h => s.setAnswer .ok (s.buf h).image

/-- READ_POOL (R29). -/
def cmdReadPool (pool : Nat) (s : State) : State :=
  match poolOf pool with
  | none => s.setAnswer .range
  | some p => s.setAnswer .ok (s.pool p).image

/-- READ_QUEUE (R47). -/
def cmdReadQueue (agent : Nat) (s : State) : State :=
  match agentOf agent with
  | none => s.setAnswer .range
  | some a => s.setAnswer .ok (queueImage (s.queue a))

/-- READ_CYCLE (R148). -/
def cmdReadCycle (s : State) : State := s.setAnswer .ok s.timer.image

/-- READ_BUFFER (R21). -/
def execReadBuffer (handle : BitVec 16) (s : State) : Host.Outcome State Fault Refusal :=
  .next (s.runCommand (cmdReadBuffer handle.toNat))

/-- READ_POOL (R29). -/
def execReadPool (pool : Byte) (s : State) : Host.Outcome State Fault Refusal :=
  .next (s.runCommand (cmdReadPool pool.toNat))

/-- READ_QUEUE (R47). -/
def execReadQueue (agent : Byte) (s : State) : Host.Outcome State Fault Refusal :=
  .next (s.runCommand (cmdReadQueue agent.toNat))

/-- READ_CYCLE (R148). -/
def execReadCycle (s : State) : Host.Outcome State Fault Refusal := .next (s.runCommand cmdReadCycle)

end Sys2Proof.Machine
end

