-- ==== Sys2Proof/Machine/Find.lean ====
section
/-! DEFINITION. FIND: the scan of the buffer records (R170, R173, R174). -/

namespace Sys2Proof.Machine

/-- R173: whether a record matches. -/
def FindKey.holds (k : FindKey) (r : BufRec) : Bool :=
  match k with
  | .byState st => decide (r.state = st)
  | .byCustodian a => decide (r.custodian = some a)
  | .expiredLends => decide (r.expired ≠ 0)

/-- R174: one examination. A match ends the scan with the record as examined; record 511 without a match ends it with NONE
and the start handle; otherwise the scan goes on at the next handle. -/
def State.examine (s : State) (c : Scan) : State :=
  let ended := { s with mgmt.scan := none }
  if c.key.holds (s.buf c.next) then ended.setAnswer .ok (foundImage c.next (s.buf c.next))
  else
    match handleOf (handleNum c.next + 1) with
    | none => ended.setAnswer .none (le 2 (handleNum c.start))
    | some h => { s with mgmt.scan := some { c with next := h } }

/-- R174: the examination of a tick, while a scan is under way. -/
def State.scanStep (s : State) : State :=
  match s.mgmt.scan with
  | some c => s.examine c
  | none => s

/-- FIND run (R170, R173, R174): RANGE, or WORKING with the first record examined in the same event. -/
def cmdFind (kind value start : Nat) (s : State) : State :=
  match findKeyOf kind value, handleOf start with
  | some k, some h => ({ s with mgmt.scan := some ⟨k, h, h⟩ }.setAnswer .working).scanStep
  | some _, none => s.setAnswer .range
  | none, _ => s.setAnswer .range

/-- FIND (R173). -/
def execFind (kind value : Byte) (start : BitVec 16) (s : State) : Host.Outcome State Fault Refusal :=
  .next (s.runCommand (cmdFind kind.toNat value.toNat start.toNat))

end Sys2Proof.Machine
end

