-- ==== Sys2Proof/Machine/Memory.lean ====
section
/-! DEFINITION. The memory port and the scrub engine: MEMORY_RESPONSE, TAG_EXPIRY, SETTLING_INTERVAL_END, LINK_DOWN, LINK_UP,
DRAIN_COMPLETION, SCRUB_TAKE_HEAD, SCRUB_COMPLETION, SCRUB_FAILURE. -/

namespace Sys2Proof.Machine

/-- The status of an access that ended with a matching response (R122). -/
def responseStatus (good : Bool) : RespStatus := if good then .done else .memError

/-- R122: a matching response frees its tag, the generation unchanged, and the owner is told. Read data comes with a good
response alone. A burst leaves the in-flight set here, before its tag is offered, so an engine that had 4 in flight takes
part in the choice of who gets the tag (log 33). A drain or scrub that the request's end completes is completed here too, so a held
access that is then granted the tag is judged by the record after the completion (log 35). -/
def State.takeResponse (s : State) (i : TagIndex) (u : TagUse) (good : Bool) (data : List Byte) : State :=
  let g := (s.tag i).generation
  let s1 := s.setTag i ⟨g, none⟩
  match u.owner with
  | .access a st h => (s1.endInFlight h).report a st i g (responseStatus good) (if good then data else [])
  | .burst _ n => s1.burstEnd n good

/-- MEMORY_RESPONSE (R122). A response that names a busy tag by index and generation, with the link UP and the settling
interval run (R128), matches; any other is discarded. The freed tag is offered to the arbiter in the same event, after all that the
request's end does to its owner (`takeResponse`): log 35. -/
def execMemoryResponse (tagByte : Byte) (good : Bool) (data : List Byte) (s : State) : Host.Outcome State Fault Refusal :=
  let i := tagByteIndex tagByte
  .next
    (if !s.resetLow && s.mem.grants then
      match (s.tag i).use with
      | some u => if (s.tag i).generation = tagByteGeneration tagByte then (s.takeResponse i u good data).kick else s
      | none => s
    else s)

/-- R123: the expiry of a tag: freed with its generation stepped, the owner told, MEMORY_LATE set; then the tag is offered, a burst
having left the in-flight set, and a drain or scrub that this ends having been completed, before (logs 33, 35). -/
def State.expireTag (s : State) (i : TagIndex) : State :=
  match (s.tag i).use with
  | none => s
  | some u =>
    let g := (s.tag i).generation
    let s1 := s.setTag i ⟨g + 1, none⟩
    let s2 :=
      match u.owner with
      | .access a st h => (s1.endInFlight h).report a st i g .memTimeout []
      | .burst _ n => s1.burstEnd n false
    (s2.raise .memoryLate).kick

/-- Whether a tag is busy and its time has run out. -/
def State.expiryDue (s : State) (i : TagIndex) : Bool :=
  match (s.tag i).use with
  | some u => u.timeLeft == 0
  | none => false

/-- TAG_EXPIRY (R123), of a busy tag whose time left has reached 0. Any other tag has no expiry to take (R124). -/
def execTagExpiry (i : TagIndex) (s : State) : Host.Outcome State Fault Refusal :=
  .next (if !s.resetLow && s.expiryDue i then s.expireTag i else s)

/-- R128: the settling interval has run, and the arbiter begins granting. -/
def State.endSettling (s : State) : State :=
  match s.mem.settling with
  | some 0 => { s with mem.settling := none }.kick
  | _ => s

/-- SETTLING_INTERVAL_END (R128), once the interval's ticks have run; before that, and after it, nothing changes. -/
def execSettlingIntervalEnd (s : State) : Host.Outcome State Fault Refusal :=
  .next (if s.resetLow then s else s.endSettling)

/-! ### The link -/

/-- R127, step 1, for one tag: a busy tag is freed with its generation stepped, and its owner told. A lost burst is told to
the engine in step 2. -/
def State.loseTag (s : State) (i : TagIndex) : State :=
  match (s.tag i).use with
  | none => s
  | some u =>
    let g := (s.tag i).generation
    let s1 := s.setTag i ⟨g + 1, none⟩
    match u.owner with
    | .access a st h => (s1.endInFlight h).report a st i g .memDown []
    | .burst _ _ => s1

/-- The lowest of some burst numbers, or the issue point where there is none (R136). -/
def rewindPoint (issue : Nat) (lost : List (Nat × TagIndex)) : Nat := lost.foldl (fun m b => min m b.1) issue

/-- R127, step 2, and R136: an ISSUING engine rewinds and pauses, a FAILING one reports failure. -/
def State.scrubLinkDown (s : State) : State :=
  match s.scrub.engine with
  | .issuing c => { s with scrub.engine := .paused { c with issue := rewindPoint c.issue c.inFlight, inFlight := [] } }
  | .failing c => { s with scrub.engine := .failing { c with inFlight := [] } }.failScrub
  | .idle => s
  | .paused _ => s

/-- R127: the link-DOWN event, its four steps in order. The drain completions of step 1 come within it, so the re-check of step 3 sees
the records after them (log 35). -/
def State.goDown (s : State) : State :=
  let s1 := { s with mem.link := .down }
  let s2 := (List.finRange 64).foldl State.loseTag s1
  (s2.scrubLinkDown.recheckDown).raise .memoryDown

/-- LINK_DOWN (R127). MREADY falling while the link is DOWN changes nothing; no link event is taken while RESET is low (R181). -/
def execLinkDown (s : State) : Host.Outcome State Fault Refusal :=
  .next
    (if s.resetLow then s
    else
      match s.mem.link with
      | .up => s.goDown
      | .down => s)

/-- R136: a PAUSED engine issues again once the link is UP. -/
def State.resumeScrub (s : State) : State :=
  match s.scrub.engine with
  | .paused c => { s with scrub.engine := .issuing c }
  | .idle => s
  | .issuing _ => s
  | .failing _ => s

/-- LINK_UP (R128). The link goes UP; no tag changes; the engine resumes or takes a head, and the arbiter serves requests. -/
def execLinkUp (s : State) : Host.Outcome State Fault Refusal :=
  .next
    (if s.resetLow then s
    else
      match s.mem.link with
      | .up => s
      | .down => ({ s with mem.link := .up }.resumeScrub).kick)

/-! ### Completions taken by the custody unit -/

/-- DRAIN_COMPLETION (R16). The decrement that brings the count to 0 completes the drain in its own event; as a command of
its own it completes the drain of a DRAINING buffer whose count is 0, and finds nothing to do otherwise (log 1). -/
def execDrainCompletion (h : Handle) (s : State) : Host.Outcome State Fault Refusal :=
  .next (if s.resetLow then s else (s.completeDrain h).kick)

/-- SCRUB_COMPLETION (R134), with every burst confirmed; otherwise nothing to report (log 1). -/
def execScrubCompletion (s : State) : Host.Outcome State Fault Refusal :=
  .next (if s.resetLow then s else s.finishScrub.kick)

/-- SCRUB_FAILURE (R135), with a failed burst and none in flight; otherwise nothing to report (log 1). -/
def execScrubFailure (s : State) : Host.Outcome State Fault Refusal :=
  .next (if s.resetLow then s else s.failScrub.kick)

/-- SCRUB_TAKE_HEAD (R132). The IDLE engine with the link UP takes the head of the scrub queue and its bursts are served. -/
def execScrubTakeHead (s : State) : Host.Outcome State Fault Refusal :=
  .next (if s.resetLow then s else s.kick)

end Sys2Proof.Machine
end

