-- ==== Sys2Proof/Machine/Timer.lean ====
section
/-! DEFINITION. The cycle timer: TICK, MARK, MARK_PULSE_END, SET_TIMEBASE, SET_CYCLE, PACING; and
I2C_IDLE_TIMEOUT, whose ticks it counts. -/

namespace Sys2Proof.Machine

/-! ### The mark -/

/-- R76: a mark lowers the present deadlines of a HELD, sealed buffer; an entry whose deadline reaches 0 leaves the list
and its borrower joins the expired-borrower set. -/
def Lend.lowered (l : Lend) : Lend := { l with deadline := l.deadline.map (· - 1) }

/-- Whether a lowered entry expires (R76). -/
def Lend.isExpired (l : Lend) : Bool := decide (l.deadline = some 0)

/-- R76, for one buffer record. -/
def BufRec.atMark (r : BufRec) : BufRec :=
  if r.state = .held ∧ r.sealed = true then
    let lends := r.lends.map Lend.lowered
    { r with
      lends := lends.filter fun l => !l.isExpired
      expired := (lends.filter Lend.isExpired).foldl (fun set l => addAgent l.borrower set) r.expired }
  else r

/-- Whether an entry of a buffer expires at a mark taken now (R76). -/
def BufRec.expiresAtMark (r : BufRec) : Bool :=
  decide (r.state = .held) && r.sealed && r.lends.any fun l => l.lowered.isExpired

/-- R76, R79: the mark at the custody unit; LEND_EXPIRED is set once if any entry expires. -/
def State.custodyMark (s : State) : State :=
  let s1 := { s with custody.bufs := mapAll s.custody.bufs BufRec.atMark }
  if s.custody.bufs.toList.any BufRec.expiresAtMark then s1.raise .lendExpired else s1

/-- R155: the mark at the edit stage: an ARMED group whose target is the mark's count is presented. -/
def State.editMark (s : State) (count : BitVec 32) : State :=
  if s.edit.group = .armed ∧ s.edit.target = some count then s.presentGroup (some count) else s

/-- A pending pair, if present, becomes the running pair (R142, R144). -/
def Timer.takePending (t : Timer) : Timer :=
  match t.pendingSet with
  | some c => { t with running := c, pendingSet := none }
  | none => t

/-- R142, steps 1 to 4: the mark at the timer. -/
def Timer.atMark (t : Timer) : Timer :=
  { t.takePending with position := 0, cycleCount := t.cycleCount + 1, markPin := true }

/-- R142: the mark: the timer's part, then the mark handed, with the new count, to the custody unit and the edit stage. The
rules give the same table for either order of those two (log 6). That no other event comes between the timer's part and the other
two is the model's choice: R145 lets PACING(OFF) find a group still ARMED there (log 34). -/
def State.makeMark (s : State) : State :=
  let s1 := { s with timer := s.timer.atMark }
  (s1.custodyMark.editMark s1.timer.cycleCount).kick

/-- R142: whether the next tick makes a mark. -/
def Timer.markDue (t : Timer) : Bool := t.pacing && decide (t.position + 1 = t.running.length)

/-- R142: the timer's part of a tick: a mark, or the position raised while pacing is ON. -/
def State.advanceCycle (s : State) : State :=
  if s.timer.markDue then s.makeMark
  else if s.timer.pacing then { s with timer.position := s.timer.position + 1 }
  else s

/-! ### The idle count (R168) -/

/-- R168: the idle count at a tick. -/
def State.countIdle (s : State) (sclLow : Bool) : State :=
  { s with mgmt.idleCount := if sclLow && decide (s.mgmt.receiver ≠ .idle) then s.mgmt.idleCount + 1 else 0 }

/-! ### The tick -/

/-- R123: a tag's time left at a tick. -/
def TagRec.atTick (r : TagRec) : TagRec :=
  { r with use := r.use.map fun u => { u with timeLeft := u.timeLeft - 1 } }

/-- R123, R128, R140: the memory port's counts at a tick. -/
def MemPort.atTick (m : MemPort) : MemPort :=
  { m with tags := mapAll m.tags TagRec.atTick, settling := m.settling.map (· - 1) }

/-- The tags whose expiry is due, lowest index first. -/
def State.dueTags (s : State) : List TagIndex := (List.finRange 64).filter s.expiryDue

/-- R123: the expiries still outstanding are taken, one by one. Where several are, the order is a free value (log 3). -/
def State.takeExpiries : Nat → State → State
  | 0, s => s
  | fuel + 1, s =>
    match s.dueTags with
    | [] => s
    | [i] => s.expireTag i
    | i :: is =>
      let k := (i :: is).getD (Config.freePick s.freeCount % (i :: is).length) i
      ({ s with freeCount := s.freeCount + 1 }.expireTag k).takeExpiries fuel

/-- The MARK pin returns low (R143). -/
def State.endPulse (s : State) : State := { s with timer.markPin := false }

/-- What an earlier tick left outstanding and no command has named: it comes before the next tick (log 2). -/
def State.settleOutstanding (s : State) : State := (s.endPulse.endSettling.takeExpiries 64).settleIdle

/-- The free value that orders two events of this tick (log 4). -/
def State.scanFirst (s : State) : Bool := Config.freeOrder s.freeCount

/-- R174: the examination of the tick and the mark of the same tick, in either order: a free value decides where both
happen. -/
def State.scanAndCycle (s : State) : State :=
  if s.mgmt.scan.isSome && s.timer.markDue then
    let s1 := { s with freeCount := s.freeCount + 1 }
    if s.scanFirst then s1.scanStep.advanceCycle else s1.advanceCycle.scanStep
  else s.scanStep.advanceCycle

/-- R170: where the idle count reaches its end at a tick of a scan, the timeout and the examination may be taken in either
order: a free value decides whether the timeout comes first; else it stays due. -/
def State.idleAgainstScan (s : State) : State :=
  if s.mgmt.idleDue && s.mgmt.scan.isSome then
    let s1 := { s with freeCount := s.freeCount + 1 }
    if s.scanFirst then s1 else s1.idleTimeout
  else s

/-- R140: one tick of the timebase: the divider begins again from 0; each busy tag's time left, the settling interval and
the idle count take it (R123, R128, R168); a FIND scan examines one record (R174); the cycle advances (R142). A mark and its
apply come before the expiries of the same tick: the model's choice, R162 allowing either order (log 30). So does the examination
of a scan, with R174 allowing either order (log 31). A mark comes before the end of a settling interval that has run on the same tick,
which is a later step: the model's choice too, no rule ordering them (log 37). -/
def State.tick (s : State) (sclLow : Bool) : State :=
  let s1 := s.settleOutstanding
  let s2 := { s1 with timer.divider := 0, mem := s1.mem.atTick }
  ((s2.countIdle sclLow).idleAgainstScan).scanAndCycle

/-- TICK (R140). While RESET is low no tick occurs. A tick that completes the cycle makes the mark (R142). -/
def execTick (sclLow : Bool) (s : State) : Host.Outcome State Fault Refusal :=
  .next (if s.resetLow then s else s.tick sclLow)

/-- MARK (R142): the tick that would raise the position to the running length, with all that a tick does. While pacing is
OFF, or at an earlier position, no mark is due and nothing happens (log 5). -/
def execMark (sclLow : Bool) (s : State) : Host.Outcome State Fault Refusal :=
  .next (if !s.resetLow && s.timer.markDue then s.tick sclLow else s)

/-- MARK_PULSE_END (R143). -/
def execMarkPulseEnd (s : State) : Host.Outcome State Fault Refusal := .next s.endPulse

/-- I2C_IDLE_TIMEOUT (R168), with the idle count at its end; before that nothing happens. -/
def execI2cIdleTimeout (s : State) : Host.Outcome State Fault Refusal :=
  .next (if s.resetLow then s else s.settleIdle)

/-! ### Timing commands -/

/-- R141. -/
def cmdSetTimebase (divisor : Nat) (s : State) : State :=
  if 10 ≤ divisor ∧ divisor ≤ 100 then
    { s with timer.divisor := divisor, timer.divider := 0 }.setAnswer .ok
  else s.setAnswer .range

/-- R146. -/
def cmdSetCycle (length guard : Nat) (s : State) : State :=
  if length < 64 ∨ 1048575 < length ∨ length - 1 < guard then s.setAnswer .range
  else if s.timer.pacing then { s with timer.pendingSet := some ⟨length, guard⟩ }.setAnswer .ok
  else { s with timer.running := ⟨length, guard⟩, timer.position := 0 }.setAnswer .ok

/-- R144, mode ON. -/
def cmdPacingOn (s : State) : State :=
  if s.timer.pacing then s.setAnswer .ok
  else { s with timer.pacing := true, timer.position := 0 }.setAnswer .ok

/-- R144, mode OFF: BUSY while a group is ARMED. -/
def cmdPacingOff (s : State) : State :=
  if s.timer.pacing = false then s.setAnswer .ok
  else if s.edit.group = .armed then s.setAnswer .busy
  else
    match s.timer.pendingSet with
    | some c =>
      { s with timer.pacing := false, timer.running := c, timer.pendingSet := none, timer.position := 0 }.setAnswer .ok
    | none => { s with timer.pacing := false }.setAnswer .ok

/-- R144: PACING with the mode byte of its frame (0 OFF, 1 ON). -/
def cmdPacing (mode : Nat) (s : State) : State :=
  match mode with
  | 0 => cmdPacingOff s
  | 1 => cmdPacingOn s
  | _ => s.setAnswer .range

/-- SET_TIMEBASE (R141). -/
def execSetTimebase (divisor : Byte) (s : State) : Host.Outcome State Fault Refusal :=
  .next (s.runCommand (cmdSetTimebase divisor.toNat))

/-- SET_CYCLE (R146). -/
def execSetCycle (length guard : BitVec 24) (s : State) : Host.Outcome State Fault Refusal :=
  .next (s.runCommand (cmdSetCycle length.toNat guard.toNat))

/-- PACING(ON) (R144). -/
def execPacingOn (s : State) : Host.Outcome State Fault Refusal := .next (s.runCommand cmdPacingOn)

/-- PACING(OFF) (R144). -/
def execPacingOff (s : State) : Host.Outcome State Fault Refusal := .next (s.runCommand cmdPacingOff)

end Sys2Proof.Machine
end

