-- ==== Sys2Proof/Machine/Bus.lean ====
section
/-! DEFINITION. The I2C target: addresses, data bytes, frames and the commands they run, reads of the answer (R166 to R171,
R180; 11.2). -/

namespace Sys2Proof.Machine

/-! ### Frames -/

/-- The number of argument bytes of a command code; none for an unknown code (11.2). -/
def argumentBytes (code : Nat) : Option Nat :=
  match code with
  | 0x01 => some 0
  | 0x02 => some 0
  | 0x10 => some 0
  | 0x11 => some 1
  | 0x12 => some 0
  | 0x13 => some 8
  | 0x14 => some 5
  | 0x15 => some 4
  | 0x16 => some 2
  | 0x17 => some 9
  | 0x18 => some 1
  | 0x19 => some 0
  | 0x20 => some 2
  | 0x21 => some 3
  | 0x22 => some 2
  | 0x23 => some 2
  | 0x30 => some 2
  | 0x31 => some 1
  | 0x32 => some 1
  | 0x33 => some 1
  | 0x40 => some 2
  | 0x41 => some 1
  | 0x42 => some 1
  | 0x43 => some 0
  | 0x44 => some 4
  | 0x50 => some 1
  | 0x51 => some 6
  | 0x52 => some 1
  | 0x53 => some 2
  | 0x60 => some 0
  | 0x61 => some 4
  | 0x62 => some 4
  | _ => none

/-- The command of a complete good frame, from its code and argument bytes (R171, R180, 11.2). -/
def frameCommand (addrPins : BitVec 2) (code : Nat) (args : List Byte) : State → State :=
  match code with
  | 0x01 => cmdIdentify
  | 0x02 => cmdPartReset addrPins
  | 0x10 => cmdOpenGroup
  | 0x11 => cmdCloseGroup (argument 0 1 args)
  | 0x12 => cmdAbandonGroup
  | 0x13 => stageEntry (defineEntry (argument 0 2 args) (argument 2 1 args) (argument 3 3 args) (argument 6 2 args))
  | 0x14 => stageEntry (moveEntry (argument 0 2 args) (argument 2 3 args))
  | 0x15 => stageEntry (resizeEntry (argument 0 2 args) (argument 2 2 args))
  | 0x16 => stageEntry (retireEntry (argument 0 2 args))
  | 0x17 =>
    stageEntry (poolEntry (argument 0 1 args) (BitVec.ofNat 16 (argument 1 2 args))
      (BitVec.ofNat 16 (argument 3 2 args)) (argument 5 1 args) (argument 6 1 args) (argument 7 2 args))
  | 0x18 => stageEntry (unpoolEntry (argument 0 1 args))
  | 0x19 => cmdReadGroup
  | 0x20 => cmdForceRelease (argument 0 2 args)
  | 0x21 => cmdForceReturn (argument 0 2 args) (argument 2 1 args)
  | 0x22 => cmdAdmit (argument 0 2 args)
  | 0x23 => cmdRescrub (argument 0 2 args)
  | 0x30 => cmdSetAgent (argument 0 1 args) (argument 1 1 args)
  | 0x31 => cmdAgentReset (argument 0 1 args)
  | 0x32 => cmdClearFault (argument 0 1 args)
  | 0x33 => cmdReadFault (argument 0 1 args)
  | 0x40 => cmdReadBuffer (argument 0 2 args)
  | 0x41 => cmdReadPool (argument 0 1 args)
  | 0x42 => cmdReadQueue (argument 0 1 args)
  | 0x43 => cmdReadCycle
  | 0x44 => cmdFind (argument 0 1 args) (argument 1 1 args) (argument 2 2 args)
  | 0x50 => cmdSetTimebase (argument 0 1 args)
  | 0x51 => cmdSetCycle (argument 0 3 args) (argument 3 3 args)
  | 0x52 => cmdPacing (argument 0 1 args)
  | 0x53 => cmdSetMemlimit (argument 0 2 args)
  | 0x60 => cmdReadNotices
  | 0x61 => cmdAckNotices (argument 0 4 args)
  | 0x62 => cmdSetNoticeEnable (argument 0 4 args)
  | _ => fun s => s.setAnswer .unknown

/-- R167: a frame judged and, where good, run. -/
def State.judgeFrame (s : State) (addrPins : BitVec 2) (frame : List Byte) : State :=
  match frame with
  | [] => s
  | code :: rest =>
    match argumentBytes code.toNat with
    | none => s.setAnswer .unknown
    | some n =>
      if rest.length < n + 1 then s.setAnswer .short
      else if frame.foldl (· + ·) 0 ≠ 0 then s.setAnswer .check
      else frameCommand addrPins code.toNat (rest.take n) s

/-- R167, R170: a write transaction to the port ends: the frame buffer is emptied, the receiver goes to IDLE, and the frame
is judged, or answered BUSY while a scan is under way. -/
def State.takeFrame (s : State) (addrPins : BitVec 2) : State :=
  let s1 := { s with mgmt.receiver := .idle, mgmt.frame := [], mgmt.idleCount := 0 }
  if s.mgmt.frame = [] then s1
  else
    match s.mgmt.scan with
    | some _ => s1.setAnswer .busy
    | none => s1.judgeFrame addrPins s.mgmt.frame

/-- Whether a write transaction to the port is open. -/
def Mgmt.writing (m : Mgmt) : Bool := decide (m.receiver = .receiving) || decide (m.receiver = .discarding)

/-- FRAME_TAKEN (R167): STOP at the end of a write transaction. With none open, nothing happens. -/
def execFrameTaken (addrPins : BitVec 2) (s : State) : Host.Outcome State Fault Refusal :=
  .next
    (if s.resetLow then s
    else if s.settleIdle.mgmt.writing then s.settleIdle.takeFrame addrPins else s.settleIdle)

/-! ### Addresses and data bytes -/

/-- R166: a repeated START that ends a write transaction takes its frame first. -/
def State.endWrite (s : State) (addrPins : BitVec 2) : State := if s.mgmt.writing then s.takeFrame addrPins else s

/-- R166: the address byte compared with the own address. A read sends the answer as it stands now (R169). -/
def State.compareAddress (s : State) (address : BitVec 7) (read : Bool) : State :=
  if address = s.mgmt.ownAddress then
    if read then
      { s with
        mgmt.receiver := .sending, mgmt.sendRest := s.mgmt.answer.frame, mgmt.idleCount := 0 }.sendBus (.ack true)
    else { s with mgmt.receiver := .receiving, mgmt.sendRest := [], mgmt.idleCount := 0 }.sendBus (.ack true)
  else { s with mgmt.receiver := .idle, mgmt.sendRest := [], mgmt.idleCount := 0 }.sendBus (.ack false)

/-- I2C_ADDRESS (R166). While RESET is low no byte is acknowledged (R165). -/
def execI2cAddress (address : BitVec 7) (read : Bool) (addrPins : BitVec 2) (s : State) :
    Host.Outcome State Fault Refusal :=
  .next
    (if s.resetLow then s.sendBus (.ack false)
    else (s.settleIdle.endWrite addrPins).compareAddress address read)

/-- R167: a data byte in RECEIVING: appended; acknowledged where the code is known; DISCARDING after an unknown code or the
check byte. -/
def State.receiveByte (s : State) (b : Byte) : State :=
  let frame := s.mgmt.frame ++ [b]
  let s1 := { s with mgmt.frame := frame, mgmt.idleCount := 0 }
  match argumentBytes (frame.headD 0).toNat with
  | none => { s1 with mgmt.receiver := .discarding }.sendBus (.ack false)
  | some n =>
    if n + 2 ≤ frame.length then { s1 with mgmt.receiver := .discarding }.sendBus (.ack true)
    else s1.sendBus (.ack true)

/-- I2C_DATA_BYTE (R167). Outside RECEIVING the port stores nothing and acknowledges nothing. -/
def execI2cDataByte (b : Byte) (s : State) : Host.Outcome State Fault Refusal :=
  .next
    (if s.resetLow then s.sendBus (.ack false)
    else
      let s1 := s.settleIdle
      match s1.mgmt.receiver with
      | .receiving => s1.receiveByte b
      | .idle => s1.sendBus (.ack false)
      | .discarding => { s1 with mgmt.idleCount := 0 }.sendBus (.ack false)
      | .sending => { s1 with mgmt.idleCount := 0 }.sendBus (.ack false))

/-! ### Reads of the answer -/

/-- R169: one byte sent for each entry of `acks`; after the check byte, and after a byte the host did not acknowledge, 0xFF. -/
def State.sendBytes (s : State) : List Bool → State
  | [] => s
  | acknowledged :: more =>
    let s1 := s.sendBus (.byte (s.mgmt.sendRest.headD 0xFF))
    { s1 with mgmt.sendRest := if acknowledged then s.mgmt.sendRest.tail else [] }.sendBytes more

/-- ANSWER_READ (R169), in SENDING; a STOP ends the read. In another receiver state the port sends nothing. -/
def execAnswerRead (acks : List Bool) (stop : Bool) (s : State) : Host.Outcome State Fault Refusal :=
  .next
    (if s.resetLow then s
    else
      let s1 := s.settleIdle
      match s1.mgmt.receiver with
      | .sending =>
        let s2 := { s1 with mgmt.idleCount := 0 }.sendBytes acks
        if stop then { s2 with mgmt.receiver := .idle, mgmt.sendRest := [] } else s2
      | .idle => s1
      | .receiving => s1
      | .discarding => s1)

end Sys2Proof.Machine
end

