-- ==== Sys2Proof/Machine/Reset.lean ====
section
/-! DEFINITION. The RESET pin: RESET_ASSERT and RESET_RELEASE (R181). -/

namespace Sys2Proof.Machine

/-- RESET_ASSERT (R181). Whatever is under way is lost without response or answer; the notice set is clear, MARK low, the
divider at 0. Every block stands at its part-reset values from assertion on (log 11); the own address is sampled at release. -/
def execResetAssert (s : State) : Host.Outcome State Fault Refusal :=
  .next
    (if s.resetLow then s
    else
      let s1 := s.partReset 0
      { s1 with mgmt.ownAddress := s.mgmt.ownAddress, resetLow := true })

/-- RESET_RELEASE (R181), after an assertion: every block at its part-reset values, the ADDR pins sampled, the link DOWN,
the settling interval started. -/
def execResetRelease (addrPins : BitVec 2) (s : State) : Host.Outcome State Fault Refusal :=
  .next (if s.resetLow then s.partReset addrPins else s)

end Sys2Proof.Machine
end

