-- ==== Sys2Proof/Machine/StagePort.lean ====
section
/-! DEFINITION. The stage port and the access checker: TRANSACTION_ISSUE, INPUT_ARBITER_GRANT, HELD_ACCESS_RECHECK. -/

namespace Sys2Proof.Machine

/-- TRANSACTION_ISSUE (R84). A transaction is accepted into its agent's empty waiting place. While the place is occupied,
or RESET is low (R98), the request channel is held off and the transaction stays at the agent (log 19). The grant is never part of
this step, also where the checker is ready: it is a row of its own, before which other rows may come (log 32). -/
def execTransactionIssue (t : Txn) (s : State) : Host.Outcome State Fault Refusal :=
  .next (if s.resetLow || (s.waiting t.agent).isSome then s else s.setWaiting t.agent (some t))

/-- The agents in the order in which the arbiter looks at them: upward from the one after the pointer, 0 following 15,
the pointer itself last (R90). -/
def searchOrder (pointer : Agent) : List Agent := (List.finRange 16).map fun k => pointer + 1 + k

/-- R90: the checker is ready when it holds no transaction. -/
def State.checkerReady (s : State) : Bool := s.checker.hold.isNone

/-- R90: the agent the input arbiter grants, if any. -/
def State.nextGranted (s : State) : Option Agent :=
  if s.checkerReady then (searchOrder s.stage.pointer).find? fun a => (s.waiting a).isSome else none

/-- R111, R112: a passing access is answered MEM_DOWN with the link DOWN, forwarded under the lowest-index free tag, the
preference turning to the scrub engine (R125), or held for a tag. -/
def State.passingAccess (s : State) (t : Txn) (h : Handle) : State :=
  match s.mem.link, s.mem.settling, freeTags s.mem with
  | .down, _, _ => s.answerTxn t .memDown
  | .up, none, i :: _ => { s.forward t h i with mem.preference := .scrub }
  | .up, _, _ => { s.setEntry t.agent t.tag (some .tagWait) with checker.hold := some t }

/-- R105: a routed transaction to handle 0: a WRITE is a custody request, a READ is a status read. -/
def State.aperture (s : State) (t : Txn) : State :=
  match t.kind with
  | .write =>
    let (s1, w) := s.custodyRequest t.agent t.data
    s1.answerTxn t .done w.word
  | .read => s.answerTxn t .done (s.statusWord t.agent)

/-- R102: the access checker takes a transaction and makes its checks in order. -/
def State.takeTxn (s : State) (t : Txn) : State :=
  if s.online t.agent = false then s.answerTxn t .agentOffline
  else if (s.entry t.agent t.tag).isSome then s.refuse t .tagReuse none
  else if t.shapeOk = false then s.refuse t .shape none
  else
    match t.handle with
    | none => s.aperture t
    | some h =>
      match s.accessCheck t h with
      | some k => s.refuse t k (some (s.buf h).state)
      | none => s.passingAccess t h

/-- INPUT_ARBITER_GRANT (R90). With the checker ready, the next occupied waiting place is emptied, the pointer set to its
agent and its transaction handed to the checker. A release that fills the scrub queue, for instance, is followed at once by
the engine's taking of the head (R132). With nothing to grant, nothing changes. R90 has a lone arrival granted at once; the model
grants when this row is taken, whatever rows came since the arrival: its choice (log 32). -/
def execInputArbiterGrant (s : State) : Host.Outcome State Fault Refusal :=
  .next
    (if s.resetLow then s
    else
      match s.nextGranted with
      | none => s
      | some a =>
        match s.waiting a with
        | none => s
        | some t => ({ s.setWaiting a none with stage.pointer := a }.takeTxn t).kick)

/-- HELD_ACCESS_RECHECK (R113). The arbiter serves a standing request of the held access while a tag is free; with the link
DOWN the held access is answered. The events that free a tag or lower the link do this themselves, in the same event (log 1). -/
def execHeldAccessRecheck (s : State) : Host.Outcome State Fault Refusal :=
  .next
    (if s.resetLow || s.checkerReady then s
    else
      match s.mem.link with
      | .up => s.arbitrate
      | .down => s.recheckDown)

end Sys2Proof.Machine
end

