-- ==== Sys2Proof/Machine/Dispatch.lean ====
section
/-! DEFINITION. One arm per command, each one direct call of its meaning. -/

namespace Sys2Proof.Machine

def exec (i : Instr) (s : State) : Host.Outcome State Fault Refusal :=
  match i with
  | .transactionIssue t => Sys2Proof.Machine.execTransactionIssue t s
  | .inputArbiterGrant => Sys2Proof.Machine.execInputArbiterGrant s
  | .heldAccessRecheck => Sys2Proof.Machine.execHeldAccessRecheck s
  | .memoryResponse tagByte good data => Sys2Proof.Machine.execMemoryResponse tagByte good data s
  | .drainCompletion h => Sys2Proof.Machine.execDrainCompletion h s
  | .scrubCompletion => Sys2Proof.Machine.execScrubCompletion s
  | .scrubFailure => Sys2Proof.Machine.execScrubFailure s
  | .scrubTakeHead => Sys2Proof.Machine.execScrubTakeHead s
  | .tick sclLow => Sys2Proof.Machine.execTick sclLow s
  | .tagExpiry index => Sys2Proof.Machine.execTagExpiry index s
  | .mark sclLow => Sys2Proof.Machine.execMark sclLow s
  | .markPulseEnd => Sys2Proof.Machine.execMarkPulseEnd s
  | .settlingIntervalEnd => Sys2Proof.Machine.execSettlingIntervalEnd s
  | .linkDown => Sys2Proof.Machine.execLinkDown s
  | .linkUp => Sys2Proof.Machine.execLinkUp s
  | .resetAssert => Sys2Proof.Machine.execResetAssert s
  | .resetRelease addrPins => Sys2Proof.Machine.execResetRelease addrPins s
  | .i2cAddress address read addrPins => Sys2Proof.Machine.execI2cAddress address read addrPins s
  | .frameTaken addrPins => Sys2Proof.Machine.execFrameTaken addrPins s
  | .answerRead acks stop => Sys2Proof.Machine.execAnswerRead acks stop s
  | .i2cIdleTimeout => Sys2Proof.Machine.execI2cIdleTimeout s
  | .openGroup => Sys2Proof.Machine.execOpenGroup s
  | .stageDefine handle pool base length => Sys2Proof.Machine.execStageDefine handle pool base length s
  | .stageMove handle base => Sys2Proof.Machine.execStageMove handle base s
  | .stageResize handle length => Sys2Proof.Machine.execStageResize handle length s
  | .stageRetire handle => Sys2Proof.Machine.execStageRetire handle s
  | .stagePool pool claimSet borrowSet scrub lendLimit lowMark => Sys2Proof.Machine.execStagePool pool claimSet borrowSet scrub lendLimit lowMark s
  | .stageUnpool pool => Sys2Proof.Machine.execStageUnpool pool s
  | .closeGroupNow => Sys2Proof.Machine.execCloseGroupNow s
  | .closeGroupMark => Sys2Proof.Machine.execCloseGroupMark s
  | .abandonGroup => Sys2Proof.Machine.execAbandonGroup s
  | .readGroup => Sys2Proof.Machine.execReadGroup s
  | .forceRelease handle => Sys2Proof.Machine.execForceRelease handle s
  | .forceReturn handle borrower => Sys2Proof.Machine.execForceReturn handle borrower s
  | .admitBuffer handle => Sys2Proof.Machine.execAdmitBuffer handle s
  | .rescrub handle => Sys2Proof.Machine.execRescrub handle s
  | .setAgent agent mode => Sys2Proof.Machine.execSetAgent agent mode s
  | .agentReset agent => Sys2Proof.Machine.execAgentReset agent s
  | .clearFault agent => Sys2Proof.Machine.execClearFault agent s
  | .readFault agent => Sys2Proof.Machine.execReadFault agent s
  | .readBuffer handle => Sys2Proof.Machine.execReadBuffer handle s
  | .readPool pool => Sys2Proof.Machine.execReadPool pool s
  | .readQueue agent => Sys2Proof.Machine.execReadQueue agent s
  | .readCycle => Sys2Proof.Machine.execReadCycle s
  | .find kind value start => Sys2Proof.Machine.execFind kind value start s
  | .setTimebase divisor => Sys2Proof.Machine.execSetTimebase divisor s
  | .setCycle length guard => Sys2Proof.Machine.execSetCycle length guard s
  | .pacingOn => Sys2Proof.Machine.execPacingOn s
  | .pacingOff => Sys2Proof.Machine.execPacingOff s
  | .setMemlimit limit => Sys2Proof.Machine.execSetMemlimit limit s
  | .readNotices => Sys2Proof.Machine.execReadNotices s
  | .ackNotices positions => Sys2Proof.Machine.execAckNotices positions s
  | .setNoticeEnable positions => Sys2Proof.Machine.execSetNoticeEnable positions s
  | .identify => Sys2Proof.Machine.execIdentify s
  | .partReset addrPins => Sys2Proof.Machine.execPartReset addrPins s
  | .i2cDataByte b => Sys2Proof.Machine.execI2cDataByte b s

end Sys2Proof.Machine
end

