-- ==== Sys2Proof/Machine/Frames.lean ====
section
/-! DEFINITION. What senders write: the frame of a management command (11.2) and the word of a custody request (11.1). The
part itself only reads these (Machine/Bus.lean, Machine/Operands.lean); statements are made over them. -/

namespace Sys2Proof.Machine

/-- A write frame: code, argument bytes, and the check byte that makes the 8-bit sum 0 (11.2). -/
def writeFrame (code : Nat) (args : List Byte) : List Byte :=
  let body := BitVec.ofNat 8 code :: args
  body ++ [checkByte body]

/-- The frame of a management command (11.2); none for the rows that are no management command. -/
def hostFrame : Instr → Option (List Byte)
  | .identify => some (writeFrame 0x01 [])
  | .partReset _ => some (writeFrame 0x02 [])
  | .openGroup => some (writeFrame 0x10 [])
  | .closeGroupNow => some (writeFrame 0x11 (le 1 0))
  | .closeGroupMark => some (writeFrame 0x11 (le 1 1))
  | .abandonGroup => some (writeFrame 0x12 [])
  | .stageDefine h p b l => some (writeFrame 0x13 (le 2 h.toNat ++ le 1 p.toNat ++ le 3 b.toNat ++ le 2 l.toNat))
  | .stageMove h b => some (writeFrame 0x14 (le 2 h.toNat ++ le 3 b.toNat))
  | .stageResize h l => some (writeFrame 0x15 (le 2 h.toNat ++ le 2 l.toNat))
  | .stageRetire h => some (writeFrame 0x16 (le 2 h.toNat))
  | .stagePool p c b sc ll lm =>
    some (writeFrame 0x17
      (le 1 p.toNat ++ le 2 c.toNat ++ le 2 b.toNat ++ le 1 sc.toNat ++ le 1 ll.toNat ++ le 2 lm.toNat))
  | .stageUnpool p => some (writeFrame 0x18 (le 1 p.toNat))
  | .readGroup => some (writeFrame 0x19 [])
  | .forceRelease h => some (writeFrame 0x20 (le 2 h.toNat))
  | .forceReturn h b => some (writeFrame 0x21 (le 2 h.toNat ++ le 1 b.toNat))
  | .admitBuffer h => some (writeFrame 0x22 (le 2 h.toNat))
  | .rescrub h => some (writeFrame 0x23 (le 2 h.toNat))
  | .setAgent a m => some (writeFrame 0x30 (le 1 a.toNat ++ le 1 m.toNat))
  | .agentReset a => some (writeFrame 0x31 (le 1 a.toNat))
  | .clearFault a => some (writeFrame 0x32 (le 1 a.toNat))
  | .readFault a => some (writeFrame 0x33 (le 1 a.toNat))
  | .readBuffer h => some (writeFrame 0x40 (le 2 h.toNat))
  | .readPool p => some (writeFrame 0x41 (le 1 p.toNat))
  | .readQueue a => some (writeFrame 0x42 (le 1 a.toNat))
  | .readCycle => some (writeFrame 0x43 [])
  | .find k v st => some (writeFrame 0x44 (le 1 k.toNat ++ le 1 v.toNat ++ le 2 st.toNat))
  | .setTimebase d => some (writeFrame 0x50 (le 1 d.toNat))
  | .setCycle l g => some (writeFrame 0x51 (le 3 l.toNat ++ le 3 g.toNat))
  | .pacingOff => some (writeFrame 0x52 (le 1 0))
  | .pacingOn => some (writeFrame 0x52 (le 1 1))
  | .setMemlimit l => some (writeFrame 0x53 (le 2 l.toNat))
  | .readNotices => some (writeFrame 0x60 [])
  | .ackNotices n => some (writeFrame 0x61 (le 4 n.toNat))
  | .setNoticeEnable n => some (writeFrame 0x62 (le 4 n.toNat))
  | .transactionIssue _ => none
  | .inputArbiterGrant => none
  | .heldAccessRecheck => none
  | .memoryResponse _ _ _ => none
  | .drainCompletion _ => none
  | .scrubCompletion => none
  | .scrubFailure => none
  | .scrubTakeHead => none
  | .tick _ => none
  | .tagExpiry _ => none
  | .mark _ => none
  | .markPulseEnd => none
  | .settlingIntervalEnd => none
  | .linkDown => none
  | .linkUp => none
  | .resetAssert => none
  | .resetRelease _ => none
  | .i2cAddress _ _ _ => none
  | .frameTaken _ => none
  | .answerRead _ _ => none
  | .i2cIdleTimeout => none
  | .i2cDataByte _ => none

/-- The eight bytes of a custody request: kind, generation, handle, argument, three zeros (11.1, R179). -/
def requestBytes (kind : Nat) (generation : BitVec 8) (handle argument : Nat) : List Byte :=
  le 1 kind ++ [generation] ++ le 2 handle ++ le 1 argument ++ le 3 0

/-- The request word of a custody request (11.1). -/
def Request.word : Request → List Byte
  | .claim p => requestBytes 1 0 0 p.val
  | .release h g => requestBytes 2 g (handleNum h) 0
  | .pass h g t => requestBytes 3 g (handleNum h) t.val
  | .accept => requestBytes 4 0 0 0
  | .recall h g => requestBytes 5 g (handleNum h) 0
  | .seal h g => requestBytes 6 g (handleNum h) 0
  | .unseal h g => requestBytes 7 g (handleNum h) 0
  | .lend h g b => requestBytes 8 g (handleNum h) b.val
  | .giveBack h g => requestBytes 9 g (handleNum h) 0

end Sys2Proof.Machine
end

