-- ==== Sys2Proof/Safety.lean ====
section
/-! DEFINITION. The laws that statements are made of: conditions under which a command is taken, and laws of the state that
every step keeps. Each says in the spec's own terms what it asks, without the operations that keep it. -/

namespace Sys2Proof.Machine

/-! ### When a command is taken -/

/-- A management command is run: RESET is high, the command state is READY (R170, R181), and no idle timeout is outstanding, which
would come first (R168, log 2). -/
def State.ready (s : State) : Prop :=
  s.resetLow = false ∧ s.mgmt.scan = none ∧ (s.mgmt.receiver = .idle ∨ s.mgmt.idleCount < Config.idleTicks)

/-- The arbiter may grant: link UP, settling interval run, and a memory tag free (R125, R126, R128). -/
def State.mayGrant (s : State) : Prop := s.mem.link = .up ∧ s.mem.settling = none ∧ ∃ i, (s.tag i).use = none

/-- R125, R132: no request that could be granted stands ungranted, and no handle waits for an engine that could take it. -/
def State.quiet (s : State) : Prop :=
  (s.mayGrant → s.checker.hold = none ∧ s.scrub.engine.wants = false) ∧
    (s.scrub.engine = .idle → s.mem.link = .up → s.scrub.queue = [])

/-- The scrub engine has nothing to do: IDLE, with an empty queue. -/
def State.scrubIdle (s : State) : Prop := s.scrub.engine = .idle ∧ s.scrub.queue = []

/-- The transaction that the next grant of the input arbiter takes (R90): RESET high, checker ready, `d` empty places after
the pointer, then agent `a`'s place holding `t`. -/
def State.nextTxn (s : State) (a : Agent) (t : Txn) : Prop :=
  s.resetLow = false ∧ s.checker.hold = none ∧ s.waiting a = some t ∧ t.agent = a ∧
    ∃ d : Fin 16, a = s.stage.pointer + 1 + d ∧ ∀ k : Fin 16, k < d → s.waiting (s.stage.pointer + 1 + k) = none

/-- The state in which the granted transaction of agent `a` is judged: its place empty, the pointer at `a` (R90). -/
def State.granted (s : State) (a : Agent) : State := { s.setWaiting a none with stage.pointer := a }

/-- No event of an earlier tick is outstanding: no pulse, no expiry, no settling end, no idle timeout (log 2). -/
def State.nothingDue (s : State) : Prop :=
  s.timer.markPin = false ∧ s.mem.settling ≠ some 0 ∧ (∀ i u, (s.tag i).use = some u → u.timeLeft ≠ 0) ∧
    (s.mgmt.receiver = .idle ∨ s.mgmt.idleCount < Config.idleTicks)

/-! ### Part reset -/

/-- The part-reset values of every block, as the rules give them: R4, R23, R45, R98, R116, R120, R125, R128, R130, R131, R139,
R149, R165. (A VOID record has no pool, base, length or written mark: log 14.) -/
structure State.AtPartReset (s : State) (pins : BitVec 2) : Prop where
  records : ∀ h, (s.buf h).state = .void ∧ (s.buf h).generation = 0 ∧ (s.buf h).custodian = none ∧ (s.buf h).target = none ∧
    (s.buf h).sealed = false ∧ (s.buf h).lends = [] ∧ (s.buf h).expired = 0 ∧ (s.buf h).inFlight = 0
  pools : ∀ p, (s.pool p).defined = false ∧ (s.pool p).claimSet = 0 ∧ (s.pool p).borrowSet = 0 ∧ (s.pool p).scrubs = false ∧
    (s.pool p).lendLimit = 0 ∧ (s.pool p).lowMark = 0 ∧ (s.pool p).tripped = false ∧ (s.pool p).freeList = [] ∧
    (s.pool p).members = 0
  queues : ∀ a, s.queue a = []
  stagePort : (∀ a, s.waiting a = none) ∧ (∀ a g, s.entry a g = none) ∧ s.stage.pointer = 15
  checker : (∀ a, (s.agent a).online = false ∧ (s.agent a).slot = none) ∧ s.checker.hold = none
  memory : (∀ i, (s.tag i).use = none ∧ (s.tag i).generation = 0) ∧ s.mem.link = .down ∧ s.mem.settling = some 1024 ∧
    s.mem.preference = .checker
  scrub : s.scrub.queue = [] ∧ s.scrub.engine = .idle
  timer : s.timer.divisor = 25 ∧ s.timer.divider = 0 ∧ s.timer.pacing = false ∧ s.timer.running = ⟨33333, 1000⟩ ∧
    s.timer.pendingSet = none ∧ s.timer.position = 0 ∧ s.timer.cycleCount = 0 ∧ s.timer.markPin = false
  edit : s.edit.group = .idle ∧ s.edit.staged = [] ∧ s.edit.target = none ∧ s.edit.outcome = none
  port : s.mgmt.ownAddress = 0x38#7 + pins.setWidth 7 ∧ s.mgmt.receiver = .idle ∧ s.mgmt.frame = [] ∧ s.mgmt.scan = none ∧
    s.mgmt.answer = ⟨.none, []⟩ ∧ s.mgmt.notices = 0 ∧ s.mgmt.enable = 0 ∧ s.mgmt.memLimit = 255 ∧ s.mgmt.idleCount = 0

/-! ### The custody table -/

/-- R3: the fields of a record that its state leaves absent or fixes; R2: at most 4 lends, and a target that is not the
custodian. The absent pool, base and length of a VOID record stand at 0, as READ_BUFFER sends them (R180): log 14. -/
structure BufRec.Fits (r : BufRec) : Prop where
  custodian : r.custodian ≠ none → r.state = .held ∨ r.state = .inTransit
  target : r.target ≠ none → r.state = .inTransit ∧ r.target ≠ r.custodian
  sealed : r.sealed = true → r.state = .held ∨ r.state = .inTransit
  lends : r.lends ≠ [] → r.state = .held ∧ r.sealed = true
  lendCount : r.lends.length ≤ Config.lendCapacity
  expired : r.expired ≠ 0 → r.state = .held ∨ r.state = .inTransit ∨ r.state = .draining
  inFlight : 0 < r.inFlight → r.state = .held ∨ r.state = .inTransit ∨ r.state = .draining
  draining : r.state = .draining → 0 < r.inFlight
  written : r.written = true → r.state ≠ .void ∧ r.state ≠ .free
  place : r.state = .void → r.pool = 0 ∧ r.base = 0 ∧ r.length = 0

/-- R3 for every record. -/
def State.recordsFit (s : State) : Prop := ∀ h, (s.buf h).Fits

/-- R3: a HELD or IN_TRANSIT buffer has a custodian, an IN_TRANSIT one a transit target. -/
structure BufRec.RolesPresent (r : BufRec) : Prop where
  custodian : r.state = .held ∨ r.state = .inTransit → r.custodian ≠ none
  target : r.state = .inTransit → r.target ≠ none

/-- The present half of R3 for every record. -/
def State.rolesPresent (s : State) : Prop := ∀ h, (s.buf h).RolesPresent

/-- The handle in the scrub engine's context, if any (R131). -/
def Engine.handle : Engine → Option Handle
  | .idle => none
  | .issuing c => some c.handle
  | .paused c => some c.handle
  | .failing c => some c.handle

/-- R5: where a handle is kept follows from its buffer's state, and it stands nowhere twice. -/
structure State.Collected (s : State) : Prop where
  free : ∀ p h, h ∈ (s.pool p).freeList ↔ (s.buf h).state = .free ∧ (s.buf h).pool = p
  freeOnce : ∀ p, (s.pool p).freeList.Nodup
  transit : ∀ a h, h ∈ s.queue a ↔ (s.buf h).state = .inTransit ∧ (s.buf h).target = some a
  transitOnce : ∀ a, (s.queue a).Nodup
  scrub : ∀ h, (h ∈ s.scrub.queue ∨ s.scrub.engine.handle = some h) ↔ (s.buf h).state = .scrubbing
  scrubOnce : s.scrub.queue.Nodup ∧ ∀ h, s.scrub.engine.handle = some h → h ∉ s.scrub.queue

/-- R3 and R5 together. -/
def State.custodyLawful (s : State) : Prop := s.recordsFit ∧ s.rolesPresent ∧ s.Collected

/-- R26: the member count of each pool is the number of non-VOID buffers that name it. -/
def State.membersCounted (s : State) : Prop :=
  ∀ p, (s.pool p).members =
    ((List.finRange 511).filter fun h => decide ((s.buf h).state ≠ .void) && decide ((s.buf h).pool = p)).length

/-- R34: after every event the low flag is TRIPPED exactly when the free count is below the low mark. -/
def State.lowFlagsFollow (s : State) : Prop :=
  ∀ p, (s.pool p).tripped = decide ((s.pool p).freeList.length < (s.pool p).lowMark)

/-- Whether a memory tag is held by an access to a buffer (R120). -/
def TagRec.heldFor (r : TagRec) (h : Handle) : Bool :=
  match r.use with
  | some ⟨.access _ _ k, _⟩ => decide (k = h)
  | some ⟨.burst _ _, _⟩ => false
  | none => false

/-- R10, R120: the in-flight count of each buffer is the number of memory tags that accesses to it hold. -/
def State.inFlightCounted (s : State) : Prop :=
  ∀ h, (s.buf h).inFlight = ((List.finRange 64).filter fun i => (s.tag i).heldFor h).length

/-- The bursts in flight in the scrub engine's context, each with the tag it holds (R131). -/
def Engine.bursts : Engine → List (Nat × TagIndex)
  | .idle => []
  | .issuing c => c.inFlight
  | .paused c => c.inFlight
  | .failing c => c.inFlight

/-- R120: a memory tag is held by a burst exactly while the engine's context lists that burst with that tag. -/
def State.burstsHoldTags (s : State) : Prop :=
  ∀ i h n, (∃ m, (s.tag i).use = some ⟨.burst h n, m⟩) ↔ s.scrub.engine.handle = some h ∧ (n, i) ∈ s.scrub.engine.bursts

/-- R120: the number of busy tags is the sum of all in-flight counts and the bursts in flight. -/
def State.tagsAccounted (s : State) : Prop :=
  ((List.finRange 64).filter fun i => (s.tag i).use.isSome).length =
    ((List.finRange 511).map fun h => (s.buf h).inFlight).sum + s.scrub.engine.bursts.length

/-- R87, R88, R112: an IN_MEMORY entry names a busy tag of that access by its generation; the TAG_WAIT entry is that of the
transaction in the hold place, which names a buffer. -/
structure State.EntriesAgree (s : State) : Prop where
  inMemory : ∀ a g i k, s.entry a g = some (.inMemory i k) →
    (s.tag i).generation = k ∧ ∃ h m, (s.tag i).use = some ⟨.access a g h, m⟩
  tagWait : ∀ a g, s.entry a g = some .tagWait ↔ ∃ t, s.checker.hold = some t ∧ t.agent = a ∧ t.tag = g
  held : ∀ t, s.checker.hold = some t → t.handle ≠ none

/-- R44: no inbound queue holds more than 8 handles. -/
def State.queuesBounded (s : State) : Prop := ∀ a, (s.queue a).length ≤ Config.queueCapacity

/-! ### The other blocks -/

/-- R115: an agent's FAULT bit is set exactly while its fault slot is occupied. -/
def State.faultBitsFollow (s : State) : Prop := ∀ a, s.notice (.fault a) = (s.agent a).slot.isSome

/-- R149, R155: at most 32 staged entries, none in IDLE; a target in ARMED alone; pacing ON while ARMED. -/
structure State.EditLaws (s : State) : Prop where
  capacity : s.edit.staged.length ≤ Config.stagedCapacity
  idle : s.edit.group = .idle → s.edit.staged = []
  target : s.edit.target.isSome = true ↔ s.edit.group = .armed
  paced : s.edit.group = .armed → s.timer.pacing = true

/-- The range of a cycle length with its guard (R139). -/
def CycleSet.InRange (c : CycleSet) : Prop := 64 ≤ c.length ∧ c.length ≤ 1048575 ∧ c.guard < c.length

/-- R139: the ranges of the timer's fields; a pending pair while pacing is ON alone (R144, R146). -/
structure Timer.InRange (t : Timer) : Prop where
  divisor : 10 ≤ t.divisor ∧ t.divisor ≤ 100
  running : t.running.InRange
  pending : ∀ c, t.pendingSet = some c → c.InRange ∧ t.pacing = true
  position : t.position < t.running.length

/-- R128: while the link is DOWN no tag is busy. -/
def State.downIsFree (s : State) : Prop := s.mem.link = .down → ∀ i, (s.tag i).use = none

/-- What a context keeps (R131): the issue point is at most the burst count; at most 4 bursts are in flight, each once and
below the issue point. -/
structure ScrubCtx.InRange (c : ScrubCtx) : Prop where
  issue : c.issue ≤ c.count
  room : c.inFlight.length ≤ Config.burstCapacity
  below : ∀ b, b ∈ c.inFlight → b.1 < c.issue
  once : (c.inFlight.map Prod.fst).Nodup

/-- R131: each engine state with its link state; PAUSED has no burst in flight, FAILING has one. -/
def State.scrubLaws (s : State) : Prop :=
  match s.scrub.engine with
  | .idle => True
  | .issuing c => c.InRange ∧ s.mem.link = .up
  | .paused c => c.InRange ∧ c.inFlight = [] ∧ s.mem.link = .down
  | .failing c => c.InRange ∧ c.inFlight ≠ [] ∧ s.mem.link = .up

/-- R165, R167: what the frame buffer may hold in each receiver state. Outside a write it is empty; a RECEIVING frame is shorter
than its command's frame; a DISCARDING one is an unknown code, or at most as long as its command's frame. -/
def Mgmt.frameFits (m : Mgmt) : Prop :=
  match m.receiver with
  | .idle => m.frame = []
  | .sending => m.frame = []
  | .receiving => m.frame = [] ∨ ∃ n, argumentBytes (m.frame.headD 0).toNat = some n ∧ m.frame.length < n + 2
  | .discarding => m.frame.length = 1 ∨ ∃ n, argumentBytes (m.frame.headD 0).toNat = some n ∧ m.frame.length ≤ n + 2

/-- R165: the ranges of the port's fields. -/
structure Mgmt.InRange (m : Mgmt) : Prop where
  ownAddress : 0x38#7 ≤ m.ownAddress ∧ m.ownAddress ≤ 0x3B#7
  memLimit : 1 ≤ m.memLimit ∧ m.memLimit ≤ 1023
  payload : m.answer.payload.length ≤ 24
  idleCount : m.idleCount ≤ Config.idleTicks
  frame : m.frameFits

end Sys2Proof.Machine
end

