-- ==== Sys2Proof/Certificates/Slice0/Obligations.lean ====
section
/-! DEFINITION. The statements for the provers. Each is a claim about `step`, `exec` or one of the operations that they call. -/

open Sys2Proof Sys2Proof.Machine

/-! ### The queue -/

/-- Taking a command from the front of the queue is running it on the state with the queue's rest. On an empty queue the part
idles, which is the model's choice: log 7. -/
def Obligations.StepRunsTheFrontCommand : Prop :=
  (∀ (c : Instr) (s : State), step { s with pending := c :: s.pending } = exec c s) ∧
    ∀ s : State, s.pending = [] → step s = .next s

/-- Every command in every state has a next state, and leaves the queue as it stands. -/
def Obligations.EveryCommandHasANextState : Prop :=
  ∀ (c : Instr) (s : State), ∃ t, exec c s = .next t ∧ t.pending = s.pending

/-! ### Reset -/

/-- R178, R181: PART_RESET and the release of RESET put every block at its part-reset values; nothing is sent. -/
def Obligations.PartResetValues : Prop :=
  ∀ (s : State) (pins : BitVec 2),
    (s.ready → ∃ t, exec (.partReset pins) s = .next t ∧ t.AtPartReset pins ∧ t.resetLow = false ∧ t.sent = s.sent) ∧
    (s.resetLow = true →
      ∃ t, exec (.resetRelease pins) s = .next t ∧ t.AtPartReset pins ∧ t.resetLow = false ∧ t.sent = s.sent) ∧
    (s.resetLow = false → exec (.resetRelease pins) s = .next s)

/-- R181: assertion of RESET, and what the part does while RESET is low. That the records already stand at their part-reset
values during the assertion is the model's reading: log 11. -/
def Obligations.ResetLowHoldsThePart : Prop :=
  (∀ s : State, s.resetLow = false →
    ∃ t, exec .resetAssert s = .next t ∧ t.resetLow = true ∧ t.timer.markPin = false ∧ t.timer.divider = 0 ∧
      t.mgmt.notices = 0 ∧ t.irq = false ∧ t.mgmt.receiver = .idle ∧ t.mgmt.ownAddress = s.mgmt.ownAddress ∧
      t.sent = s.sent) ∧
  ∀ s : State, s.resetLow = true →
    (∀ c, hostFrame c ≠ none → exec c s = .next s) ∧
    (∀ t, exec (.transactionIssue t) s = .next s) ∧ exec .inputArbiterGrant s = .next s ∧
    (∀ b g d, exec (.memoryResponse b g d) s = .next s) ∧ exec .linkDown s = .next s ∧ exec .linkUp s = .next s ∧
    (∀ b, exec (.tick b) s = .next s ∧ exec (.mark b) s = .next s) ∧
    (∀ i, exec (.tagExpiry i) s = .next s) ∧ exec .settlingIntervalEnd s = .next s ∧ exec .i2cIdleTimeout s = .next s ∧
    exec .heldAccessRecheck s = .next s ∧ (∀ h, exec (.drainCompletion h) s = .next s) ∧ exec .scrubCompletion s = .next s ∧
    exec .scrubFailure s = .next s ∧ exec .scrubTakeHead s = .next s ∧ exec .resetAssert s = .next s ∧
    (∀ p, exec (.frameTaken p) s = .next s) ∧ (∀ a b, exec (.answerRead a b) s = .next s) ∧
    (∀ b, exec (.i2cDataByte b) s = .next (s.sendBus (.ack false))) ∧
    ∀ a r p, exec (.i2cAddress a r p) s = .next (s.sendBus (.ack false))

/-- Every law below holds right after reset. -/
def Obligations.LawsHoldAtReset : Prop :=
  State.reset.AtPartReset 0 ∧ State.reset.custodyLawful ∧ State.reset.membersCounted ∧ State.reset.inFlightCounted ∧
    State.reset.tagsAccounted ∧ State.reset.burstsHoldTags ∧ State.reset.EntriesAgree ∧
    State.reset.lowFlagsFollow ∧ State.reset.faultBitsFollow ∧ State.reset.EditLaws ∧ State.reset.timer.InRange ∧
    State.reset.downIsFree ∧ State.reset.scrubLaws ∧ State.reset.quiet ∧ State.reset.queuesBounded ∧
    State.reset.mgmt.InRange

/-! ### Laws that every step keeps -/

/-- R3: in every record, the fields that its state leaves absent or fixes stay so; and in a lawful table the fields that its state
has present stay present: a custodian in HELD and IN_TRANSIT, a target in IN_TRANSIT. The absent pool, base, length and written of a
VOID record stand at 0 and no: log 14. -/
def Obligations.RecordsKeepTheirFields : Prop :=
  ∀ s t : State, step s = .next t → (s.recordsFit → t.recordsFit) ∧ (s.custodyLawful → t.rolesPresent)

/-- R5: a handle is in its pool's free list exactly while FREE, in its target's inbound queue exactly while IN_TRANSIT, with the
scrub engine exactly while SCRUBBING, and nowhere twice. -/
def Obligations.CustodyTableStaysLawful : Prop :=
  ∀ s t : State, s.custodyLawful → step s = .next t → t.custodyLawful

/-- R26: member counts stay true. -/
def Obligations.MembersStayCounted : Prop :=
  ∀ s t : State, s.custodyLawful → s.membersCounted → step s = .next t → t.membersCounted

/-- R10, R120: each in-flight count stays the number of memory tags that accesses to the buffer hold, and the busy tags stay as
many as all those counts and the bursts in flight. R87, R88: the outstanding entries stay in agreement with the tags and with the
hold place. -/
def Obligations.InFlightCountsMatchTags : Prop :=
  ∀ s t : State, step s = .next t →
    (s.custodyLawful → s.inFlightCounted → t.inFlightCounted) ∧
    (s.custodyLawful → s.inFlightCounted → s.scrubLaws → s.burstsHoldTags → t.tagsAccounted) ∧
    (s.EntriesAgree → t.EntriesAgree)

/-- R34: after every event the low flag of each pool is TRIPPED when the free count is below the low mark, ARMED when not. -/
def Obligations.LowFlagsFollowFreeCounts : Prop :=
  ∀ s t : State, s.lowFlagsFollow → step s = .next t → t.lowFlagsFollow

/-- R115: a FAULT bit stays set exactly while its slot is occupied. -/
def Obligations.FaultBitsFollowSlots : Prop :=
  ∀ s t : State, s.faultBitsFollow → step s = .next t → t.faultBitsFollow

/-- R149, R155: the edit stage's laws; in particular pacing is ON while a group is ARMED. -/
def Obligations.EditStageKeepsItsLaws : Prop :=
  ∀ s t : State, s.EditLaws → step s = .next t → t.EditLaws

/-- R139: the timer's fields stay in their ranges; in particular the position stays below the running length. -/
def Obligations.TimerStaysInRange : Prop :=
  ∀ s t : State, s.timer.InRange → step s = .next t → t.timer.InRange

/-- R128: while the link is DOWN, no tag is busy. -/
def Obligations.DownLinkHasNoBusyTag : Prop :=
  ∀ s t : State, s.downIsFree → step s = .next t → t.downIsFree

/-- R131, R133: engine state and link state agree, and at most 4 bursts are in flight. R120: each burst in flight holds its memory
tag, and no other tag is a burst's. -/
def Obligations.ScrubEngineKeepsItsLaws : Prop :=
  ∀ s t : State, s.scrubLaws → step s = .next t → t.scrubLaws ∧ (s.burstsHoldTags → t.burstsHoldTags)

/-- R125, R132: no step leaves a request standing that a free tag could serve, or a handle waiting for an IDLE engine. -/
def Obligations.ArbiterLeavesNothingWaiting : Prop :=
  ∀ s t : State, s.quiet → step s = .next t → t.quiet

/-- R44, R165: no queue holds more than 8 handles; the port's address, limit and payload stay in range. -/
def Obligations.QueuesAndPortStayInBounds : Prop :=
  ∀ s t : State, step s = .next t →
    (s.queuesBounded → t.queuesBounded) ∧ (s.mgmt.InRange → t.mgmt.InRange)

/-! ### Stage port -/

/-- R84, R90: a transaction enters its agent's empty waiting place, and waits there for a grant, which is a row of its own (log 32);
an occupied place holds the channel off, and the transaction stays at the agent (log 19). While a transaction is in the hold place
no agent is granted, and where no place is occupied there is nothing to grant: places, pointer and all else stay. -/
def Obligations.TransactionEntersItsPlace : Prop :=
  ∀ s : State, s.resetLow = false →
    (∀ t : Txn,
      (s.waiting t.agent = none → exec (.transactionIssue t) s = .next (s.setWaiting t.agent (some t))) ∧
      (s.waiting t.agent ≠ none → exec (.transactionIssue t) s = .next s)) ∧
    (s.checker.hold ≠ none → exec .inputArbiterGrant s = .next s) ∧
    ((∀ a, s.waiting a = none) → exec .inputArbiterGrant s = .next s)

/-- R101 to R105, R114, R115: a granted transaction that the checks turn away. The handle is the upper nine bits of the stage address
and the offset the rest. The first check that fails gives the response; a refusal fills an empty fault slot and sets the FAULT bit,
and leaves an occupied slot; nothing else changes. -/
def Obligations.TurnedAwayTransactionIsAnswered : Prop :=
  (∀ t : Txn,
    t.handleField.toNat = t.address.toNat / 8388608 ∧ t.offsetField.toNat = t.address.toNat % 8388608 ∧
    t.offset = t.address.toNat % 8388608 ∧ t.size = t.sizeLess1.toNat + 1 ∧
    (t.handle = none ↔ t.address.toNat / 8388608 = 0) ∧
    ∀ h, t.handle = some h ↔ t.address.toNat / 8388608 = h.val + 1) ∧
  (∀ (s : State) (t : Txn) (k : FaultKind) (b : Option BufState),
    let u := s.respond ⟨t.agent, t.tag, .refused, some k, []⟩
    s.refuse t k b =
      match (s.agent t.agent).slot with
      | some _ => u
      | none =>
        (u.setAgentRec t.agent
          { online := s.online t.agent
            slot := some
              { kind := k, handle := t.handleField, offset := t.offsetField, access := t.kind, sizeLess1 := t.sizeLess1
                bufState := b, cycleCount := s.timer.cycleCount } }).raise (.fault t.agent)) ∧
  ∀ (s : State) (a : Agent) (t : Txn), s.quiet → s.nextTxn a t →
    let shapely : Prop := t.offset % 256 + t.size ≤ 256 ∧ (t.handle = none → t.size = 8 ∧ t.offset = 0)
    let refused (k : FaultKind) (b : Option BufState) : State :=
      let u := (s.granted a).respond ⟨a, t.tag, .refused, some k, []⟩
      match (s.agent a).slot with
      | some _ => u
      | none =>
        (u.setAgentRec a
          { online := true
            slot := some
              { kind := k, handle := t.handleField, offset := t.offsetField, access := t.kind, sizeLess1 := t.sizeLess1
                bufState := b, cycleCount := s.timer.cycleCount } }).raise (.fault a)
    (s.online a = false →
      exec .inputArbiterGrant s = .next ((s.granted a).respond ⟨a, t.tag, .agentOffline, none, []⟩)) ∧
    (s.online a = true → s.entry a t.tag ≠ none → exec .inputArbiterGrant s = .next (refused .tagReuse none)) ∧
    (s.online a = true → s.entry a t.tag = none → ¬ shapely →
      exec .inputArbiterGrant s = .next (refused .shape none)) ∧
    ∀ h k, s.online a = true → s.entry a t.tag = none → shapely → t.handle = some h →
      bufferCheck (s.buf h) t = some k → exec .inputArbiterGrant s = .next (refused k (some (s.buf h).state))

/-- R108: the outcome of the buffer checks for every state, role, seal and direction; an admitted access goes on to the range
check of R109. -/
def Obligations.EntitlementTable : Prop :=
  ∀ (r : BufRec) (t : Txn),
    let range : Option FaultKind := if t.offset + t.size ≤ r.length * 4096 then none else some .outOfRange
    let listed : Prop := ∃ l, l ∈ r.lends ∧ l.borrower = t.agent
    (r.state = .void → bufferCheck r t = some .undefinedHandle) ∧
    (r.state = .free → bufferCheck r t = some .notEntitled) ∧
    (r.state = .inTransit ∨ r.state = .draining ∨ r.state = .scrubbing ∨ r.state = .withheld →
      bufferCheck r t = some .unavailable) ∧
    (r.state = .held → r.custodian = some t.agent → t.kind = .read → bufferCheck r t = range) ∧
    (r.state = .held → r.custodian = some t.agent → t.kind = .write → r.sealed = false → bufferCheck r t = range) ∧
    (r.state = .held → r.custodian = some t.agent → t.kind = .write → r.sealed = true →
      bufferCheck r t = some .sealedWrite) ∧
    (r.state = .held → r.custodian ≠ some t.agent → listed → t.kind = .read → bufferCheck r t = range) ∧
    (r.state = .held → r.custodian ≠ some t.agent → listed → t.kind = .write → bufferCheck r t = some .borrowerWrite) ∧
    (r.state = .held → r.custodian ≠ some t.agent → ¬ listed → bufferCheck r t = some .notEntitled)

/-- R111, R112: a granted access that passes every check: answered MEM_DOWN with the link DOWN; forwarded under the lowest free
tag; held where no tag is granted. -/
def Obligations.PassingAccessGoesToMemory : Prop :=
  ∀ (s : State) (a : Agent) (t : Txn) (h : Handle), s.quiet → s.nextTxn a t → s.online a = true →
    s.entry a t.tag = none → t.offset % 256 + t.size ≤ 256 → t.handle = some h → bufferCheck (s.buf h) t = none →
    (s.mem.link = .down →
      exec .inputArbiterGrant s = .next ((s.granted a).respond ⟨a, t.tag, .memDown, none, []⟩)) ∧
    (∀ i, s.mem.link = .up → s.mem.settling = none → (s.tag i).use = none → (∀ j, j < i → (s.tag j).use ≠ none) →
      exec .inputArbiterGrant s = .next
        { (((s.granted a).setTag i ⟨(s.tag i).generation, some ⟨.access a t.tag h, s.mgmt.memLimit⟩⟩).setBuf h
            { s.buf h with
              inFlight := (s.buf h).inFlight + 1, written := (s.buf h).written || decide (t.kind = .write) }).setEntry
            a t.tag (some (.inMemory i (s.tag i).generation)) with
          mem.preference := .scrub
          sent.requests := s.sent.requests ++
            [{ tagByte := (s.tag i).generation ++ BitVec.ofNat 6 i.val, kind := t.kind
               address := (s.buf h).base * 4096 + t.offset, size := t.size
               data := if t.kind = .write then t.data else [] }] }) ∧
    (s.mem.link = .up → (s.mem.settling ≠ none ∨ ∀ i, (s.tag i).use ≠ none) →
      exec .inputArbiterGrant s = .next
        { (s.granted a).setEntry a t.tag (some .tagWait) with checker.hold := some t })

/-- R91, R92, R94, R95, R105: a granted access to handle 0 of size 8 at offset 0 is a custody request or a status read, answered
DONE in the same event. A well-formed word is the request it spells; a malformed one is answered MALFORMED. What a request sets
going at the scrub engine follows at once (`kick`, log 1). The answer word has the layout of 11.1. -/
def Obligations.ApertureIsRouted : Prop :=
  (∀ w : Answer, w.word =
    [BitVec.ofNat 8 w.code.byte, w.generation, BitVec.ofNat 8 w.handle, BitVec.ofNat 8 (w.handle / 256),
      BitVec.ofNat 8 w.length, BitVec.ofNat 8 (w.length / 256),
      BitVec.ofNat 8 (w.isSealed.toNat + 2 * w.written.toNat + 4 * w.fromAgent.isSome.toNat),
      BitVec.ofNat 8 (match w.fromAgent with | some a => a.val | none => 0)]) ∧
  ([.ok, .renewed, .empty, .full, .notAllowed, .notHolder, .stale, .wrongState, .lent, .isSealed, .notSealed, .self, .expired,
    .noLend, .noPool, .offline, .malformed] : List Code).map Code.byte = List.range 17 ∧
  ∀ (s : State) (a : Agent) (t : Txn), s.nextTxn a t → s.online a = true → s.entry a t.tag = none →
    t.size = 8 → t.offset = 0 → t.handle = none →
    (t.kind = .write →
      exec .inputArbiterGrant s = .next
        (((s.granted a).custodyRequest a t.data).1.respond
          ⟨a, t.tag, .done, none, ((s.granted a).custodyRequest a t.data).2.word⟩).kick) ∧
    (∀ q, t.kind = .write → decodeRequest t.data = some q →
      exec .inputArbiterGrant s = .next
        (((s.granted a).takeRequest a q).1.respond
          ⟨a, t.tag, .done, none, ((s.granted a).takeRequest a q).2.word⟩).kick) ∧
    (t.kind = .write → decodeRequest t.data = none → s.quiet →
      exec .inputArbiterGrant s = .next
        ((s.granted a).respond ⟨a, t.tag, .done, none, [0x10, 0, 0, 0, 0, 0, 0, 0]⟩)) ∧
    (t.kind = .read → s.quiet →
      exec .inputArbiterGrant s = .next
        ((s.granted a).respond
          ⟨a, t.tag, .done, none,
            [if (s.agent a).slot = none then 1 else 3, BitVec.ofNat 8 (s.queue a).length,
              BitVec.ofNat 8 ((List.finRange 8).filter fun g => (s.entry a g).isSome).length, 0, 0, 0, 0, 0]⟩))

/-! ### Custody requests -/

/-- R92, R179: the word of every custody request decodes to that request; a word of eight bytes is malformed exactly where R92
says, and is then answered MALFORMED with zeros, changing nothing. -/
def Obligations.RequestWordsAreDecoded : Prop :=
  (∀ q : Request, decodeRequest q.word = some q) ∧
  ∀ k g hl hh x r1 r2 r3 : Byte,
    let number := hl.toNat + 256 * hh.toNat
    let badHandle := number = 0 ∨ 511 < number
    (decodeRequest [k, g, hl, hh, x, r1, r2, r3] = none ↔
      (k.toNat = 0 ∨ 9 < k.toNat) ∨ (r1 ≠ 0 ∨ r2 ≠ 0 ∨ r3 ≠ 0) ∨
      (k = 1 ∧ (g ≠ 0 ∨ number ≠ 0 ∨ 7 < x.toNat)) ∨
      ((k = 2 ∨ k = 5 ∨ k = 6 ∨ k = 7 ∨ k = 9) ∧ (badHandle ∨ x ≠ 0)) ∨
      ((k = 3 ∨ k = 8) ∧ (badHandle ∨ 15 < x.toNat)) ∨
      (k = 4 ∧ (g ≠ 0 ∨ number ≠ 0 ∨ x ≠ 0))) ∧
    ∀ (s : State) (a : Agent), decodeRequest [k, g, hl, hh, x, r1, r2, r3] = none →
      (s.custodyRequest a [k, g, hl, hh, x, r1, r2, r3]).1 = s ∧
      (s.custodyRequest a [k, g, hl, hh, x, r1, r2, r3]).2.word = [0x10, 0, 0, 0, 0, 0, 0, 0]

/-- R30, R31, R33: CLAIM, in the order of its checks; the head of the free list becomes HELD by the requester, and a CLAIM that
takes the free count below the low mark with the flag ARMED trips it and sets POOL_LOW. -/
def Obligations.ClaimInOrder : Prop :=
  ∀ (s : State) (a : Agent) (p : PoolId),
    let r := s.pool p
    (∀ set : AgentSet, memAgent a set = set.getLsbD a.val) ∧
    (r.defined = false → s.takeRequest a (.claim p) = (s, { code := .noPool })) ∧
    (r.defined = true → memAgent a r.claimSet = false → s.takeRequest a (.claim p) = (s, { code := .notAllowed })) ∧
    (r.defined = true → memAgent a r.claimSet = true → r.freeList = [] →
      s.takeRequest a (.claim p) = (s, { code := .empty })) ∧
    ∀ h rest, r.defined = true → memAgent a r.claimSet = true → r.freeList = h :: rest →
      let u := (s.setBuf h
        { s.buf h with
          state := .held, custodian := some a, target := none, sealed := false, written := false, lends := []
          expired := 0, inFlight := 0 }).setPool p
        { r with freeList := rest, tripped := r.tripped || decide (rest.length < r.lowMark) }
      s.takeRequest a (.claim p) =
        (if rest.length < r.lowMark ∧ r.tripped = false then u.raise (.poolLow p) else u,
          { code := .ok, handle := handleNum h, generation := (s.buf h).generation, length := (s.buf h).length })

/-- R36, R94: RELEASE, in the order of its checks. -/
def Obligations.ReleaseInOrder : Prop :=
  ∀ (s : State) (a : Agent) (h : Handle) (g : BitVec 8),
    let r := s.buf h
    let word (c : Code) : Answer := { code := c, handle := handleNum h, generation := g }
    s.takeRequest a (.release h g) =
      if r.state = .void then (s, word .wrongState)
      else if r.generation ≠ g then (s, word .stale)
      else if r.custodian ≠ some a then (s, word .notHolder)
      else if r.state ≠ .held then (s, word .wrongState)
      else if r.lends ≠ [] then (s, word .lent)
      else (s.releasePath h, word .ok)

/-- R13, R14, R18, R34: what the release path decides, and each of its ends. -/
def Obligations.ReleasePathDecides : Prop :=
  ∀ (s : State) (h : Handle),
    let r := s.buf h
    let p := s.pool r.pool
    let bare : BufRec := { r with custodian := none, target := none, sealed := false, lends := [] }
    (0 < r.inFlight → s.releasePath h = s.setBuf h { bare with state := .draining }) ∧
    (r.inFlight = 0 → p.scrubs = true → r.written = true →
      s.releasePath h =
        { s.setBuf h { bare with state := .scrubbing, expired := 0 } with scrub.queue := s.scrub.queue ++ [h] }) ∧
    (r.inFlight = 0 → p.scrubs = false ∨ r.written = false →
      s.releasePath h =
        (s.setBuf h
          { bare with state := .free, generation := r.generation + 1, written := false, expired := 0 }).setPool r.pool
          { p with
            freeList := p.freeList ++ [h]
            tripped := p.tripped && decide (p.freeList.length + 1 < p.lowMark) })

/-- R51, R52, R94: PASS, in the order of its checks; the handle joins the tail of the target's queue. -/
def Obligations.PassInOrder : Prop :=
  ∀ (s : State) (a : Agent) (h : Handle) (g : BitVec 8) (b : Agent),
    let r := s.buf h
    let word (c : Code) : Answer := { code := c, handle := handleNum h, generation := g }
    s.takeRequest a (.pass h g b) =
      if r.state = .void then (s, word .wrongState)
      else if r.generation ≠ g then (s, word .stale)
      else if r.custodian ≠ some a then (s, word .notHolder)
      else if r.state ≠ .held then (s, word .wrongState)
      else if b = a then (s, word .self)
      else if s.online b = false then (s, word .offline)
      else if memAgent b (s.pool r.pool).claimSet = false then (s, word .notAllowed)
      else if r.lends ≠ [] then (s, word .lent)
      else if 8 ≤ (s.queue b).length then (s, word .full)
      else ((s.setBuf h { r with state := .inTransit, target := some b }).setQueue b (s.queue b ++ [h]), word .ok)

/-- R55, R56, R58, R59, R94: ACCEPT takes the head of the requester's queue; RECALL, in the order of its checks, takes the named
handle out of its target's queue, from whatever position. -/
def Obligations.AcceptAndRecall : Prop :=
  ∀ (s : State) (a : Agent),
    (s.queue a = [] → s.takeRequest a .accept = (s, { code := .empty })) ∧
    (∀ h rest, s.queue a = h :: rest →
      let r := s.buf h
      s.takeRequest a .accept =
        ((s.setBuf h { r with state := .held, custodian := some a, target := none }).setQueue a rest,
          { code := .ok, handle := handleNum h, generation := r.generation, length := r.length, isSealed := r.sealed
            written := r.written, fromAgent := r.custodian })) ∧
    ∀ (h : Handle) (g : BitVec 8),
      let r := s.buf h
      let word (c : Code) : Answer := { code := c, handle := handleNum h, generation := g }
      (r.state = .void → s.takeRequest a (.recall h g) = (s, word .wrongState)) ∧
      (r.state ≠ .void → r.generation ≠ g → s.takeRequest a (.recall h g) = (s, word .stale)) ∧
      (r.state ≠ .void → r.generation = g → r.custodian ≠ some a → s.takeRequest a (.recall h g) = (s, word .notHolder)) ∧
      (r.state ≠ .void → r.generation = g → r.custodian = some a → r.state ≠ .inTransit →
        s.takeRequest a (.recall h g) = (s, word .wrongState)) ∧
      ∀ b, r.state = .inTransit → r.generation = g → r.custodian = some a → r.target = some b →
        s.takeRequest a (.recall h g) =
          ((s.setQueue b ((s.queue b).filter (· ≠ h))).setBuf h { r with state := .held, target := none }, word .ok)

/-- R66, R67, R94: SEAL and UNSEAL, in the order of their checks. -/
def Obligations.SealAndUnsealInOrder : Prop :=
  ∀ (s : State) (a : Agent) (h : Handle) (g : BitVec 8),
    let r := s.buf h
    let word (c : Code) : Answer := { code := c, handle := handleNum h, generation := g }
    (s.takeRequest a (.seal h g) =
      if r.state = .void then (s, word .wrongState)
      else if r.generation ≠ g then (s, word .stale)
      else if r.custodian ≠ some a then (s, word .notHolder)
      else if r.state ≠ .held then (s, word .wrongState)
      else if r.sealed = true then (s, word .isSealed)
      else (s.setBuf h { r with sealed := true }, word .ok)) ∧
    s.takeRequest a (.unseal h g) =
      if r.state = .void then (s, word .wrongState)
      else if r.generation ≠ g then (s, word .stale)
      else if r.custodian ≠ some a then (s, word .notHolder)
      else if r.state ≠ .held then (s, word .wrongState)
      else if r.sealed = false then (s, word .notSealed)
      else if r.lends ≠ [] then (s, word .lent)
      else (s.setBuf h { r with sealed := false }, word .ok)

/-- R70, R72, R94: LEND, in the order of its checks; a listed borrower's deadline is set anew at its place, a new entry joins the
tail and its borrower leaves the expired-borrower set. -/
def Obligations.LendInOrder : Prop :=
  ∀ (s : State) (a : Agent) (h : Handle) (g : BitVec 8) (b : Agent),
    let r := s.buf h
    let p := s.pool r.pool
    let word (c : Code) : Answer := { code := c, handle := handleNum h, generation := g }
    let deadline : Option Nat := if p.lendLimit = 0 then none else some p.lendLimit
    s.takeRequest a (.lend h g b) =
      if r.state = .void then (s, word .wrongState)
      else if r.generation ≠ g then (s, word .stale)
      else if r.custodian ≠ some a then (s, word .notHolder)
      else if r.state ≠ .held then (s, word .wrongState)
      else if r.sealed = false then (s, word .notSealed)
      else if b = a then (s, word .self)
      else if s.online b = false then (s, word .offline)
      else if memAgent b p.borrowSet = false then (s, word .notAllowed)
      else if b ∈ r.lends.map Lend.borrower then
        (s.setBuf h { r with lends := r.lends.map fun l => if l.borrower = b then ⟨b, deadline⟩ else l }, word .renewed)
      else if 4 ≤ r.lends.length then (s, word .full)
      else
        (s.setBuf h { r with lends := r.lends ++ [⟨b, deadline⟩], expired := r.expired &&& ~~~ BitVec.twoPow 16 b.val },
          word .ok)

/-- R74, R94: RETURN, in the order of its checks. -/
def Obligations.ReturnInOrder : Prop :=
  ∀ (s : State) (a : Agent) (h : Handle) (g : BitVec 8),
    let r := s.buf h
    let word (c : Code) : Answer := { code := c, handle := handleNum h, generation := g }
    s.takeRequest a (.giveBack h g) =
      if r.state = .void then (s, word .wrongState)
      else if r.generation ≠ g then (s, word .stale)
      else if a ∈ r.lends.map Lend.borrower then
        (s.setBuf h { r with lends := r.lends.filter fun l => l.borrower ≠ a }, word .ok)
      else if r.expired.getLsbD a.val = true then
        (s.setBuf h { r with expired := r.expired &&& ~~~ BitVec.twoPow 16 a.val }, word .expired)
      else (s, word .noLend)

/-! ### Memory port and scrub engine -/

/-- R11, R88, R122: a response that names a busy tag of an access, by index and generation, with the link UP and the settling
interval run, ends the access: the tag is free with its generation kept, the count falls, and the response is delivered where
the entry stands. Any other response is discarded. R16: a response that ends a drain takes the
buffer on along the release path in the same event; R125: what waits for the tag then has its turn (`kick`; that the release path
comes before it is log 35). The second clause is the case in which no drain ends and nothing waits for the tag. -/
def Obligations.MatchingResponseEndsAccess : Prop :=
  ∀ (s : State) (b : Byte) (good : Bool) (data : List Byte) (i : TagIndex), i.val = b.toNat % 64 → s.resetLow = false →
    let g := (s.tag i).generation
    (∀ a st h n, s.mem.link = .up → s.mem.settling = none → (s.tag i).use = some ⟨.access a st h, n⟩ →
      g.toNat = b.toNat / 64 → s.recordsFit →
      let u := (s.setTag i ⟨g, none⟩).setBuf h { s.buf h with inFlight := (s.buf h).inFlight - 1 }
      let v := if (s.buf h).state = .draining ∧ (s.buf h).inFlight = 1 then u.releasePath h else u
      exec (.memoryResponse b good data) s = .next
        (if s.entry a st = some (.inMemory i g) then
          (v.respond ⟨a, st, if good then .done else .memError, none, if good then data else []⟩).setEntry a st none
        else v).kick) ∧
    (∀ a st h n, s.mem.link = .up → s.mem.settling = none → (s.tag i).use = some ⟨.access a st h, n⟩ →
      g.toNat = b.toNat / 64 → s.checker.hold = none → s.scrubIdle → (s.buf h).state ≠ .draining →
      let u := (s.setTag i ⟨g, none⟩).setBuf h { s.buf h with inFlight := (s.buf h).inFlight - 1 }
      exec (.memoryResponse b good data) s = .next
        (if s.entry a st = some (.inMemory i g) then
          (u.respond ⟨a, st, if good then .done else .memError, none, if good then data else []⟩).setEntry a st none
        else u)) ∧
    (s.mem.link = .down ∨ s.mem.settling ≠ none ∨ (s.tag i).use = none ∨ g.toNat ≠ b.toNat / 64 →
      exec (.memoryResponse b good data) s = .next s)

/-- R123, R138: the expiry of an access's tag: freed with its generation stepped, the count lowered, MEM_TIMEOUT delivered where
the entry stands, MEMORY_LATE set. R16: an expiry that ends a drain takes the buffer on along the release path in
the same event; R125: what waits for the tag then has its turn (`kick`; that the release path comes before it is log 35). The second
clause is the case in which no drain ends and nothing waits for the tag. A tag that is free or has time left does not expire. -/
def Obligations.ExpiryEndsAccess : Prop :=
  ∀ (s : State) (i : TagIndex), s.resetLow = false →
    let g := (s.tag i).generation
    (∀ a st h, (s.tag i).use = some ⟨.access a st h, 0⟩ → s.recordsFit →
      let u := (s.setTag i ⟨g + 1, none⟩).setBuf h { s.buf h with inFlight := (s.buf h).inFlight - 1 }
      let v := if (s.buf h).state = .draining ∧ (s.buf h).inFlight = 1 then u.releasePath h else u
      exec (.tagExpiry i) s = .next
        ((if s.entry a st = some (.inMemory i g) then
          (v.respond ⟨a, st, .memTimeout, none, []⟩).setEntry a st none
        else v).raise .memoryLate).kick) ∧
    (∀ a st h, (s.tag i).use = some ⟨.access a st h, 0⟩ → s.checker.hold = none → s.scrubIdle →
      (s.buf h).state ≠ .draining →
      let u := (s.setTag i ⟨g + 1, none⟩).setBuf h { s.buf h with inFlight := (s.buf h).inFlight - 1 }
      exec (.tagExpiry i) s = .next
        ((if s.entry a st = some (.inMemory i g) then
          (u.respond ⟨a, st, .memTimeout, none, []⟩).setEntry a st none
        else u).raise .memoryLate)) ∧
    ((s.tag i).use = none ∨ (∃ o n, (s.tag i).use = some ⟨o, n + 1⟩) → exec (.tagExpiry i) s = .next s)

/-- R134, R135: the end of one burst of several in flight, when none is left to issue: a good response confirms it; an error, or
the expiry of its tag, puts the engine in FAILING. The burst is out of the set before its tag is offered (log 33). In every case, the last burst among them, the event goes on as
SCRUB_COMPLETION or SCRUB_FAILURE do in the state with the burst out of the set (log 1); DrainAndScrubEnd says what those do. There too a scrub's end comes before its tag is offered (log 35). -/
def Obligations.BurstResultReachesTheEngine : Prop :=
  (∀ (s : State) (c : ScrubCtx) (i : TagIndex) (n m : Nat), s.resetLow = false → (s.tag i).use = some ⟨.burst c.handle n, m⟩ →
    let left : ScrubCtx := { c with inFlight := c.inFlight.filter fun b => b.1 ≠ n }
    let g := (s.tag i).generation
    let u (e : Engine) (g : BitVec 2) : State := { s.setTag i ⟨g, none⟩ with scrub.engine := e }
    (∀ b d, s.mem.link = .up → s.mem.settling = none → i.val = b.toNat % 64 → g.toNat = b.toNat / 64 →
      (s.scrub.engine = .issuing c →
        exec (.memoryResponse b true d) s = exec .scrubCompletion (u (.issuing left) g) ∧
        exec (.memoryResponse b false d) s = exec .scrubFailure (u (.failing left) g)) ∧
      (s.scrub.engine = .failing c → ∀ good,
        exec (.memoryResponse b good d) s = exec .scrubFailure (u (.failing left) g))) ∧
    (m = 0 → s.scrub.engine = .issuing c ∨ s.scrub.engine = .failing c →
      exec (.tagExpiry i) s = exec .scrubFailure ((u (.failing left) (g + 1)).raise .memoryLate))) ∧
  ∀ (s : State) (c : ScrubCtx) (i : TagIndex) (n m : Nat), s.resetLow = false → s.scrub.engine = .issuing c →
    c.issue = c.count → s.checker.hold = none → (s.tag i).use = some ⟨.burst c.handle n, m⟩ →
    let left := c.inFlight.filter fun b => b.1 ≠ n
    let u (e : Engine) (g : BitVec 2) : State := { s.setTag i ⟨g, none⟩ with scrub.engine := e }
    let g := (s.tag i).generation
    left ≠ [] →
    (∀ b d, s.mem.link = .up → s.mem.settling = none → i.val = b.toNat % 64 → g.toNat = b.toNat / 64 →
      exec (.memoryResponse b true d) s = .next (u (.issuing { c with inFlight := left }) g) ∧
      exec (.memoryResponse b false d) s = .next (u (.failing { c with inFlight := left }) g)) ∧
    (m = 0 → exec (.tagExpiry i) s = .next ((u (.failing { c with inFlight := left }) (g + 1)).raise .memoryLate))

/-- R127, R136: the link-DOWN event. Every busy tag is freed with its generation stepped; the responses reach the agents in
ascending tag order; an ISSUING engine rewinds to the lowest lost burst and pauses, a FAILING one makes its buffer WITHHELD; a
held access is judged against its record as it then stands (drains completed: log 35), and answered MEM_DOWN after those
responses, or refused (R113); MEMORY_DOWN is set. MREADY falling while the link is DOWN changes nothing (log 8). R11, R16: each
buffer's count falls by the number of tags that its accesses hold; a DRAINING buffer that this empties becomes SCRUBBING or FREE
and joins the scrub queue or its free list, in the order of the tags that emptied them (log 16). Every other record and field, the
timer, the edit stage and the settling interval stay. -/
def Obligations.LinkDownEndsEverything : Prop :=
  ∀ s : State, s.resetLow = false →
    (s.mem.link = .down → exec .linkDown s = .next s) ∧
    (s.mem.link = .up → s.scrubLaws →
      ∃ t, exec .linkDown s = .next t ∧ t.mem.link = .down ∧ t.checker.hold = none ∧ t.notice .memoryDown = true ∧
        (∀ i, (t.tag i).use = none ∧
          (t.tag i).generation = (s.tag i).generation + if (s.tag i).use = none then 0 else 1) ∧
        (let lost : List Response := (List.finRange 64).filterMap fun i =>
          match (s.tag i).use with
          | some ⟨.access a st _, _⟩ =>
            if s.entry a st = some (.inMemory i (s.tag i).generation) then some ⟨a, st, .memDown, none, []⟩ else none
          | some ⟨.burst _ _, _⟩ => none
          | none => none
         (s.checker.hold = none → t.sent.responses = s.sent.responses ++ lost) ∧
         ∀ x h, s.checker.hold = some x → x.handle = some h →
            t.entry x.agent x.tag = none ∧
            (bufferCheck (t.buf h) x = none →
              t.sent.responses = s.sent.responses ++ lost ++ [⟨x.agent, x.tag, .memDown, none, []⟩] ∧
              t.agent x.agent = s.agent x.agent) ∧
            ∀ k, bufferCheck (t.buf h) x = some k →
              t.sent.responses = s.sent.responses ++ lost ++ [⟨x.agent, x.tag, .refused, some k, []⟩] ∧
              ((s.agent x.agent).slot ≠ none → t.agent x.agent = s.agent x.agent) ∧
              ((s.agent x.agent).slot = none → t.notice (.fault x.agent) = true ∧
                (t.agent x.agent).slot = some
                  { kind := k, handle := x.handleField, offset := x.offsetField, access := x.kind, sizeLess1 := x.sizeLess1
                    bufState := some (t.buf h).state, cycleCount := s.timer.cycleCount })) ∧
        (∀ c, s.scrub.engine = .issuing c →
          ∃ k, t.scrub.engine = .paused { c with issue := k, inFlight := [] } ∧
            (c.inFlight = [] → k = c.issue) ∧
            (c.inFlight ≠ [] → k ∈ c.inFlight.map Prod.fst ∧ ∀ n, n ∈ c.inFlight.map Prod.fst → k ≤ n)) ∧
        (∀ c, s.scrub.engine = .failing c →
          t.scrub.engine = .idle ∧ t.notice .scrubFailed = true ∧ (t.buf c.handle).state = .withheld) ∧
        (s.scrub.engine = .idle → t.scrub.engine = .idle) ∧
        (s.custodyLawful →
          let access (i : TagIndex) (h : Handle) : Prop := ∃ a g n, (s.tag i).use = some ⟨.access a g h, n⟩
          let ended (h : Handle) (p : TagIndex → Bool) : Nat :=
            ((List.finRange 64).filter fun i => p i && (s.tag i).heldFor h).length
          let all (h : Handle) : Nat := ended h fun _ => true
          let scrubs (h : Handle) : Bool := (s.pool (s.buf h).pool).scrubs && (s.buf h).written
          let bare (h : Handle) : BufRec := { s.buf h with
            custodian := none, target := none, sealed := false, lends := [], expired := 0, inFlight := 0 }
          let drained : List Handle := (List.finRange 64).filterMap fun i =>
            match (s.tag i).use with
            | some ⟨.access _ _ h, _⟩ =>
              if (s.buf h).state = .draining ∧ ended h (fun j => decide (j ≤ i)) = (s.buf h).inFlight then some h else none
            | some ⟨.burst _ _, _⟩ => none
            | none => none
          (∀ i h, (s.tag i).heldFor h = true ↔ access i h) ∧
          (∀ h, (s.buf h).state ≠ .draining ∨ all h < (s.buf h).inFlight →
            (∀ c, s.scrub.engine = .failing c → c.handle ≠ h) →
            t.buf h = { s.buf h with inFlight := (s.buf h).inFlight - all h }) ∧
          (∀ h, (s.buf h).state = .draining → (s.buf h).inFlight ≤ all h →
            t.buf h =
              if scrubs h = true then { bare h with state := .scrubbing }
              else { bare h with state := .free, generation := (s.buf h).generation + 1, written := false }) ∧
          (∀ c, s.scrub.engine = .failing c → t.buf c.handle = { bare c.handle with state := .withheld }) ∧
          t.scrub.queue = s.scrub.queue ++ drained.filter scrubs ∧
          ∀ p,
            let joined := drained.filter fun h => !scrubs h && decide ((s.buf h).pool = p)
            let list := (s.pool p).freeList ++ joined
            t.pool p = { s.pool p with
              freeList := list
              tripped := (s.pool p).tripped && (joined.isEmpty || decide (list.length < (s.pool p).lowMark)) }) ∧
        t.custody.queues = s.custody.queues ∧ t.stage.waiting = s.stage.waiting ∧ t.stage.pointer = s.stage.pointer ∧
        (∀ a g,
          let reported : Prop := ∃ i h n, (s.tag i).use = some ⟨.access a g h, n⟩ ∧
            s.entry a g = some (.inMemory i (s.tag i).generation)
          let held : Prop := ∃ x, s.checker.hold = some x ∧ x.agent = a ∧ x.tag = g
          (reported ∨ held → t.entry a g = none) ∧ (¬ reported → ¬ held → t.entry a g = s.entry a g)) ∧
        (∀ a, t.online a = s.online a ∧
          ((∀ x, s.checker.hold = some x → x.agent ≠ a) → t.agent a = s.agent a)) ∧
        (∀ n, t.notice n = true ↔ s.notice n = true ∨ n = .memoryDown ∨
          (n = .scrubFailed ∧ ∃ c, s.scrub.engine = .failing c) ∨
          ∃ x h k, s.checker.hold = some x ∧ x.handle = some h ∧ bufferCheck (t.buf h) x = some k ∧
            (s.agent x.agent).slot = none ∧ n = .fault x.agent) ∧
        (∀ c, s.scrub.engine = .paused c → t.scrub.engine = .paused c) ∧
        t.mem.settling = s.mem.settling ∧ t.mem.preference = s.mem.preference ∧ t.timer = s.timer ∧ t.edit = s.edit ∧
        t.mgmt = { s.mgmt with notices := t.mgmt.notices } ∧ t.sent.requests = s.sent.requests ∧ t.sent.bus = s.sent.bus ∧
        t.resetLow = s.resetLow)

/-- R128, R132, R136: going UP steps no generation and changes no tag; a PAUSED engine issues again, an IDLE one takes the head,
and outside the settling interval up to four bursts go out at once, under the lowest tags. R128: at the end of the settling
interval a held access gets its tag, the lowest or, where a burst competes and the preference names it, the next (R125); or it is
refused (R113). The end of the interval comes after a mark of the same tick (log 37). Before the end, and with the link UP already,
nothing happens. -/
def Obligations.LinkUpAndSettlingOpenTheArbiter : Prop :=
  ∀ s : State, s.resetLow = false →
    let free := ∀ i, (s.tag i).use = none
    let context (h : Handle) : ScrubCtx :=
      { handle := h, base := (s.buf h).base, count := (s.buf h).length * 16, issue := 0, inFlight := [] }
    let issues (c : ScrubCtx) (q : List Handle) (t : State) : Prop :=
      let n := min 4 (c.count - c.issue)
      let first : List TagIndex := (List.finRange 64).take n
      let burst (i : TagIndex) : MemRequest :=
        { tagByte := (s.tag i).generation ++ BitVec.ofNat 6 i.val, kind := .write
          address := c.base * 4096 + (c.issue + i.val) * 256, size := 256, data := List.replicate 256 0 }
      t.scrub = ⟨q, .issuing { c with issue := c.issue + n, inFlight := first.map fun i => (c.issue + i.val, i) }⟩ ∧
      t.sent = { s.sent with requests := s.sent.requests ++ first.map burst } ∧
      (∀ i, t.tag i = if i.val < n then
          ⟨(s.tag i).generation, some ⟨.burst c.handle (c.issue + i.val), s.mgmt.memLimit⟩⟩
        else s.tag i) ∧
      t.mem.preference = (if n = 0 then s.mem.preference else .checker) ∧ t.mem.link = .up ∧ t.mem.settling = none ∧
      t.custody = s.custody ∧ t.stage = s.stage ∧ t.checker = s.checker ∧ t.timer = s.timer ∧ t.edit = s.edit ∧
      t.mgmt = s.mgmt
    (s.mem.link = .up → exec .linkUp s = .next s) ∧
    (s.mem.link = .down →
      (∃ t, exec .linkUp s = .next t ∧ t.mem.link = .up ∧ t.mem.settling = s.mem.settling ∧
        ∀ i, (t.tag i).generation = (s.tag i).generation) ∧
      (s.mem.settling ≠ none →
        exec .linkUp s = .next
          { s with
            mem.link := .up
            scrub :=
              match s.scrub.engine, s.scrub.queue with
              | .paused c, q => ⟨q, .issuing c⟩
              | .idle, h :: rest => ⟨rest, .issuing (context h)⟩
              | .idle, [] => ⟨[], .idle⟩
              | .issuing c, q => ⟨q, .issuing c⟩
              | .failing c, q => ⟨q, .failing c⟩ }) ∧
      (s.mem.settling = none → s.checker.hold = none → free →
        (∀ c, s.scrub.engine = .paused c → c.inFlight = [] →
          ∃ t, exec .linkUp s = .next t ∧ issues c s.scrub.queue t) ∧
        (∀ h rest, s.scrub.engine = .idle → s.scrub.queue = h :: rest →
          ∃ t, exec .linkUp s = .next t ∧ issues (context h) rest t) ∧
        (s.scrubIdle → exec .linkUp s = .next { s with mem.link := .up }))) ∧
    (s.mem.settling ≠ some 0 → exec .settlingIntervalEnd s = .next s) ∧
    (s.mem.settling = some 0 →
      exec .settlingIntervalEnd s = .next { s with mem.settling := none }.kick ∧
      ((s.mem.link = .down ∨ s.checker.hold = none ∧ s.scrubIdle) →
        exec .settlingIntervalEnd s = .next { s with mem.settling := none }) ∧
      (∀ c, s.mem.link = .up → s.checker.hold = none → free → s.scrub.engine = .issuing c → c.inFlight = [] →
        ∃ t, exec .settlingIntervalEnd s = .next t ∧ issues c s.scrub.queue t) ∧
      ∀ x h, s.mem.link = .up → free → s.checker.hold = some x → x.handle = some h →
        (s.scrub.engine = .idle → s.scrub.queue = []) →
        ∃ t, exec .settlingIntervalEnd s = .next t ∧ t.mem.settling = none ∧ t.checker.hold = none ∧
          (bufferCheck (s.buf h) x = none →
            let i : TagIndex := if s.scrub.engine.wants = true ∧ s.mem.preference = .scrub then 1 else 0
            t.entry x.agent x.tag = some (.inMemory i (s.tag i).generation) ∧
            (t.tag i).use = some ⟨.access x.agent x.tag h, s.mgmt.memLimit⟩ ∧
            t.buf h = { s.buf h with
              inFlight := (s.buf h).inFlight + 1, written := (s.buf h).written || decide (x.kind = .write) } ∧
            (⟨(s.tag i).generation ++ BitVec.ofNat 6 i.val, x.kind, (s.buf h).base * 4096 + x.offset, x.size,
              if x.kind = .write then x.data else []⟩ : MemRequest) ∈ t.sent.requests ∧
            t.sent.responses = s.sent.responses) ∧
          ∀ k, bufferCheck (s.buf h) x = some k →
            t.entry x.agent x.tag = none ∧ t.custody = s.custody ∧
            t.sent.responses = s.sent.responses ++ [⟨x.agent, x.tag, .refused, some k, []⟩])

/-- R113, R126: the held access, with a tag to grant: re-checked, and forwarded with that tag or refused with the tag left free;
either way the preference is SCRUB. With the link DOWN it is answered MEM_DOWN or refused. With no tag free it stays held. -/
def Obligations.HeldAccessIsRechecked : Prop :=
  ∀ (s : State) (t : Txn) (h : Handle), s.resetLow = false → s.checker.hold = some t → t.handle = some h →
    s.scrub.engine.wants = false →
    let free : State := { s.setEntry t.agent t.tag none with checker.hold := none }
    (∀ i, s.mem.link = .up → s.mem.settling = none → (s.tag i).use = none → (∀ j, j < i → (s.tag j).use ≠ none) →
      (bufferCheck (s.buf h) t = none →
        exec .heldAccessRecheck s = .next
          { ((s.setTag i ⟨(s.tag i).generation, some ⟨.access t.agent t.tag h, s.mgmt.memLimit⟩⟩).setBuf h
              { s.buf h with
                inFlight := (s.buf h).inFlight + 1, written := (s.buf h).written || decide (t.kind = .write) }).setEntry
              t.agent t.tag (some (.inMemory i (s.tag i).generation)) with
            checker.hold := none
            mem.preference := .scrub
            sent.requests := s.sent.requests ++
              [{ tagByte := (s.tag i).generation ++ BitVec.ofNat 6 i.val, kind := t.kind
                 address := (s.buf h).base * 4096 + t.offset, size := t.size
                 data := if t.kind = .write then t.data else [] }] }) ∧
      ∀ k, bufferCheck (s.buf h) t = some k →
        exec .heldAccessRecheck s = .next ({ free with mem.preference := .scrub }.refuse t k (some (s.buf h).state))) ∧
    (s.mem.link = .down →
      (bufferCheck (s.buf h) t = none →
        exec .heldAccessRecheck s = .next (free.respond ⟨t.agent, t.tag, .memDown, none, []⟩)) ∧
      ∀ k, bufferCheck (s.buf h) t = some k →
        exec .heldAccessRecheck s = .next (free.refuse t k (some (s.buf h).state))) ∧
    (s.mem.link = .up → (s.mem.settling ≠ none ∨ ∀ i, (s.tag i).use ≠ none) → exec .heldAccessRecheck s = .next s)

/-- R132, R133: an IDLE engine with the link UP takes the head of the queue; while the settling interval runs it issues nothing;
with tags to grant and no access held it issues its first four bursts at once, in ascending order, under the lowest free tags. -/
def Obligations.EngineTakesTheHead : Prop :=
  (∀ m : MemPort, (freeTags m).Pairwise (· < ·) ∧ ∀ i, i ∈ freeTags m ↔ (nth m.tags i).use = none) ∧
  ∀ (s : State) (h : Handle) (rest : List Handle), s.resetLow = false → s.scrub.engine = .idle → s.mem.link = .up →
    s.scrub.queue = h :: rest →
    let c : ScrubCtx := { handle := h, base := (s.buf h).base, count := (s.buf h).length * 16, issue := 0, inFlight := [] }
    (s.mem.settling ≠ none → exec .scrubTakeHead s = .next { s with scrub := ⟨rest, .issuing c⟩ }) ∧
    (s.mem.settling = none → s.checker.hold = none → 0 < (s.buf h).length →
      ∀ i j k l more, freeTags s.mem = i :: j :: k :: l :: more →
        let burst (x : TagIndex) (n : Nat) : MemRequest :=
          { tagByte := (s.tag x).generation ++ BitVec.ofNat 6 x.val, kind := .write
            address := (s.buf h).base * 4096 + n * 256, size := 256, data := List.replicate 256 0 }
        ∃ t, exec .scrubTakeHead s = .next t ∧
          t.scrub = ⟨rest, .issuing { c with issue := 4, inFlight := [(0, i), (1, j), (2, k), (3, l)] }⟩ ∧
          t.sent.requests = s.sent.requests ++ [burst i 0, burst j 1, burst k 2, burst l 3] ∧
          (t.tag i).use = some ⟨.burst h 0, s.mgmt.memLimit⟩ ∧ freeTags t.mem = more ∧ t.custody = s.custody)

/-- R125, R126, R132: what follows at once from an event (`kick`), one move at a time. An IDLE engine with the link UP takes the head
(before the arbiter looks: log 29; a burst whose end freed the tag is out of the in-flight set by then: log 33). Then, while the arbiter may grant, the lowest free tag goes to the one requester whose request
stands, or to the one that the preference names; a refused held access leaves its tag free; each grant turns the preference. When
no request stands or no tag may be granted, nothing more changes. SCRUB_TAKE_HEAD is these moves and no more, and so is
HELD_ACCESS_RECHECK where no head waits. -/
def Obligations.ArbiterGrantsInTurn : Prop :=
  (∀ e : Engine, e.wants = true ↔ ∃ c, e = .issuing c ∧ c.issue < c.count ∧ c.inFlight.length < 4) ∧
  ∀ s : State,
    (s.resetLow = false → exec .scrubTakeHead s = .next s.kick) ∧
    (∀ h rest, s.scrub.engine = .idle → s.mem.link = .up → s.scrub.queue = h :: rest →
      let taken : State := { s with scrub := ⟨rest, .issuing
        { handle := h, base := (s.buf h).base, count := (s.buf h).length * 16, issue := 0, inFlight := [] }⟩ }
      s.kick = taken.kick) ∧
    ((s.scrub.engine = .idle → s.mem.link = .up → s.scrub.queue = []) →
      (s.resetLow = false → s.mem.link = .up → s.checker.hold ≠ none → exec .heldAccessRecheck s = .next s.kick) ∧
      (¬ s.mayGrant ∨ s.checker.hold = none ∧ s.scrub.engine.wants = false → s.kick = s) ∧
      ∀ i, s.mem.link = .up → s.mem.settling = none → (s.tag i).use = none → (∀ j, j < i → (s.tag j).use ≠ none) →
        (∀ t h, s.checker.hold = some t → t.handle = some h →
          s.scrub.engine.wants = false ∨ s.mem.preference = .checker →
          let free : State :=
            { s.setEntry t.agent t.tag none with checker.hold := none, mem.preference := .scrub }
          (∀ k, bufferCheck (s.buf h) t = some k → s.kick = (free.refuse t k (some (s.buf h).state)).kick) ∧
          (bufferCheck (s.buf h) t = none →
            let granted : State :=
              { ((s.setTag i ⟨(s.tag i).generation, some ⟨.access t.agent t.tag h, s.mgmt.memLimit⟩⟩).setBuf h
                  { s.buf h with
                    inFlight := (s.buf h).inFlight + 1, written := (s.buf h).written || decide (t.kind = .write) }).setEntry
                  t.agent t.tag (some (.inMemory i (s.tag i).generation)) with
                checker.hold := none
                mem.preference := .scrub
                sent.requests := s.sent.requests ++
                  [{ tagByte := (s.tag i).generation ++ BitVec.ofNat 6 i.val, kind := t.kind
                     address := (s.buf h).base * 4096 + t.offset, size := t.size
                     data := if t.kind = .write then t.data else [] }] }
            s.kick = granted.kick)) ∧
        ∀ c, s.scrub.engine = .issuing c → c.issue < c.count → c.inFlight.length < 4 →
          s.checker.hold = none ∨ s.mem.preference = .scrub →
          let issued : State :=
            { s.setTag i ⟨(s.tag i).generation, some ⟨.burst c.handle c.issue, s.mgmt.memLimit⟩⟩ with
              scrub.engine := .issuing { c with issue := c.issue + 1, inFlight := c.inFlight ++ [(c.issue, i)] }
              mem.preference := .checker
              sent.requests := s.sent.requests ++
                [{ tagByte := (s.tag i).generation ++ BitVec.ofNat 6 i.val, kind := .write
                   address := c.base * 4096 + c.issue * 256, size := 256, data := List.replicate 256 0 }] }
          s.kick = issued.kick)

/-- R16, R18, R19, R134, R135: the end of a drain and of a scrub. A DRAINING buffer whose count is 0 goes to SCRUBBING or FREE; a
buffer whose every burst is confirmed becomes FREE with its generation stepped; one with a failed burst becomes WITHHELD, and
SCRUB_FAILED is set. Then the engine takes the next head and the arbiter
grants (`kick`); the second part is the case in which no other handle waits and no access is held. -/
def Obligations.DrainAndScrubEnd : Prop :=
  (∀ (s : State) (h : Handle), s.resetLow = false →
    let r := s.buf h
    let p := s.pool r.pool
    let bare : BufRec :=
      { r with custodian := none, target := none, sealed := false, lends := [], expired := 0, inFlight := 0 }
    let freed (u : State) : State :=
      (u.setBuf h { bare with state := .free, generation := r.generation + 1, written := false }).setPool r.pool
        { p with
          freeList := p.freeList ++ [h], tripped := p.tripped && decide (p.freeList.length + 1 < p.lowMark) }
    (r.state = .draining → r.inFlight = 0 →
      exec (.drainCompletion h) s = .next
        (if p.scrubs = true ∧ r.written = true then
          { s.setBuf h { bare with state := .scrubbing } with scrub.queue := s.scrub.queue ++ [h] }
        else freed s).kick) ∧
    (r.state ≠ .draining ∨ r.inFlight ≠ 0 → exec (.drainCompletion h) s = .next s.kick) ∧
    (∀ c : ScrubCtx, c.handle = h →
      (s.scrub.engine = .issuing c →
        exec .scrubCompletion s = .next
          (if c.issue = c.count ∧ c.inFlight = [] then freed { s with scrub.engine := .idle } else s).kick) ∧
      (s.scrub.engine = .failing c →
        exec .scrubFailure s = .next
          (if c.inFlight = [] then
            ({ s with scrub.engine := .idle }.setBuf h { bare with state := .withheld }).raise .scrubFailed
          else s).kick))) ∧
  ∀ (s : State) (h : Handle), s.resetLow = false → s.checker.hold = none →
    let r := s.buf h
    let p := s.pool r.pool
    let freed (u : State) : State := (u.setBuf h
      { r with
        state := .free, generation := r.generation + 1, custodian := none, target := none, sealed := false
        written := false, lends := [], expired := 0, inFlight := 0 }).setPool r.pool
      { p with
        freeList := p.freeList ++ [h], tripped := p.tripped && decide (p.freeList.length + 1 < p.lowMark) }
    (r.state = .draining → r.inFlight = 0 → s.scrubIdle → p.scrubs = false ∨ r.written = false →
      exec (.drainCompletion h) s = .next (freed s)) ∧
    (r.state = .draining → r.inFlight = 0 → s.scrubIdle → s.mem.link = .down → p.scrubs = true → r.written = true →
      exec (.drainCompletion h) s = .next
        { s.setBuf h
            { r with state := .scrubbing, custodian := none, target := none, sealed := false, lends := [], expired := 0 } with
          scrub.queue := [h] }) ∧
    ∀ c : ScrubCtx, c.handle = h → c.inFlight = [] → s.scrub.queue = [] →
      (s.scrub.engine = .issuing c → c.issue = c.count →
        exec .scrubCompletion s = .next (freed { s with scrub.engine := .idle })) ∧
      (s.scrub.engine = .failing c →
        exec .scrubFailure s = .next
          (({ s with scrub.engine := .idle }.setBuf h
            { r with
              state := .withheld, custodian := none, target := none, sealed := false, lends := [], expired := 0
              inFlight := 0 }).raise .scrubFailed))

/-! ### Time -/

/-- R123, R128, R140, R142, R168: one tick that makes no mark and meets no scan: each busy tag's time left, the settling interval
and the position move by one; the idle count follows SCL (log 22). What an earlier tick left outstanding comes first (log 2): a tick that
meets a pulse, the end of the settling interval, one tag's expiry or an idle timeout does what it does in the state after that
event's own row. -/
def Obligations.TickCounts : Prop :=
  ∀ (s : State) (low : Bool), s.resetLow = false →
    (s.nothingDue → s.mgmt.scan = none → s.timer.markDue = false →
      exec (.tick low) s = .next
        { s with
          timer := { s.timer with
            divider := 0, position := if s.timer.pacing then s.timer.position + 1 else s.timer.position }
          mem := { s.mem with
            tags := mapAll s.mem.tags fun r =>
              match r.use with
              | some u => { r with use := some { u with timeLeft := u.timeLeft - 1 } }
              | none => r
            settling := match s.mem.settling with | some n => some (n - 1) | none => none }
          mgmt.idleCount := if low = true ∧ s.mgmt.receiver ≠ .idle then s.mgmt.idleCount + 1 else 0 }) ∧
    (∃ u, exec .markPulseEnd s = .next u ∧ exec (.tick low) s = exec (.tick low) u) ∧
    (s.timer.markPin = false → s.mem.settling = some 0 →
      ∃ u, exec .settlingIntervalEnd s = .next u ∧ exec (.tick low) s = exec (.tick low) u) ∧
    (∀ i o, s.timer.markPin = false → s.mem.settling ≠ some 0 → 1 ≤ s.mgmt.memLimit → (s.tag i).use = some ⟨o, 0⟩ →
      (∀ j x, j ≠ i → (s.tag j).use = some x → x.timeLeft ≠ 0) →
      ∃ u, exec (.tagExpiry i) s = .next u ∧ exec (.tick low) s = exec (.tick low) u) ∧
    (s.timer.markPin = false → s.mem.settling ≠ some 0 → (∀ i x, (s.tag i).use = some x → x.timeLeft ≠ 0) →
      ∃ u, exec .i2cIdleTimeout s = .next u ∧ exec (.tick low) s = exec (.tick low) u)

/-- R142, R155, R76: the tick that makes a mark. The pending pair becomes running, the position 0, the count rises, the pulse begins;
lends expire; the tags and counts are the tick's own; with no group for this mark nothing else changes. An ARMED group whose
target is the new count is presented to the table as the mark left it, its outcome carrying the count: GroupsApplyAllOrNone says
what that makes of the records. The engine and the arbiter look once more (`kick`), which moves
nothing unless the group gave the engine a handle (log 21). MARK and TICK name the same tick (log 5), whatever is outstanding; its expiries come after the mark (log 30), the end of the
settling interval too (log 37), and no other event comes between its parts (logs 6, 34); before its time MARK changes nothing. -/
def Obligations.MarkEndsTheCycle : Prop :=
  ∀ (s : State) (low : Bool), s.resetLow = false →
    (s.timer.markDue = true ↔ s.timer.pacing = true ∧ s.timer.position + 1 = s.timer.running.length) ∧
    (s.timer.markDue = false → exec (.mark low) s = .next s) ∧
    (s.timer.markDue = true → exec (.mark low) s = exec (.tick low) s) ∧
    (s.timer.markDue = true → s.nothingDue → s.mgmt.scan = none →
      let count := s.timer.cycleCount + 1
      let v : State := { s with
        timer := { s.timer with
          divider := 0, running := s.timer.pendingSet.getD s.timer.running, pendingSet := none, position := 0
          cycleCount := count, markPin := true }
        mem := { s.mem with
          tags := mapAll s.mem.tags fun r =>
            match r.use with
            | some u => { r with use := some { u with timeLeft := u.timeLeft - 1 } }
            | none => r
          settling := match s.mem.settling with | some n => some (n - 1) | none => none }
        mgmt.idleCount := if low = true ∧ s.mgmt.receiver ≠ .idle then s.mgmt.idleCount + 1 else 0
        custody.bufs := mapAll s.custody.bufs BufRec.atMark }
      let u := if ∃ h, (s.buf h).expiresAtMark = true then v.raise .lendExpired else v
      (¬ (s.edit.group = .armed ∧ s.edit.target = some count) → s.quiet → exec (.mark low) s = .next u) ∧
      (s.edit.group = .armed → s.edit.target = some count →
        exec (.mark low) s = .next (u.presentGroup (some count)).kick ∧
        ∃ t o, exec (.mark low) s = .next t ∧
          t.edit = { group := .idle, staged := [], target := none, outcome := some o } ∧
          o.cycleCount = some count ∧ o.entries = s.edit.staged.length ∧ t.notice .groupDone = true ∧
          t.timer = u.timer ∧ t.custody.queues = s.custody.queues ∧
          (s.quiet → t.custody = (u.presentGroup (some count)).custody ∧ t.stage = s.stage ∧ t.checker = s.checker ∧
            t.sent.responses = s.sent.responses)))

/-- R76: what a mark does to one record. Each present deadline falls by 1; an entry whose deadline reaches 0 leaves the list and its
borrower joins the expired-borrower set; every other field, and every other record, stays. -/
def Obligations.LendsExpireAtMark : Prop :=
  ∀ r : BufRec,
    (r.state ≠ .held ∨ r.sealed = false → r.atMark = r ∧ r.expiresAtMark = false) ∧
    (r.state = .held → r.sealed = true →
      r.atMark = { r with lends := r.atMark.lends, expired := r.atMark.expired } ∧
      r.atMark.lends = r.lends.filterMap (fun l =>
        match l.deadline with
        | none => some l
        | some n => if n ≤ 1 then none else some ⟨l.borrower, some (n - 1)⟩) ∧
      (∀ b : Agent, memAgent b r.atMark.expired = true ↔
        memAgent b r.expired = true ∨ ∃ l, l ∈ r.lends ∧ l.borrower = b ∧ ∃ n, l.deadline = some n ∧ n ≤ 1) ∧
      (r.expiresAtMark = true ↔ ∃ l, l ∈ r.lends ∧ ∃ n, l.deadline = some n ∧ n ≤ 1))

/-- R143, R168, R170: the end of the MARK pulse; the idle timeout, at 25,000 ticks with SCL low in a transaction: SDA is released,
the frame buffer discarded, and a non-empty one answered SHORT, or BUSY during a scan. A timeout still outstanding when a management
command or another row of the bus comes is taken first (log 2). -/
def Obligations.PulseAndIdleTimeoutEnd : Prop :=
  ∀ s : State, exec .markPulseEnd s = .next { s with timer.markPin := false } ∧
    (s.resetLow = false →
      (s.mgmt.receiver ≠ .idle → 25000 ≤ s.mgmt.idleCount →
        let u : State := { s with mgmt := { s.mgmt with
          receiver := .idle, frame := [], sendRest := [], idleCount := 0
          answer := if s.mgmt.frame = [] then s.mgmt.answer
            else if s.mgmt.scan = none then ⟨.short, []⟩ else ⟨.busy, []⟩ } }
        exec .i2cIdleTimeout s = .next u ∧ (∀ c, hostFrame c ≠ none → exec c s = exec c u) ∧
          (∀ x read pins, exec (.i2cAddress x read pins) s = exec (.i2cAddress x read pins) u) ∧
          (∀ b, exec (.i2cDataByte b) s = exec (.i2cDataByte b) u) ∧
          (∀ pins, exec (.frameTaken pins) s = exec (.frameTaken pins) u) ∧
          ∀ acks stop, exec (.answerRead acks stop) s = exec (.answerRead acks stop) u) ∧
      (s.mgmt.receiver = .idle ∨ s.mgmt.idleCount < 25000 → exec .i2cIdleTimeout s = .next s))

/-- R141, R144, R146: the timing commands. That BUSY has an empty payload is log 13. That a PACING(OFF) after a target mark finds the group applied, and never still ARMED,
is log 34. -/
def Obligations.TimingCommands : Prop :=
  ∀ s : State, s.ready →
    (∀ d : Byte, exec (.setTimebase d) s = .next
      (if 10 ≤ d.toNat ∧ d.toNat ≤ 100 then
        { s with timer.divisor := d.toNat, timer.divider := 0 }.setAnswer .ok
      else s.setAnswer .range)) ∧
    (∀ l g : BitVec 24, exec (.setCycle l g) s = .next
      (if l.toNat < 64 ∨ 1048575 < l.toNat ∨ l.toNat ≤ g.toNat then s.setAnswer .range
      else if s.timer.pacing = true then { s with timer.pendingSet := some ⟨l.toNat, g.toNat⟩ }.setAnswer .ok
      else { s with timer.running := ⟨l.toNat, g.toNat⟩, timer.position := 0 }.setAnswer .ok)) ∧
    exec .pacingOn s = .next
      (if s.timer.pacing = true then s.setAnswer .ok
      else { s with timer.pacing := true, timer.position := 0 }.setAnswer .ok) ∧
    (s.timer.pacing = false → exec .pacingOff s = .next (s.setAnswer .ok)) ∧
    (s.timer.pacing = true → s.edit.group = .armed → exec .pacingOff s = .next (s.setAnswer .busy)) ∧
    (s.timer.pacing = true → s.edit.group ≠ .armed → s.timer.pendingSet = none →
      exec .pacingOff s = .next ({ s with timer.pacing := false }.setAnswer .ok)) ∧
    ∀ c, s.timer.pacing = true → s.edit.group ≠ .armed → s.timer.pendingSet = some c →
      exec .pacingOff s = .next
        ({ s with timer.pacing := false, timer.running := c, timer.pendingSet := none, timer.position := 0 }.setAnswer .ok)

/-! ### Edit groups -/

/-- R150, R157: OPEN_GROUP opens an IDLE group; ABANDON_GROUP discards an OPEN or ARMED one and says how many entries it held. That BUSY
and NO_GROUP have an empty payload is log 13. -/
def Obligations.GroupsOpenAndAreAbandoned : Prop :=
  ∀ s : State, s.ready →
    exec .openGroup s = .next
      (if s.edit.group = .idle then { s with edit.group := .openForEdits, edit.staged := [] }.setAnswer .ok
      else s.setAnswer .busy) ∧
    exec .abandonGroup s = .next
      (if s.edit.group = .idle then s.setAnswer .noGroup
      else { s with edit := { s.edit with group := .idle, staged := [], target := none } }.setAnswer .ok
        [BitVec.ofNat 8 s.edit.staged.length])

/-- R151, R171, R180: the six staging commands, in the order of the checks: group state, argument ranges, capacity; then the entry
joins the tail of the staged set and the answer gives its index. That NO_GROUP, GROUP_ARMED and GROUP_FULL have an empty payload is
log 13. -/
def Obligations.StagingInOrder : Prop :=
  ∀ s : State, s.ready →
    let staged (valid : Prop) (e : Edit) (t : State) : Prop :=
      (s.edit.group = .idle → t = s.setAnswer .noGroup) ∧
      (s.edit.group = .armed → t = s.setAnswer .groupArmed) ∧
      (s.edit.group = .openForEdits → ¬ valid → t = s.setAnswer .range) ∧
      (s.edit.group = .openForEdits → valid → 32 ≤ s.edit.staged.length → t = s.setAnswer .groupFull) ∧
      (s.edit.group = .openForEdits → valid → s.edit.staged.length < 32 →
        t = { s with edit.staged := s.edit.staged ++ [e] }.setAnswer .ok [BitVec.ofNat 8 s.edit.staged.length])
    let isHandle (n : BitVec 16) (h : Handle) : Prop := n.toNat = h.val + 1
    (∀ (n : BitVec 16) (q : Byte) (b : BitVec 24) (l : BitVec 16) (h : Handle) (p : PoolId),
      ∃ t, exec (.stageDefine n q b l) s = .next t ∧
        ((1 ≤ n.toNat ∧ n.toNat ≤ 511 → isHandle n h) → (q.toNat < 8 → q.toNat = p.val) →
          staged ((1 ≤ n.toNat ∧ n.toNat ≤ 511) ∧ q.toNat < 8 ∧ b.toNat < 262144 ∧ 1 ≤ l.toNat ∧ l.toNat ≤ 2048)
            (.define h p b.toNat l.toNat) t)) ∧
    (∀ (n : BitVec 16) (b : BitVec 24) (h : Handle), ∃ t, exec (.stageMove n b) s = .next t ∧
      ((1 ≤ n.toNat ∧ n.toNat ≤ 511 → isHandle n h) →
        staged ((1 ≤ n.toNat ∧ n.toNat ≤ 511) ∧ b.toNat < 262144) (.move h b.toNat) t)) ∧
    (∀ (n l : BitVec 16) (h : Handle), ∃ t, exec (.stageResize n l) s = .next t ∧
      ((1 ≤ n.toNat ∧ n.toNat ≤ 511 → isHandle n h) →
        staged ((1 ≤ n.toNat ∧ n.toNat ≤ 511) ∧ 1 ≤ l.toNat ∧ l.toNat ≤ 2048) (.resize h l.toNat) t)) ∧
    (∀ (n : BitVec 16) (h : Handle), ∃ t, exec (.stageRetire n) s = .next t ∧
      ((1 ≤ n.toNat ∧ n.toNat ≤ 511 → isHandle n h) → staged (1 ≤ n.toNat ∧ n.toNat ≤ 511) (.retire h) t)) ∧
    (∀ (q : Byte) (c b : AgentSet) (sc ll : Byte) (lm : BitVec 16) (p : PoolId),
      ∃ t, exec (.stagePool q c b sc ll lm) s = .next t ∧
        ((q.toNat < 8 → q.toNat = p.val) →
          staged (q.toNat < 8 ∧ sc.toNat ≤ 1 ∧ lm.toNat ≤ 511)
            (.pool p ⟨c, b, decide (sc.toNat = 1), ll.toNat, lm.toNat⟩) t)) ∧
    ∀ (q : Byte) (p : PoolId), ∃ t, exec (.stageUnpool q) s = .next t ∧
      ((q.toNat < 8 → q.toNat = p.val) → staged (q.toNat < 8) (.unpool p) t)

/-- R147, R154: CLOSE_GROUP(MARK): the target is the next mark where the time to mark is at least the guard, else the one after.
That NO_GROUP, GROUP_ARMED and NO_PACING have an empty payload is log 13. -/
def Obligations.GroupsCloseForAMark : Prop :=
  ∀ s : State, s.ready →
    let target := s.timer.cycleCount +
      if s.timer.running.guard ≤ s.timer.running.length - 1 - s.timer.position then 1 else 2
    exec .closeGroupMark s = .next
      (if s.edit.group = .idle then s.setAnswer .noGroup
      else if s.edit.group = .armed then s.setAnswer .groupArmed
      else if s.timer.pacing = false then s.setAnswer .noPacing
      else { s with edit.group := .armed, edit.target := some target }.setAnswer .ok (le 4 target.toNat))

/-- R153, R158, R159, R161, R163: a group presented to the custody unit takes effect in all its entries or in none. Where the
entries, taken in order, fail at one, the outcome names it. Else the table that they make is judged: the first non-VOID buffer
that does not lie below 1 GiB, then the pair with the lowest lower handle and lowest partner that shares a unit, reject the group,
with the highest entry that placed a handle of theirs. Else the group is applied: the records are those of that table; each free
list keeps the handles that stay FREE in the pool and gains those newly FREE in entry order; the scrub queue gains those that
entries made SCRUBBING; each low flag follows its free count. The edit stage's part is the same for every outcome.
CLOSE_GROUP(NOW) presents the group without a cycle count and answers OK with the outcome; then the engine and the arbiter have
their turn (`kick`). That a handle retired and defined again in one group can keep its place in the free list is log 27, that
NO_GROUP and GROUP_ARMED have an empty payload log 13. -/
def Obligations.GroupsApplyAllOrNone : Prop :=
  (∀ (s : State) (count : Option (BitVec 32)),
    s.image = { bufs := s.custody.bufs, pools := s.custody.pools, freed := [], scrubbed := [] } ∧
    let closed (r : Option Rejection) (u : State) : State :=
      { u with edit := { group := .idle, staged := [], target := none
                         outcome := some { rejection := r, cycleCount := count, entries := s.edit.staged.length } }
      }.raise .groupDone
    let places (e : Edit) (h : Handle) : Prop :=
      (∃ p b l, e = .define h p b l) ∨ (∃ b, e = .move h b) ∨ ∃ l, e = .resize h l
    let lastPlacing (hit : Handle → Prop) (n : Nat) : Prop :=
      (∃ e h, s.edit.staged[n]? = some e ∧ hit h ∧ places e h) ∧
        ∀ m e h, n < m → s.edit.staged[m]? = some e → hit h → ¬ places e h
    (∀ r, walkEntries 0 s.image s.edit.staged = .error r → s.presentGroup count = closed (some r) s) ∧
    ∀ im, walkEntries 0 s.image s.edit.staged = .ok im →
      let last (h : Handle) : Nat := (nth im.bufs h).base + (nth im.bufs h).length
      let outside (h : Handle) : Prop := (nth im.bufs h).state ≠ .void ∧ 262144 < last h
      let overlap (h k : Handle) : Prop :=
        h < k ∧ (nth im.bufs h).state ≠ .void ∧ (nth im.bufs k).state ≠ .void ∧
          (nth im.bufs k).base < last h ∧ (nth im.bufs h).base < last k
      (∀ h n, outside h → (∀ k, k < h → ¬ outside k) → lastPlacing (· = h) n →
        s.presentGroup count = closed (some ⟨n, .outsideMemory, none⟩) s) ∧
      (∀ h k n, (∀ j, ¬ outside j) → overlap h k → (∀ i j, overlap i j → h < i ∨ h = i ∧ k ≤ j) →
        lastPlacing (fun j => j = h ∨ j = k) n →
        s.presentGroup count = closed (some ⟨n, .overlap, some (h, k)⟩) s) ∧
      ((∀ j, ¬ outside j) → (∀ i j, ¬ overlap i j) →
        let freeIn (r : BufRec) (p : PoolId) : Bool := decide (r.state = .free) && decide (r.pool = p)
        ∃ pools : Vector PoolRec 8,
          s.presentGroup count =
            closed none { s with custody.bufs := im.bufs, custody.pools := pools, scrub.queue := s.scrub.queue ++ im.scrubbed } ∧
          ∀ p,
            let list := ((s.pool p).freeList.filter fun h => freeIn (nth im.bufs h) p) ++
              im.freed.filter fun h => freeIn (nth im.bufs h) p && !freeIn (s.buf h) p
            nth pools p = { nth im.pools p with freeList := list, tripped := decide (list.length < (nth im.pools p).lowMark) })) ∧
  ∀ s : State, s.ready →
    (s.edit.group = .idle → exec .closeGroupNow s = .next (s.setAnswer .noGroup)) ∧
    (s.edit.group = .armed → exec .closeGroupNow s = .next (s.setAnswer .groupArmed)) ∧
    (s.edit.group = .openForEdits →
      let u := s.presentGroup none
      exec .closeGroupNow s = .next (u.setAnswer .ok (u.edit.image.drop 6)).kick ∧
      ∃ t o, exec .closeGroupNow s = .next t ∧
        t.edit = { group := .idle, staged := [], target := none, outcome := some o } ∧
        o.cycleCount = none ∧ o.entries = s.edit.staged.length ∧ t.notice .groupDone = true ∧
        t.mgmt.answer = ⟨.ok, (t.edit.image).drop 6⟩ ∧ t.custody.queues = s.custody.queues ∧
        t.timer = s.timer ∧ (s.quiet → t.stage = s.stage ∧ t.checker = s.checker ∧ t.sent.responses = s.sent.responses) ∧
        (s.quiet → t.custody = u.custody) ∧ (s.quiet → o.rejection ≠ none → t.custody = s.custody ∧ t.scrub = s.scrub) ∧
        (o.rejection = none → ∀ h, (t.buf h).state ≠ .void →
          (t.buf h).base + (t.buf h).length ≤ 262144 ∧
          ∀ k, (t.buf k).state ≠ .void → h ≠ k →
            (t.buf h).base + (t.buf h).length ≤ (t.buf k).base ∨ (t.buf k).base + (t.buf k).length ≤ (t.buf h).base))

/-- R24, R25, R158, R160: each entry against the working image: why it fails, or the whole image that it makes: the records, the
pools, and the handles made FREE and SCRUBBING so far. (The free lists of the pools in an image are set at the apply, by R161.)
The entries are taken in order, and the first that fails gives its index. -/
def Obligations.EditEntriesAreJudged : Prop :=
  (∀ (im : Image) (h : Handle) (p : PoolId) (base length : Nat) (c : PoolSettings),
    let r := nth im.bufs h
    let q := nth im.pools p
    let settle (im1 : Image) (b : BufRec) (isNew : Bool) : Image :=
      if (nth im.pools b.pool).scrubs = true then
        { im1 with
          bufs := put im.bufs h { b with state := .scrubbing }, freed := im.freed.filter (· ≠ h)
          scrubbed := im.scrubbed ++ [h] }
      else
        { im1 with
          bufs := put im.bufs h { b with state := .free }
          freed := if isNew then im.freed.filter (· ≠ h) ++ [h] else im.freed }
    applyEntry im (.define h p base length) =
      (if r.state ≠ .void then .error .notVoid
      else if q.defined = false then .error .noPool
      else .ok (settle { im with pools := put im.pools p { q with members := q.members + 1 } }
        { state := .void, pool := p, base := base, length := length, generation := 0, custodian := none, target := none
          sealed := false, written := false, lends := [], expired := 0, inFlight := 0 } true)) ∧
    applyEntry im (.move h base) =
      (if r.state ≠ .free then .error .notFree else .ok (settle im { r with base := base } false)) ∧
    applyEntry im (.resize h length) =
      (if r.state ≠ .free then .error .notFree else .ok (settle im { r with length := length } false)) ∧
    applyEntry im (.retire h) =
      (if r.state ≠ .free ∧ r.state ≠ .withheld then .error .notFree
      else .ok { im with
        bufs := put im.bufs h { BufRec.reset with generation := r.generation }
        pools := put im.pools r.pool { nth im.pools r.pool with members := (nth im.pools r.pool).members - 1 }
        freed := im.freed.filter (· ≠ h) }) ∧
    applyEntry im (.pool p c) = .ok
      { im with
        pools := put im.pools p
          { q with
            defined := true, claimSet := c.claimSet, borrowSet := c.borrowSet, scrubs := c.scrubs, lendLimit := c.lendLimit
            lowMark := c.lowMark } } ∧
    applyEntry im (.unpool p) =
      (if q.members ≠ 0 then .error .hasMembers
      else .ok { im with
        pools := put im.pools p
          { defined := false, claimSet := 0, borrowSet := 0, scrubs := false, lendLimit := 0, lowMark := 0, tripped := false
            freeList := q.freeList, members := 0 } })) ∧
  (∀ im : Image, walkEntries 0 im [] = .ok im) ∧
  ∀ (im im1 : Image) (front back : List Edit) (e : Edit), walkEntries 0 im front = .ok im1 →
    (∀ im2, applyEntry im1 e = .ok im2 → walkEntries 0 im (front ++ [e]) = .ok im2) ∧
    ∀ why, applyEntry im1 e = .error why →
      walkEntries 0 im (front ++ e :: back) = .error { index := front.length, reason := why, pair := none }

/-! ### Commands on custody and agents -/

/-- R38, R80: FORCE_RELEASE takes a HELD or IN_TRANSIT buffer through the release path, out of its target's queue first;
FORCE_RETURN ends one lend. What follows a release at the scrub engine follows at once (`kick`: log 1). That
WRONG_STATE and NO_LEND have an empty payload is log 13. -/
def Obligations.ForceReleaseAndReturn : Prop :=
  ∀ (s : State) (n : BitVec 16) (x : Byte), s.ready →
    (n.toNat = 0 ∨ 511 < n.toNat →
      exec (.forceRelease n) s = .next (s.setAnswer .range) ∧ exec (.forceReturn n x) s = .next (s.setAnswer .range)) ∧
    (15 < x.toNat → exec (.forceReturn n x) s = .next (s.setAnswer .range)) ∧
    ∀ h : Handle, n.toNat = h.val + 1 →
      let r := s.buf h
      let answered (u : State) : State := u.setAnswer .ok (le 1 (u.buf h).state.code ++ [(u.buf h).generation])
      (r.state ≠ .held → r.state ≠ .inTransit →
        exec (.forceRelease n) s = .next (s.setAnswer .wrongState) ∧
        (x.toNat ≤ 15 → exec (.forceReturn n x) s = .next (s.setAnswer .wrongState))) ∧
      (r.state = .held → exec (.forceRelease n) s = .next (answered (s.releasePath h)).kick) ∧
      (∀ b, r.state = .inTransit → r.target = some b →
        exec (.forceRelease n) s = .next
          (answered ((s.setQueue b ((s.queue b).filter (· ≠ h))).releasePath h)).kick) ∧
      ∀ b : Agent, x.toNat = b.val → r.state = .held ∨ r.state = .inTransit →
        let left := r.lends.filter fun l => l.borrower ≠ b
        exec (.forceReturn n x) s = .next
          (if b ∈ r.lends.map Lend.borrower then
            (s.setBuf h { r with lends := left }).setAnswer .ok [r.generation, BitVec.ofNat 8 left.length]
          else if r.expired.getLsbD b.val = true then
            (s.setBuf h { r with expired := r.expired &&& ~~~ BitVec.twoPow 16 b.val }).setAnswer .expired
              [r.generation, BitVec.ofNat 8 r.lends.length]
          else s.setAnswer .noLend)

/-- R40, R41: ADMIT makes a WITHHELD buffer FREE with its generation stepped; RESCRUB sends it to the tail of the scrub
queue, and the engine and the arbiter have their turn (`kick`: log 1). That WRONG_STATE has an empty payload is log 13. -/
def Obligations.AdmitAndRescrub : Prop :=
  ∀ (s : State) (n : BitVec 16), s.ready →
    (n.toNat = 0 ∨ 511 < n.toNat →
      exec (.admitBuffer n) s = .next (s.setAnswer .range) ∧ exec (.rescrub n) s = .next (s.setAnswer .range)) ∧
    ∀ h : Handle, n.toNat = h.val + 1 →
      let r := s.buf h
      let p := s.pool r.pool
      let bare : BufRec :=
        { r with custodian := none, target := none, sealed := false, lends := [], expired := 0, inFlight := 0 }
      (r.state ≠ .withheld →
        exec (.admitBuffer n) s = .next (s.setAnswer .wrongState) ∧
        exec (.rescrub n) s = .next (s.setAnswer .wrongState)) ∧
      (r.state = .withheld →
        exec (.admitBuffer n) s = .next
          (((s.setBuf h { bare with state := .free, generation := r.generation + 1, written := false }).setPool r.pool
            { p with
              freeList := p.freeList ++ [h]
              tripped := p.tripped && decide (p.freeList.length + 1 < p.lowMark) }).setAnswer .ok [r.generation + 1])) ∧
      (r.state = .withheld →
        exec (.rescrub n) s = .next
          ({ s.setBuf h { bare with state := .scrubbing } with scrub.queue := s.scrub.queue ++ [h] }.setAnswer .ok).kick) ∧
      (r.state = .withheld → (s.scrub.engine ≠ .idle ∨ s.mem.link = .down) → s.quiet →
        exec (.rescrub n) s = .next
          ({ s.setBuf h { bare with state := .scrubbing } with scrub.queue := s.scrub.queue ++ [h] }.setAnswer .ok)) ∧
      (r.state = .withheld → s.scrub.engine = .idle → s.mem.link = .up → s.scrub.queue = [] →
        ∃ t c, exec (.rescrub n) s = .next t ∧ t.scrub.queue = [] ∧ t.scrub.engine = .issuing c ∧ c.handle = h ∧
          c.base = r.base ∧ c.count = r.length * 16 ∧ (t.buf h).state = .scrubbing ∧
          (t.buf h).generation = r.generation ∧ t.mgmt.answer = ⟨.ok, []⟩)

/-- R117, R118: SET_AGENT sets the enabled flag and answers the flag before; CLEAR_FAULT empties the slot, clears the FAULT bit and
answers whether the slot was occupied. -/
def Obligations.AgentFlagAndFaultSlot : Prop :=
  ∀ (s : State) (x m : Byte), s.ready →
    (15 < x.toNat ∨ 1 < m.toNat → exec (.setAgent x m) s = .next (s.setAnswer .range)) ∧
    (15 < x.toNat → exec (.clearFault x) s = .next (s.setAnswer .range)) ∧
    ∀ a : Agent, x.toNat = a.val →
      (m.toNat ≤ 1 → exec (.setAgent x m) s = .next
        ((s.setAgentRec a { s.agent a with online := decide (m.toNat = 1) }).setAnswer .ok
          [if s.online a = true then 1 else 0])) ∧
      exec (.clearFault x) s = .next
        (((s.setAgentRec a { s.agent a with slot := none }).lower (.fault a)).setAnswer .ok
          [if (s.agent a).slot = none then 0 else 1])

/-- R13, R42, R61, R62, R82, R83, R96, R116, R172: what an agent reset leaves. The agent has no waiting, held or outstanding transaction
and no fault; it is no buffer's custodian, its inbound queue is empty, and it is no borrower and no expired borrower anywhere;
its enabled flag stands. Its transactions are answered CANCELLED: the one waiting, the one held, those in memory in ascending
stage tag order. Its buffers take the release path in ascending handle order; those in its queue are HELD by their senders again;
its lends and expired lends leave every other record, which otherwise stays as it is. That the three parts are one step, with no
event between them, is the model's choice: log 36. -/
def Obligations.AgentResetClearsEveryTie : Prop :=
  ∀ (s : State) (x : Byte), s.ready →
    (15 < x.toNat → exec (.agentReset x) s = .next (s.setAnswer .range)) ∧
    ∀ a : Agent, x.toNat = a.val → s.custodyLawful →
      ∃ t, exec (.agentReset x) s = .next t ∧ t.mgmt.answer = ⟨.ok, []⟩ ∧ t.waiting a = none ∧
        (∀ g, t.entry a g = none) ∧ (∀ y, t.checker.hold = some y → y.agent ≠ a) ∧
        (t.agent a).slot = none ∧ t.notice (.fault a) = false ∧ t.online a = s.online a ∧ t.queue a = [] ∧
        t.stage.pointer = s.stage.pointer ∧ t.timer = s.timer ∧ t.edit = s.edit ∧
        (∀ b, b ≠ a → t.waiting b = s.waiting b) ∧
        (s.quiet →
          t.sent.responses = s.sent.responses ++
            ((match s.waiting a with
              | some x => [⟨x.agent, x.tag, .cancelled, none, []⟩]
              | none => []) ++
            (match s.checker.hold with
              | some y => if y.agent = a then [⟨a, y.tag, .cancelled, none, []⟩] else []
              | none => []) ++
            (List.finRange 8).filterMap fun g =>
              if ∃ y, s.checker.hold = some y ∧ y.agent = a ∧ y.tag = g then none
              else
                match s.entry a g with
                | some _ => some ⟨a, g, .cancelled, none, []⟩
                | none => none)) ∧
        (s.quiet →
          let left (x : AgentSet) : AgentSet := x &&& ~~~ BitVec.twoPow 16 a.val
          let goesTo (h : Handle) : BufState :=
            if 0 < (s.buf h).inFlight then .draining
            else if (s.pool (s.buf h).pool).scrubs && (s.buf h).written then .scrubbing
            else .free
          (∀ h, (s.buf h).custodian = some a →
            t.buf h = { s.buf h with
              state := goesTo h, custodian := none, target := none, sealed := false, lends := []
              generation := if goesTo h = .free then (s.buf h).generation + 1 else (s.buf h).generation
              written := (s.buf h).written && decide (goesTo h ≠ .free)
              expired := if goesTo h = .draining then left (s.buf h).expired else 0 }) ∧
          (∀ h, (s.buf h).target = some a →
            t.buf h = { s.buf h with state := .held, target := none, expired := left (s.buf h).expired }) ∧
          (∀ h, (s.buf h).custodian ≠ some a → (s.buf h).target ≠ some a →
            t.buf h = { s.buf h with
              lends := (s.buf h).lends.filter fun l => l.borrower ≠ a, expired := left (s.buf h).expired }) ∧
          (∀ b, b ≠ a → t.queue b = (s.queue b).filter fun h => (s.buf h).custodian ≠ some a) ∧
          (∀ p, (t.pool p).freeList = (s.pool p).freeList ++ (List.finRange 511).filter fun h =>
            decide ((s.buf h).custodian = some a ∧ (s.buf h).pool = p ∧ goesTo h = .free)) ∧
          (s.scrub.engine ≠ .idle ∨ s.mem.link = .down →
            t.scrub.queue = s.scrub.queue ++ (List.finRange 511).filter fun h =>
              decide ((s.buf h).custodian = some a ∧ goesTo h = .scrubbing))) ∧
        (s.quiet → ∀ h, (s.buf h).custodian ≠ some a → (s.buf h).target ≠ some a →
          (∀ l, l ∈ (s.buf h).lends → l.borrower ≠ a) → memAgent a (s.buf h).expired = false → t.buf h = s.buf h) ∧
        ∀ h, (t.buf h).custodian ≠ some a ∧ (∀ l, l ∈ (t.buf h).lends → l.borrower ≠ a) ∧
          memAgent a (t.buf h).expired = false

/-- R21, R29, R47, R119, R148, R164, R175, R177: each read command answers the record as it stands, in the layout of 11.3, and
changes nothing else. -/
def Obligations.ReadCommandsAnswer : Prop :=
  let byte (k n : Nat) : Byte := BitVec.ofNat 8 (n / 256 ^ k)
  let bytes (k n : Nat) : List Byte := (List.range k).map fun j => byte j n
  let bits (l : List Bool) : Byte := BitVec.ofNat 8 ((List.range l.length).map fun k => (l.getD k false).toNat * 2 ^ k).sum
  let agentOr (x : Option Agent) (absent : Nat) : Byte := match x with | some a => BitVec.ofNat 8 a.val | none => BitVec.ofNat 8 absent
  (∀ r : BufRec, r.image =
    [BitVec.ofNat 8 r.state.code,
      bits [r.sealed, r.written, decide (r.state ≠ .void), r.custodian.isSome, r.target.isSome],
      BitVec.ofNat 8 r.pool.val, r.generation] ++ bytes 3 r.base ++ bytes 2 r.length ++
    [agentOr r.custodian 0, agentOr r.target 0, BitVec.ofNat 8 r.inFlight] ++ bytes 2 r.expired.toNat ++
    [BitVec.ofNat 8 r.lends.length] ++
    (List.range 4).flatMap fun k =>
      match r.lends[k]? with
      | some l => [BitVec.ofNat 8 l.borrower.val, BitVec.ofNat 8 (l.deadline.getD 0)]
      | none => [0, 0]) ∧
  (∀ p : PoolRec, p.image =
    [bits [p.defined, p.scrubs, p.tripped]] ++ bytes 2 p.claimSet.toNat ++ bytes 2 p.borrowSet.toNat ++
    [BitVec.ofNat 8 p.lendLimit] ++ bytes 2 p.lowMark ++ bytes 2 p.members ++ bytes 2 p.freeList.length ++
    bytes 9 ((List.range 8).map fun k =>
      (match p.freeList[k]? with | some h => h.val + 1 | none => 0) * 512 ^ k).sum) ∧
  (∀ q : List Handle, queueImage q =
    BitVec.ofNat 8 q.length :: (List.range 8).flatMap fun k =>
      bytes 2 (match q[k]? with | some h => h.val + 1 | none => 0)) ∧
  (∀ a : AgentRec, a.image =
    match a.slot with
    | none => [bits [a.online]]
    | some f =>
      [bits [a.online, true, decide (f.access = .write)], BitVec.ofNat 8 f.kind.code] ++ bytes 2 f.handle.toNat ++
        bytes 3 f.offset.toNat ++ [f.sizeLess1, match f.bufState with | some st => BitVec.ofNat 8 st.code | none => 0xFF] ++
        bytes 4 f.cycleCount.toNat) ∧
  (∀ t : Timer, t.image =
    [bits [t.pacing, t.pendingSet.isSome], BitVec.ofNat 8 t.divisor] ++ bytes 3 t.running.length ++ bytes 3 t.running.guard ++
      bytes 3 (match t.pendingSet with | some c => c.length | none => 0) ++
      bytes 3 (match t.pendingSet with | some c => c.guard | none => 0) ++ bytes 3 t.position ++ bytes 4 t.cycleCount.toNat) ∧
  (∀ e : EditStage,
    let target := bytes 4 (match e.target with | some n => n.toNat | none => 0)
    e.image = [BitVec.ofNat 8 e.group.code, BitVec.ofNat 8 e.staged.length] ++ target ++
      match e.outcome with
      | none => bits [e.target.isSome] :: List.replicate 11 0
      | some o =>
        [bits [e.target.isSome, true, o.rejection.isSome, o.cycleCount.isSome]] ++
          bytes 4 (match o.cycleCount with | some n => n.toNat | none => 0) ++ [BitVec.ofNat 8 o.entries] ++
          match o.rejection with
          | none => List.replicate 6 0
          | some r =>
            [BitVec.ofNat 8 r.index, BitVec.ofNat 8 r.reason.code] ++
              match r.pair with
              | some (h, k) => bytes 2 (h.val + 1) ++ bytes 2 (k.val + 1)
              | none => [0, 0, 0, 0]) ∧
  ([.void, .free, .held, .inTransit, .draining, .scrubbing, .withheld] : List BufState).map BufState.code = List.range 7 ∧
  ([.tagReuse, .shape, .undefinedHandle, .unavailable, .notEntitled, .sealedWrite, .borrowerWrite, .outOfRange] :
    List FaultKind).map FaultKind.code = [1, 2, 3, 4, 5, 6, 7, 8] ∧
  ([.idle, .openForEdits, .armed] : List GroupState).map GroupState.code = [0, 1, 2] ∧
  ([.notVoid, .notFree, .noPool, .hasMembers, .overlap, .outsideMemory] : List Reason).map Reason.code = [1, 2, 3, 4, 5, 6] ∧
  ∀ s : State, s.ready →
    (∀ n : BitVec 16,
      (n.toNat = 0 ∨ 511 < n.toNat → exec (.readBuffer n) s = .next (s.setAnswer .range)) ∧
      ∀ h : Handle, n.toNat = h.val + 1 → exec (.readBuffer n) s = .next (s.setAnswer .ok (s.buf h).image)) ∧
    (∀ x : Byte,
      (7 < x.toNat → exec (.readPool x) s = .next (s.setAnswer .range)) ∧
      (∀ p : PoolId, x.toNat = p.val → exec (.readPool x) s = .next (s.setAnswer .ok (s.pool p).image)) ∧
      (15 < x.toNat →
        exec (.readQueue x) s = .next (s.setAnswer .range) ∧ exec (.readFault x) s = .next (s.setAnswer .range)) ∧
      ∀ a : Agent, x.toNat = a.val →
        exec (.readQueue x) s = .next (s.setAnswer .ok (queueImage (s.queue a))) ∧
        exec (.readFault x) s = .next (s.setAnswer .ok (s.agent a).image)) ∧
    exec .readCycle s = .next (s.setAnswer .ok s.timer.image) ∧
    exec .readGroup s = .next (s.setAnswer .ok s.edit.image) ∧
    exec .readNotices s = .next (s.setAnswer .ok (bytes 4 s.mgmt.notices.toNat ++ bytes 4 s.mgmt.enable.toNat)) ∧
    exec .identify s = .next (s.setAnswer .ok [0x60, 0x82, 0x01])

/-! ### Management port -/

/-- R172, R175, R176, R180: ACK_NOTICES clears the named bits but the FAULT bits; SET_NOTICE_ENABLE replaces the mask; SET_MEMLIMIT
sets the limit; IRQ is asserted exactly while some notice is both pending and enabled. -/
def Obligations.NoticesAndLimit : Prop :=
  (∀ n : Notice,
    let place : Nat :=
      match n with
      | .fault a => a.val
      | .poolLow p => 16 + p.val
      | .lendExpired => 24
      | .scrubFailed => 25
      | .groupDone => 26
      | .memoryLate => 27
      | .memoryDown => 28
    ∀ s : State, s.notice n = s.mgmt.notices.getLsbD place ∧
      (∃ set : NoticeSet, s.raise n = { s with mgmt.notices := set } ∧
        ∀ k, k < 29 → set.getLsbD k = (s.mgmt.notices.getLsbD k || decide (k = place))) ∧
      ∃ set : NoticeSet, s.lower n = { s with mgmt.notices := set } ∧
        ∀ k, k < 29 → set.getLsbD k = (s.mgmt.notices.getLsbD k && decide (k ≠ place))) ∧
  ∀ s : State,
    (s.irq = true ↔ ∃ k, k < 29 ∧ s.mgmt.notices.getLsbD k = true ∧ s.mgmt.enable.getLsbD k = true) ∧
    (s.ready → ∀ n : BitVec 32,
      (2 ^ 29 ≤ n.toNat →
        exec (.ackNotices n) s = .next (s.setAnswer .range) ∧
        exec (.setNoticeEnable n) s = .next (s.setAnswer .range)) ∧
      (n.toNat < 2 ^ 29 →
        exec (.setNoticeEnable n) s = .next
          ({ s with mgmt.enable := n.setWidth 29 }.setAnswer .ok (le 4 s.mgmt.enable.toNat)) ∧
        ∃ left : NoticeSet, exec (.ackNotices n) s = .next
            ({ s with mgmt.notices := left }.setAnswer .ok (le 4 left.toNat)) ∧
          ∀ k, k < 29 → left.getLsbD k = (s.mgmt.notices.getLsbD k && (decide (k < 16) || !n.getLsbD k)))) ∧
    (s.ready → ∀ l : BitVec 16, exec (.setMemlimit l) s = .next
      (if 1 ≤ l.toNat ∧ l.toNat ≤ 1023 then
        { s with mgmt.memLimit := l.toNat }.setAnswer .ok (le 2 s.mgmt.memLimit)
      else s.setAnswer .range))

/-- R170, R173, R174: a FIND answers RANGE, or begins a scan and examines its first record at once; each tick examines one record
beside its counts, before or after the mark or the idle timeout of the same tick (log 4) and before its expiries (log 31); each
examination ends the scan at a match or at handle 511, or goes on to the next handle; while a scan is under way every command is
answered BUSY and not run, after an idle timeout that is still outstanding (PulseAndIdleTimeoutEnd). -/
def Obligations.FindScans : Prop :=
  ∀ s : State,
    (∀ (k v : Byte) (n : BitVec 16), s.ready →
      let listed : Prop := k.toNat = 0 ∧ v.toNat ≤ 6 ∨ k.toNat = 1 ∧ v.toNat ≤ 15 ∨ k.toNat = 2 ∧ v.toNat = 0
      let states : List BufState := [.void, .free, .held, .inTransit, .draining, .scrubbing, .withheld]
      let names (key : FindKey) : Prop :=
        (k.toNat = 0 ∧ ∃ st, states[v.toNat]? = some st ∧ key = .byState st) ∨
        (k.toNat = 1 ∧ ∃ a : Agent, a.val = v.toNat ∧ key = .byCustodian a) ∨
        (k.toNat = 2 ∧ v.toNat = 0 ∧ key = .expiredLends)
      (¬ listed ∨ n.toNat = 0 ∨ 511 < n.toNat → exec (.find k v n) s = .next (s.setAnswer .range)) ∧
      ∀ (key : FindKey) (h : Handle), names key → n.toNat = h.val + 1 →
        exec (.find k v n) s = .next ({ s.setAnswer .working with mgmt.scan := some ⟨key, h, h⟩ }.scanStep)) ∧
    (∀ c : Scan, s.mgmt.scan = some c →
      let r := s.buf c.next
      let found : Prop :=
        match c.key with
        | .byState st => r.state = st
        | .byCustodian a => r.custodian = some a
        | .expiredLends => r.expired ≠ 0
      (found → s.scanStep = { s with mgmt.scan := none }.setAnswer .ok
        (le 2 (c.next.val + 1) ++ [BitVec.ofNat 8 r.state.code, r.generation,
          match r.custodian with | some a => BitVec.ofNat 8 a.val | none => 0xFF])) ∧
      (¬ found → c.next.val = 510 →
        s.scanStep = { s with mgmt.scan := none }.setAnswer .none (le 2 (c.start.val + 1))) ∧
      (∀ h : Handle, ¬ found → h.val = c.next.val + 1 →
        s.scanStep = { s with mgmt.scan := some { c with next := h } })) ∧
    (∀ low : Bool, s.resetLow = false → s.nothingDue → s.mgmt.scan ≠ none →
      (∃ t r : State, exec (.tick low) s = .next t ∧ r.mgmt.scan = s.mgmt.scan ∧ (r.custody = s.custody ∨ r.custody = t.custody) ∧
        t.mgmt.scan = r.scanStep.mgmt.scan ∧ t.mgmt.answer = r.scanStep.mgmt.answer) ∧
      let idle := if low = true ∧ s.mgmt.receiver ≠ .idle then s.mgmt.idleCount + 1 else 0
      let u : State := { s with
        timer.divider := 0
        mem := { s.mem with
          tags := mapAll s.mem.tags fun r =>
            match r.use with
            | some x => { r with use := some { x with timeLeft := x.timeLeft - 1 } }
            | none => r
          settling := match s.mem.settling with | some n => some (n - 1) | none => none }
        mgmt.idleCount := idle }
      let ahead (x : State) : State :=
        { x with timer.position := if x.timer.pacing then x.timer.position + 1 else x.timer.position }
      (s.timer.markDue = false → idle < 25000 → exec (.tick low) s = .next (ahead u.scanStep)) ∧
      let drawn (x : State) : State := { x with freeCount := s.freeCount + 1 }
      (s.timer.markDue = false → 25000 ≤ idle →
        exec (.tick low) s = .next (ahead (drawn u).scanStep) ∨
        ∃ x, exec .i2cIdleTimeout (drawn u) = .next x ∧ exec (.tick low) s = .next (ahead x.scanStep)) ∧
      (s.timer.markDue = true → idle < 25000 →
        ∃ x r, exec (.tick low) { s with mgmt.scan := none } = .next x ∧ (r = s ∨ r = { x with mgmt.scan := s.mgmt.scan }) ∧
          exec (.tick low) s = .next
            (drawn { x with mgmt.scan := r.scanStep.mgmt.scan, mgmt.answer := r.scanStep.mgmt.answer }))) ∧
    (s.resetLow = false → s.mgmt.scan ≠ none → (s.mgmt.receiver = .idle ∨ s.mgmt.idleCount < 25000) →
      ∀ c, hostFrame c ≠ none → exec c s = .next (s.setAnswer .busy))

/-- R167, R171, R180, 11.2: a STOP after the frame of a management command runs exactly that command: every argument byte of the
frame is read as the operand it spells, and nothing of the operand is lost. R144, R153: a good PACING or CLOSE_GROUP frame whose mode byte
names no mode is answered RANGE, CLOSE_GROUP after its group-state checks, whose answers
have an empty payload (log 13). That the row sets the idle count back to 0 is log 22. -/
def Obligations.FrameRunsItsCommand : Prop :=
  (∀ (s : State) (c : Instr) (frame : List Byte) (pins : BitVec 2), s.ready → s.mgmt.idleCount < 25000 →
    hostFrame c = some frame → s.mgmt.frame = frame → s.mgmt.receiver = .receiving ∨ s.mgmt.receiver = .discarding →
    (∀ p, c = .partReset p → p = pins) →
    exec (.frameTaken pins) s = exec c { s with mgmt.receiver := .idle, mgmt.frame := [], mgmt.idleCount := 0 }) ∧
  ∀ (s : State) (mode check : Byte) (pins : BitVec 2), s.ready → s.mgmt.idleCount < 25000 → 1 < mode.toNat →
    s.mgmt.receiver = .receiving ∨ s.mgmt.receiver = .discarding →
    let u := { s with mgmt.receiver := .idle, mgmt.frame := [], mgmt.idleCount := 0 }
    (s.mgmt.frame = [0x52, mode, check] → 0x52 + mode + check = 0 →
      exec (.frameTaken pins) s = .next (u.setAnswer .range)) ∧
    (s.mgmt.frame = [0x11, mode, check] → 0x11 + mode + check = 0 →
      exec (.frameTaken pins) s = .next
        (u.setAnswer
          (match s.edit.group with
          | .idle => .noGroup
          | .armed => .groupArmed
          | .openForEdits => .range)))

/-- R166, R167, R170: an address that is not the port's own, or is, with no write transaction open; a data byte in each receiver
state; and how the frame of a write transaction that is not run is answered at its STOP; the codes have the argument bytes of 11.2. That a row of the bus sets the idle count
back to 0 is log 22, the answer latched at the address byte log 25, and that FRAME_TAKEN with no write open changes nothing log 8. -/
def Obligations.BusBytesAndFrames : Prop :=
  (∀ code : Byte, argumentBytes code.toNat =
    ([(0x01, 0), (0x02, 0), (0x10, 0), (0x11, 1), (0x12, 0), (0x13, 8), (0x14, 5), (0x15, 4), (0x16, 2), (0x17, 9), (0x18, 1),
      (0x19, 0), (0x20, 2), (0x21, 3), (0x22, 2), (0x23, 2), (0x30, 2), (0x31, 1), (0x32, 1), (0x33, 1), (0x40, 2), (0x41, 1),
      (0x42, 1), (0x43, 0), (0x44, 4), (0x50, 1), (0x51, 6), (0x52, 1), (0x53, 2), (0x60, 0), (0x61, 4), (0x62, 4)] :
      List (Nat × Nat)).lookup code.toNat) ∧
  ∀ s : State, s.resetLow = false → s.mgmt.idleCount < 25000 →
    (∀ (x : BitVec 7) (read : Bool) (pins : BitVec 2), s.mgmt.receiver = .idle ∨ s.mgmt.receiver = .sending →
      exec (.i2cAddress x read pins) s = .next
        (if x ≠ s.mgmt.ownAddress then
          { s with mgmt.receiver := .idle, mgmt.sendRest := [], mgmt.idleCount := 0 }.sendBus (.ack false)
        else if read = true then
          { s with
            mgmt.receiver := .sending, mgmt.sendRest := s.mgmt.answer.frame, mgmt.idleCount := 0 }.sendBus (.ack true)
        else { s with mgmt.receiver := .receiving, mgmt.sendRest := [], mgmt.idleCount := 0 }.sendBus (.ack true))) ∧
    (∀ (x : BitVec 7) (read : Bool) (pins : BitVec 2), s.mgmt.receiver = .receiving ∨ s.mgmt.receiver = .discarding →
      ∃ u, exec (.frameTaken pins) s = .next u ∧ exec (.i2cAddress x read pins) s = exec (.i2cAddress x read pins) u) ∧
    (∀ b : Byte, s.mgmt.receiver = .receiving →
      let frame := s.mgmt.frame ++ [b]
      let u (r : Receiver) (given : Bool) : State :=
        { s with mgmt.receiver := r, mgmt.frame := frame, mgmt.idleCount := 0 }.sendBus (.ack given)
      (argumentBytes (frame.headD 0).toNat = none → exec (.i2cDataByte b) s = .next (u .discarding false)) ∧
      ∀ n, argumentBytes (frame.headD 0).toNat = some n →
        exec (.i2cDataByte b) s = .next (if frame.length < n + 2 then u .receiving true else u .discarding true)) ∧
    (∀ b : Byte, s.mgmt.receiver = .idle → exec (.i2cDataByte b) s = .next (s.sendBus (.ack false))) ∧
    (∀ b : Byte, s.mgmt.receiver = .discarding ∨ s.mgmt.receiver = .sending →
      exec (.i2cDataByte b) s = .next ({ s with mgmt.idleCount := 0 }.sendBus (.ack false))) ∧
    (∀ pins : BitVec 2, s.mgmt.receiver = .idle ∨ s.mgmt.receiver = .sending → exec (.frameTaken pins) s = .next s) ∧
    ∀ pins : BitVec 2, s.mgmt.receiver = .receiving ∨ s.mgmt.receiver = .discarding →
      let u := { s with mgmt.receiver := .idle, mgmt.frame := [], mgmt.idleCount := 0 }
      (s.mgmt.frame = [] → exec (.frameTaken pins) s = .next u) ∧
      (s.mgmt.frame ≠ [] → s.mgmt.scan ≠ none → exec (.frameTaken pins) s = .next (u.setAnswer .busy)) ∧
      ∀ code rest, s.mgmt.frame = code :: rest → s.mgmt.scan = none →
        (argumentBytes code.toNat = none → exec (.frameTaken pins) s = .next (u.setAnswer .unknown)) ∧
        ∀ n, argumentBytes code.toNat = some n →
          (rest.length < n + 1 → exec (.frameTaken pins) s = .next (u.setAnswer .short)) ∧
          (n + 1 ≤ rest.length → (code :: rest).foldl (· + ·) 0 ≠ 0 →
            exec (.frameTaken pins) s = .next (u.setAnswer .check))

/-- R169, 11.2: the answer frame is status, payload length, payload and check byte, and sums to 0. A read sends the bytes of the
answer as it stood at the address byte; after the last of them, and after a byte that the host did not acknowledge, 0xFF; a read
that goes on in a later row goes on where this one ends (log 25). A read changes neither the answer nor any other block. That
ANSWER_READ outside SENDING changes nothing is log 8, and that the row sets the idle count back to 0 log 22. -/
def Obligations.AnswersAreRead : Prop :=
  (∀ a : HostAnswer,
    let body : List Byte := [BitVec.ofNat 8 a.status.code, BitVec.ofNat 8 a.payload.length] ++ a.payload
    a.frame = body ++ [0 - body.foldl (· + ·) 0] ∧ a.frame.foldl (· + ·) 0 = 0 ∧
      a.frame.length = a.payload.length + 3) ∧
  ([.none, .ok, .working, .busy, .check, .short, .unknown, .range, .wrongState, .expired, .noLend, .noGroup, .groupArmed,
    .groupFull, .noPacing] : List HostStatus).map HostStatus.code = List.range 15 ∧
  ∀ (s : State) (acks : List Bool) (stop : Bool), s.resetLow = false →
    (s.mgmt.receiver ≠ .sending → s.mgmt.receiver = .idle ∨ s.mgmt.idleCount < 25000 →
      exec (.answerRead acks stop) s = .next s) ∧
    (s.mgmt.receiver = .sending → s.mgmt.idleCount < 25000 →
      exec (.answerRead acks stop) s = .next
        { s with
          sent.bus := s.sent.bus ++ (List.range acks.length).map fun k =>
            .byte (if (acks.take k).all id then s.mgmt.sendRest.getD k 0xFF else 0xFF)
          mgmt.idleCount := 0
          mgmt.receiver := if stop = true then .idle else .sending
          mgmt.sendRest := if stop = true ∨ ¬ acks.all id then [] else s.mgmt.sendRest.drop acks.length })
end

