-- ==== Sys2Proof/Laws/State.lean ====
section
/-! SUPPORT. The laws of a state update: what each table write and each update of one field leaves, by rfl. -/

namespace Sys2Proof.Machine

/-! ### Tables -/

@[simp] theorem nth_put_self {α : Type} {n : Nat} (v : Vector α n) (i : Fin n) (a : α) : nth (put v i a) i = a := by
  simp [nth, put]

theorem nth_put_ne {α : Type} {n : Nat} (v : Vector α n) (i j : Fin n) (a : α) (h : j ≠ i) :
    nth (put v i a) j = nth v j := by
  have h' : i.val ≠ j.val := fun e => h (Fin.ext e.symm)
  simp [nth, put, Vector.getElem_set_ne, h']

/-- What a table reads after a write. -/
theorem nth_put {α : Type} {n : Nat} (v : Vector α n) (i j : Fin n) (a : α) :
    nth (put v i a) j = if j = i then a else nth v j := by
  by_cases h : j = i
  · subst h; simp
  · simp [h, nth_put_ne]

@[simp] theorem nth_map {α β : Type} {n : Nat} (v : Vector α n) (f : α → β) (i : Fin n) : nth (v.map f) i = f (nth v i) := by
  simp [nth]

theorem mapAll_eq {α β : Type} {n : Nat} (v : Vector α n) (f : α → β) : mapAll v f = v.map f := by
  apply Vector.toList_inj.1
  simp [mapAll, Vector.toList]

@[simp] theorem nth_mapAll {α β : Type} {n : Nat} (v : Vector α n) (f : α → β) (i : Fin n) :
    nth (mapAll v f) i = f (nth v i) := by
  rw [mapAll_eq, nth_map]

@[simp] theorem nth_replicate {α : Type} {n : Nat} (a : α) (i : Fin n) : nth (Vector.replicate n a) i = a := by
  simp [nth]

@[simp] theorem nth_ofFn {α : Type} {n : Nat} (f : Fin n → α) (i : Fin n) : nth (Vector.ofFn f) i = f i := by
  simp [nth]

theorem put_nth_self {α : Type} {n : Nat} (v : Vector α n) (i : Fin n) : put v i (nth v i) = v := by
  simp [nth, put]

/-! ### Accessors after updates -/

theorem buf_setBuf (s : State) (h k : Handle) (r : BufRec) : (s.setBuf h r).buf k = if k = h then r else s.buf k :=
  nth_put s.custody.bufs h k r

@[simp] theorem buf_setBuf_self (s : State) (h : Handle) (r : BufRec) : (s.setBuf h r).buf h = r :=
  nth_put_self s.custody.bufs h r

theorem pool_setPool (s : State) (p q : PoolId) (r : PoolRec) : (s.setPool p r).pool q = if q = p then r else s.pool q :=
  nth_put s.custody.pools p q r

theorem queue_setQueue (s : State) (a b : Agent) (l : List Handle) :
    (s.setQueue a l).queue b = if b = a then l else s.queue b :=
  nth_put s.custody.queues a b l

theorem waiting_setWaiting (s : State) (a b : Agent) (t : Option Txn) :
    (s.setWaiting a t).waiting b = if b = a then t else s.waiting b :=
  nth_put s.stage.waiting a b t

theorem agent_setAgentRec (s : State) (a b : Agent) (r : AgentRec) :
    (s.setAgentRec a r).agent b = if b = a then r else s.agent b :=
  nth_put s.checker.agents a b r

theorem tag_setTag (s : State) (i j : TagIndex) (r : TagRec) : (s.setTag i r).tag j = if j = i then r else s.tag j :=
  nth_put s.mem.tags i j r

theorem entry_setEntry (s : State) (a b : Agent) (g k : StageTag) (e : Option Phase) :
    (s.setEntry a g e).entry b k = if b = a ∧ k = g then e else s.entry b k := by
  unfold State.setEntry State.entry
  by_cases h : b = a
  · subst h
    by_cases h' : k = g
    · subst h'; simp
    · simp [h', nth_put_ne]
  · simp [h, nth_put_ne]

/-! ### Notices -/

theorem notice_position_inj {n m : Notice} (h : n.position = m.position) : n = m := by
  cases n <;> cases m <;> simp only [Notice.position] at h <;> first | rfl | omega | (congr 1; apply Fin.ext; omega)

theorem notice_position_lt (n : Notice) : n.position < 29 := by
  cases n <;> simp only [Notice.position] <;> omega

/-- The bit of a notice stands at its own position alone. -/
theorem notice_bit (n m : Notice) : n.bit.getLsbD m.position = decide (m = n) := by
  by_cases h : m = n
  · subst h; simp [Notice.bit, notice_position_lt]
  · have : n.position ≠ m.position := fun e => h (notice_position_inj e.symm)
    simp [Notice.bit, BitVec.getLsbD_twoPow, h, this]

theorem notice_bit_at (n : Notice) (k : Nat) : n.bit.getLsbD k = decide (k = n.position) := by
  have := notice_position_lt n
  rw [Notice.bit, BitVec.getLsbD_twoPow, Bool.eq_iff_iff]
  simp only [Bool.and_eq_true, decide_eq_true_eq]
  omega

theorem raise_at (s : State) (n : Notice) (k : Nat) :
    (s.raise n).mgmt.notices.getLsbD k = (s.mgmt.notices.getLsbD k || decide (k = n.position)) := by
  simp only [State.raise, BitVec.getLsbD_or, notice_bit_at]

theorem lower_at (s : State) (n : Notice) (k : Nat) :
    (s.lower n).mgmt.notices.getLsbD k = (s.mgmt.notices.getLsbD k && decide (k ≠ n.position)) := by
  rw [State.lower, BitVec.getLsbD_and, BitVec.getLsbD_not, notice_bit_at]
  by_cases c : k < 29
  · by_cases e : k = n.position <;> simp [c, e]
  · simp [BitVec.getLsbD_of_ge _ k (Nat.le_of_not_lt c)]

/-- A raised notice is pending; every other stands as it did. -/
theorem notice_raise (s : State) (n m : Notice) : (s.raise n).notice m = (s.notice m || decide (m = n)) := by
  simp only [State.notice, State.raise, BitVec.getLsbD_or, notice_bit]

/-- A lowered notice is clear; every other stands as it did. -/
theorem notice_lower (s : State) (n m : Notice) : (s.lower n).notice m = (s.notice m && !decide (m = n)) := by
  have l := notice_position_lt m
  simp only [State.notice, State.lower, BitVec.getLsbD_and, BitVec.getLsbD_not, notice_bit, l, decide_true, Bool.true_and]

/-! ### What each update leaves -/

/-- A component that each step of a fold leaves, the fold leaves. -/
theorem foldl_keeps {α β : Type} (f : State → β → State) (π : State → α) (h : ∀ s b, π (f s b) = π s) (l : List β)
    (s : State) : π (l.foldl f s) = π s := by
  induction l generalizing s with
  | nil => rfl
  | cons b l ih => rw [List.foldl_cons, ih, h]

@[simp] theorem setBuf_keeps (s : State) (h : Handle) (r : BufRec) :
    (s.setBuf h r).custody.pools = s.custody.pools ∧
      (s.setBuf h r).custody.queues = s.custody.queues ∧
      (s.setBuf h r).stage = s.stage ∧
      (s.setBuf h r).checker = s.checker ∧
      (s.setBuf h r).mem = s.mem ∧
      (s.setBuf h r).scrub = s.scrub ∧
      (s.setBuf h r).timer = s.timer ∧
      (s.setBuf h r).edit = s.edit ∧
      (s.setBuf h r).mgmt = s.mgmt ∧
      (s.setBuf h r).resetLow = s.resetLow ∧
      (s.setBuf h r).sent = s.sent ∧
      (s.setBuf h r).freeCount = s.freeCount ∧
      (s.setBuf h r).pending = s.pending := by
  unfold State.setBuf
  simp

@[simp] theorem setPool_keeps (s : State) (p : PoolId) (r : PoolRec) :
    (s.setPool p r).custody.bufs = s.custody.bufs ∧
      (s.setPool p r).custody.queues = s.custody.queues ∧
      (s.setPool p r).stage = s.stage ∧
      (s.setPool p r).checker = s.checker ∧
      (s.setPool p r).mem = s.mem ∧
      (s.setPool p r).scrub = s.scrub ∧
      (s.setPool p r).timer = s.timer ∧
      (s.setPool p r).edit = s.edit ∧
      (s.setPool p r).mgmt = s.mgmt ∧
      (s.setPool p r).resetLow = s.resetLow ∧
      (s.setPool p r).sent = s.sent ∧
      (s.setPool p r).freeCount = s.freeCount ∧
      (s.setPool p r).pending = s.pending := by
  unfold State.setPool
  simp

@[simp] theorem setQueue_keeps (s : State) (a : Agent) (q : List Handle) :
    (s.setQueue a q).custody.bufs = s.custody.bufs ∧
      (s.setQueue a q).custody.pools = s.custody.pools ∧
      (s.setQueue a q).stage = s.stage ∧
      (s.setQueue a q).checker = s.checker ∧
      (s.setQueue a q).mem = s.mem ∧
      (s.setQueue a q).scrub = s.scrub ∧
      (s.setQueue a q).timer = s.timer ∧
      (s.setQueue a q).edit = s.edit ∧
      (s.setQueue a q).mgmt = s.mgmt ∧
      (s.setQueue a q).resetLow = s.resetLow ∧
      (s.setQueue a q).sent = s.sent ∧
      (s.setQueue a q).freeCount = s.freeCount ∧
      (s.setQueue a q).pending = s.pending := by
  unfold State.setQueue
  simp

@[simp] theorem setWaiting_keeps (s : State) (a : Agent) (t : Option Txn) :
    (s.setWaiting a t).custody = s.custody ∧
      (s.setWaiting a t).stage.outstanding = s.stage.outstanding ∧
      (s.setWaiting a t).stage.pointer = s.stage.pointer ∧
      (s.setWaiting a t).checker = s.checker ∧
      (s.setWaiting a t).mem = s.mem ∧
      (s.setWaiting a t).scrub = s.scrub ∧
      (s.setWaiting a t).timer = s.timer ∧
      (s.setWaiting a t).edit = s.edit ∧
      (s.setWaiting a t).mgmt = s.mgmt ∧
      (s.setWaiting a t).resetLow = s.resetLow ∧
      (s.setWaiting a t).sent = s.sent ∧
      (s.setWaiting a t).freeCount = s.freeCount ∧
      (s.setWaiting a t).pending = s.pending := by
  unfold State.setWaiting
  simp

@[simp] theorem setEntry_keeps (s : State) (a : Agent) (g : StageTag) (e : Option Phase) :
    (s.setEntry a g e).custody = s.custody ∧
      (s.setEntry a g e).stage.waiting = s.stage.waiting ∧
      (s.setEntry a g e).stage.pointer = s.stage.pointer ∧
      (s.setEntry a g e).checker = s.checker ∧
      (s.setEntry a g e).mem = s.mem ∧
      (s.setEntry a g e).scrub = s.scrub ∧
      (s.setEntry a g e).timer = s.timer ∧
      (s.setEntry a g e).edit = s.edit ∧
      (s.setEntry a g e).mgmt = s.mgmt ∧
      (s.setEntry a g e).resetLow = s.resetLow ∧
      (s.setEntry a g e).sent = s.sent ∧
      (s.setEntry a g e).freeCount = s.freeCount ∧
      (s.setEntry a g e).pending = s.pending := by
  unfold State.setEntry
  simp

@[simp] theorem setAgentRec_keeps (s : State) (a : Agent) (r : AgentRec) :
    (s.setAgentRec a r).custody = s.custody ∧
      (s.setAgentRec a r).stage = s.stage ∧
      (s.setAgentRec a r).checker.hold = s.checker.hold ∧
      (s.setAgentRec a r).mem = s.mem ∧
      (s.setAgentRec a r).scrub = s.scrub ∧
      (s.setAgentRec a r).timer = s.timer ∧
      (s.setAgentRec a r).edit = s.edit ∧
      (s.setAgentRec a r).mgmt = s.mgmt ∧
      (s.setAgentRec a r).resetLow = s.resetLow ∧
      (s.setAgentRec a r).sent = s.sent ∧
      (s.setAgentRec a r).freeCount = s.freeCount ∧
      (s.setAgentRec a r).pending = s.pending := by
  unfold State.setAgentRec
  simp

@[simp] theorem setTag_keeps (s : State) (i : TagIndex) (r : TagRec) :
    (s.setTag i r).custody = s.custody ∧
      (s.setTag i r).stage = s.stage ∧
      (s.setTag i r).checker = s.checker ∧
      (s.setTag i r).mem.link = s.mem.link ∧
      (s.setTag i r).mem.settling = s.mem.settling ∧
      (s.setTag i r).mem.preference = s.mem.preference ∧
      (s.setTag i r).scrub = s.scrub ∧
      (s.setTag i r).timer = s.timer ∧
      (s.setTag i r).edit = s.edit ∧
      (s.setTag i r).mgmt = s.mgmt ∧
      (s.setTag i r).resetLow = s.resetLow ∧
      (s.setTag i r).sent = s.sent ∧
      (s.setTag i r).freeCount = s.freeCount ∧
      (s.setTag i r).pending = s.pending := by
  unfold State.setTag
  simp

@[simp] theorem respond_keeps (s : State) (r : Response) :
    (s.respond r).custody = s.custody ∧
      (s.respond r).stage = s.stage ∧
      (s.respond r).checker = s.checker ∧
      (s.respond r).mem = s.mem ∧
      (s.respond r).scrub = s.scrub ∧
      (s.respond r).timer = s.timer ∧
      (s.respond r).edit = s.edit ∧
      (s.respond r).mgmt = s.mgmt ∧
      (s.respond r).resetLow = s.resetLow ∧
      (s.respond r).sent.requests = s.sent.requests ∧
      (s.respond r).sent.bus = s.sent.bus ∧
      (s.respond r).freeCount = s.freeCount ∧
      (s.respond r).pending = s.pending := by
  unfold State.respond
  simp

@[simp] theorem answerTxn_keeps (s : State) (t : Txn) (x : RespStatus) (d : List Byte) :
    (s.answerTxn t x d).custody = s.custody ∧
      (s.answerTxn t x d).stage = s.stage ∧
      (s.answerTxn t x d).checker = s.checker ∧
      (s.answerTxn t x d).mem = s.mem ∧
      (s.answerTxn t x d).scrub = s.scrub ∧
      (s.answerTxn t x d).timer = s.timer ∧
      (s.answerTxn t x d).edit = s.edit ∧
      (s.answerTxn t x d).mgmt = s.mgmt ∧
      (s.answerTxn t x d).resetLow = s.resetLow ∧
      (s.answerTxn t x d).sent.requests = s.sent.requests ∧
      (s.answerTxn t x d).sent.bus = s.sent.bus ∧
      (s.answerTxn t x d).freeCount = s.freeCount ∧
      (s.answerTxn t x d).pending = s.pending := by
  unfold State.answerTxn
  simp

@[simp] theorem sendRequest_keeps (s : State) (q : MemRequest) :
    (s.sendRequest q).custody = s.custody ∧
      (s.sendRequest q).stage = s.stage ∧
      (s.sendRequest q).checker = s.checker ∧
      (s.sendRequest q).mem = s.mem ∧
      (s.sendRequest q).scrub = s.scrub ∧
      (s.sendRequest q).timer = s.timer ∧
      (s.sendRequest q).edit = s.edit ∧
      (s.sendRequest q).mgmt = s.mgmt ∧
      (s.sendRequest q).resetLow = s.resetLow ∧
      (s.sendRequest q).sent.responses = s.sent.responses ∧
      (s.sendRequest q).sent.bus = s.sent.bus ∧
      (s.sendRequest q).freeCount = s.freeCount ∧
      (s.sendRequest q).pending = s.pending := by
  unfold State.sendRequest
  simp

@[simp] theorem sendBus_keeps (s : State) (o : BusOut) :
    (s.sendBus o).custody = s.custody ∧
      (s.sendBus o).stage = s.stage ∧
      (s.sendBus o).checker = s.checker ∧
      (s.sendBus o).mem = s.mem ∧
      (s.sendBus o).scrub = s.scrub ∧
      (s.sendBus o).timer = s.timer ∧
      (s.sendBus o).edit = s.edit ∧
      (s.sendBus o).mgmt = s.mgmt ∧
      (s.sendBus o).resetLow = s.resetLow ∧
      (s.sendBus o).sent.responses = s.sent.responses ∧
      (s.sendBus o).sent.requests = s.sent.requests ∧
      (s.sendBus o).freeCount = s.freeCount ∧
      (s.sendBus o).pending = s.pending := by
  unfold State.sendBus
  simp

@[simp] theorem setAnswer_keeps (s : State) (x : HostStatus) (d : List Byte) :
    (s.setAnswer x d).custody = s.custody ∧
      (s.setAnswer x d).stage = s.stage ∧
      (s.setAnswer x d).checker = s.checker ∧
      (s.setAnswer x d).mem = s.mem ∧
      (s.setAnswer x d).scrub = s.scrub ∧
      (s.setAnswer x d).timer = s.timer ∧
      (s.setAnswer x d).edit = s.edit ∧
      (s.setAnswer x d).mgmt.ownAddress = s.mgmt.ownAddress ∧
      (s.setAnswer x d).mgmt.receiver = s.mgmt.receiver ∧
      (s.setAnswer x d).mgmt.frame = s.mgmt.frame ∧
      (s.setAnswer x d).mgmt.sendRest = s.mgmt.sendRest ∧
      (s.setAnswer x d).mgmt.scan = s.mgmt.scan ∧
      (s.setAnswer x d).mgmt.notices = s.mgmt.notices ∧
      (s.setAnswer x d).mgmt.enable = s.mgmt.enable ∧
      (s.setAnswer x d).mgmt.memLimit = s.mgmt.memLimit ∧
      (s.setAnswer x d).mgmt.idleCount = s.mgmt.idleCount ∧
      (s.setAnswer x d).resetLow = s.resetLow ∧
      (s.setAnswer x d).sent = s.sent ∧
      (s.setAnswer x d).freeCount = s.freeCount ∧
      (s.setAnswer x d).pending = s.pending := by
  unfold State.setAnswer
  simp

@[simp] theorem raise_keeps (s : State) (n : Notice) :
    (s.raise n).custody = s.custody ∧
      (s.raise n).stage = s.stage ∧
      (s.raise n).checker = s.checker ∧
      (s.raise n).mem = s.mem ∧
      (s.raise n).scrub = s.scrub ∧
      (s.raise n).timer = s.timer ∧
      (s.raise n).edit = s.edit ∧
      (s.raise n).mgmt.ownAddress = s.mgmt.ownAddress ∧
      (s.raise n).mgmt.receiver = s.mgmt.receiver ∧
      (s.raise n).mgmt.frame = s.mgmt.frame ∧
      (s.raise n).mgmt.sendRest = s.mgmt.sendRest ∧
      (s.raise n).mgmt.scan = s.mgmt.scan ∧
      (s.raise n).mgmt.answer = s.mgmt.answer ∧
      (s.raise n).mgmt.enable = s.mgmt.enable ∧
      (s.raise n).mgmt.memLimit = s.mgmt.memLimit ∧
      (s.raise n).mgmt.idleCount = s.mgmt.idleCount ∧
      (s.raise n).resetLow = s.resetLow ∧
      (s.raise n).sent = s.sent ∧
      (s.raise n).freeCount = s.freeCount ∧
      (s.raise n).pending = s.pending := by
  unfold State.raise
  simp

@[simp] theorem lower_keeps (s : State) (n : Notice) :
    (s.lower n).custody = s.custody ∧
      (s.lower n).stage = s.stage ∧
      (s.lower n).checker = s.checker ∧
      (s.lower n).mem = s.mem ∧
      (s.lower n).scrub = s.scrub ∧
      (s.lower n).timer = s.timer ∧
      (s.lower n).edit = s.edit ∧
      (s.lower n).mgmt.ownAddress = s.mgmt.ownAddress ∧
      (s.lower n).mgmt.receiver = s.mgmt.receiver ∧
      (s.lower n).mgmt.frame = s.mgmt.frame ∧
      (s.lower n).mgmt.sendRest = s.mgmt.sendRest ∧
      (s.lower n).mgmt.scan = s.mgmt.scan ∧
      (s.lower n).mgmt.answer = s.mgmt.answer ∧
      (s.lower n).mgmt.enable = s.mgmt.enable ∧
      (s.lower n).mgmt.memLimit = s.mgmt.memLimit ∧
      (s.lower n).mgmt.idleCount = s.mgmt.idleCount ∧
      (s.lower n).resetLow = s.resetLow ∧
      (s.lower n).sent = s.sent ∧
      (s.lower n).freeCount = s.freeCount ∧
      (s.lower n).pending = s.pending := by
  unfold State.lower
  simp

@[simp] theorem dropHold_keeps (s : State)  :
    (s.dropHold).custody = s.custody ∧
      (s.dropHold).stage = s.stage ∧
      (s.dropHold).checker.agents = s.checker.agents ∧
      (s.dropHold).mem = s.mem ∧
      (s.dropHold).scrub = s.scrub ∧
      (s.dropHold).timer = s.timer ∧
      (s.dropHold).edit = s.edit ∧
      (s.dropHold).mgmt = s.mgmt ∧
      (s.dropHold).resetLow = s.resetLow ∧
      (s.dropHold).sent = s.sent ∧
      (s.dropHold).freeCount = s.freeCount ∧
      (s.dropHold).pending = s.pending := by
  unfold State.dropHold
  simp

@[simp] theorem leaveQueue_keeps (s : State) (a : Agent) (h : Handle) :
    (s.leaveQueue a h).custody.bufs = s.custody.bufs ∧
      (s.leaveQueue a h).custody.pools = s.custody.pools ∧
      (s.leaveQueue a h).stage = s.stage ∧
      (s.leaveQueue a h).checker = s.checker ∧
      (s.leaveQueue a h).mem = s.mem ∧
      (s.leaveQueue a h).scrub = s.scrub ∧
      (s.leaveQueue a h).timer = s.timer ∧
      (s.leaveQueue a h).edit = s.edit ∧
      (s.leaveQueue a h).mgmt = s.mgmt ∧
      (s.leaveQueue a h).resetLow = s.resetLow ∧
      (s.leaveQueue a h).sent = s.sent ∧
      (s.leaveQueue a h).freeCount = s.freeCount ∧
      (s.leaveQueue a h).pending = s.pending := by
  unfold State.leaveQueue
  simp

@[simp] theorem partReset_keeps (s : State) (x : BitVec 2) :
    (s.partReset x).sent = s.sent ∧
      (s.partReset x).freeCount = s.freeCount ∧
      (s.partReset x).pending = s.pending := by
  unfold State.partReset
  simp

end Sys2Proof.Machine
end

