-- ==== Sys2Proof/Laws/Ops.lean ====
section
/-! SUPPORT. What the shared operations leave: one law for each operation of Machine/Ops.lean. -/

namespace Sys2Proof.Machine

@[simp] theorem becomeFree_keeps (s : State) (h : Handle) :
    (s.becomeFree h).custody.queues = s.custody.queues ∧
      (s.becomeFree h).stage = s.stage ∧
      (s.becomeFree h).checker = s.checker ∧
      (s.becomeFree h).mem = s.mem ∧
      (s.becomeFree h).scrub = s.scrub ∧
      (s.becomeFree h).timer = s.timer ∧
      (s.becomeFree h).edit = s.edit ∧
      (s.becomeFree h).mgmt = s.mgmt ∧
      (s.becomeFree h).resetLow = s.resetLow ∧
      (s.becomeFree h).sent = s.sent ∧
      (s.becomeFree h).freeCount = s.freeCount ∧
      (s.becomeFree h).pending = s.pending := by
  unfold State.becomeFree
  simp

@[simp] theorem enterScrubbing_keeps (s : State) (h : Handle) :
    (s.enterScrubbing h).custody.pools = s.custody.pools ∧
      (s.enterScrubbing h).custody.queues = s.custody.queues ∧
      (s.enterScrubbing h).stage = s.stage ∧
      (s.enterScrubbing h).checker = s.checker ∧
      (s.enterScrubbing h).mem = s.mem ∧
      (s.enterScrubbing h).scrub.engine = s.scrub.engine ∧
      (s.enterScrubbing h).timer = s.timer ∧
      (s.enterScrubbing h).edit = s.edit ∧
      (s.enterScrubbing h).mgmt = s.mgmt ∧
      (s.enterScrubbing h).resetLow = s.resetLow ∧
      (s.enterScrubbing h).sent = s.sent ∧
      (s.enterScrubbing h).freeCount = s.freeCount ∧
      (s.enterScrubbing h).pending = s.pending := by
  unfold State.enterScrubbing
  simp

@[simp] theorem settleRelease_keeps (s : State) (h : Handle) :
    (s.settleRelease h).custody.queues = s.custody.queues ∧
      (s.settleRelease h).stage = s.stage ∧
      (s.settleRelease h).checker = s.checker ∧
      (s.settleRelease h).mem = s.mem ∧
      (s.settleRelease h).scrub.engine = s.scrub.engine ∧
      (s.settleRelease h).timer = s.timer ∧
      (s.settleRelease h).edit = s.edit ∧
      (s.settleRelease h).mgmt = s.mgmt ∧
      (s.settleRelease h).resetLow = s.resetLow ∧
      (s.settleRelease h).sent = s.sent ∧
      (s.settleRelease h).freeCount = s.freeCount ∧
      (s.settleRelease h).pending = s.pending := by
  unfold State.settleRelease
  (repeat' split) <;> simp

@[simp] theorem releasePath_keeps (s : State) (h : Handle) :
    (s.releasePath h).custody.queues = s.custody.queues ∧
      (s.releasePath h).stage = s.stage ∧
      (s.releasePath h).checker = s.checker ∧
      (s.releasePath h).mem = s.mem ∧
      (s.releasePath h).scrub.engine = s.scrub.engine ∧
      (s.releasePath h).timer = s.timer ∧
      (s.releasePath h).edit = s.edit ∧
      (s.releasePath h).mgmt = s.mgmt ∧
      (s.releasePath h).resetLow = s.resetLow ∧
      (s.releasePath h).sent = s.sent ∧
      (s.releasePath h).freeCount = s.freeCount ∧
      (s.releasePath h).pending = s.pending := by
  unfold State.releasePath
  (repeat' split) <;> simp

@[simp] theorem forceOut_keeps (s : State) (h : Handle) :
    (s.forceOut h).stage = s.stage ∧
      (s.forceOut h).checker = s.checker ∧
      (s.forceOut h).mem = s.mem ∧
      (s.forceOut h).scrub.engine = s.scrub.engine ∧
      (s.forceOut h).timer = s.timer ∧
      (s.forceOut h).edit = s.edit ∧
      (s.forceOut h).mgmt = s.mgmt ∧
      (s.forceOut h).resetLow = s.resetLow ∧
      (s.forceOut h).sent = s.sent ∧
      (s.forceOut h).freeCount = s.freeCount ∧
      (s.forceOut h).pending = s.pending := by
  unfold State.forceOut
  (repeat' split) <;> simp

@[simp] theorem completeDrain_keeps (s : State) (h : Handle) :
    (s.completeDrain h).custody.queues = s.custody.queues ∧
      (s.completeDrain h).stage = s.stage ∧
      (s.completeDrain h).checker = s.checker ∧
      (s.completeDrain h).mem = s.mem ∧
      (s.completeDrain h).scrub.engine = s.scrub.engine ∧
      (s.completeDrain h).timer = s.timer ∧
      (s.completeDrain h).edit = s.edit ∧
      (s.completeDrain h).mgmt = s.mgmt ∧
      (s.completeDrain h).resetLow = s.resetLow ∧
      (s.completeDrain h).sent = s.sent ∧
      (s.completeDrain h).freeCount = s.freeCount ∧
      (s.completeDrain h).pending = s.pending := by
  unfold State.completeDrain
  (repeat' split) <;> simp

@[simp] theorem endInFlight_keeps (s : State) (h : Handle) :
    (s.endInFlight h).custody.queues = s.custody.queues ∧
      (s.endInFlight h).stage = s.stage ∧
      (s.endInFlight h).checker = s.checker ∧
      (s.endInFlight h).mem = s.mem ∧
      (s.endInFlight h).scrub.engine = s.scrub.engine ∧
      (s.endInFlight h).timer = s.timer ∧
      (s.endInFlight h).edit = s.edit ∧
      (s.endInFlight h).mgmt = s.mgmt ∧
      (s.endInFlight h).resetLow = s.resetLow ∧
      (s.endInFlight h).sent = s.sent ∧
      (s.endInFlight h).freeCount = s.freeCount ∧
      (s.endInFlight h).pending = s.pending := by
  unfold State.endInFlight
  simp

@[simp] theorem withhold_keeps (s : State) (h : Handle) :
    (s.withhold h).custody.pools = s.custody.pools ∧
      (s.withhold h).custody.queues = s.custody.queues ∧
      (s.withhold h).stage = s.stage ∧
      (s.withhold h).checker = s.checker ∧
      (s.withhold h).mem = s.mem ∧
      (s.withhold h).scrub = s.scrub ∧
      (s.withhold h).timer = s.timer ∧
      (s.withhold h).edit = s.edit ∧
      (s.withhold h).mgmt.ownAddress = s.mgmt.ownAddress ∧
      (s.withhold h).mgmt.receiver = s.mgmt.receiver ∧
      (s.withhold h).mgmt.frame = s.mgmt.frame ∧
      (s.withhold h).mgmt.sendRest = s.mgmt.sendRest ∧
      (s.withhold h).mgmt.scan = s.mgmt.scan ∧
      (s.withhold h).mgmt.answer = s.mgmt.answer ∧
      (s.withhold h).mgmt.enable = s.mgmt.enable ∧
      (s.withhold h).mgmt.memLimit = s.mgmt.memLimit ∧
      (s.withhold h).mgmt.idleCount = s.mgmt.idleCount ∧
      (s.withhold h).resetLow = s.resetLow ∧
      (s.withhold h).sent = s.sent ∧
      (s.withhold h).freeCount = s.freeCount ∧
      (s.withhold h).pending = s.pending := by
  unfold State.withhold
  simp

@[simp] theorem fillSlot_keeps (s : State) (a : Agent) (f : FaultRec) :
    (s.fillSlot a f).custody = s.custody ∧
      (s.fillSlot a f).stage = s.stage ∧
      (s.fillSlot a f).checker.hold = s.checker.hold ∧
      (s.fillSlot a f).mem = s.mem ∧
      (s.fillSlot a f).scrub = s.scrub ∧
      (s.fillSlot a f).timer = s.timer ∧
      (s.fillSlot a f).edit = s.edit ∧
      (s.fillSlot a f).mgmt.ownAddress = s.mgmt.ownAddress ∧
      (s.fillSlot a f).mgmt.receiver = s.mgmt.receiver ∧
      (s.fillSlot a f).mgmt.frame = s.mgmt.frame ∧
      (s.fillSlot a f).mgmt.sendRest = s.mgmt.sendRest ∧
      (s.fillSlot a f).mgmt.scan = s.mgmt.scan ∧
      (s.fillSlot a f).mgmt.answer = s.mgmt.answer ∧
      (s.fillSlot a f).mgmt.enable = s.mgmt.enable ∧
      (s.fillSlot a f).mgmt.memLimit = s.mgmt.memLimit ∧
      (s.fillSlot a f).mgmt.idleCount = s.mgmt.idleCount ∧
      (s.fillSlot a f).resetLow = s.resetLow ∧
      (s.fillSlot a f).sent = s.sent ∧
      (s.fillSlot a f).freeCount = s.freeCount ∧
      (s.fillSlot a f).pending = s.pending := by
  unfold State.fillSlot
  (repeat' split) <;> simp

@[simp] theorem emptySlot_keeps (s : State) (a : Agent) :
    (s.emptySlot a).custody = s.custody ∧
      (s.emptySlot a).stage = s.stage ∧
      (s.emptySlot a).checker.hold = s.checker.hold ∧
      (s.emptySlot a).mem = s.mem ∧
      (s.emptySlot a).scrub = s.scrub ∧
      (s.emptySlot a).timer = s.timer ∧
      (s.emptySlot a).edit = s.edit ∧
      (s.emptySlot a).mgmt.ownAddress = s.mgmt.ownAddress ∧
      (s.emptySlot a).mgmt.receiver = s.mgmt.receiver ∧
      (s.emptySlot a).mgmt.frame = s.mgmt.frame ∧
      (s.emptySlot a).mgmt.sendRest = s.mgmt.sendRest ∧
      (s.emptySlot a).mgmt.scan = s.mgmt.scan ∧
      (s.emptySlot a).mgmt.answer = s.mgmt.answer ∧
      (s.emptySlot a).mgmt.enable = s.mgmt.enable ∧
      (s.emptySlot a).mgmt.memLimit = s.mgmt.memLimit ∧
      (s.emptySlot a).mgmt.idleCount = s.mgmt.idleCount ∧
      (s.emptySlot a).resetLow = s.resetLow ∧
      (s.emptySlot a).sent = s.sent ∧
      (s.emptySlot a).freeCount = s.freeCount ∧
      (s.emptySlot a).pending = s.pending := by
  unfold State.emptySlot
  simp

@[simp] theorem refuse_keeps (s : State) (t : Txn) (k : FaultKind) (b : Option BufState) :
    (s.refuse t k b).custody = s.custody ∧
      (s.refuse t k b).stage = s.stage ∧
      (s.refuse t k b).checker.hold = s.checker.hold ∧
      (s.refuse t k b).mem = s.mem ∧
      (s.refuse t k b).scrub = s.scrub ∧
      (s.refuse t k b).timer = s.timer ∧
      (s.refuse t k b).edit = s.edit ∧
      (s.refuse t k b).mgmt.ownAddress = s.mgmt.ownAddress ∧
      (s.refuse t k b).mgmt.receiver = s.mgmt.receiver ∧
      (s.refuse t k b).mgmt.frame = s.mgmt.frame ∧
      (s.refuse t k b).mgmt.sendRest = s.mgmt.sendRest ∧
      (s.refuse t k b).mgmt.scan = s.mgmt.scan ∧
      (s.refuse t k b).mgmt.answer = s.mgmt.answer ∧
      (s.refuse t k b).mgmt.enable = s.mgmt.enable ∧
      (s.refuse t k b).mgmt.memLimit = s.mgmt.memLimit ∧
      (s.refuse t k b).mgmt.idleCount = s.mgmt.idleCount ∧
      (s.refuse t k b).resetLow = s.resetLow ∧
      (s.refuse t k b).sent.requests = s.sent.requests ∧
      (s.refuse t k b).sent.bus = s.sent.bus ∧
      (s.refuse t k b).freeCount = s.freeCount ∧
      (s.refuse t k b).pending = s.pending := by
  unfold State.refuse
  simp

@[simp] theorem forward_keeps (s : State) (t : Txn) (h : Handle) (i : TagIndex) :
    (s.forward t h i).custody.pools = s.custody.pools ∧
      (s.forward t h i).custody.queues = s.custody.queues ∧
      (s.forward t h i).stage.waiting = s.stage.waiting ∧
      (s.forward t h i).stage.pointer = s.stage.pointer ∧
      (s.forward t h i).checker = s.checker ∧
      (s.forward t h i).mem.link = s.mem.link ∧
      (s.forward t h i).mem.settling = s.mem.settling ∧
      (s.forward t h i).mem.preference = s.mem.preference ∧
      (s.forward t h i).scrub = s.scrub ∧
      (s.forward t h i).timer = s.timer ∧
      (s.forward t h i).edit = s.edit ∧
      (s.forward t h i).mgmt = s.mgmt ∧
      (s.forward t h i).resetLow = s.resetLow ∧
      (s.forward t h i).sent.responses = s.sent.responses ∧
      (s.forward t h i).sent.bus = s.sent.bus ∧
      (s.forward t h i).freeCount = s.freeCount ∧
      (s.forward t h i).pending = s.pending := by
  unfold State.forward
  (repeat' split) <;> simp

@[simp] theorem takeHead_keeps (s : State)  :
    (s.takeHead).custody = s.custody ∧
      (s.takeHead).stage = s.stage ∧
      (s.takeHead).checker = s.checker ∧
      (s.takeHead).mem = s.mem ∧
      (s.takeHead).timer = s.timer ∧
      (s.takeHead).edit = s.edit ∧
      (s.takeHead).mgmt = s.mgmt ∧
      (s.takeHead).resetLow = s.resetLow ∧
      (s.takeHead).sent = s.sent ∧
      (s.takeHead).freeCount = s.freeCount ∧
      (s.takeHead).pending = s.pending := by
  unfold State.takeHead
  (repeat' split) <;> simp

@[simp] theorem issueBurst_keeps (s : State) (i : TagIndex) :
    (s.issueBurst i).custody = s.custody ∧
      (s.issueBurst i).stage = s.stage ∧
      (s.issueBurst i).checker = s.checker ∧
      (s.issueBurst i).mem.link = s.mem.link ∧
      (s.issueBurst i).mem.settling = s.mem.settling ∧
      (s.issueBurst i).scrub.queue = s.scrub.queue ∧
      (s.issueBurst i).timer = s.timer ∧
      (s.issueBurst i).edit = s.edit ∧
      (s.issueBurst i).mgmt = s.mgmt ∧
      (s.issueBurst i).resetLow = s.resetLow ∧
      (s.issueBurst i).sent.responses = s.sent.responses ∧
      (s.issueBurst i).sent.bus = s.sent.bus ∧
      (s.issueBurst i).freeCount = s.freeCount ∧
      (s.issueBurst i).pending = s.pending := by
  unfold State.issueBurst
  split <;> (repeat' apply And.intro) <;> rfl

@[simp] theorem finishScrub_keeps (s : State)  :
    (s.finishScrub).custody.queues = s.custody.queues ∧
      (s.finishScrub).stage = s.stage ∧
      (s.finishScrub).checker = s.checker ∧
      (s.finishScrub).mem = s.mem ∧
      (s.finishScrub).scrub.queue = s.scrub.queue ∧
      (s.finishScrub).timer = s.timer ∧
      (s.finishScrub).edit = s.edit ∧
      (s.finishScrub).mgmt = s.mgmt ∧
      (s.finishScrub).resetLow = s.resetLow ∧
      (s.finishScrub).sent = s.sent ∧
      (s.finishScrub).freeCount = s.freeCount ∧
      (s.finishScrub).pending = s.pending := by
  unfold State.finishScrub
  (repeat' split) <;> simp

@[simp] theorem failScrub_keeps (s : State)  :
    (s.failScrub).custody.pools = s.custody.pools ∧
      (s.failScrub).custody.queues = s.custody.queues ∧
      (s.failScrub).stage = s.stage ∧
      (s.failScrub).checker = s.checker ∧
      (s.failScrub).mem = s.mem ∧
      (s.failScrub).scrub.queue = s.scrub.queue ∧
      (s.failScrub).timer = s.timer ∧
      (s.failScrub).edit = s.edit ∧
      (s.failScrub).mgmt.ownAddress = s.mgmt.ownAddress ∧
      (s.failScrub).mgmt.receiver = s.mgmt.receiver ∧
      (s.failScrub).mgmt.frame = s.mgmt.frame ∧
      (s.failScrub).mgmt.sendRest = s.mgmt.sendRest ∧
      (s.failScrub).mgmt.scan = s.mgmt.scan ∧
      (s.failScrub).mgmt.answer = s.mgmt.answer ∧
      (s.failScrub).mgmt.enable = s.mgmt.enable ∧
      (s.failScrub).mgmt.memLimit = s.mgmt.memLimit ∧
      (s.failScrub).mgmt.idleCount = s.mgmt.idleCount ∧
      (s.failScrub).resetLow = s.resetLow ∧
      (s.failScrub).sent = s.sent ∧
      (s.failScrub).freeCount = s.freeCount ∧
      (s.failScrub).pending = s.pending := by
  unfold State.failScrub
  (repeat' split) <;> simp

@[simp] theorem burstEnd_keeps (s : State) (n : Nat) (g : Bool) :
    (s.burstEnd n g).custody.queues = s.custody.queues ∧
      (s.burstEnd n g).stage = s.stage ∧
      (s.burstEnd n g).checker = s.checker ∧
      (s.burstEnd n g).mem = s.mem ∧
      (s.burstEnd n g).scrub.queue = s.scrub.queue ∧
      (s.burstEnd n g).timer = s.timer ∧
      (s.burstEnd n g).edit = s.edit ∧
      (s.burstEnd n g).mgmt.ownAddress = s.mgmt.ownAddress ∧
      (s.burstEnd n g).mgmt.receiver = s.mgmt.receiver ∧
      (s.burstEnd n g).mgmt.frame = s.mgmt.frame ∧
      (s.burstEnd n g).mgmt.sendRest = s.mgmt.sendRest ∧
      (s.burstEnd n g).mgmt.scan = s.mgmt.scan ∧
      (s.burstEnd n g).mgmt.answer = s.mgmt.answer ∧
      (s.burstEnd n g).mgmt.enable = s.mgmt.enable ∧
      (s.burstEnd n g).mgmt.memLimit = s.mgmt.memLimit ∧
      (s.burstEnd n g).mgmt.idleCount = s.mgmt.idleCount ∧
      (s.burstEnd n g).resetLow = s.resetLow ∧
      (s.burstEnd n g).sent = s.sent ∧
      (s.burstEnd n g).freeCount = s.freeCount ∧
      (s.burstEnd n g).pending = s.pending := by
  unfold State.burstEnd
  (repeat' split) <;> simp

@[simp] theorem recheckGranted_keeps (s : State) (i : TagIndex) :
    (s.recheckGranted i).custody.pools = s.custody.pools ∧
      (s.recheckGranted i).custody.queues = s.custody.queues ∧
      (s.recheckGranted i).stage.waiting = s.stage.waiting ∧
      (s.recheckGranted i).stage.pointer = s.stage.pointer ∧
      (s.recheckGranted i).mem.link = s.mem.link ∧
      (s.recheckGranted i).mem.settling = s.mem.settling ∧
      (s.recheckGranted i).scrub = s.scrub ∧
      (s.recheckGranted i).timer = s.timer ∧
      (s.recheckGranted i).edit = s.edit ∧
      (s.recheckGranted i).mgmt.ownAddress = s.mgmt.ownAddress ∧
      (s.recheckGranted i).mgmt.receiver = s.mgmt.receiver ∧
      (s.recheckGranted i).mgmt.frame = s.mgmt.frame ∧
      (s.recheckGranted i).mgmt.sendRest = s.mgmt.sendRest ∧
      (s.recheckGranted i).mgmt.scan = s.mgmt.scan ∧
      (s.recheckGranted i).mgmt.answer = s.mgmt.answer ∧
      (s.recheckGranted i).mgmt.enable = s.mgmt.enable ∧
      (s.recheckGranted i).mgmt.memLimit = s.mgmt.memLimit ∧
      (s.recheckGranted i).mgmt.idleCount = s.mgmt.idleCount ∧
      (s.recheckGranted i).resetLow = s.resetLow ∧
      (s.recheckGranted i).sent.bus = s.sent.bus ∧
      (s.recheckGranted i).freeCount = s.freeCount ∧
      (s.recheckGranted i).pending = s.pending := by
  simp only [State.recheckGranted]
  (repeat' split) <;> simp

@[simp] theorem recheckDown_keeps (s : State)  :
    (s.recheckDown).custody = s.custody ∧
      (s.recheckDown).stage.waiting = s.stage.waiting ∧
      (s.recheckDown).stage.pointer = s.stage.pointer ∧
      (s.recheckDown).mem = s.mem ∧
      (s.recheckDown).scrub = s.scrub ∧
      (s.recheckDown).timer = s.timer ∧
      (s.recheckDown).edit = s.edit ∧
      (s.recheckDown).mgmt.ownAddress = s.mgmt.ownAddress ∧
      (s.recheckDown).mgmt.receiver = s.mgmt.receiver ∧
      (s.recheckDown).mgmt.frame = s.mgmt.frame ∧
      (s.recheckDown).mgmt.sendRest = s.mgmt.sendRest ∧
      (s.recheckDown).mgmt.scan = s.mgmt.scan ∧
      (s.recheckDown).mgmt.answer = s.mgmt.answer ∧
      (s.recheckDown).mgmt.enable = s.mgmt.enable ∧
      (s.recheckDown).mgmt.memLimit = s.mgmt.memLimit ∧
      (s.recheckDown).mgmt.idleCount = s.mgmt.idleCount ∧
      (s.recheckDown).resetLow = s.resetLow ∧
      (s.recheckDown).sent.requests = s.sent.requests ∧
      (s.recheckDown).sent.bus = s.sent.bus ∧
      (s.recheckDown).freeCount = s.freeCount ∧
      (s.recheckDown).pending = s.pending := by
  unfold State.recheckDown
  (repeat' split) <;> simp

@[simp] theorem grantOnce_keeps (s : State)  :
    (s.grantOnce).custody.pools = s.custody.pools ∧
      (s.grantOnce).custody.queues = s.custody.queues ∧
      (s.grantOnce).stage.waiting = s.stage.waiting ∧
      (s.grantOnce).stage.pointer = s.stage.pointer ∧
      (s.grantOnce).mem.link = s.mem.link ∧
      (s.grantOnce).mem.settling = s.mem.settling ∧
      (s.grantOnce).scrub.queue = s.scrub.queue ∧
      (s.grantOnce).timer = s.timer ∧
      (s.grantOnce).edit = s.edit ∧
      (s.grantOnce).mgmt.ownAddress = s.mgmt.ownAddress ∧
      (s.grantOnce).mgmt.receiver = s.mgmt.receiver ∧
      (s.grantOnce).mgmt.frame = s.mgmt.frame ∧
      (s.grantOnce).mgmt.sendRest = s.mgmt.sendRest ∧
      (s.grantOnce).mgmt.scan = s.mgmt.scan ∧
      (s.grantOnce).mgmt.answer = s.mgmt.answer ∧
      (s.grantOnce).mgmt.enable = s.mgmt.enable ∧
      (s.grantOnce).mgmt.memLimit = s.mgmt.memLimit ∧
      (s.grantOnce).mgmt.idleCount = s.mgmt.idleCount ∧
      (s.grantOnce).resetLow = s.resetLow ∧
      (s.grantOnce).sent.bus = s.sent.bus ∧
      (s.grantOnce).freeCount = s.freeCount ∧
      (s.grantOnce).pending = s.pending := by
  simp only [State.grantOnce]
  (repeat' split) <;> simp

@[simp] theorem arbitrate_keeps (s : State)  :
    (s.arbitrate).custody.pools = s.custody.pools ∧
      (s.arbitrate).custody.queues = s.custody.queues ∧
      (s.arbitrate).stage.waiting = s.stage.waiting ∧
      (s.arbitrate).stage.pointer = s.stage.pointer ∧
      (s.arbitrate).mem.link = s.mem.link ∧
      (s.arbitrate).mem.settling = s.mem.settling ∧
      (s.arbitrate).scrub.queue = s.scrub.queue ∧
      (s.arbitrate).timer = s.timer ∧
      (s.arbitrate).edit = s.edit ∧
      (s.arbitrate).mgmt.ownAddress = s.mgmt.ownAddress ∧
      (s.arbitrate).mgmt.receiver = s.mgmt.receiver ∧
      (s.arbitrate).mgmt.frame = s.mgmt.frame ∧
      (s.arbitrate).mgmt.sendRest = s.mgmt.sendRest ∧
      (s.arbitrate).mgmt.scan = s.mgmt.scan ∧
      (s.arbitrate).mgmt.answer = s.mgmt.answer ∧
      (s.arbitrate).mgmt.enable = s.mgmt.enable ∧
      (s.arbitrate).mgmt.memLimit = s.mgmt.memLimit ∧
      (s.arbitrate).mgmt.idleCount = s.mgmt.idleCount ∧
      (s.arbitrate).resetLow = s.resetLow ∧
      (s.arbitrate).sent.bus = s.sent.bus ∧
      (s.arbitrate).freeCount = s.freeCount ∧
      (s.arbitrate).pending = s.pending := by
  simp only [State.arbitrate]
  simp

@[simp] theorem kick_keeps (s : State)  :
    (s.kick).custody.pools = s.custody.pools ∧
      (s.kick).custody.queues = s.custody.queues ∧
      (s.kick).stage.waiting = s.stage.waiting ∧
      (s.kick).stage.pointer = s.stage.pointer ∧
      (s.kick).mem.link = s.mem.link ∧
      (s.kick).mem.settling = s.mem.settling ∧
      (s.kick).timer = s.timer ∧
      (s.kick).edit = s.edit ∧
      (s.kick).mgmt.ownAddress = s.mgmt.ownAddress ∧
      (s.kick).mgmt.receiver = s.mgmt.receiver ∧
      (s.kick).mgmt.frame = s.mgmt.frame ∧
      (s.kick).mgmt.sendRest = s.mgmt.sendRest ∧
      (s.kick).mgmt.scan = s.mgmt.scan ∧
      (s.kick).mgmt.answer = s.mgmt.answer ∧
      (s.kick).mgmt.enable = s.mgmt.enable ∧
      (s.kick).mgmt.memLimit = s.mgmt.memLimit ∧
      (s.kick).mgmt.idleCount = s.mgmt.idleCount ∧
      (s.kick).resetLow = s.resetLow ∧
      (s.kick).sent.bus = s.sent.bus ∧
      (s.kick).freeCount = s.freeCount ∧
      (s.kick).pending = s.pending := by
  simp only [State.kick]
  simp

@[simp] theorem report_keeps (s : State) (a : Agent) (g : StageTag) (i : TagIndex) (x : BitVec 2) (st : RespStatus) (d : List Byte) :
    (s.report a g i x st d).custody = s.custody ∧
      (s.report a g i x st d).stage.waiting = s.stage.waiting ∧
      (s.report a g i x st d).stage.pointer = s.stage.pointer ∧
      (s.report a g i x st d).checker = s.checker ∧
      (s.report a g i x st d).mem = s.mem ∧
      (s.report a g i x st d).scrub = s.scrub ∧
      (s.report a g i x st d).timer = s.timer ∧
      (s.report a g i x st d).edit = s.edit ∧
      (s.report a g i x st d).mgmt = s.mgmt ∧
      (s.report a g i x st d).resetLow = s.resetLow ∧
      (s.report a g i x st d).sent.requests = s.sent.requests ∧
      (s.report a g i x st d).sent.bus = s.sent.bus ∧
      (s.report a g i x st d).freeCount = s.freeCount ∧
      (s.report a g i x st d).pending = s.pending := by
  unfold State.report
  (repeat' split) <;> simp

/-! ### The idle timeout and management commands -/

@[simp] theorem idleTimeout_keeps (s : State)  :
    (s.idleTimeout).custody = s.custody ∧
      (s.idleTimeout).stage = s.stage ∧
      (s.idleTimeout).checker = s.checker ∧
      (s.idleTimeout).mem = s.mem ∧
      (s.idleTimeout).scrub = s.scrub ∧
      (s.idleTimeout).timer = s.timer ∧
      (s.idleTimeout).edit = s.edit ∧
      (s.idleTimeout).mgmt.ownAddress = s.mgmt.ownAddress ∧
      (s.idleTimeout).mgmt.scan = s.mgmt.scan ∧
      (s.idleTimeout).mgmt.notices = s.mgmt.notices ∧
      (s.idleTimeout).mgmt.enable = s.mgmt.enable ∧
      (s.idleTimeout).mgmt.memLimit = s.mgmt.memLimit ∧
      (s.idleTimeout).resetLow = s.resetLow ∧
      (s.idleTimeout).sent = s.sent ∧
      (s.idleTimeout).freeCount = s.freeCount ∧
      (s.idleTimeout).pending = s.pending := by
  unfold State.idleTimeout
  (repeat' split) <;> simp

@[simp] theorem settleIdle_keeps (s : State)  :
    (s.settleIdle).custody = s.custody ∧
      (s.settleIdle).stage = s.stage ∧
      (s.settleIdle).checker = s.checker ∧
      (s.settleIdle).mem = s.mem ∧
      (s.settleIdle).scrub = s.scrub ∧
      (s.settleIdle).timer = s.timer ∧
      (s.settleIdle).edit = s.edit ∧
      (s.settleIdle).mgmt.ownAddress = s.mgmt.ownAddress ∧
      (s.settleIdle).mgmt.scan = s.mgmt.scan ∧
      (s.settleIdle).mgmt.notices = s.mgmt.notices ∧
      (s.settleIdle).mgmt.enable = s.mgmt.enable ∧
      (s.settleIdle).mgmt.memLimit = s.mgmt.memLimit ∧
      (s.settleIdle).resetLow = s.resetLow ∧
      (s.settleIdle).sent = s.sent ∧
      (s.settleIdle).freeCount = s.freeCount ∧
      (s.settleIdle).pending = s.pending := by
  unfold State.settleIdle
  (repeat' split) <;> simp

/-- With no timeout outstanding, none is taken. -/
theorem settleIdle_eq (s : State) (h : s.mgmt.receiver = .idle ∨ s.mgmt.idleCount < Config.idleTicks) : s.settleIdle = s := by
  have : s.mgmt.idleDue = false := by
    rcases h with h | h
    · simp [Mgmt.idleDue, h]
    · simp only [Mgmt.idleDue, Bool.and_eq_false_iff, decide_eq_false_iff_not]
      exact .inr (by omega)
  simp [State.settleIdle, this]

/-- A timeout taken leaves none outstanding. -/
@[simp] theorem settleIdle_settleIdle (s : State) : s.settleIdle.settleIdle = s.settleIdle := by
  cases due : s.mgmt.idleDue
  · simp [State.settleIdle, due]
  · refine settleIdle_eq _ (.inl ?_)
    simp only [State.settleIdle, due, State.idleTimeout, if_true]
    (repeat' split) <;> rfl

/-- A management command does what it does in the state that an outstanding timeout leaves. -/
theorem runCommand_settleIdle (s : State) (command : State → State) (h : s.resetLow = false) :
    s.settleIdle.runCommand command = s.runCommand command := by
  simp [State.runCommand, h]

/-- READY, with no timeout outstanding: the command is run. -/
theorem runCommand_eq (s : State) (command : State → State) (low : s.resetLow = false) (scan : s.mgmt.scan = none)
    (h : s.mgmt.receiver = .idle ∨ s.mgmt.idleCount < Config.idleTicks) : s.runCommand command = command s := by
  simp [State.runCommand, low, settleIdle_eq s h, scan]

/-- WORKING: the command is answered BUSY and not run. -/
theorem runCommand_busy (s : State) (command : State → State) (low : s.resetLow = false) (scan : s.mgmt.scan ≠ none)
    (h : s.mgmt.receiver = .idle ∨ s.mgmt.idleCount < Config.idleTicks) : s.runCommand command = s.setAnswer .busy := by
  simp only [State.runCommand, low, settleIdle_eq s h, Bool.false_eq_true, if_false]
  split
  · rfl
  · next e => exact absurd e scan

end Sys2Proof.Machine
end

