-- ==== Sys2Proof/Laws/Custody.lean ====
section
/-! SUPPORT. What the custody requests and the access check leave. -/

namespace Sys2Proof.Machine

@[simp] theorem claimHead_keeps (s : State) (a : Agent) (p : PoolId) (h : Handle) (l : List Handle) :
    (s.claimHead a p h l).custody.queues = s.custody.queues ∧
      (s.claimHead a p h l).stage = s.stage ∧
      (s.claimHead a p h l).checker = s.checker ∧
      (s.claimHead a p h l).mem = s.mem ∧
      (s.claimHead a p h l).scrub = s.scrub ∧
      (s.claimHead a p h l).timer = s.timer ∧
      (s.claimHead a p h l).edit = s.edit ∧
      (s.claimHead a p h l).mgmt.ownAddress = s.mgmt.ownAddress ∧
      (s.claimHead a p h l).mgmt.receiver = s.mgmt.receiver ∧
      (s.claimHead a p h l).mgmt.frame = s.mgmt.frame ∧
      (s.claimHead a p h l).mgmt.sendRest = s.mgmt.sendRest ∧
      (s.claimHead a p h l).mgmt.scan = s.mgmt.scan ∧
      (s.claimHead a p h l).mgmt.answer = s.mgmt.answer ∧
      (s.claimHead a p h l).mgmt.enable = s.mgmt.enable ∧
      (s.claimHead a p h l).mgmt.memLimit = s.mgmt.memLimit ∧
      (s.claimHead a p h l).mgmt.idleCount = s.mgmt.idleCount ∧
      (s.claimHead a p h l).resetLow = s.resetLow ∧
      (s.claimHead a p h l).sent = s.sent ∧
      (s.claimHead a p h l).freeCount = s.freeCount ∧
      (s.claimHead a p h l).pending = s.pending := by
  simp only [State.claimHead]
  (repeat' split) <;> simp

@[simp] theorem passTo_keeps (s : State) (h : Handle) (a : Agent) :
    (s.passTo h a).custody.pools = s.custody.pools ∧
      (s.passTo h a).stage = s.stage ∧
      (s.passTo h a).checker = s.checker ∧
      (s.passTo h a).mem = s.mem ∧
      (s.passTo h a).scrub = s.scrub ∧
      (s.passTo h a).timer = s.timer ∧
      (s.passTo h a).edit = s.edit ∧
      (s.passTo h a).mgmt = s.mgmt ∧
      (s.passTo h a).resetLow = s.resetLow ∧
      (s.passTo h a).sent = s.sent ∧
      (s.passTo h a).freeCount = s.freeCount ∧
      (s.passTo h a).pending = s.pending := by
  unfold State.passTo
  simp

@[simp] theorem acceptHead_keeps (s : State) (a : Agent) (h : Handle) (l : List Handle) :
    (s.acceptHead a h l).custody.pools = s.custody.pools ∧
      (s.acceptHead a h l).stage = s.stage ∧
      (s.acceptHead a h l).checker = s.checker ∧
      (s.acceptHead a h l).mem = s.mem ∧
      (s.acceptHead a h l).scrub = s.scrub ∧
      (s.acceptHead a h l).timer = s.timer ∧
      (s.acceptHead a h l).edit = s.edit ∧
      (s.acceptHead a h l).mgmt = s.mgmt ∧
      (s.acceptHead a h l).resetLow = s.resetLow ∧
      (s.acceptHead a h l).sent = s.sent ∧
      (s.acceptHead a h l).freeCount = s.freeCount ∧
      (s.acceptHead a h l).pending = s.pending := by
  unfold State.acceptHead
  simp

@[simp] theorem bringBack_keeps (s : State) (h : Handle) :
    (s.bringBack h).custody.pools = s.custody.pools ∧
      (s.bringBack h).stage = s.stage ∧
      (s.bringBack h).checker = s.checker ∧
      (s.bringBack h).mem = s.mem ∧
      (s.bringBack h).scrub = s.scrub ∧
      (s.bringBack h).timer = s.timer ∧
      (s.bringBack h).edit = s.edit ∧
      (s.bringBack h).mgmt = s.mgmt ∧
      (s.bringBack h).resetLow = s.resetLow ∧
      (s.bringBack h).sent = s.sent ∧
      (s.bringBack h).freeCount = s.freeCount ∧
      (s.bringBack h).pending = s.pending := by
  unfold State.bringBack
  (repeat' split) <;> simp

@[simp] theorem takeRequest_keeps (s : State) (a : Agent) (q : Request) :
    (s.takeRequest a q).1.stage = s.stage ∧
      (s.takeRequest a q).1.checker = s.checker ∧
      (s.takeRequest a q).1.mem = s.mem ∧
      (s.takeRequest a q).1.scrub.engine = s.scrub.engine ∧
      (s.takeRequest a q).1.timer = s.timer ∧
      (s.takeRequest a q).1.edit = s.edit ∧
      (s.takeRequest a q).1.mgmt.ownAddress = s.mgmt.ownAddress ∧
      (s.takeRequest a q).1.mgmt.receiver = s.mgmt.receiver ∧
      (s.takeRequest a q).1.mgmt.frame = s.mgmt.frame ∧
      (s.takeRequest a q).1.mgmt.sendRest = s.mgmt.sendRest ∧
      (s.takeRequest a q).1.mgmt.scan = s.mgmt.scan ∧
      (s.takeRequest a q).1.mgmt.answer = s.mgmt.answer ∧
      (s.takeRequest a q).1.mgmt.enable = s.mgmt.enable ∧
      (s.takeRequest a q).1.mgmt.memLimit = s.mgmt.memLimit ∧
      (s.takeRequest a q).1.mgmt.idleCount = s.mgmt.idleCount ∧
      (s.takeRequest a q).1.resetLow = s.resetLow ∧
      (s.takeRequest a q).1.sent = s.sent ∧
      (s.takeRequest a q).1.freeCount = s.freeCount ∧
      (s.takeRequest a q).1.pending = s.pending := by
  cases q <;> simp only [State.takeRequest] <;> (repeat' split) <;> simp

@[simp] theorem custodyRequest_keeps (s : State) (a : Agent) (w : List Byte) :
    (s.custodyRequest a w).1.stage = s.stage ∧
      (s.custodyRequest a w).1.checker = s.checker ∧
      (s.custodyRequest a w).1.mem = s.mem ∧
      (s.custodyRequest a w).1.scrub.engine = s.scrub.engine ∧
      (s.custodyRequest a w).1.timer = s.timer ∧
      (s.custodyRequest a w).1.edit = s.edit ∧
      (s.custodyRequest a w).1.mgmt.ownAddress = s.mgmt.ownAddress ∧
      (s.custodyRequest a w).1.mgmt.receiver = s.mgmt.receiver ∧
      (s.custodyRequest a w).1.mgmt.frame = s.mgmt.frame ∧
      (s.custodyRequest a w).1.mgmt.sendRest = s.mgmt.sendRest ∧
      (s.custodyRequest a w).1.mgmt.scan = s.mgmt.scan ∧
      (s.custodyRequest a w).1.mgmt.answer = s.mgmt.answer ∧
      (s.custodyRequest a w).1.mgmt.enable = s.mgmt.enable ∧
      (s.custodyRequest a w).1.mgmt.memLimit = s.mgmt.memLimit ∧
      (s.custodyRequest a w).1.mgmt.idleCount = s.mgmt.idleCount ∧
      (s.custodyRequest a w).1.resetLow = s.resetLow ∧
      (s.custodyRequest a w).1.sent = s.sent ∧
      (s.custodyRequest a w).1.freeCount = s.freeCount ∧
      (s.custodyRequest a w).1.pending = s.pending := by
  simp only [State.custodyRequest]
  (repeat' split) <;> simp

@[simp] theorem passingAccess_keeps (s : State) (t : Txn) (h : Handle) :
    (s.passingAccess t h).custody.pools = s.custody.pools ∧
      (s.passingAccess t h).custody.queues = s.custody.queues ∧
      (s.passingAccess t h).stage.waiting = s.stage.waiting ∧
      (s.passingAccess t h).stage.pointer = s.stage.pointer ∧
      (s.passingAccess t h).checker.agents = s.checker.agents ∧
      (s.passingAccess t h).mem.link = s.mem.link ∧
      (s.passingAccess t h).mem.settling = s.mem.settling ∧
      (s.passingAccess t h).scrub = s.scrub ∧
      (s.passingAccess t h).timer = s.timer ∧
      (s.passingAccess t h).edit = s.edit ∧
      (s.passingAccess t h).mgmt = s.mgmt ∧
      (s.passingAccess t h).resetLow = s.resetLow ∧
      (s.passingAccess t h).sent.bus = s.sent.bus ∧
      (s.passingAccess t h).freeCount = s.freeCount ∧
      (s.passingAccess t h).pending = s.pending := by
  unfold State.passingAccess
  (repeat' split) <;> simp

@[simp] theorem aperture_keeps (s : State) (t : Txn) :
    (s.aperture t).stage = s.stage ∧
      (s.aperture t).checker = s.checker ∧
      (s.aperture t).mem = s.mem ∧
      (s.aperture t).scrub.engine = s.scrub.engine ∧
      (s.aperture t).timer = s.timer ∧
      (s.aperture t).edit = s.edit ∧
      (s.aperture t).mgmt.ownAddress = s.mgmt.ownAddress ∧
      (s.aperture t).mgmt.receiver = s.mgmt.receiver ∧
      (s.aperture t).mgmt.frame = s.mgmt.frame ∧
      (s.aperture t).mgmt.sendRest = s.mgmt.sendRest ∧
      (s.aperture t).mgmt.scan = s.mgmt.scan ∧
      (s.aperture t).mgmt.answer = s.mgmt.answer ∧
      (s.aperture t).mgmt.enable = s.mgmt.enable ∧
      (s.aperture t).mgmt.memLimit = s.mgmt.memLimit ∧
      (s.aperture t).mgmt.idleCount = s.mgmt.idleCount ∧
      (s.aperture t).resetLow = s.resetLow ∧
      (s.aperture t).sent.requests = s.sent.requests ∧
      (s.aperture t).sent.bus = s.sent.bus ∧
      (s.aperture t).freeCount = s.freeCount ∧
      (s.aperture t).pending = s.pending := by
  simp only [State.aperture]
  (repeat' split) <;> simp

@[simp] theorem takeTxn_keeps (s : State) (t : Txn) :
    (s.takeTxn t).stage.waiting = s.stage.waiting ∧
      (s.takeTxn t).stage.pointer = s.stage.pointer ∧
      (s.takeTxn t).mem.link = s.mem.link ∧
      (s.takeTxn t).mem.settling = s.mem.settling ∧
      (s.takeTxn t).scrub.engine = s.scrub.engine ∧
      (s.takeTxn t).timer = s.timer ∧
      (s.takeTxn t).edit = s.edit ∧
      (s.takeTxn t).mgmt.ownAddress = s.mgmt.ownAddress ∧
      (s.takeTxn t).mgmt.receiver = s.mgmt.receiver ∧
      (s.takeTxn t).mgmt.frame = s.mgmt.frame ∧
      (s.takeTxn t).mgmt.sendRest = s.mgmt.sendRest ∧
      (s.takeTxn t).mgmt.scan = s.mgmt.scan ∧
      (s.takeTxn t).mgmt.answer = s.mgmt.answer ∧
      (s.takeTxn t).mgmt.enable = s.mgmt.enable ∧
      (s.takeTxn t).mgmt.memLimit = s.mgmt.memLimit ∧
      (s.takeTxn t).mgmt.idleCount = s.mgmt.idleCount ∧
      (s.takeTxn t).resetLow = s.resetLow ∧
      (s.takeTxn t).sent.bus = s.sent.bus ∧
      (s.takeTxn t).freeCount = s.freeCount ∧
      (s.takeTxn t).pending = s.pending := by
  simp only [State.takeTxn]
  (repeat' split) <;> simp

end Sys2Proof.Machine
end

