-- ==== Sys2Proof/Laws/Agents.lean ====
section
/-! SUPPORT. What the parts of an agent reset leave. -/

namespace Sys2Proof.Machine

@[simp] theorem cancelWaiting_keeps (s : State) (a : Agent) :
    (s.cancelWaiting a).custody = s.custody ∧
      (s.cancelWaiting a).stage.outstanding = s.stage.outstanding ∧
      (s.cancelWaiting a).stage.pointer = s.stage.pointer ∧
      (s.cancelWaiting a).checker = s.checker ∧
      (s.cancelWaiting a).mem = s.mem ∧
      (s.cancelWaiting a).scrub = s.scrub ∧
      (s.cancelWaiting a).timer = s.timer ∧
      (s.cancelWaiting a).edit = s.edit ∧
      (s.cancelWaiting a).mgmt = s.mgmt ∧
      (s.cancelWaiting a).resetLow = s.resetLow ∧
      (s.cancelWaiting a).sent.requests = s.sent.requests ∧
      (s.cancelWaiting a).sent.bus = s.sent.bus ∧
      (s.cancelWaiting a).freeCount = s.freeCount ∧
      (s.cancelWaiting a).pending = s.pending := by
  unfold State.cancelWaiting
  (repeat' split) <;> simp

@[simp] theorem cancelHeld_keeps (s : State) (a : Agent) :
    (s.cancelHeld a).custody = s.custody ∧
      (s.cancelHeld a).stage.waiting = s.stage.waiting ∧
      (s.cancelHeld a).stage.pointer = s.stage.pointer ∧
      (s.cancelHeld a).checker.agents = s.checker.agents ∧
      (s.cancelHeld a).mem = s.mem ∧
      (s.cancelHeld a).scrub = s.scrub ∧
      (s.cancelHeld a).timer = s.timer ∧
      (s.cancelHeld a).edit = s.edit ∧
      (s.cancelHeld a).mgmt = s.mgmt ∧
      (s.cancelHeld a).resetLow = s.resetLow ∧
      (s.cancelHeld a).sent.requests = s.sent.requests ∧
      (s.cancelHeld a).sent.bus = s.sent.bus ∧
      (s.cancelHeld a).freeCount = s.freeCount ∧
      (s.cancelHeld a).pending = s.pending := by
  unfold State.cancelHeld
  (repeat' split) <;> simp

@[simp] theorem cancelEntry_keeps (s : State) (a : Agent) (g : StageTag) :
    (State.cancelEntry a s g).custody = s.custody ∧
      (State.cancelEntry a s g).stage.waiting = s.stage.waiting ∧
      (State.cancelEntry a s g).stage.pointer = s.stage.pointer ∧
      (State.cancelEntry a s g).checker = s.checker ∧
      (State.cancelEntry a s g).mem = s.mem ∧
      (State.cancelEntry a s g).scrub = s.scrub ∧
      (State.cancelEntry a s g).timer = s.timer ∧
      (State.cancelEntry a s g).edit = s.edit ∧
      (State.cancelEntry a s g).mgmt = s.mgmt ∧
      (State.cancelEntry a s g).resetLow = s.resetLow ∧
      (State.cancelEntry a s g).sent.requests = s.sent.requests ∧
      (State.cancelEntry a s g).sent.bus = s.sent.bus ∧
      (State.cancelEntry a s g).freeCount = s.freeCount ∧
      (State.cancelEntry a s g).pending = s.pending := by
  unfold State.cancelEntry
  (repeat' split) <;> simp

@[simp] theorem cancelAgent_keeps (s : State) (a : Agent) :
    (s.cancelAgent a).custody = s.custody ∧
      (s.cancelAgent a).stage.pointer = s.stage.pointer ∧
      (s.cancelAgent a).checker.agents = s.checker.agents ∧
      (s.cancelAgent a).mem = s.mem ∧
      (s.cancelAgent a).scrub = s.scrub ∧
      (s.cancelAgent a).timer = s.timer ∧
      (s.cancelAgent a).edit = s.edit ∧
      (s.cancelAgent a).mgmt = s.mgmt ∧
      (s.cancelAgent a).resetLow = s.resetLow ∧
      (s.cancelAgent a).sent.requests = s.sent.requests ∧
      (s.cancelAgent a).sent.bus = s.sent.bus ∧
      (s.cancelAgent a).freeCount = s.freeCount ∧
      (s.cancelAgent a).pending = s.pending := by
  have e := foldl_keeps (State.cancelEntry a) (fun s => (s.custody, s.stage.pointer, s.checker.agents, s.mem, s.scrub, s.timer, s.edit, s.mgmt, s.resetLow, s.sent.requests, s.sent.bus, s.freeCount, s.pending)) (by intros; simp)
  simp only [Prod.mk.injEq] at e
  unfold State.cancelAgent
  simp [e]

@[simp] theorem sweepRelease_keeps (s : State) (a : Agent) (h : Handle) :
    (State.sweepRelease a s h).stage = s.stage ∧
      (State.sweepRelease a s h).checker = s.checker ∧
      (State.sweepRelease a s h).mem = s.mem ∧
      (State.sweepRelease a s h).scrub.engine = s.scrub.engine ∧
      (State.sweepRelease a s h).timer = s.timer ∧
      (State.sweepRelease a s h).edit = s.edit ∧
      (State.sweepRelease a s h).mgmt = s.mgmt ∧
      (State.sweepRelease a s h).resetLow = s.resetLow ∧
      (State.sweepRelease a s h).sent = s.sent ∧
      (State.sweepRelease a s h).freeCount = s.freeCount ∧
      (State.sweepRelease a s h).pending = s.pending := by
  unfold State.sweepRelease
  (repeat' split) <;> simp

@[simp] theorem mapBufs_keeps (s : State) (f : BufRec → BufRec) :
    (s.mapBufs f).custody.pools = s.custody.pools ∧
      (s.mapBufs f).custody.queues = s.custody.queues ∧
      (s.mapBufs f).stage = s.stage ∧
      (s.mapBufs f).checker = s.checker ∧
      (s.mapBufs f).mem = s.mem ∧
      (s.mapBufs f).scrub = s.scrub ∧
      (s.mapBufs f).timer = s.timer ∧
      (s.mapBufs f).edit = s.edit ∧
      (s.mapBufs f).mgmt = s.mgmt ∧
      (s.mapBufs f).resetLow = s.resetLow ∧
      (s.mapBufs f).sent = s.sent ∧
      (s.mapBufs f).freeCount = s.freeCount ∧
      (s.mapBufs f).pending = s.pending := by
  unfold State.mapBufs
  simp

@[simp] theorem sweep_keeps (s : State) (a : Agent) :
    (s.sweep a).stage = s.stage ∧
      (s.sweep a).checker = s.checker ∧
      (s.sweep a).mem = s.mem ∧
      (s.sweep a).scrub.engine = s.scrub.engine ∧
      (s.sweep a).timer = s.timer ∧
      (s.sweep a).edit = s.edit ∧
      (s.sweep a).mgmt = s.mgmt ∧
      (s.sweep a).resetLow = s.resetLow ∧
      (s.sweep a).sent = s.sent ∧
      (s.sweep a).freeCount = s.freeCount ∧
      (s.sweep a).pending = s.pending := by
  have e := foldl_keeps (State.sweepRelease a) (fun s => (s.stage, s.checker, s.mem, s.scrub.engine, s.timer, s.edit, s.mgmt, s.resetLow, s.sent, s.freeCount, s.pending)) (by intros; simp)
  have e' := foldl_keeps State.bringBack (fun s => (s.stage, s.checker, s.mem, s.scrub.engine, s.timer, s.edit, s.mgmt, s.resetLow, s.sent, s.freeCount, s.pending)) (by intros; simp)
  simp only [Prod.mk.injEq] at e e'
  unfold State.sweep
  simp [e, e']

end Sys2Proof.Machine
end

