-- ==== Sys2Proof/Laws/Bus.lean ====
section
/-! SUPPORT. What the bus operations leave. -/

namespace Sys2Proof.Machine

@[simp] theorem compareAddress_keeps (s : State) (x : BitVec 7) (b : Bool) :
    (s.compareAddress x b).custody = s.custody ∧
      (s.compareAddress x b).stage = s.stage ∧
      (s.compareAddress x b).checker = s.checker ∧
      (s.compareAddress x b).mem = s.mem ∧
      (s.compareAddress x b).scrub = s.scrub ∧
      (s.compareAddress x b).timer = s.timer ∧
      (s.compareAddress x b).edit = s.edit ∧
      (s.compareAddress x b).mgmt.ownAddress = s.mgmt.ownAddress ∧
      (s.compareAddress x b).mgmt.frame = s.mgmt.frame ∧
      (s.compareAddress x b).mgmt.scan = s.mgmt.scan ∧
      (s.compareAddress x b).mgmt.answer = s.mgmt.answer ∧
      (s.compareAddress x b).mgmt.notices = s.mgmt.notices ∧
      (s.compareAddress x b).mgmt.enable = s.mgmt.enable ∧
      (s.compareAddress x b).mgmt.memLimit = s.mgmt.memLimit ∧
      (s.compareAddress x b).resetLow = s.resetLow ∧
      (s.compareAddress x b).sent.responses = s.sent.responses ∧
      (s.compareAddress x b).sent.requests = s.sent.requests ∧
      (s.compareAddress x b).freeCount = s.freeCount ∧
      (s.compareAddress x b).pending = s.pending := by
  unfold State.compareAddress
  (repeat' split) <;> simp

@[simp] theorem receiveByte_keeps (s : State) (b : Byte) :
    (s.receiveByte b).custody = s.custody ∧
      (s.receiveByte b).stage = s.stage ∧
      (s.receiveByte b).checker = s.checker ∧
      (s.receiveByte b).mem = s.mem ∧
      (s.receiveByte b).scrub = s.scrub ∧
      (s.receiveByte b).timer = s.timer ∧
      (s.receiveByte b).edit = s.edit ∧
      (s.receiveByte b).mgmt.ownAddress = s.mgmt.ownAddress ∧
      (s.receiveByte b).mgmt.sendRest = s.mgmt.sendRest ∧
      (s.receiveByte b).mgmt.scan = s.mgmt.scan ∧
      (s.receiveByte b).mgmt.answer = s.mgmt.answer ∧
      (s.receiveByte b).mgmt.notices = s.mgmt.notices ∧
      (s.receiveByte b).mgmt.enable = s.mgmt.enable ∧
      (s.receiveByte b).mgmt.memLimit = s.mgmt.memLimit ∧
      (s.receiveByte b).resetLow = s.resetLow ∧
      (s.receiveByte b).sent.responses = s.sent.responses ∧
      (s.receiveByte b).sent.requests = s.sent.requests ∧
      (s.receiveByte b).freeCount = s.freeCount ∧
      (s.receiveByte b).pending = s.pending := by
  simp only [State.receiveByte]
  (repeat' split) <;> simp

@[simp] theorem sendBytes_keeps (s : State) (l : List Bool) :
    (s.sendBytes l).custody = s.custody ∧
      (s.sendBytes l).stage = s.stage ∧
      (s.sendBytes l).checker = s.checker ∧
      (s.sendBytes l).mem = s.mem ∧
      (s.sendBytes l).scrub = s.scrub ∧
      (s.sendBytes l).timer = s.timer ∧
      (s.sendBytes l).edit = s.edit ∧
      (s.sendBytes l).mgmt.ownAddress = s.mgmt.ownAddress ∧
      (s.sendBytes l).mgmt.receiver = s.mgmt.receiver ∧
      (s.sendBytes l).mgmt.frame = s.mgmt.frame ∧
      (s.sendBytes l).mgmt.scan = s.mgmt.scan ∧
      (s.sendBytes l).mgmt.answer = s.mgmt.answer ∧
      (s.sendBytes l).mgmt.notices = s.mgmt.notices ∧
      (s.sendBytes l).mgmt.enable = s.mgmt.enable ∧
      (s.sendBytes l).mgmt.memLimit = s.mgmt.memLimit ∧
      (s.sendBytes l).mgmt.idleCount = s.mgmt.idleCount ∧
      (s.sendBytes l).resetLow = s.resetLow ∧
      (s.sendBytes l).sent.responses = s.sent.responses ∧
      (s.sendBytes l).sent.requests = s.sent.requests ∧
      (s.sendBytes l).freeCount = s.freeCount ∧
      (s.sendBytes l).pending = s.pending := by
  induction l generalizing s with
  | nil => simp [State.sendBytes]
  | cons x l ih => simp [State.sendBytes, ih]

end Sys2Proof.Machine
end

