-- ==== Sys2Proof/Laws/Grants.lean ====
section
/-! SUPPORT. The two arbiters: which waiting place is granted, which tag is granted, and that nothing follows a step that leaves
nothing standing. -/

namespace Sys2Proof.Machine

/-! ### The memory arbiter -/

theorem mem_freeTags (m : MemPort) (i : TagIndex) : i ∈ freeTags m ↔ (nth m.tags i).use = none := by
  simp [freeTags]

theorem freeTags_nodup (m : MemPort) : (freeTags m).Nodup := (List.nodup_finRange 64).filter _

theorem freeTags_eq_nil (m : MemPort) : freeTags m = [] ↔ ∀ i, (nth m.tags i).use ≠ none := by
  simp [freeTags, List.filter_eq_nil_iff]

/-- The head of a filtered ascending list is the lowest that passes. -/
theorem head_filter_finRange {n : Nat} (p : Fin n → Bool) (i : Fin n) (h : p i = true) (low : ∀ j, j < i → p j = false) :
    ∃ l, (List.finRange n).filter p = i :: l := by
  have hs : (List.finRange n).Pairwise (· < ·) := List.pairwise_lt_finRange n
  have hm : i ∈ (List.finRange n).filter p := by simp [h]
  have hp := hs.filter p
  cases e : (List.finRange n).filter p with
  | nil => rw [e] at hm; simp at hm
  | cons k l =>
    rw [e] at hm hp
    have hk : p k = true := by
      have : k ∈ (List.finRange n).filter p := by rw [e]; simp
      simpa using this
    rcases List.mem_cons.mp hm with rfl | hl
    · exact ⟨l, rfl⟩
    · have := (List.pairwise_cons.mp hp).1 i hl
      rw [low k this] at hk; cases hk

/-- The lowest free tag is the one the arbiter grants. -/
theorem freeTags_lowest (m : MemPort) (i : TagIndex) (h : (nth m.tags i).use = none)
    (low : ∀ j, j < i → (nth m.tags j).use ≠ none) : ∃ l, freeTags m = i :: l := by
  apply head_filter_finRange
  · simp [h]
  · intro j hj
    have := low j hj
    cases e : (nth m.tags j).use <;> simp_all

theorem grants_iff (m : MemPort) : m.grants = true ↔ m.link = .up ∧ m.settling = none := by
  simp [MemPort.grants]

/-- With no request standing, nothing is granted. -/
theorem nextGrant_none_of_idle (s : State) (h : s.checker.hold = none) (w : s.scrub.engine.wants = false) :
    s.nextGrant = none := by
  unfold State.nextGrant
  split
  · cases e : freeTags s.mem <;> simp [h, w]
  · rfl

/-- With the arbiter not granting, nothing is granted. -/
theorem nextGrant_none_of_shut (s : State) (h : s.mem.grants = false) : s.nextGrant = none := by
  simp [State.nextGrant, h]

theorem nextGrant_none_of_busy (s : State) (h : freeTags s.mem = []) : s.nextGrant = none := by
  unfold State.nextGrant
  split
  · simp [h]
  · rfl

theorem grantOnce_of_none (s : State) (h : s.nextGrant = none) : s.grantOnce = s := by
  simp [State.grantOnce, h]

theorem arbitrate_of_none (s : State) (h : s.nextGrant = none) : s.arbitrate = s := by
  simp [State.arbitrate, grantOnce_of_none s h]

/-- A grant exactly where the arbiter may grant and a request stands. -/
theorem nextGrant_eq_none (s : State) :
    s.nextGrant = none ↔ (s.mayGrant → s.checker.hold = none ∧ s.scrub.engine.wants = false) := by
  unfold State.nextGrant State.mayGrant
  by_cases g : s.mem.grants = true
  · have g' := (grants_iff _).mp g
    simp only [g, if_true]
    cases f : freeTags s.mem with
    | nil =>
      have : ∀ i, (s.tag i).use ≠ none := (freeTags_eq_nil s.mem).mp f
      simp [this]
    | cons i l =>
      have hi : (s.tag i).use = none := by
        have : i ∈ freeTags s.mem := by rw [f]; simp
        exact (mem_freeTags s.mem i).mp this
      have hx : ∃ i, (s.tag i).use = none := ⟨i, hi⟩
      cases hh : s.checker.hold <;> cases hw : s.scrub.engine.wants <;> simp [g', hx]
  · have g' : ¬ (s.mem.link = .up ∧ s.mem.settling = none) := fun h => g ((grants_iff _).mpr h)
    simp only [g]
    simp only [Bool.false_eq_true, if_false, true_iff]
    intro h
    exact absurd ⟨h.1, h.2.1⟩ g'

/-- R132: nothing to take. -/
theorem takeHead_eq (s : State) (h : s.scrub.engine = .idle → s.mem.link = .up → s.scrub.queue = []) : s.takeHead = s := by
  unfold State.takeHead
  split
  · next he hl hq => rw [h he hl] at hq; cases hq
  · rfl

/-- In a quiet state nothing follows. -/
theorem kick_of_quiet (s : State) (h : s.quiet) : s.kick = s := by
  unfold State.kick
  rw [takeHead_eq s h.2]
  exact arbitrate_of_none s ((nextGrant_eq_none s).mpr h.1)

/-- Quiet is a law of the memory port, the scrub engine and the hold place alone. -/
theorem quiet_congr {s t : State} (m : t.mem.link = s.mem.link) (se : t.mem.settling.isSome = s.mem.settling.isSome)
    (tg : ∀ i, ((t.tag i).use = none ↔ (s.tag i).use = none)) (sc : t.scrub = s.scrub)
    (ho : t.checker.hold = s.checker.hold) : t.quiet ↔ s.quiet := by
  have e : t.mem.settling = none ↔ s.mem.settling = none := by
    rw [← Option.not_isSome_iff_eq_none, ← Option.not_isSome_iff_eq_none, se]
  unfold State.quiet State.mayGrant
  rw [m, e, sc, ho]
  simp only [tg]

/-- Quiet where the memory port, the engine and the hold place are the same. -/
theorem quiet_of_eq {s t : State} (h : s.quiet) (m : t.mem = s.mem) (sc : t.scrub = s.scrub)
    (ho : t.checker.hold = s.checker.hold) : t.quiet := by
  refine (quiet_congr ?_ ?_ ?_ sc ho).mpr h
  · rw [m]
  · rw [m]
  · intro i; unfold State.tag; rw [m]

/-- Where no request can stand: nothing held, the engine with nothing to do. -/
theorem quiet_of_scrubIdle (s : State) (h : s.scrubIdle) (ho : s.checker.hold = none) : s.quiet := by
  refine ⟨fun _ => ⟨ho, ?_⟩, fun _ _ => h.2⟩
  rw [h.1]; rfl

/-! ### After an event -/

/-- How many grants can still follow: the held access, and the bursts that the engine has room for. -/
def State.grantsLeft (s : State) : Nat :=
  s.checker.hold.isSome.toNat +
    match s.scrub.engine with
    | .idle => 0
    | .issuing c => Config.burstCapacity - c.inFlight.length
    | .paused _ => 0
    | .failing _ => 0

theorem grantsLeft_le (s : State) : s.grantsLeft ≤ 5 := by
  have h : s.checker.hold.isSome.toNat ≤ 1 := Bool.toNat_le _
  unfold State.grantsLeft
  split <;> (try simp only [Config.burstCapacity]) <;> omega

/-- The requester that is granted has a standing request. -/
theorem standing_of_nextGrant (s : State) (i : TagIndex) :
    (s.nextGrant = some (.checker, i) → s.checker.hold.isSome = true) ∧
      (s.nextGrant = some (.scrub, i) → s.scrub.engine.wants = true) := by
  unfold State.nextGrant
  split
  · cases freeTags s.mem <;> cases s.checker.hold.isSome <;> cases s.scrub.engine.wants <;> simp
  · simp

@[simp] theorem recheckGranted_hold (s : State) (i : TagIndex) : (s.recheckGranted i).checker.hold = none := by
  cases e : s.checker.hold with
  | none => simp [State.recheckGranted, e]
  | some t =>
    cases c : t.handle with
    | none => simp [State.recheckGranted, e, c, State.dropHold]
    | some h => cases k : s.accessCheck t h <;> simp [State.recheckGranted, e, c, k, State.dropHold]

/-- A burst issued is the one at the issue point, and joins the bursts in flight. -/
theorem issueBurst_engine (s : State) (i : TagIndex) (c : ScrubCtx) (h : s.scrub.engine = .issuing c) :
    (s.issueBurst i).scrub.engine =
      .issuing { c with issue := c.issue + 1, inFlight := c.inFlight ++ [(c.issue, i)] } := by
  unfold State.issueBurst
  rw [h]
  rfl

/-- Each grant uses up one of those that can follow. -/
theorem grantsLeft_grantOnce (s : State) (h : s.nextGrant ≠ none) : s.grantOnce.grantsLeft + 1 = s.grantsLeft := by
  cases e : s.nextGrant with
  | none => exact absurd e h
  | some g =>
    obtain ⟨r, i⟩ := g
    cases r with
    | checker =>
      have hold := (standing_of_nextGrant s i).1 e
      simp only [State.grantOnce, e, State.grantsLeft, recheckGranted_hold, recheckGranted_keeps, hold]
      simp only [Option.isSome_none, Bool.toNat_false, Bool.toNat_true]
      omega
    | scrub =>
      have wants := (standing_of_nextGrant s i).2 e
      cases c : s.scrub.engine <;> simp only [c, Engine.wants, Bool.false_eq_true] at wants
      simp only [Bool.and_eq_true, decide_eq_true_eq] at wants
      simp only [State.grantOnce, e, State.grantsLeft, issueBurst_engine s i _ c, issueBurst_keeps, c, List.length_append,
        List.length_singleton]
      omega

/-- Five grants are enough: after them nothing is granted. -/
theorem nextGrant_arbitrate (s : State) : s.arbitrate.nextGrant = none := by
  have none_after (u : State) (h : u.nextGrant = none) : u.grantOnce.nextGrant = none := by rwa [grantOnce_of_none u h]
  have next (n : Nat) (u : State) (h : u.nextGrant = none ∨ u.grantsLeft ≤ n + 1) :
      u.grantOnce.nextGrant = none ∨ u.grantOnce.grantsLeft ≤ n := by
    by_cases e : u.nextGrant = none
    · exact .inl (none_after u e)
    · have := grantsLeft_grantOnce u e
      exact .inr (by have := h.resolve_left e; omega)
  have five := next 0 _ (next 1 _ (next 2 _ (next 3 _ (next 4 s (.inr (grantsLeft_le s))))))
  refine five.elim id fun zero => ?_
  by_cases e : s.arbitrate.nextGrant = none
  · exact e
  · have := grantsLeft_grantOnce _ e
    exact absurd zero (by show ¬ s.arbitrate.grantsLeft ≤ 0; omega)

theorem grantOnce_arbitrate (s : State) : s.arbitrate.grantOnce = s.arbitrate :=
  grantOnce_of_none _ (nextGrant_arbitrate s)

/-- The arbiter may be read one grant at a time. -/
theorem arbitrate_grantOnce (s : State) : s.grantOnce.arbitrate = s.arbitrate := grantOnce_arbitrate s

/-- A grant leaves an engine that is not IDLE so, and an IDLE one so. -/
theorem grantOnce_engine_idle (s : State) : s.grantOnce.scrub.engine = .idle ↔ s.scrub.engine = .idle := by
  unfold State.grantOnce
  split
  · rfl
  · simp
  · cases c : s.scrub.engine <;> first | simp [issueBurst_engine s _ _ c] | simp [State.issueBurst, c]

theorem arbitrate_engine_idle (s : State) : s.arbitrate.scrub.engine = .idle ↔ s.scrub.engine = .idle := by
  simp only [State.arbitrate, grantOnce_engine_idle]

/-- R125, R132: what follows an event leaves nothing that could follow. -/
theorem kick_quiet (s : State) : s.kick.quiet := by
  refine ⟨(nextGrant_eq_none _).mp (nextGrant_arbitrate _), ?_⟩
  simp only [State.kick, arbitrate_engine_idle, arbitrate_keeps]
  intro idle up
  rw [(takeHead_keeps s).2.2.2.1] at up
  unfold State.takeHead at idle ⊢
  split at idle
  · cases idle
  · next none =>
    cases q : s.scrub.queue with
    | nil => rfl
    | cons h rest => exact (none h rest idle up q).elim

/-- Where no head waits, what follows an event may be read one grant at a time. -/
theorem kick_grantOnce (s : State) (h : s.scrub.engine = .idle → s.mem.link = .up → s.scrub.queue = []) :
    s.grantOnce.kick = s.kick := by
  have h' : s.grantOnce.scrub.engine = .idle → s.grantOnce.mem.link = .up → s.grantOnce.scrub.queue = [] := by
    simpa [grantOnce_engine_idle] using h
  simp only [State.kick, takeHead_eq _ h, takeHead_eq _ h', arbitrate_grantOnce]

/-! ### The input arbiter -/

/-- The transaction of `nextTxn` is the one the arbiter grants. -/
theorem nextGranted_of_nextTxn (s : State) (a : Agent) (t : Txn) (h : s.nextTxn a t) : s.nextGranted = some a := by
  obtain ⟨-, hold, hw, -, d, hd, before⟩ := h
  have hr : s.checkerReady = true := by simp [State.checkerReady, hold]
  unfold State.nextGranted
  rw [if_pos hr]
  unfold searchOrder
  rw [List.find?_map]
  have : (List.finRange 16).find? (fun k => (s.waiting (s.stage.pointer + 1 + k)).isSome) = some d := by
    rw [← List.head?_filter]
    obtain ⟨l, hl⟩ := head_filter_finRange (fun k : Fin 16 => (s.waiting (s.stage.pointer + 1 + k)).isSome) d
      (by rw [← hd, hw]; rfl) (by intro j hj; rw [before j hj]; rfl)
    rw [hl]; rfl
  have e : ((fun b => (s.waiting b).isSome) ∘ fun k => s.stage.pointer + 1 + k) =
      fun k => (s.waiting (s.stage.pointer + 1 + k)).isSome := rfl
  rw [e, this]
  simp [hd]

/-- A grant takes the transaction, and what follows from it follows at once. -/
theorem exec_grant (s : State) (a : Agent) (t : Txn) (h : s.nextTxn a t) :
    exec .inputArbiterGrant s = .next ((s.granted a).takeTxn t).kick := by
  have g := nextGranted_of_nextTxn s a t h
  obtain ⟨low, -, hw, -⟩ := h
  simp [exec, execInputArbiterGrant, low, g, hw, State.granted]

/-! ### What each grant takes -/

theorem wants_iff (e : Engine) :
    e.wants = true ↔ ∃ c, e = .issuing c ∧ c.issue < c.count ∧ c.inFlight.length < Config.burstCapacity := by
  cases e <;> simp [Engine.wants]

/-- With an access held, or no place occupied, no agent is granted. -/
theorem nextGranted_eq_none (s : State) (h : s.checker.hold ≠ none ∨ ∀ a, s.waiting a = none) : s.nextGranted = none := by
  unfold State.nextGranted State.checkerReady
  rcases h with h | h <;> simp [h]

/-- A grant makes at most one tag busy, with the response limit as it stands. -/
theorem grantOnce_tag (s : State) (i : TagIndex) (u : TagUse) (e : (s.grantOnce.tag i).use = some u) :
    (s.tag i).use = some u ∨ u.timeLeft = s.mgmt.memLimit := by
  unfold State.grantOnce at e
  split at e
  · exact .inl e
  · unfold State.recheckGranted at e
    split at e
    · exact .inl e
    · simp only at e
      split at e
      · exact .inl e
      · split at e
        · simp only [State.tag, refuse_keeps, setEntry_keeps] at e
          exact .inl e
        · simp only [State.forward, State.tag, State.setEntry, State.setBuf, State.sendRequest, State.setTag, nth_put] at e
          split at e
          · simp only [Option.some.injEq] at e
            exact .inr (e ▸ rfl)
          · exact .inl e
  · unfold State.issueBurst at e
    split at e
    · simp only [State.tag, State.setTag, State.sendRequest, nth_put] at e
      split at e
      · simp only [Option.some.injEq] at e
        exact .inr (e ▸ rfl)
      · exact .inl e
    all_goals exact .inl e

theorem arbitrate_tag (s : State) (i : TagIndex) (u : TagUse) (e : (s.arbitrate.tag i).use = some u) :
    (s.tag i).use = some u ∨ u.timeLeft = s.mgmt.memLimit := by
  have back (v : State) (m : v.mgmt.memLimit = s.mgmt.memLimit) (e : (v.grantOnce.tag i).use = some u) :
      (v.tag i).use = some u ∨ u.timeLeft = s.mgmt.memLimit := m ▸ grantOnce_tag v i u e
  refine (back _ (by simp) e).elim (fun e => ?_) .inr
  refine (back _ (by simp) e).elim (fun e => ?_) .inr
  refine (back _ (by simp) e).elim (fun e => ?_) .inr
  refine (back _ (by simp) e).elim (fun e => ?_) .inr
  exact back s rfl e

theorem kick_tag (s : State) (i : TagIndex) (u : TagUse) (e : (s.kick.tag i).use = some u) :
    (s.tag i).use = some u ∨ u.timeLeft = s.mgmt.memLimit := by
  have := arbitrate_tag s.takeHead i u e
  simpa [State.tag] using this

end Sys2Proof.Machine
end

