-- ==== Sys2Proof/Laws/Memory.lean ====
section
/-! SUPPORT. What the operations of the memory port and the scrub engine leave. -/

namespace Sys2Proof.Machine

@[simp] theorem takeResponse_keeps (s : State) (i : TagIndex) (u : TagUse) (g : Bool) (d : List Byte) :
    (s.takeResponse i u g d).custody.queues = s.custody.queues ∧
      (s.takeResponse i u g d).stage.waiting = s.stage.waiting ∧
      (s.takeResponse i u g d).stage.pointer = s.stage.pointer ∧
      (s.takeResponse i u g d).checker = s.checker ∧
      (s.takeResponse i u g d).mem.link = s.mem.link ∧
      (s.takeResponse i u g d).mem.settling = s.mem.settling ∧
      (s.takeResponse i u g d).mem.preference = s.mem.preference ∧
      (s.takeResponse i u g d).timer = s.timer ∧
      (s.takeResponse i u g d).edit = s.edit ∧
      (s.takeResponse i u g d).mgmt.ownAddress = s.mgmt.ownAddress ∧
      (s.takeResponse i u g d).mgmt.receiver = s.mgmt.receiver ∧
      (s.takeResponse i u g d).mgmt.frame = s.mgmt.frame ∧
      (s.takeResponse i u g d).mgmt.sendRest = s.mgmt.sendRest ∧
      (s.takeResponse i u g d).mgmt.scan = s.mgmt.scan ∧
      (s.takeResponse i u g d).mgmt.answer = s.mgmt.answer ∧
      (s.takeResponse i u g d).mgmt.enable = s.mgmt.enable ∧
      (s.takeResponse i u g d).mgmt.memLimit = s.mgmt.memLimit ∧
      (s.takeResponse i u g d).mgmt.idleCount = s.mgmt.idleCount ∧
      (s.takeResponse i u g d).resetLow = s.resetLow ∧
      (s.takeResponse i u g d).sent.requests = s.sent.requests ∧
      (s.takeResponse i u g d).sent.bus = s.sent.bus ∧
      (s.takeResponse i u g d).freeCount = s.freeCount ∧
      (s.takeResponse i u g d).pending = s.pending := by
  simp only [State.takeResponse]
  (repeat' split) <;> simp

@[simp] theorem expireTag_keeps (s : State) (i : TagIndex) :
    (s.expireTag i).custody.queues = s.custody.queues ∧
      (s.expireTag i).stage.waiting = s.stage.waiting ∧
      (s.expireTag i).stage.pointer = s.stage.pointer ∧
      (s.expireTag i).mem.link = s.mem.link ∧
      (s.expireTag i).mem.settling = s.mem.settling ∧
      (s.expireTag i).timer = s.timer ∧
      (s.expireTag i).edit = s.edit ∧
      (s.expireTag i).mgmt.ownAddress = s.mgmt.ownAddress ∧
      (s.expireTag i).mgmt.receiver = s.mgmt.receiver ∧
      (s.expireTag i).mgmt.frame = s.mgmt.frame ∧
      (s.expireTag i).mgmt.sendRest = s.mgmt.sendRest ∧
      (s.expireTag i).mgmt.scan = s.mgmt.scan ∧
      (s.expireTag i).mgmt.answer = s.mgmt.answer ∧
      (s.expireTag i).mgmt.enable = s.mgmt.enable ∧
      (s.expireTag i).mgmt.memLimit = s.mgmt.memLimit ∧
      (s.expireTag i).mgmt.idleCount = s.mgmt.idleCount ∧
      (s.expireTag i).resetLow = s.resetLow ∧
      (s.expireTag i).sent.bus = s.sent.bus ∧
      (s.expireTag i).freeCount = s.freeCount ∧
      (s.expireTag i).pending = s.pending := by
  simp only [State.expireTag]
  split
  · simp
  · split <;> simp

@[simp] theorem endSettling_keeps (s : State)  :
    (s.endSettling).custody.pools = s.custody.pools ∧
      (s.endSettling).custody.queues = s.custody.queues ∧
      (s.endSettling).stage.waiting = s.stage.waiting ∧
      (s.endSettling).stage.pointer = s.stage.pointer ∧
      (s.endSettling).mem.link = s.mem.link ∧
      (s.endSettling).timer = s.timer ∧
      (s.endSettling).edit = s.edit ∧
      (s.endSettling).mgmt.ownAddress = s.mgmt.ownAddress ∧
      (s.endSettling).mgmt.receiver = s.mgmt.receiver ∧
      (s.endSettling).mgmt.frame = s.mgmt.frame ∧
      (s.endSettling).mgmt.sendRest = s.mgmt.sendRest ∧
      (s.endSettling).mgmt.scan = s.mgmt.scan ∧
      (s.endSettling).mgmt.answer = s.mgmt.answer ∧
      (s.endSettling).mgmt.enable = s.mgmt.enable ∧
      (s.endSettling).mgmt.memLimit = s.mgmt.memLimit ∧
      (s.endSettling).mgmt.idleCount = s.mgmt.idleCount ∧
      (s.endSettling).resetLow = s.resetLow ∧
      (s.endSettling).sent.bus = s.sent.bus ∧
      (s.endSettling).freeCount = s.freeCount ∧
      (s.endSettling).pending = s.pending := by
  simp only [State.endSettling]
  (repeat' split) <;> simp

@[simp] theorem loseTag_keeps (s : State) (i : TagIndex) :
    (s.loseTag i).custody.queues = s.custody.queues ∧
      (s.loseTag i).stage.waiting = s.stage.waiting ∧
      (s.loseTag i).stage.pointer = s.stage.pointer ∧
      (s.loseTag i).checker = s.checker ∧
      (s.loseTag i).mem.link = s.mem.link ∧
      (s.loseTag i).mem.settling = s.mem.settling ∧
      (s.loseTag i).mem.preference = s.mem.preference ∧
      (s.loseTag i).scrub.engine = s.scrub.engine ∧
      (s.loseTag i).timer = s.timer ∧
      (s.loseTag i).edit = s.edit ∧
      (s.loseTag i).mgmt = s.mgmt ∧
      (s.loseTag i).resetLow = s.resetLow ∧
      (s.loseTag i).sent.requests = s.sent.requests ∧
      (s.loseTag i).sent.bus = s.sent.bus ∧
      (s.loseTag i).freeCount = s.freeCount ∧
      (s.loseTag i).pending = s.pending := by
  unfold State.loseTag
  (repeat' split) <;> simp

@[simp] theorem scrubLinkDown_keeps (s : State)  :
    (s.scrubLinkDown).custody.pools = s.custody.pools ∧
      (s.scrubLinkDown).custody.queues = s.custody.queues ∧
      (s.scrubLinkDown).stage = s.stage ∧
      (s.scrubLinkDown).checker = s.checker ∧
      (s.scrubLinkDown).mem = s.mem ∧
      (s.scrubLinkDown).scrub.queue = s.scrub.queue ∧
      (s.scrubLinkDown).timer = s.timer ∧
      (s.scrubLinkDown).edit = s.edit ∧
      (s.scrubLinkDown).mgmt.ownAddress = s.mgmt.ownAddress ∧
      (s.scrubLinkDown).mgmt.receiver = s.mgmt.receiver ∧
      (s.scrubLinkDown).mgmt.frame = s.mgmt.frame ∧
      (s.scrubLinkDown).mgmt.sendRest = s.mgmt.sendRest ∧
      (s.scrubLinkDown).mgmt.scan = s.mgmt.scan ∧
      (s.scrubLinkDown).mgmt.answer = s.mgmt.answer ∧
      (s.scrubLinkDown).mgmt.enable = s.mgmt.enable ∧
      (s.scrubLinkDown).mgmt.memLimit = s.mgmt.memLimit ∧
      (s.scrubLinkDown).mgmt.idleCount = s.mgmt.idleCount ∧
      (s.scrubLinkDown).resetLow = s.resetLow ∧
      (s.scrubLinkDown).sent = s.sent ∧
      (s.scrubLinkDown).freeCount = s.freeCount ∧
      (s.scrubLinkDown).pending = s.pending := by
  unfold State.scrubLinkDown
  (repeat' split) <;> simp

@[simp] theorem goDown_keeps (s : State)  :
    (s.goDown).custody.queues = s.custody.queues ∧
      (s.goDown).stage.waiting = s.stage.waiting ∧
      (s.goDown).stage.pointer = s.stage.pointer ∧
      (s.goDown).mem.settling = s.mem.settling ∧
      (s.goDown).mem.preference = s.mem.preference ∧
      (s.goDown).timer = s.timer ∧
      (s.goDown).edit = s.edit ∧
      (s.goDown).mgmt.ownAddress = s.mgmt.ownAddress ∧
      (s.goDown).mgmt.receiver = s.mgmt.receiver ∧
      (s.goDown).mgmt.frame = s.mgmt.frame ∧
      (s.goDown).mgmt.sendRest = s.mgmt.sendRest ∧
      (s.goDown).mgmt.scan = s.mgmt.scan ∧
      (s.goDown).mgmt.answer = s.mgmt.answer ∧
      (s.goDown).mgmt.enable = s.mgmt.enable ∧
      (s.goDown).mgmt.memLimit = s.mgmt.memLimit ∧
      (s.goDown).mgmt.idleCount = s.mgmt.idleCount ∧
      (s.goDown).resetLow = s.resetLow ∧
      (s.goDown).sent.requests = s.sent.requests ∧
      (s.goDown).sent.bus = s.sent.bus ∧
      (s.goDown).freeCount = s.freeCount ∧
      (s.goDown).pending = s.pending := by
  have e := foldl_keeps State.loseTag (fun s => (s.custody.queues, s.stage.waiting, s.stage.pointer, s.mem.settling, s.mem.preference, s.timer, s.edit, s.mgmt.ownAddress, s.mgmt.receiver, s.mgmt.frame, s.mgmt.sendRest, s.mgmt.scan, s.mgmt.answer, s.mgmt.enable, s.mgmt.memLimit, s.mgmt.idleCount, s.resetLow, s.sent.requests, s.sent.bus, s.freeCount, s.pending)) (by intros; simp)
  simp only [Prod.mk.injEq] at e
  unfold State.goDown
  simp [e]

@[simp] theorem resumeScrub_keeps (s : State)  :
    (s.resumeScrub).custody = s.custody ∧
      (s.resumeScrub).stage = s.stage ∧
      (s.resumeScrub).checker = s.checker ∧
      (s.resumeScrub).mem = s.mem ∧
      (s.resumeScrub).scrub.queue = s.scrub.queue ∧
      (s.resumeScrub).timer = s.timer ∧
      (s.resumeScrub).edit = s.edit ∧
      (s.resumeScrub).mgmt = s.mgmt ∧
      (s.resumeScrub).resetLow = s.resetLow ∧
      (s.resumeScrub).sent = s.sent ∧
      (s.resumeScrub).freeCount = s.freeCount ∧
      (s.resumeScrub).pending = s.pending := by
  unfold State.resumeScrub
  (repeat' split) <;> simp

end Sys2Proof.Machine
end

