-- ==== Sys2Proof/Laws/Time.lean ====
section
/-! SUPPORT. What the apply of a group, a scan step, a mark and a tick leave. -/

namespace Sys2Proof.Machine

@[simp] theorem adopt_keeps (s : State) (im : Image) :
    (s.adopt im).custody.queues = s.custody.queues ∧
      (s.adopt im).stage = s.stage ∧
      (s.adopt im).checker = s.checker ∧
      (s.adopt im).mem = s.mem ∧
      (s.adopt im).scrub.engine = s.scrub.engine ∧
      (s.adopt im).timer = s.timer ∧
      (s.adopt im).edit = s.edit ∧
      (s.adopt im).mgmt = s.mgmt ∧
      (s.adopt im).resetLow = s.resetLow ∧
      (s.adopt im).sent = s.sent ∧
      (s.adopt im).freeCount = s.freeCount ∧
      (s.adopt im).pending = s.pending := by
  unfold State.adopt
  simp

@[simp] theorem applyGroup_keeps (s : State) (es : List Edit) :
    (s.applyGroup es).1.custody.queues = s.custody.queues ∧
      (s.applyGroup es).1.stage = s.stage ∧
      (s.applyGroup es).1.checker = s.checker ∧
      (s.applyGroup es).1.mem = s.mem ∧
      (s.applyGroup es).1.scrub.engine = s.scrub.engine ∧
      (s.applyGroup es).1.timer = s.timer ∧
      (s.applyGroup es).1.edit = s.edit ∧
      (s.applyGroup es).1.mgmt = s.mgmt ∧
      (s.applyGroup es).1.resetLow = s.resetLow ∧
      (s.applyGroup es).1.sent = s.sent ∧
      (s.applyGroup es).1.freeCount = s.freeCount ∧
      (s.applyGroup es).1.pending = s.pending := by
  unfold State.applyGroup
  (repeat' split) <;> simp

@[simp] theorem presentGroup_keeps (s : State) (c : Option (BitVec 32)) :
    (s.presentGroup c).custody.queues = s.custody.queues ∧
      (s.presentGroup c).stage = s.stage ∧
      (s.presentGroup c).checker = s.checker ∧
      (s.presentGroup c).mem = s.mem ∧
      (s.presentGroup c).scrub.engine = s.scrub.engine ∧
      (s.presentGroup c).timer = s.timer ∧
      (s.presentGroup c).mgmt.ownAddress = s.mgmt.ownAddress ∧
      (s.presentGroup c).mgmt.receiver = s.mgmt.receiver ∧
      (s.presentGroup c).mgmt.frame = s.mgmt.frame ∧
      (s.presentGroup c).mgmt.sendRest = s.mgmt.sendRest ∧
      (s.presentGroup c).mgmt.scan = s.mgmt.scan ∧
      (s.presentGroup c).mgmt.answer = s.mgmt.answer ∧
      (s.presentGroup c).mgmt.enable = s.mgmt.enable ∧
      (s.presentGroup c).mgmt.memLimit = s.mgmt.memLimit ∧
      (s.presentGroup c).mgmt.idleCount = s.mgmt.idleCount ∧
      (s.presentGroup c).resetLow = s.resetLow ∧
      (s.presentGroup c).sent = s.sent ∧
      (s.presentGroup c).freeCount = s.freeCount ∧
      (s.presentGroup c).pending = s.pending := by
  simp only [State.presentGroup]
  simp

@[simp] theorem examine_keeps (s : State) (c : Scan) :
    (s.examine c).custody = s.custody ∧
      (s.examine c).stage = s.stage ∧
      (s.examine c).checker = s.checker ∧
      (s.examine c).mem = s.mem ∧
      (s.examine c).scrub = s.scrub ∧
      (s.examine c).timer = s.timer ∧
      (s.examine c).edit = s.edit ∧
      (s.examine c).mgmt.ownAddress = s.mgmt.ownAddress ∧
      (s.examine c).mgmt.receiver = s.mgmt.receiver ∧
      (s.examine c).mgmt.frame = s.mgmt.frame ∧
      (s.examine c).mgmt.sendRest = s.mgmt.sendRest ∧
      (s.examine c).mgmt.notices = s.mgmt.notices ∧
      (s.examine c).mgmt.enable = s.mgmt.enable ∧
      (s.examine c).mgmt.memLimit = s.mgmt.memLimit ∧
      (s.examine c).mgmt.idleCount = s.mgmt.idleCount ∧
      (s.examine c).resetLow = s.resetLow ∧
      (s.examine c).sent = s.sent ∧
      (s.examine c).freeCount = s.freeCount ∧
      (s.examine c).pending = s.pending := by
  unfold State.examine
  (repeat' split) <;> simp

@[simp] theorem scanStep_keeps (s : State)  :
    (s.scanStep).custody = s.custody ∧
      (s.scanStep).stage = s.stage ∧
      (s.scanStep).checker = s.checker ∧
      (s.scanStep).mem = s.mem ∧
      (s.scanStep).scrub = s.scrub ∧
      (s.scanStep).timer = s.timer ∧
      (s.scanStep).edit = s.edit ∧
      (s.scanStep).mgmt.ownAddress = s.mgmt.ownAddress ∧
      (s.scanStep).mgmt.receiver = s.mgmt.receiver ∧
      (s.scanStep).mgmt.frame = s.mgmt.frame ∧
      (s.scanStep).mgmt.sendRest = s.mgmt.sendRest ∧
      (s.scanStep).mgmt.notices = s.mgmt.notices ∧
      (s.scanStep).mgmt.enable = s.mgmt.enable ∧
      (s.scanStep).mgmt.memLimit = s.mgmt.memLimit ∧
      (s.scanStep).mgmt.idleCount = s.mgmt.idleCount ∧
      (s.scanStep).resetLow = s.resetLow ∧
      (s.scanStep).sent = s.sent ∧
      (s.scanStep).freeCount = s.freeCount ∧
      (s.scanStep).pending = s.pending := by
  unfold State.scanStep
  (repeat' split) <;> simp

@[simp] theorem custodyMark_keeps (s : State)  :
    (s.custodyMark).custody.pools = s.custody.pools ∧
      (s.custodyMark).custody.queues = s.custody.queues ∧
      (s.custodyMark).stage = s.stage ∧
      (s.custodyMark).checker = s.checker ∧
      (s.custodyMark).mem = s.mem ∧
      (s.custodyMark).scrub = s.scrub ∧
      (s.custodyMark).timer = s.timer ∧
      (s.custodyMark).edit = s.edit ∧
      (s.custodyMark).mgmt.ownAddress = s.mgmt.ownAddress ∧
      (s.custodyMark).mgmt.receiver = s.mgmt.receiver ∧
      (s.custodyMark).mgmt.frame = s.mgmt.frame ∧
      (s.custodyMark).mgmt.sendRest = s.mgmt.sendRest ∧
      (s.custodyMark).mgmt.scan = s.mgmt.scan ∧
      (s.custodyMark).mgmt.answer = s.mgmt.answer ∧
      (s.custodyMark).mgmt.enable = s.mgmt.enable ∧
      (s.custodyMark).mgmt.memLimit = s.mgmt.memLimit ∧
      (s.custodyMark).mgmt.idleCount = s.mgmt.idleCount ∧
      (s.custodyMark).resetLow = s.resetLow ∧
      (s.custodyMark).sent = s.sent ∧
      (s.custodyMark).freeCount = s.freeCount ∧
      (s.custodyMark).pending = s.pending := by
  unfold State.custodyMark
  (repeat' split) <;> simp

@[simp] theorem editMark_keeps (s : State) (c : BitVec 32) :
    (s.editMark c).custody.queues = s.custody.queues ∧
      (s.editMark c).stage = s.stage ∧
      (s.editMark c).checker = s.checker ∧
      (s.editMark c).mem = s.mem ∧
      (s.editMark c).scrub.engine = s.scrub.engine ∧
      (s.editMark c).timer = s.timer ∧
      (s.editMark c).mgmt.ownAddress = s.mgmt.ownAddress ∧
      (s.editMark c).mgmt.receiver = s.mgmt.receiver ∧
      (s.editMark c).mgmt.frame = s.mgmt.frame ∧
      (s.editMark c).mgmt.sendRest = s.mgmt.sendRest ∧
      (s.editMark c).mgmt.scan = s.mgmt.scan ∧
      (s.editMark c).mgmt.answer = s.mgmt.answer ∧
      (s.editMark c).mgmt.enable = s.mgmt.enable ∧
      (s.editMark c).mgmt.memLimit = s.mgmt.memLimit ∧
      (s.editMark c).mgmt.idleCount = s.mgmt.idleCount ∧
      (s.editMark c).resetLow = s.resetLow ∧
      (s.editMark c).sent = s.sent ∧
      (s.editMark c).freeCount = s.freeCount ∧
      (s.editMark c).pending = s.pending := by
  simp only [State.editMark]
  (repeat' split) <;> simp

@[simp] theorem makeMark_keeps (s : State) :
    s.makeMark.custody.queues = s.custody.queues ∧
      s.makeMark.stage.waiting = s.stage.waiting ∧
      s.makeMark.stage.pointer = s.stage.pointer ∧
      s.makeMark.mem.link = s.mem.link ∧
      s.makeMark.mem.settling = s.mem.settling ∧
      s.makeMark.mgmt.ownAddress = s.mgmt.ownAddress ∧
      s.makeMark.mgmt.receiver = s.mgmt.receiver ∧
      s.makeMark.mgmt.frame = s.mgmt.frame ∧
      s.makeMark.mgmt.sendRest = s.mgmt.sendRest ∧
      s.makeMark.mgmt.scan = s.mgmt.scan ∧
      s.makeMark.mgmt.answer = s.mgmt.answer ∧
      s.makeMark.mgmt.enable = s.mgmt.enable ∧
      s.makeMark.mgmt.memLimit = s.mgmt.memLimit ∧
      s.makeMark.mgmt.idleCount = s.mgmt.idleCount ∧
      s.makeMark.resetLow = s.resetLow ∧
      s.makeMark.sent.bus = s.sent.bus ∧
      s.makeMark.freeCount = s.freeCount ∧
      s.makeMark.pending = s.pending := by
  simp only [State.makeMark]
  simp

@[simp] theorem advanceCycle_keeps (s : State) :
    s.advanceCycle.custody.queues = s.custody.queues ∧
      s.advanceCycle.stage.waiting = s.stage.waiting ∧
      s.advanceCycle.stage.pointer = s.stage.pointer ∧
      s.advanceCycle.mem.link = s.mem.link ∧
      s.advanceCycle.mem.settling = s.mem.settling ∧
      s.advanceCycle.mgmt.ownAddress = s.mgmt.ownAddress ∧
      s.advanceCycle.mgmt.receiver = s.mgmt.receiver ∧
      s.advanceCycle.mgmt.frame = s.mgmt.frame ∧
      s.advanceCycle.mgmt.sendRest = s.mgmt.sendRest ∧
      s.advanceCycle.mgmt.scan = s.mgmt.scan ∧
      s.advanceCycle.mgmt.answer = s.mgmt.answer ∧
      s.advanceCycle.mgmt.enable = s.mgmt.enable ∧
      s.advanceCycle.mgmt.memLimit = s.mgmt.memLimit ∧
      s.advanceCycle.mgmt.idleCount = s.mgmt.idleCount ∧
      s.advanceCycle.resetLow = s.resetLow ∧
      s.advanceCycle.sent.bus = s.sent.bus ∧
      s.advanceCycle.freeCount = s.freeCount ∧
      s.advanceCycle.pending = s.pending := by
  simp only [State.advanceCycle]
  split
  · simp
  · split <;> simp

@[simp] theorem countIdle_keeps (s : State) (b : Bool) :
    (s.countIdle b).custody = s.custody ∧
      (s.countIdle b).stage = s.stage ∧
      (s.countIdle b).checker = s.checker ∧
      (s.countIdle b).mem = s.mem ∧
      (s.countIdle b).scrub = s.scrub ∧
      (s.countIdle b).timer = s.timer ∧
      (s.countIdle b).edit = s.edit ∧
      (s.countIdle b).mgmt.ownAddress = s.mgmt.ownAddress ∧
      (s.countIdle b).mgmt.receiver = s.mgmt.receiver ∧
      (s.countIdle b).mgmt.frame = s.mgmt.frame ∧
      (s.countIdle b).mgmt.sendRest = s.mgmt.sendRest ∧
      (s.countIdle b).mgmt.scan = s.mgmt.scan ∧
      (s.countIdle b).mgmt.answer = s.mgmt.answer ∧
      (s.countIdle b).mgmt.notices = s.mgmt.notices ∧
      (s.countIdle b).mgmt.enable = s.mgmt.enable ∧
      (s.countIdle b).mgmt.memLimit = s.mgmt.memLimit ∧
      (s.countIdle b).resetLow = s.resetLow ∧
      (s.countIdle b).sent = s.sent ∧
      (s.countIdle b).freeCount = s.freeCount ∧
      (s.countIdle b).pending = s.pending := by
  unfold State.countIdle
  (repeat' split) <;> simp

@[simp] theorem endPulse_keeps (s : State)  :
    (s.endPulse).custody = s.custody ∧
      (s.endPulse).stage = s.stage ∧
      (s.endPulse).checker = s.checker ∧
      (s.endPulse).mem = s.mem ∧
      (s.endPulse).scrub = s.scrub ∧
      (s.endPulse).edit = s.edit ∧
      (s.endPulse).mgmt = s.mgmt ∧
      (s.endPulse).resetLow = s.resetLow ∧
      (s.endPulse).sent = s.sent ∧
      (s.endPulse).freeCount = s.freeCount ∧
      (s.endPulse).pending = s.pending := by
  unfold State.endPulse
  simp

@[simp] theorem takeExpiries_keeps (s : State) (n : Nat) :
    (State.takeExpiries n s).custody.queues = s.custody.queues ∧
      (State.takeExpiries n s).stage.waiting = s.stage.waiting ∧
      (State.takeExpiries n s).stage.pointer = s.stage.pointer ∧
      (State.takeExpiries n s).mem.link = s.mem.link ∧
      (State.takeExpiries n s).mem.settling = s.mem.settling ∧
      (State.takeExpiries n s).timer = s.timer ∧
      (State.takeExpiries n s).edit = s.edit ∧
      (State.takeExpiries n s).mgmt.ownAddress = s.mgmt.ownAddress ∧
      (State.takeExpiries n s).mgmt.receiver = s.mgmt.receiver ∧
      (State.takeExpiries n s).mgmt.frame = s.mgmt.frame ∧
      (State.takeExpiries n s).mgmt.sendRest = s.mgmt.sendRest ∧
      (State.takeExpiries n s).mgmt.scan = s.mgmt.scan ∧
      (State.takeExpiries n s).mgmt.answer = s.mgmt.answer ∧
      (State.takeExpiries n s).mgmt.enable = s.mgmt.enable ∧
      (State.takeExpiries n s).mgmt.memLimit = s.mgmt.memLimit ∧
      (State.takeExpiries n s).mgmt.idleCount = s.mgmt.idleCount ∧
      (State.takeExpiries n s).resetLow = s.resetLow ∧
      (State.takeExpiries n s).sent.bus = s.sent.bus ∧
      (State.takeExpiries n s).pending = s.pending := by
  induction n generalizing s with
  | zero => simp [State.takeExpiries]
  | succ n ih =>
    simp only [State.takeExpiries]
    split
    · simp
    · simp
    · simp [ih]

@[simp] theorem settleOutstanding_keeps (s : State) :
    s.settleOutstanding.custody.queues = s.custody.queues ∧
      s.settleOutstanding.stage.waiting = s.stage.waiting ∧
      s.settleOutstanding.stage.pointer = s.stage.pointer ∧
      s.settleOutstanding.mem.link = s.mem.link ∧
      s.settleOutstanding.edit = s.edit ∧
      s.settleOutstanding.mgmt.ownAddress = s.mgmt.ownAddress ∧
      s.settleOutstanding.mgmt.scan = s.mgmt.scan ∧
      s.settleOutstanding.mgmt.enable = s.mgmt.enable ∧
      s.settleOutstanding.mgmt.memLimit = s.mgmt.memLimit ∧
      s.settleOutstanding.resetLow = s.resetLow ∧
      s.settleOutstanding.sent.bus = s.sent.bus ∧
      s.settleOutstanding.pending = s.pending := by
  simp only [State.settleOutstanding]
  simp

@[simp] theorem scanAndCycle_keeps (s : State) :
    s.scanAndCycle.custody.queues = s.custody.queues ∧
      s.scanAndCycle.stage.waiting = s.stage.waiting ∧
      s.scanAndCycle.stage.pointer = s.stage.pointer ∧
      s.scanAndCycle.mem.link = s.mem.link ∧
      s.scanAndCycle.mem.settling = s.mem.settling ∧
      s.scanAndCycle.mgmt.ownAddress = s.mgmt.ownAddress ∧
      s.scanAndCycle.mgmt.receiver = s.mgmt.receiver ∧
      s.scanAndCycle.mgmt.frame = s.mgmt.frame ∧
      s.scanAndCycle.mgmt.sendRest = s.mgmt.sendRest ∧
      s.scanAndCycle.mgmt.enable = s.mgmt.enable ∧
      s.scanAndCycle.mgmt.memLimit = s.mgmt.memLimit ∧
      s.scanAndCycle.mgmt.idleCount = s.mgmt.idleCount ∧
      s.scanAndCycle.resetLow = s.resetLow ∧
      s.scanAndCycle.sent.bus = s.sent.bus ∧
      s.scanAndCycle.pending = s.pending := by
  simp only [State.scanAndCycle]
  split
  · split <;> simp
  · simp

@[simp] theorem idleAgainstScan_keeps (s : State)  :
    (s.idleAgainstScan).custody = s.custody ∧
      (s.idleAgainstScan).stage = s.stage ∧
      (s.idleAgainstScan).checker = s.checker ∧
      (s.idleAgainstScan).mem = s.mem ∧
      (s.idleAgainstScan).scrub = s.scrub ∧
      (s.idleAgainstScan).timer = s.timer ∧
      (s.idleAgainstScan).edit = s.edit ∧
      (s.idleAgainstScan).mgmt.ownAddress = s.mgmt.ownAddress ∧
      (s.idleAgainstScan).mgmt.scan = s.mgmt.scan ∧
      (s.idleAgainstScan).mgmt.notices = s.mgmt.notices ∧
      (s.idleAgainstScan).mgmt.enable = s.mgmt.enable ∧
      (s.idleAgainstScan).mgmt.memLimit = s.mgmt.memLimit ∧
      (s.idleAgainstScan).resetLow = s.resetLow ∧
      (s.idleAgainstScan).sent = s.sent ∧
      (s.idleAgainstScan).pending = s.pending := by
  unfold State.idleAgainstScan
  (repeat' split) <;> simp

@[simp] theorem memAtTick_keeps (m : MemPort) :
    m.atTick.link = m.link ∧ m.atTick.preference = m.preference :=
  ⟨rfl, rfl⟩

@[simp] theorem tick_keeps (s : State) (b : Bool) :
    (s.tick b).custody.queues = s.custody.queues ∧
      (s.tick b).stage.waiting = s.stage.waiting ∧
      (s.tick b).stage.pointer = s.stage.pointer ∧
      (s.tick b).mem.link = s.mem.link ∧
      (s.tick b).mgmt.ownAddress = s.mgmt.ownAddress ∧
      (s.tick b).mgmt.enable = s.mgmt.enable ∧
      (s.tick b).mgmt.memLimit = s.mgmt.memLimit ∧
      (s.tick b).resetLow = s.resetLow ∧
      (s.tick b).sent.bus = s.sent.bus ∧
      (s.tick b).pending = s.pending := by
  simp only [State.tick]
  simp

/-! ### What an earlier tick left outstanding (log 2) -/

theorem dueTags_eq_nil (s : State) : s.dueTags = [] ↔ ∀ i u, (s.tag i).use = some u → u.timeLeft ≠ 0 := by
  simp only [State.dueTags, List.filter_eq_nil_iff, List.mem_finRange, true_implies, State.expiryDue]
  refine forall_congr' fun i => ?_
  cases (s.tag i).use <;> simp

theorem filter_eq_one {n : Nat} (p : Fin n → Bool) (i : Fin n) (h : ∀ j, p j = decide (j = i)) :
    (List.finRange n).filter p = [i] := by
  have e : ∀ j, j ∈ (List.finRange n).filter p ↔ j = i := by simp [h]
  have d : ((List.finRange n).filter p).Nodup := (List.nodup_finRange n).filter _
  match c : (List.finRange n).filter p with
  | [] => simpa [c] using e i
  | [x] => simpa [c, eq_comm] using e i
  | x :: y :: l =>
    rw [c] at e d
    have := (e x).1 (by simp)
    have := (e y).1 (by simp)
    simp_all

/-- One busy tag alone whose time has run out. -/
theorem dueTags_eq_one (s : State) (i : TagIndex) (o : Owner) (e : (s.tag i).use = some ⟨o, 0⟩)
    (n : ∀ j u, j ≠ i → (s.tag j).use = some u → u.timeLeft ≠ 0) : s.dueTags = [i] := by
  refine filter_eq_one _ i fun j => ?_
  unfold State.expiryDue
  by_cases c : j = i
  · simp [c, e]
  · cases q : (s.tag j).use with
    | none => simp [c]
    | some u => simpa [c] using n j u c q

theorem endPulse_of_low (s : State) (h : s.timer.markPin = false) : s.endPulse = s := by
  show { s with timer.markPin := false } = s
  rw [← h]

theorem endSettling_of_none (s : State) (h : s.mem.settling ≠ some 0) : s.endSettling = s := by
  unfold State.endSettling
  split
  · contradiction
  · rfl

theorem endSettling_settling (s : State) : s.endSettling.mem.settling ≠ some 0 := by
  unfold State.endSettling
  split
  · simp
  · assumption

theorem takeExpiries_of_nil (n : Nat) (s : State) (h : s.dueTags = []) : s.takeExpiries n = s := by
  cases n with
  | zero => rfl
  | succ n => simp [State.takeExpiries, h]

theorem takeExpiries_of_one (n : Nat) (s : State) (i : TagIndex) (h : s.dueTags = [i]) :
    s.takeExpiries (n + 1) = s.expireTag i := by simp [State.takeExpiries, h]

/-- An expiry leaves no tag due but those due before it, the response limit being at least 1. -/
theorem expireTag_dueTags (s : State) (i : TagIndex) (m : 1 ≤ s.mgmt.memLimit)
    (only : ∀ j u, j ≠ i → (s.tag j).use = some u → u.timeLeft ≠ 0) : (s.expireTag i).dueTags = [] := by
  rw [dueTags_eq_nil]
  intro j u e
  unfold State.expireTag at e
  split at e
  · rename_i n
    exact only j u (fun c => by rw [c, n] at e; cases e) e
  · simp only at e
    rcases kick_tag _ j u e with e | e
    · split at e <;> simp only [State.tag, raise_keeps, report_keeps, endInFlight_keeps, burstEnd_keeps, State.setTag, nth_put] at e <;>
        split at e <;> first | cases e | exact only j u ‹_› e
    · split at e <;> simp only [raise_keeps, report_keeps, endInFlight_keeps, burstEnd_keeps, setTag_keeps] at e <;> omega

/-- What is outstanding is settled in order, so settling its first part before changes nothing. -/
theorem settleOutstanding_endPulse (s : State) : s.endPulse.settleOutstanding = s.settleOutstanding := rfl

theorem settleOutstanding_endSettling (s : State) (p : s.timer.markPin = false) :
    s.endSettling.settleOutstanding = s.settleOutstanding := by
  have q : s.endSettling.timer.markPin = false := by simpa using p
  simp only [State.settleOutstanding, endPulse_of_low _ p, endPulse_of_low _ q, endSettling_of_none _ (endSettling_settling s)]

theorem settleOutstanding_expireTag (s : State) (i : TagIndex) (p : s.timer.markPin = false) (g : s.mem.settling ≠ some 0)
    (m : 1 ≤ s.mgmt.memLimit) (due : s.dueTags = [i]) : (s.expireTag i).settleOutstanding = s.settleOutstanding := by
  have only : ∀ j u, j ≠ i → (s.tag j).use = some u → u.timeLeft ≠ 0 := by
    intro j u c e z
    have : j ∈ s.dueTags := by simp [State.dueTags, State.expiryDue, e, z]
    rw [due, List.mem_singleton] at this
    exact c this
  have p' : (s.expireTag i).timer.markPin = false := by simpa using p
  have g' : (s.expireTag i).mem.settling ≠ some 0 := by simpa using g
  simp only [State.settleOutstanding, endPulse_of_low _ p, endPulse_of_low _ p', endSettling_of_none _ g, endSettling_of_none _ g',
    takeExpiries_of_one _ s i due, takeExpiries_of_nil _ _ (expireTag_dueTags s i m only)]

theorem settleOutstanding_of_idle (s : State) (p : s.timer.markPin = false) (g : s.mem.settling ≠ some 0)
    (d : s.dueTags = []) : s.settleOutstanding = s.settleIdle := by
  simp only [State.settleOutstanding, endPulse_of_low _ p, endSettling_of_none _ g, takeExpiries_of_nil _ _ d]

theorem settleOutstanding_settleIdle (s : State) (p : s.timer.markPin = false) (g : s.mem.settling ≠ some 0)
    (d : s.dueTags = []) : s.settleIdle.settleOutstanding = s.settleOutstanding := by
  have d' : s.settleIdle.dueTags = [] := by
    rw [dueTags_eq_nil] at d ⊢
    simpa [State.tag] using d
  rw [settleOutstanding_of_idle _ p g d, settleOutstanding_of_idle _ (by simpa using p) (by simpa using g) d',
    settleIdle_settleIdle]

/-- A tick depends on the state that what was outstanding leaves. -/
theorem tick_congr (s u : State) (low : Bool) (h : u.settleOutstanding = s.settleOutstanding) : u.tick low = s.tick low := by
  simp only [State.tick, h]

end Sys2Proof.Machine
end

