-- ==== Sys2Proof/WellFormed.lean ====
section
/-! DEFINITION. Which commands a sender that keeps to the channel formats can send. `exec` is total and does not ask. -/

namespace Sys2Proof

/-- R84: a WRITE carries exactly `size` data bytes, a READ none. -/
def Txn.wellFormed (t : Txn) : Bool :=
  match t.kind with
  | .write => decide (t.data.length = t.size)
  | .read => t.data.isEmpty

/-- The channel formats: R84 for a transaction; R122 for a response (data with good status alone, at most 256 bytes).
The other commands have operands of fixed width, every value of which can be sent. -/
def Instr.wellFormed : Instr → Bool
  | .transactionIssue t => t.wellFormed
  | .memoryResponse _ good data => decide (data.length ≤ 256) && (good || data.isEmpty)
  | .inputArbiterGrant => true
  | .heldAccessRecheck => true
  | .drainCompletion _ => true
  | .scrubCompletion => true
  | .scrubFailure => true
  | .scrubTakeHead => true
  | .tick _ => true
  | .tagExpiry _ => true
  | .mark _ => true
  | .markPulseEnd => true
  | .settlingIntervalEnd => true
  | .linkDown => true
  | .linkUp => true
  | .resetAssert => true
  | .resetRelease _ => true
  | .i2cAddress _ _ _ => true
  | .frameTaken _ => true
  | .answerRead _ _ => true
  | .i2cIdleTimeout => true
  | .openGroup => true
  | .stageDefine _ _ _ _ => true
  | .stageMove _ _ => true
  | .stageResize _ _ => true
  | .stageRetire _ => true
  | .stagePool _ _ _ _ _ _ => true
  | .stageUnpool _ => true
  | .closeGroupNow => true
  | .closeGroupMark => true
  | .abandonGroup => true
  | .readGroup => true
  | .forceRelease _ => true
  | .forceReturn _ _ => true
  | .admitBuffer _ => true
  | .rescrub _ => true
  | .setAgent _ _ => true
  | .agentReset _ => true
  | .clearFault _ => true
  | .readFault _ => true
  | .readBuffer _ => true
  | .readPool _ => true
  | .readQueue _ => true
  | .readCycle => true
  | .find _ _ _ => true
  | .setTimebase _ => true
  | .setCycle _ _ => true
  | .pacingOn => true
  | .pacingOff => true
  | .setMemlimit _ => true
  | .readNotices => true
  | .ackNotices _ => true
  | .setNoticeEnable _ => true
  | .identify => true
  | .partReset _ => true
  | .i2cDataByte _ => true

end Sys2Proof
end

