-- ==== Sys2Proof/Tests/Slice0.lean ====
section
/-! SUPPORT. The model's own tests: ill-formed commands, worked examples of the spec, and for every statement with hypotheses
a state and operands that meet them. -/

namespace Sys2Proof.Tests

open Sys2Proof.Machine

/-! ### Helpers -/

/-- A transaction of agent 0 under stage tag 0. -/
def txn (kind : AccessKind) (address : BitVec 32) (sizeLess1 : BitVec 8) (data : List Byte) : Txn :=
  { agent := 0, tag := 0, kind := kind, address := address, sizeLess1 := sizeLess1, data := data }

/-- A READ of one byte at the start of handle 1. -/
def readOne : Txn := txn .read 0x00800000 0 []

/-- A record HELD by agent 0, of one unit. -/
def heldRec : BufRec := { BufRec.reset with state := .held, custodian := some 0, length := 1 }

/-- A sealed record HELD by agent 0, lent to agent 1. -/
def lentRec (deadline : Option Nat) : BufRec := { heldRec with sealed := true, lends := [⟨1, deadline⟩] }

/-- A record in one state, for what depends on the state alone. -/
def recIn (st : BufState) : BufRec := { BufRec.reset with state := st }

/-- Right after reset, with the record of handle 1 replaced. -/
def withRec (r : BufRec) : State := State.reset.setBuf 0 r

/-- Right after reset, but with the link UP and the settling interval run. -/
def linked : State := { State.reset with mem.link := .up, mem.settling := none }

/-- With every memory tag busy. -/
def allBusy (s : State) : State := { s with mem.tags := Vector.replicate 64 ⟨0, some ⟨.burst 0 0, 5⟩⟩ }

/-- With agent 0 ONLINE and a transaction in its waiting place. -/
def offered (s : State) (t : Txn) : State := (s.setAgentRec 0 ⟨true, none⟩).setWaiting 0 (some t)

/-- With agent 0's transaction of handle 1 in the hold place. -/
def holding (s : State) : State := { s.setEntry 0 0 (some .tagWait) with checker.hold := some readOne }

/-- With one pool that every agent may claim from and borrow in. -/
def pooled (s : State) (r : PoolRec) : State :=
  s.setPool 0 { r with defined := true, claimSet := 0xFFFF, borrowSet := 0xFFFF }

/-- A context of the scrub of handle 1. -/
def ctx (issue : Nat) (inFlight : List (Nat × TagIndex)) : ScrubCtx :=
  { handle := 0, base := 0, count := 16, issue := issue, inFlight := inFlight }

/-- The next state of a command. -/
def after (c : Instr) (s : State) : State :=
  match exec c s with
  | .next t => t
  | .fault _ => s
  | .refused _ => s

/-- The commands of a list, one after the other. -/
def afterAll (cs : List Instr) (s : State) : State := cs.foldl (fun u c => after c u) s

/-! ### Ill-formed commands -/

theorem test_illformed_write_short : (Instr.transactionIssue (txn .write 0x00800000 1 [0])).wellFormed = false := by decide
theorem test_illformed_read_data : (Instr.transactionIssue (txn .read 0x00800000 0 [0])).wellFormed = false := by decide
theorem test_illformed_error_data : (Instr.memoryResponse 0 false [0]).wellFormed = false := by decide
theorem test_illformed_response_long (data : List Byte) (h : data.length = 257) :
    (Instr.memoryResponse 0 true data).wellFormed = false := by
  simp [Instr.wellFormed, h]

theorem test_wellformed_txn : (Instr.transactionIssue readOne).wellFormed = true := by decide

/-! ### Worked examples -/

/-- 11.1: the word of PASS(70, gen 2, target 5). -/
theorem test_pass_word : decodeRequest [3, 2, 70, 0, 5, 0, 0, 0] = some (.pass 69 2 5) := by decide

/-- 11.2: the frame of IDENTIFY, and its answer. -/
theorem test_identify_frame :
    hostFrame .identify = some [0x01, 0xFF] ∧
      (after .identify State.reset).mgmt.answer.frame = [0x01, 0x03, 0x60, 0x82, 0x01, 0x19] := by decide

/-- R166 to R169: IDENTIFY over the bus, and the read of its answer. -/
theorem test_identify_over_bus :
    (afterAll [.i2cAddress 0x38 false 0, .i2cDataByte 0x01, .i2cDataByte 0xFF, .frameTaken 0, .i2cAddress 0x38 true 0,
        .answerRead [true, true, true, true, true, true, false] true] State.reset).sent.bus =
      [.ack true, .ack true, .ack true, .ack true, .byte 0x01, .byte 0x03, .byte 0x60, .byte 0x82, .byte 0x01, .byte 0x19,
        .byte 0xFF] := by decide

/-- R101: the stage address of handle 1. -/
theorem test_stage_address : readOne.handle = some 0 ∧ readOne.offset = 0 ∧ readOne.size = 1 := by decide

/-- R31, R33: a CLAIM that empties the free list of a pool with low mark 1 trips the flag and sets POOL_LOW. -/
theorem test_claim_low :
    let s := pooled (withRec (recIn .free)) { PoolRec.reset with freeList := [0], lowMark := 1 }
    ((s.takeRequest 0 (.claim 0)).1.buf 0).state = .held ∧ (s.takeRequest 0 (.claim 0)).1.notice (.poolLow 0) = true := by
  decide

/-- R111, R122: an access goes out under tag 0, and its response reaches the agent. -/
theorem test_access_round_trip :
    let s := offered { withRec heldRec with mem.link := .up, mem.settling := none } readOne
    (after .inputArbiterGrant s).sent.requests.length = 1 ∧
      ((after .inputArbiterGrant s).buf 0).inFlight = 1 ∧
      (after (.memoryResponse 0x00 true [7]) (after .inputArbiterGrant s)).sent.responses =
        [⟨0, 0, .done, none, [7]⟩] := by decide

/-- R105: an access of an agent that is neither custodian nor borrower is refused, and fills the fault slot. -/
theorem test_refusal :
    let s := offered (withRec { heldRec with custodian := some 3 }) readOne
    (after .inputArbiterGrant s).sent.responses = [⟨0, 0, .refused, some .notEntitled, []⟩] ∧
      (after .inputArbiterGrant s).notice (.fault 0) = true := by decide

/-- R76: a deadline of 1 expires at a mark. -/
theorem test_lend_expires : (lentRec (some 1)).atMark = { lentRec none with lends := [], expired := 0x0002 } := by decide

set_option maxRecDepth 20000 in
/-- R142, R155: the mark presents an ARMED group whose target it is; here the group is rejected. -/
theorem test_mark_presents :
    let s : State :=
      { State.reset with
        timer.pacing := true, timer.position := 33332
        edit := { group := .armed, staged := [.move 0 0], target := some 1, outcome := none } }
    (after (.mark false) s).edit.outcome =
        some { rejection := some ⟨0, .notFree, none⟩, cycleCount := some 1, entries := 1 } ∧
      (after (.mark false) s).timer.position = 0 := by decide

/-- R158, R163: a MOVE of a VOID buffer rejects its group at index 0. -/
theorem test_group_rejected : State.reset.judge [.move 0 0] = .error ⟨0, .notFree, none⟩ := by
  simp [State.judge, walkEntries, applyEntry, State.image, State.reset, Custody.reset, BufRec.reset]

/-! ### The states that statements speak of -/

theorem test_meets_ready : State.reset.ready := ⟨rfl, rfl, .inl rfl⟩

theorem test_meets_reset_low : { State.reset with resetLow := true }.resetLow = true := rfl

theorem test_meets_hostFrame : hostFrame .identify ≠ none ∧ hostFrame (.setNoticeEnable 0) ≠ none := by decide

theorem test_meets_empty_queue : State.reset.pending = [] := rfl

/-! ### The laws that steps keep: states with something in them, and a command at the front -/

/-- READ_CYCLE waits; the record of handle 1 is HELD by agent 0; the free list and the queues are empty. -/
def held1 : State := { (withRec heldRec).setPool 0 { PoolRec.reset with members := 1 } with pending := [.readCycle] }

theorem filter_none {α : Type} (l : List α) : l.filter (fun _ => false) = [] := List.filter_eq_nil_iff.2 (by simp)

theorem buf_withRec (r : BufRec) (h : Handle) : (withRec r).buf h = if h = 0 then r else BufRec.reset := by
  rw [withRec, buf_setBuf]
  split
  · rfl
  · simp [State.buf, State.reset, Custody.reset]

theorem held1_buf (h : Handle) : held1.buf h = if h = 0 then heldRec else BufRec.reset := buf_withRec heldRec h

theorem recordsFit_withRec (r : BufRec) (f : r.Fits) : (withRec r).recordsFit := by
  intro h
  rw [buf_withRec]
  split
  · exact f
  · constructor <;> simp [BufRec.reset]

theorem held1_pool (p : PoolId) : held1.pool p = if p = 0 then { PoolRec.reset with members := 1 } else PoolRec.reset := by
  show (State.setPool _ _ _).pool p = _
  simp only [pool_setPool]
  split
  · rfl
  · simp [withRec, State.pool, State.reset, Custody.reset, State.setBuf]

theorem test_meets_step : ∃ t, step held1 = .next t := ⟨_, rfl⟩

theorem test_meets_recordsFit : held1.recordsFit :=
  recordsFit_withRec heldRec (by constructor <;> simp [heldRec, BufRec.reset])

theorem test_meets_rolesPresent : held1.rolesPresent := by
  intro h
  rw [held1_buf]
  split <;> constructor <;> simp [heldRec, BufRec.reset]

theorem test_meets_custodyLawful : held1.custodyLawful := by
  refine ⟨test_meets_recordsFit, test_meets_rolesPresent, ⟨?_, ?_, ?_, ?_, ?_, ?_⟩⟩
  · intro p h
    rw [held1_buf, held1_pool]
    split <;> split <;> simp [heldRec, BufRec.reset, PoolRec.reset]
  · intro p
    rw [held1_pool]
    split <;> simp [PoolRec.reset]
  · intro a h
    have q : held1.queue a = [] := by
      simp [held1, withRec, State.queue, State.reset, Custody.reset, State.setBuf, State.setPool]
    rw [held1_buf, q]
    split <;> simp [heldRec, BufRec.reset]
  · intro a
    simp [held1, withRec, State.queue, State.reset, Custody.reset, State.setBuf, State.setPool]
  · intro h
    rw [held1_buf]
    split <;>
      simp [held1, withRec, heldRec, BufRec.reset, State.reset, ScrubUnit.reset, State.setBuf, State.setPool, Engine.handle]
  · simp [held1, withRec, State.reset, ScrubUnit.reset, State.setBuf, State.setPool, Engine.handle]

theorem test_meets_membersCounted : held1.membersCounted := by
  intro p
  have e : (fun h => decide ((held1.buf h).state ≠ .void) && decide ((held1.buf h).pool = p)) =
      fun h => decide (h = 0) && decide (p = 0) := by
    funext h
    rw [held1_buf]
    split <;> rename_i c <;> simp [heldRec, BufRec.reset, c, eq_comm]
  rw [e, held1_pool]
  by_cases c : p = 0
  · subst c
    simp only [decide_true, Bool.and_true, if_true]
    have : (List.finRange 511).filter (fun h => decide (h = 0)) = [0] := by
      rw [show (List.finRange 511) = 0 :: (List.finRange 510).map Fin.succ from List.finRange_succ]
      simp [Fin.succ_ne_zero]
    rw [this]
    rfl
  · simp only [c, decide_false, Bool.and_false, filter_none]
    rfl

theorem test_meets_inFlightCounted : held1.inFlightCounted := by
  intro h
  have e : (fun i => (held1.tag i).heldFor h) = fun _ => false := by
    funext i
    simp [held1, withRec, State.tag, State.reset, MemPort.reset, State.setBuf, State.setPool, TagRec.heldFor]
  rw [e, held1_buf, filter_none]
  split <;> rfl

theorem held1_tag (i : TagIndex) : held1.tag i = ⟨0, none⟩ := by
  show State.reset.tag i = _
  simp [State.tag, State.reset, MemPort.reset]

theorem test_meets_tagsAccounted : held1.scrubLaws ∧ held1.burstsHoldTags := by
  refine ⟨trivial, fun i h n => ⟨fun ⟨m, e⟩ => ?_, fun ⟨e, _⟩ => ?_⟩⟩
  · rw [held1_tag] at e
    cases e
  · cases e

theorem test_meets_entriesAgree : held1.EntriesAgree := by
  have none (a : Agent) (g : StageTag) : held1.entry a g = none := by
    show State.reset.entry a g = _
    simp [State.entry, State.reset, StagePort.reset]
  refine ⟨fun a g i k e => ?_, fun a g => ⟨fun e => ?_, fun ⟨t, e, _⟩ => ?_⟩, fun t e => ?_⟩
  · rw [none] at e
    cases e
  · rw [none] at e
    cases e
  · cases e
  · cases e

theorem test_meets_lowFlags : held1.lowFlagsFollow := by
  intro p
  rw [held1_pool]
  split <;> simp [PoolRec.reset]

theorem test_meets_faultBits : (State.reset.fillSlot 0
    { kind := .shape, handle := 0, offset := 0, access := .read, sizeLess1 := 0, bufState := none
      cycleCount := 0 }).faultBitsFollow := by
  show ∀ a, _
  decide

theorem test_meets_editLaws :
    { State.reset with timer.pacing := true, edit := ⟨.armed, [.retire 0], some 1, none⟩ }.EditLaws := by
  constructor <;> decide

theorem test_meets_timerInRange : State.reset.timer.InRange := by
  constructor
  · decide
  · exact ⟨by decide, by decide, by decide⟩
  · intro c h
    cases h
  · decide

theorem test_meets_downIsFree : State.reset.downIsFree ∧ linked.downIsFree := by
  constructor
  · intro _
    decide
  · intro h
    cases h

theorem test_meets_scrubLaws : { linked with scrub.engine := .issuing (ctx 1 [(0, 0)]) }.scrubLaws := by
  refine ⟨⟨by decide, by decide, ?_, by decide⟩, rfl⟩
  intro b h
  simp only [ctx, List.mem_singleton] at h
  subst h
  decide

/-- One burst in flight, with the tag that it holds. -/
theorem test_meets_burstsHoldTags :
    { linked.setTag 5 ⟨1, some ⟨.burst 0 0, 9⟩⟩ with scrub.engine := .issuing (ctx 1 [(0, 5)]) }.burstsHoldTags := by
  intro i h n
  have e : ({ linked.setTag 5 ⟨1, some ⟨.burst 0 0, 9⟩⟩ with scrub.engine := .issuing (ctx 1 [(0, 5)]) } : State).tag i =
      if i = 5 then ⟨1, some ⟨.burst 0 0, 9⟩⟩ else ⟨0, none⟩ := by
    show (linked.setTag 5 _).tag i = _
    rw [tag_setTag]
    split
    · rfl
    · simp [State.tag, linked, State.reset, MemPort.reset]
  rw [e]
  by_cases c : i = 5 <;> simp [c, Engine.handle, Engine.bursts, ctx, eq_comm]

theorem test_meets_quiet : linked.quiet ∧ State.reset.quiet :=
  ⟨quiet_of_scrubIdle _ ⟨rfl, rfl⟩ rfl, quiet_of_scrubIdle _ ⟨rfl, rfl⟩ rfl⟩

theorem test_meets_queuesBounded : (State.reset.setQueue 0 [0, 1, 2, 3, 4, 5, 6, 7]).queuesBounded := by
  show ∀ a, _
  decide

theorem test_meets_portInRange : State.reset.mgmt.InRange := ⟨by decide, by decide, by decide, by decide, rfl⟩

/-! ### Stage port -/

theorem test_meets_places : State.reset.waiting 0 = none ∧ (offered State.reset readOne).waiting 0 ≠ none := by decide

/-- Nothing for the arbiter to grant: a transaction in the hold place beside one that waits, and no place occupied. -/
theorem test_meets_no_grant :
    (offered (holding State.reset) readOne).checker.hold ≠ none ∧ (offered (holding State.reset) readOne).waiting 0 ≠ none ∧
      ∀ a, State.reset.waiting a = none := by decide

/-- A state with an idle engine, nothing held and the pointer at 15: agent 0's transaction is granted next, and the state is
quiet. -/
theorem turn_of_offered (s : State) (t : Txn) (r : s.resetLow = false) (h : s.checker.hold = none)
    (p : s.stage.pointer = 15) (e : s.scrubIdle) (a : t.agent = 0) :
    (offered s t).quiet ∧ (offered s t).nextTxn 0 t := by
  refine ⟨quiet_of_scrubIdle _ e h, r, h, ?_, a, 0, ?_, ?_⟩
  · simp [offered, State.waiting, State.setWaiting]
  · show (0 : Agent) = s.stage.pointer + 1 + 0
    rw [p]
    decide
  · intro k c
    exact absurd c (by omega)

theorem test_meets_offline :
    let s := State.reset.setWaiting 0 (some readOne)
    s.quiet ∧ s.nextTxn 0 readOne ∧ s.online 0 = false := by
  refine ⟨quiet_of_scrubIdle _ ⟨rfl, rfl⟩ rfl, ⟨rfl, rfl, by decide, rfl, 0, by decide, ?_⟩, by decide⟩
  intro k c
  exact absurd c (by omega)

theorem test_meets_tagReuse :
    let s := offered (State.reset.setEntry 0 0 (some .tagWait)) readOne
    (s.quiet ∧ s.nextTxn 0 readOne) ∧ s.online 0 = true ∧ s.entry 0 readOne.tag ≠ none :=
  ⟨turn_of_offered _ _ rfl rfl rfl ⟨rfl, rfl⟩ rfl, by decide, by decide⟩

theorem test_meets_shape :
    let t := txn .read 0x008000FF 1 []
    let s := offered State.reset t
    (s.quiet ∧ s.nextTxn 0 t) ∧ s.online 0 = true ∧ s.entry 0 t.tag = none ∧ t.shapeOk = false ∧
      (txn .read 0x008000FF 0 []).shapeOk = true :=
  ⟨turn_of_offered _ _ rfl rfl rfl ⟨rfl, rfl⟩ rfl, by decide, by decide, by decide, by decide⟩

/-- The edges of the shape check: the end of a block, and handle 0 with another size or another offset. -/
theorem test_meets_shape_edges :
    (let t := txn .read 0x008000FF 1 []; t.offset % 256 + t.size = 257 ∧ t.handle = some 0) ∧
      (let t := txn .read 0x00800000 255 []; t.offset % 256 + t.size = 256 ∧ t.handle = some 0) ∧
      (let t := txn .read 0 6 []; t.handle = none ∧ t.size ≠ 8 ∧ t.offset = 0) ∧
      (let t := txn .read 8 7 []; t.handle = none ∧ t.size = 8 ∧ t.offset ≠ 0) ∧
      (let t := txn .read 0 7 []; t.handle = none ∧ t.size = 8 ∧ t.offset = 0 ∧ t.offset % 256 + t.size ≤ 256) := by decide

/-- R101: the largest stage address: handle 511 and the last offset. -/
theorem test_stage_address_last :
    (txn .read 0xFFFFFFFF 0 []).handle = some 510 ∧ (txn .read 0xFFFFFFFF 0 []).offset = 8388607 := by decide

set_option maxRecDepth 8000 in
theorem test_meets_bufferFault :
    let t := txn .read 0xFF800000 0 []
    let s := offered State.reset t
    (s.quiet ∧ s.nextTxn 0 t) ∧ s.online 0 = true ∧ s.entry 0 t.tag = none ∧ t.shapeOk = true ∧ t.handle = some 510 ∧
      bufferCheck (s.buf 510) t = some .undefinedHandle :=
  ⟨turn_of_offered _ _ rfl rfl rfl ⟨rfl, rfl⟩ rfl, by decide, by decide, by decide, by decide, by decide⟩

theorem test_meets_entitlement_states :
    (recIn .void).state = .void ∧ (recIn .free).state = .free ∧ (recIn .inTransit).state = .inTransit ∧
      (recIn .draining).state = .draining ∧ (recIn .scrubbing).state = .scrubbing ∧ (recIn .withheld).state = .withheld := by
  decide

theorem test_meets_entitlement_held :
    let w := txn .write 0x00800000 0 [0]
    (heldRec.state = .held ∧ heldRec.custodian = some readOne.agent ∧ readOne.kind = .read ∧ heldRec.sealed = false) ∧
      ((lentRec none).custodian = some w.agent ∧ w.kind = .write ∧ (lentRec none).sealed = true) ∧
      ((lentRec none).custodian ≠ some { w with agent := 1 }.agent ∧
        ∃ l, l ∈ (lentRec none).lends ∧ l.borrower = { w with agent := 1 }.agent) ∧
      (heldRec.custodian ≠ some { w with agent := 2 }.agent ∧
        ¬ ∃ l, l ∈ heldRec.lends ∧ l.borrower = { w with agent := 2 }.agent) := by
  simp [heldRec, lentRec, BufRec.reset, readOne, txn]

/-- What every clause about a passing access asks of READ of handle 1. -/
def passes (s : State) : Prop :=
  (s.quiet ∧ s.nextTxn 0 readOne) ∧ s.online 0 = true ∧ s.entry 0 readOne.tag = none ∧ readOne.shapeOk = true ∧
    readOne.handle = some 0 ∧ bufferCheck (s.buf 0) readOne = none

theorem test_meets_passing_down :
    passes (offered (withRec heldRec) readOne) ∧ (offered (withRec heldRec) readOne).mem.link = .down :=
  ⟨⟨turn_of_offered _ _ rfl rfl rfl ⟨rfl, rfl⟩ rfl, by decide⟩, rfl⟩

theorem test_meets_passing_up :
    let s := offered { withRec heldRec with mem.link := .up, mem.settling := none } readOne
    passes s ∧ s.mem.link = .up ∧ s.mem.settling = none ∧ (s.tag 0).use = none ∧ ∀ j, j < 0 → (s.tag j).use ≠ none :=
  ⟨⟨turn_of_offered _ _ rfl rfl rfl ⟨rfl, rfl⟩ rfl, by decide⟩, rfl, rfl, by decide, by decide⟩

theorem test_meets_passing_held :
    let settling := offered { withRec heldRec with mem.link := .up } readOne
    let busy := offered (allBusy { withRec heldRec with mem.link := .up, mem.settling := none }) readOne
    (passes settling ∧ settling.mem.link = .up ∧ settling.mem.settling ≠ none) ∧
      passes busy ∧ busy.mem.link = .up ∧ ∀ i, (busy.tag i).use ≠ none :=
  ⟨⟨⟨turn_of_offered _ _ rfl rfl rfl ⟨rfl, rfl⟩ rfl, by decide⟩, rfl, by decide⟩,
    ⟨turn_of_offered _ _ rfl rfl rfl ⟨rfl, rfl⟩ rfl, by decide⟩, rfl, by decide⟩

theorem test_meets_aperture :
    let w := txn .write 0 7 [4, 0, 0, 0, 0, 0, 0, 0]
    let r := txn .read 0 7 []
    decodeRequest w.data = some .accept ∧ ((offered State.reset w).nextTxn 0 w ∧ (offered State.reset w).online 0 = true ∧
        (offered State.reset w).entry 0 w.tag = none ∧ w.shapeOk = true ∧ w.handle = none) ∧
      (((offered State.reset r).quiet ∧ (offered State.reset r).nextTxn 0 r) ∧ (offered State.reset r).online 0 = true ∧
        (offered State.reset r).entry 0 r.tag = none ∧ r.shapeOk = true ∧ r.handle = none) :=
  ⟨by decide, ⟨(turn_of_offered _ _ rfl rfl rfl ⟨rfl, rfl⟩ rfl).2, by decide⟩,
    turn_of_offered _ _ rfl rfl rfl ⟨rfl, rfl⟩ rfl, by decide⟩

theorem test_meets_aperture_malformed :
    let w := txn .write 0 7 [0, 0, 0, 0, 0, 0, 0, 0]
    let s := offered State.reset w
    (s.quiet ∧ s.nextTxn 0 w) ∧ s.online 0 = true ∧ s.entry 0 w.tag = none ∧ w.shapeOk = true ∧ w.handle = none ∧
      w.kind = .write ∧ decodeRequest w.data = none :=
  ⟨turn_of_offered _ _ rfl rfl rfl ⟨rfl, rfl⟩ rfl, by decide⟩

/-! ### Custody requests -/

/-- One malformed word for each line of R92, at the edges of the ranges. -/
theorem test_meets_malformed :
    decodeRequest [0, 0, 0, 0, 0, 0, 0, 0] = none ∧ decodeRequest [10, 0, 1, 0, 0, 0, 0, 0] = none ∧
      decodeRequest [4, 0, 0, 0, 0, 0, 0, 1] = none ∧ decodeRequest [1, 0, 0, 0, 8, 0, 0, 0] = none ∧
      decodeRequest [2, 0, 0, 2, 0, 0, 0, 0] = none ∧ decodeRequest [3, 0, 1, 0, 16, 0, 0, 0] = none ∧
      decodeRequest [4, 0, 1, 0, 0, 0, 0, 0] = none ∧ decodeRequest [2, 0, 0xFF, 1, 0, 0, 0, 0] = some (.release 510 0) ∧
      decodeRequest [1, 0, 0, 0, 7, 0, 0, 0] = some (.claim 7) := by decide

theorem test_meets_claim :
    let none0 := State.reset.setPool 0 { PoolRec.reset with defined := true }
    let empty := pooled State.reset PoolRec.reset
    let one := pooled (withRec (recIn .free)) { PoolRec.reset with freeList := [0] }
    (State.reset.pool 0).defined = false ∧
      ((none0.pool 0).defined = true ∧ memAgent 0 (none0.pool 0).claimSet = false) ∧
      ((empty.pool 0).defined = true ∧ memAgent 15 (empty.pool 0).claimSet = true ∧ (empty.pool 0).freeList = []) ∧
      ((one.pool 0).defined = true ∧ memAgent 0 (one.pool 0).claimSet = true ∧ (one.pool 0).freeList = [0]) := by decide

theorem test_meets_releasePath :
    let busy := withRec { heldRec with inFlight := 1 }
    let dirty := (withRec { heldRec with written := true }).setPool 0 { PoolRec.reset with scrubs := true }
    let clean := withRec heldRec
    0 < (busy.buf 0).inFlight ∧
      ((dirty.buf 0).inFlight = 0 ∧ (dirty.pool (dirty.buf 0).pool).scrubs = true ∧ (dirty.buf 0).written = true) ∧
      ((clean.buf 0).inFlight = 0 ∧ (clean.pool (clean.buf 0).pool).scrubs = false) := by decide

theorem test_meets_acceptRecall :
    let sent := (withRec { recIn .inTransit with custodian := some 0, target := some 1 }).setQueue 1 [0]
    State.reset.queue 0 = [] ∧ sent.queue 1 = [0] ∧ (State.reset.buf 0).state = .void ∧
      ((sent.buf 0).state = .inTransit ∧ (sent.buf 0).generation = 0 ∧ (sent.buf 0).custodian = some 0 ∧
        (sent.buf 0).target = some 1) ∧
      ((sent.buf 0).generation ≠ 255 ∧ (sent.buf 0).custodian ≠ some 1) ∧ heldRec.state ≠ .inTransit := by decide

/-! ### Memory port and scrub engine -/

/-- Tag 63 held by an access of agent 0 to handle 1, with the entry that names it. -/
def inMemory (timeLeft : Nat) : State :=
  ({ withRec { heldRec with inFlight := 1 } with mem.link := .up, mem.settling := none }.setTag 63
    ⟨2, some ⟨.access 0 0 0, timeLeft⟩⟩).setEntry 0 0 (some (.inMemory 63 2))

theorem test_meets_matching :
    let s := inMemory 9
    (63 : TagIndex).val = (0xBF : Byte).toNat % 64 ∧ s.resetLow = false ∧ s.mem.link = .up ∧ s.mem.settling = none ∧
      (s.tag 63).use = some ⟨.access 0 0 0, 9⟩ ∧ (s.tag 63).generation.toNat = (0xBF : Byte).toNat / 64 ∧
      s.checker.hold = none ∧ (s.buf 0).state ≠ .draining ∧ s.scrub.engine = .idle ∧ s.scrub.queue = [] := by decide

theorem test_meets_discard :
    State.reset.mem.link = .down ∧ (linked.tag 0).use = none ∧
      ((inMemory 9).tag 63).generation.toNat ≠ (0x3F : Byte).toNat / 64 := by decide

theorem test_meets_expiry :
    (inMemory 0).resetLow = false ∧ (inMemory 0).checker.hold = none ∧ (inMemory 0).scrub.engine = .idle ∧
      (inMemory 0).scrub.queue = [] ∧ ((inMemory 0).tag 63).use = some ⟨.access 0 0 0, 0⟩ ∧ ((inMemory 0).buf 0).state ≠ .draining ∧
      ((inMemory 1).tag 63).use = some ⟨.access 0 0 0, 0 + 1⟩ := by decide

/-- Tag 63 held by the last access to a DRAINING buffer. -/
def lastOfDrain (timeLeft : Nat) : State :=
  { withRec { recIn .draining with inFlight := 1 } with mem.link := .up, mem.settling := none }.setTag 63
    ⟨2, some ⟨.access 0 0 0, timeLeft⟩⟩

theorem test_meets_endOfDrain :
    (lastOfDrain 9).recordsFit ∧ (lastOfDrain 0).recordsFit ∧ (lastOfDrain 9).resetLow = false ∧
      (63 : TagIndex).val = (0xBF : Byte).toNat % 64 ∧ ((lastOfDrain 9).tag 63).generation.toNat = (0xBF : Byte).toNat / 64 ∧
      (lastOfDrain 9).mem.link = .up ∧ (lastOfDrain 9).mem.settling = none ∧
      ((lastOfDrain 9).tag 63).use = some ⟨.access 0 0 0, 9⟩ ∧ ((lastOfDrain 0).tag 63).use = some ⟨.access 0 0 0, 0⟩ ∧
      ((lastOfDrain 9).buf 0).state = .draining ∧ ((lastOfDrain 9).buf 0).inFlight = 1 := by
  have f : ({ recIn .draining with inFlight := 1 } : BufRec).Fits := by constructor <;> simp [recIn, BufRec.reset]
  exact ⟨fun h => recordsFit_withRec _ f h, fun h => recordsFit_withRec _ f h, by decide⟩

theorem test_meets_burst :
    let s := { linked.setTag 5 ⟨1, some ⟨.burst 0 15, 0⟩⟩ with scrub.engine := .issuing (ctx 16 [(14, 4), (15, 5)]) }
    s.resetLow = false ∧ s.checker.hold = none ∧ s.scrub.engine = .issuing (ctx 16 [(14, 4), (15, 5)]) ∧ (ctx 16 []).issue = (ctx 16 []).count ∧
      (s.tag 5).use = some ⟨.burst (ctx 16 []).handle 15, 0⟩ ∧
      ((ctx 16 [(14, 4), (15, 5)]).inFlight.filter fun b => b.1 ≠ 15) ≠ [] ∧ s.mem.link = .up ∧ s.mem.settling = none ∧
      (5 : TagIndex).val = (0x45 : Byte).toNat % 64 ∧ (s.tag 5).generation.toNat = (0x45 : Byte).toNat / 64 := by decide

/-- The last burst, its tag run out, in an engine that issues and in one that fails. -/
theorem test_meets_lastBurst :
    let s (e : Engine) : State := { linked.setTag 5 ⟨1, some ⟨.burst 0 15, 0⟩⟩ with scrub.engine := e }
    let c := ctx 16 [(15, 5)]
    (s (.issuing c)).resetLow = false ∧ ((s (.issuing c)).tag 5).use = some ⟨.burst c.handle 15, 0⟩ ∧
      ((s (.failing c)).tag 5).use = some ⟨.burst c.handle 15, 0⟩ ∧ (s (.failing c)).mem.link = .up ∧
      (s (.failing c)).mem.settling = none ∧ (5 : TagIndex).val = (0x45 : Byte).toNat % 64 ∧
      ((s (.failing c)).tag 5).generation.toNat = (0x45 : Byte).toNat / 64 := by decide

theorem test_meets_linkDown : linked.resetLow = false ∧ State.reset.mem.link = .down ∧ linked.mem.link = .up ∧ linked.scrubLaws ∧
    { linked with scrub.engine := .issuing (ctx 0 []) }.scrubLaws ∧
    { linked with scrub.engine := .failing (ctx 1 [(0, 0)]) }.scrubLaws := by
  refine ⟨rfl, rfl, rfl, trivial, ⟨⟨by decide, by decide, ?_, by decide⟩, rfl⟩, ⟨⟨by decide, by decide, ?_, by decide⟩, by decide, rfl⟩⟩
  · intro b h
    cases h
  · intro b h
    simp only [ctx, List.mem_singleton] at h
    subst h
    decide

set_option maxRecDepth 20000 in
/-- The link falls with an access held, which then passes its checks or does not; with the fault slot empty or occupied. -/
theorem test_meets_linkDown_held :
    let up := holding { withRec heldRec with mem.link := .up }
    let lost := holding { State.reset with mem.link := .up }
    let full := up.setAgentRec 0
      ⟨true, some { kind := .shape, handle := 0, offset := 0, access := .read, sizeLess1 := 0, bufState := none, cycleCount := 0 }⟩
    up.mem.link = .up ∧ up.scrubLaws ∧ up.checker.hold = some readOne ∧ readOne.handle = some 0 ∧
      bufferCheck ((after .linkDown up).buf 0) readOne = none ∧ lost.scrubLaws ∧ lost.mem.link = .up ∧
      bufferCheck ((after .linkDown lost).buf 0) readOne = some .undefinedHandle ∧ (lost.agent 0).slot = none ∧
      full.scrubLaws ∧ (full.agent 0).slot ≠ none :=
  ⟨rfl, trivial, rfl, by decide, by decide, trivial, rfl, by decide, by decide, trivial, by decide⟩

/-- One buffer, in no list and no inbound queue, with the engine's context on it exactly while it is SCRUBBING. -/
theorem lawful_alone (s : State) (r : BufRec) (e : Engine) (f : r.Fits) (n : r.state = .draining ∨ r.state = .scrubbing)
    (i : s.custody = (withRec r).custody) (k : s.scrub = ⟨[], e⟩) (c : e.handle = if r.state = .scrubbing then some 0 else none) :
    s.custodyLawful := by
  have b (h : Handle) : s.buf h = if h = 0 then r else BufRec.reset := by
    rw [← buf_withRec, State.buf, i, State.buf]
  have p (q : PoolId) : (s.pool q).freeList = [] := by
    simp [State.pool, i, withRec, State.setBuf, State.reset, Custody.reset, PoolRec.reset]
  have u (a : Agent) : s.queue a = [] := by
    simp [State.queue, i, withRec, State.setBuf, State.reset, Custody.reset]
  refine ⟨fun h => ?_, fun h => ?_, ⟨fun q h => ?_, fun q => ?_, fun a h => ?_, fun a => ?_, fun h => ?_, ?_⟩⟩
  · rw [b]
    split
    · exact f
    · constructor <;> simp [BufRec.reset]
  · rw [b]
    split <;> constructor <;> rcases n with n | n <;> simp [n, BufRec.reset]
  · rw [b, p]
    split <;> rcases n with n | n <;> simp [n, BufRec.reset]
  · rw [p]
    exact List.nodup_nil
  · rw [b, u]
    split <;> rcases n with n | n <;> simp [n, BufRec.reset]
  · rw [u]
    exact List.nodup_nil
  · rw [b, k, c]
    by_cases d : h = 0 <;> rcases n with n | n <;> simp [d, n, BufRec.reset, eq_comm]
  · rw [k]
    simp

/-- The link falls in a lawful table: with a DRAINING buffer that its tag empties, with one that keeps an access, and with a FAILING
engine. -/
theorem test_meets_linkDown_records :
    let left : State := { lastOfDrain 9 with custody := (withRec { recIn .draining with inFlight := 2 }).custody }
    let failing : State := { withRec (recIn .scrubbing) with mem.link := .up, scrub.engine := .failing (ctx 1 [(0, 0)]) }
    ((lastOfDrain 9).custodyLawful ∧ (lastOfDrain 9).scrubLaws ∧ (lastOfDrain 9).mem.link = .up ∧
        ((lastOfDrain 9).buf 0).state = .draining ∧ ((lastOfDrain 9).buf 0).inFlight = 1 ∧ ((lastOfDrain 9).tag 63).heldFor 0 = true) ∧
      (left.custodyLawful ∧ left.scrubLaws ∧ left.mem.link = .up ∧ (left.buf 0).state = .draining ∧ (left.buf 0).inFlight = 2) ∧
      failing.custodyLawful ∧ failing.scrubLaws ∧ failing.mem.link = .up ∧ failing.scrub.engine = .failing (ctx 1 [(0, 0)]) := by
  have f (n : Nat) (c : 0 < n) : ({ recIn .draining with inFlight := n } : BufRec).Fits := by
    constructor <;> simp [recIn, BufRec.reset, c]
  refine ⟨⟨lawful_alone _ _ .idle (f 1 (by decide)) (.inl rfl) rfl rfl rfl, trivial, by decide⟩,
    ⟨lawful_alone _ _ .idle (f 2 (by decide)) (.inl rfl) rfl rfl rfl, trivial, by decide⟩,
    lawful_alone _ (recIn .scrubbing) _ (by constructor <;> simp [recIn, BufRec.reset]) (.inr rfl) rfl rfl rfl,
    ⟨⟨by decide, by decide, ?_, by decide⟩, by decide, rfl⟩, rfl, rfl⟩
  intro b h
  simp only [ctx, List.mem_singleton] at h
  subst h
  decide

set_option maxRecDepth 20000 in
/-- The order of the tags that empty the DRAINING buffers: handle 2's tag 3 before handle 1's tag 63. -/
theorem test_drain_order :
    let s := (((lastOfDrain 9).setBuf 1 { recIn .draining with inFlight := 1 }).setTag 3 ⟨0, some ⟨.access 0 1 1, 9⟩⟩)
    ((after .linkDown s).pool 0).freeList = [1, 0] ∧ ((after .linkDown s).buf 1).generation = 1 := by decide

theorem test_meets_settling :
    let s := { linked with mem.settling := some 0 }
    s.resetLow = false ∧ s.mem.link = .up ∧ State.reset.mem.settling ≠ none ∧ State.reset.mem.settling ≠ some 0 ∧ s.mem.settling = some 0 ∧ s.checker.hold = none ∧
      s.scrubIdle ∧ ∀ i, (s.tag i).use = none := by
  refine ⟨rfl, rfl, by decide, by decide, rfl, rfl, ⟨rfl, rfl⟩, by decide⟩

theorem test_meets_linkUp :
    let run : State := { State.reset with mem.settling := none }
    run.resetLow = false ∧ run.mem.link = .down ∧ run.mem.settling = none ∧ run.checker.hold = none ∧
      (∀ i, (run.tag i).use = none) ∧ run.scrubIdle ∧ State.reset.mem.settling ≠ none ∧ State.reset.mem.link = .down ∧
      { run with scrub.engine := .paused (ctx 15 []) }.scrub.engine = .paused (ctx 15 []) ∧ (ctx 15 []).inFlight = [] ∧
      { run with scrub.queue := [0] }.scrub.queue = 0 :: [] :=
  ⟨rfl, rfl, rfl, rfl, by decide, ⟨rfl, rfl⟩, by decide, rfl, rfl, rfl, rfl⟩

/-- The interval's end, with an engine that issues, with an access held that passes or does not, and with both. -/
theorem test_meets_settling_end :
    let s : State := { linked with mem.settling := some 0, scrub.engine := .issuing (ctx 3 []) }
    let held := holding { withRec heldRec with mem.link := .up, mem.settling := some 0 }
    let lost := holding { linked with mem.settling := some 0 }
    let both : State := { held with scrub.engine := .issuing (ctx 3 []), mem.preference := .scrub }
    (s.mem.settling = some 0 ∧ s.mem.link = .up ∧ s.checker.hold = none ∧ ∀ i, (s.tag i).use = none) ∧
      (held.mem.settling = some 0 ∧ held.mem.link = .up ∧ (∀ i, (held.tag i).use = none) ∧ held.checker.hold = some readOne ∧
        readOne.handle = some 0 ∧ held.scrub.queue = [] ∧ bufferCheck (held.buf 0) readOne = none) ∧
      (lost.checker.hold = some readOne ∧ lost.scrub.queue = [] ∧ bufferCheck (lost.buf 0) readOne = some .undefinedHandle) ∧
      both.scrub.engine.wants = true ∧ both.mem.preference = .scrub ∧ both.scrub.engine ≠ .idle := by decide

theorem test_meets_held :
    let up := holding { withRec heldRec with mem.link := .up, mem.settling := none }
    let lost := holding linked
    let down := holding (withRec heldRec)
    up.resetLow = false ∧ up.checker.hold = some readOne ∧ readOne.handle = some 0 ∧ up.scrub.engine.wants = false ∧ (up.tag 0).use = none ∧
      bufferCheck (up.buf 0) readOne = none ∧ bufferCheck (lost.buf 0) readOne = some .undefinedHandle ∧
      down.mem.link = .down ∧ bufferCheck (down.buf 0) readOne = none ∧
      (∀ i, ((allBusy up).tag i).use ≠ none) := by decide

theorem test_meets_takeHead :
    let s := { withRec { recIn .scrubbing with length := 1 } with
      mem.link := .up, mem.settling := none, scrub.queue := [0] }
    s.resetLow = false ∧ s.scrub.engine = .idle ∧ s.mem.link = .up ∧ s.mem.settling = none ∧ s.scrub.queue = 0 :: [] ∧ s.checker.hold = none ∧ 0 < (s.buf 0).length ∧
      freeTags s.mem = 0 :: 1 :: 2 :: 3 :: (List.finRange 64).drop 4 := by decide

/-- A head that waits; nothing to grant, and no tag to grant; an access held that is preferred or alone; a burst that is. -/
theorem test_meets_arbiter :
    let head : State := { linked with scrub.queue := [0] }
    let up := holding { withRec heldRec with mem.link := .up, mem.settling := none }
    let lost := holding linked
    let c := ctx 1 [(0, 5)]
    let both : State := { up with scrub.engine := .issuing c }
    (head.scrub.engine = .idle ∧ head.mem.link = .up ∧ head.scrub.queue = 0 :: []) ∧
      (linked.scrub.queue = [] ∧ linked.checker.hold = none ∧ linked.scrub.engine.wants = false) ∧
      (up.resetLow = false ∧ up.scrub.queue = [] ∧ up.mem.link = .up ∧ up.checker.hold = some readOne ∧
        readOne.handle = some 0 ∧ up.mem.settling = none ∧ (up.tag 0).use = none ∧ up.scrub.engine.wants = false ∧
        bufferCheck (up.buf 0) readOne = none ∧ bufferCheck (lost.buf 0) readOne = some .undefinedHandle) ∧
      (both.scrub.engine = .issuing c ∧ both.scrub.engine.wants = true ∧ both.mem.preference = .checker ∧ c.issue < c.count ∧
        c.inFlight.length < 4 ∧ { both with mem.preference := .scrub }.mem.preference = .scrub ∧
        { linked with scrub.engine := .issuing c }.checker.hold = none) ∧
      ∀ j, j < 0 → (up.tag j).use ≠ none := by decide

theorem test_meets_nothing_to_grant : ¬ State.reset.mayGrant := fun h => nomatch h.1

theorem test_meets_drainScrub :
    let s := withRec (recIn .draining)
    let dirty := (withRec { recIn .draining with written := true }).setPool 0 { PoolRec.reset with scrubs := true }
    (s.resetLow = false ∧ s.scrub.queue = [] ∧ s.scrub.engine = .idle ∧ (s.buf 0).state = .draining ∧
        (s.buf 0).inFlight = 0 ∧ (s.buf 0).written = false ∧ s.checker.hold = none) ∧
      ((dirty.buf 0).state = .draining ∧ (dirty.buf 0).inFlight = 0 ∧ dirty.mem.link = .down ∧
        (dirty.pool (dirty.buf 0).pool).scrubs = true ∧ (dirty.buf 0).written = true) ∧
      ((ctx 16 []).inFlight = [] ∧ (ctx 16 []).issue = (ctx 16 []).count ∧ (ctx 16 []).handle = 0 ∧
        linked.scrub.queue = [] ∧
        { linked with scrub.engine := .issuing (ctx 16 []) }.scrub.engine = .issuing (ctx 16 []) ∧
        { linked with scrub.engine := .failing (ctx 3 []) }.scrub.engine = .failing (ctx 3 [])) := by decide

theorem test_meets_drainScrub_more :
    (State.reset.buf 0).state ≠ .draining ∧
      { linked with scrub.engine := .issuing (ctx 3 []) }.scrub.engine = .issuing (ctx 3 []) ∧ (ctx 3 []).issue ≠ (ctx 3 []).count ∧
      { linked with scrub.engine := .failing (ctx 3 [(1, 4)]) }.scrub.engine = .failing (ctx 3 [(1, 4)]) ∧
      (ctx 3 [(1, 4)]).inFlight ≠ [] := by decide

/-! ### Time -/

theorem test_meets_nothingDue : State.reset.nothingDue ∧ State.reset.mgmt.scan = none ∧ State.reset.timer.markDue = false := by
  refine ⟨⟨rfl, by decide, ?_, Or.inl rfl⟩, rfl, by decide⟩
  intro i u h
  have e : (State.reset.tag i).use = none := by simp [State.tag, State.reset, MemPort.reset]
  rw [e] at h
  cases h

/-- Each event that a tick may have left: the pulse, the settling interval run, one tag whose time has run out beside one whose
time has not, and an idle timeout. -/
theorem test_meets_outstanding :
    let due := (linked.setTag 5 ⟨1, some ⟨.access 0 0 0, 0⟩⟩).setTag 6 ⟨1, some ⟨.access 0 1 0, 3⟩⟩
    let idle := { State.reset with mgmt.receiver := .receiving, mgmt.idleCount := 25000, mgmt.frame := [1] }
    { State.reset with timer.markPin := true }.resetLow = false ∧
      ({ linked with mem.settling := some 0 }.timer.markPin = false ∧ { linked with mem.settling := some 0 }.mem.settling = some 0) ∧
      (due.timer.markPin = false ∧ due.mem.settling ≠ some 0 ∧ 1 ≤ due.mgmt.memLimit ∧
        (due.tag 5).use = some ⟨.access 0 0 0, 0⟩ ∧ ∀ j, j ≠ 5 → ¬ due.expiryDue j) ∧
      (idle.timer.markPin = false ∧ idle.mem.settling ≠ some 0 ∧ ∀ i, (idle.tag i).use = none) := by decide

/-- A tick after a tag has run out: the expiry comes first, then the tick of the other tag. -/
theorem test_outstanding_before_tick :
    let due := (linked.setTag 5 ⟨1, some ⟨.access 0 0 0, 0⟩⟩).setTag 6 ⟨1, some ⟨.access 0 1 0, 3⟩⟩
    (after (.tick false) due).tag 5 = ⟨2, none⟩ ∧ (after (.tick false) due).tag 6 = ⟨1, some ⟨.access 0 1 0, 2⟩⟩ := by decide

/-- A state whose next tick makes a mark, with an ARMED group for it or none. -/
def markNext (g : GroupState) : State :=
  { State.reset with
    timer.pacing := true, timer.position := 33332
    edit := { group := g, staged := [], target := if g = .armed then some 1 else none, outcome := none } }

theorem test_meets_markDue :
    (markNext .armed).timer.markDue = true ∧ (markNext .armed).edit.target = some ((markNext .armed).timer.cycleCount + 1) ∧
      (markNext .idle).timer.markDue = true ∧ (markNext .idle).edit.group ≠ .armed ∧ (markNext .armed).mgmt.scan = none := by
  decide

theorem test_meets_markNothingDue (g : GroupState) : (markNext g).nothingDue ∧ (markNext g).quiet := by
  refine ⟨⟨rfl, by show State.reset.mem.settling ≠ some 0; decide, ?_, Or.inl rfl⟩, quiet_of_scrubIdle _ ⟨rfl, rfl⟩ rfl⟩
  intro i u h
  have e : ((markNext g).tag i).use = none := by simp [markNext, State.tag, State.reset, MemPort.reset]
  rw [e] at h
  cases h

theorem test_meets_lendsAtMark :
    ((recIn .free).state ≠ .held ∧ heldRec.sealed = false) ∧
      ((lentRec (some 1)).state = .held ∧ (lentRec (some 1)).sealed = true) := by decide

/-- R168: a timeout still outstanding is taken before a command, whose answer it does not overwrite. -/
theorem test_timeout_before_command :
    let s := { State.reset with mgmt.receiver := .receiving, mgmt.idleCount := 25000, mgmt.frame := [1] }
    (after .identify s).mgmt.answer = ⟨.ok, [0x60, 0x82, 0x01]⟩ ∧ (after .identify s).mgmt.receiver = .idle ∧
      after .i2cIdleTimeout (after .identify s) = after .identify s := ⟨by decide, by decide, rfl⟩

theorem test_meets_idleTimeout :
    let s := { State.reset with mgmt.receiver := .receiving, mgmt.idleCount := 25000, mgmt.frame := [1] }
    s.mgmt.receiver ≠ .idle ∧ 25000 ≤ s.mgmt.idleCount ∧ s.resetLow = false ∧ State.reset.mgmt.receiver = .idle := by decide

theorem test_meets_pacing :
    let s := { State.reset with timer.pacing := true }
    let p := { s with timer.pendingSet := some ⟨64, 63⟩ }
    State.reset.timer.pacing = false ∧ (s.timer.pacing = true ∧ s.edit.group ≠ .armed ∧ s.timer.pendingSet = none) ∧
      (p.timer.pacing = true ∧ p.timer.pendingSet = some ⟨64, 63⟩) ∧ (markNext .armed).edit.group = .armed := by decide

/-! ### Edit groups -/

theorem test_meets_groups :
    let s := { State.reset with edit.group := .openForEdits }
    s.resetLow = false ∧ s.mgmt.scan = none ∧ State.reset.edit.group = .idle ∧ s.edit.group = .openForEdits ∧ (markNext .armed).edit.group = .armed ∧
      s.edit.staged.length < 32 ∧
      32 ≤ { s with edit.staged := List.replicate 32 (.retire 0) }.edit.staged.length := by decide

/-- Operands of the staging commands at the edges of their ranges. -/
theorem test_meets_staging :
    (511 : BitVec 16).toNat = (510 : Handle).val + 1 ∧ (7 : Byte).toNat = (7 : PoolId).val ∧
      (262143 : BitVec 24).toNat < 262144 ∧ (2048 : BitVec 16).toNat ≤ 2048 ∧ ¬ (1 ≤ (0 : BitVec 16).toNat) ∧
      ¬ ((512 : BitVec 16).toNat ≤ 511) := by decide

theorem test_meets_walk :
    walkEntries 0 State.reset.image [.move 0 0] = .error ⟨0, .notFree, none⟩ ∧
      walkEntries 0 State.reset.image [] = .ok State.reset.image := by
  simp [walkEntries, applyEntry, State.image, State.reset, Custody.reset, BufRec.reset]

/-- Pool 1 is defined and a group of DEFINE entries waits. -/
def defining (staged : List Edit) : State :=
  { State.reset.setPool 0 { PoolRec.reset with defined := true } with
    edit := { group := .openForEdits, staged := staged, target := none, outcome := none } }

/-- A FREE record as a DEFINE makes it. -/
def definedRec (base length : Nat) : BufRec := { recIn .free with base := base, length := length }

/-- The records after the definitions of handles 1 and 2. -/
def twoRecs (r0 r1 : BufRec) : Vector BufRec 511 := put (put (Vector.replicate 511 BufRec.reset) 0 r0) 1 r1

theorem nth_twoRecs (r0 r1 : BufRec) (h : Handle) :
    nth (twoRecs r0 r1) h = if h = 1 then r1 else if h = 0 then r0 else BufRec.reset := by
  simp only [twoRecs, nth_put]
  split <;> rename_i c
  · rfl
  · split <;> simp [nth, *]

theorem walk_two (b0 l0 b1 l1 : Nat) :
    ∃ im, walkEntries 0 (defining [.define 0 0 b0 l0, .define 1 0 b1 l1]).image [.define 0 0 b0 l0, .define 1 0 b1 l1] = .ok im ∧
      im.bufs = twoRecs (definedRec b0 l0) (definedRec b1 l1) := ⟨_, rfl, rfl⟩

/-- A buffer that ends above 1 GiB, as the last entry that placed it makes it; the other ends at 1 GiB. -/
theorem test_meets_outside :
    ∃ im, walkEntries 0 (defining [.define 0 0 262143 1, .define 1 0 262143 2]).image
        [.define 0 0 262143 1, .define 1 0 262143 2] = .ok im ∧
      (nth im.bufs 1).state ≠ .void ∧ 262144 < (nth im.bufs 1).base + (nth im.bufs 1).length ∧
      ∀ k, k < 1 → ¬ 262144 < (nth im.bufs k).base + (nth im.bufs k).length := by
  obtain ⟨im, w, e⟩ := walk_two 262143 1 262143 2
  refine ⟨im, w, ?_, ?_, fun k c => ?_⟩
  · simp [e, nth_twoRecs, definedRec, recIn]
  · simp [e, nth_twoRecs, definedRec]
  · have : k = 0 := by omega
    simp [e, nth_twoRecs, definedRec, this]

/-- Two buffers that share a unit, and two that only touch; none ends above 1 GiB. -/
theorem test_meets_overlap_and_apply :
    ∃ im, walkEntries 0 (defining [.define 0 0 0 2, .define 1 0 1 1]).image [.define 0 0 0 2, .define 1 0 1 1] = .ok im ∧
      (nth im.bufs 0).state ≠ .void ∧ (nth im.bufs 1).state ≠ .void ∧
      (nth im.bufs 1).base < (nth im.bufs 0).base + (nth im.bufs 0).length ∧
      (nth im.bufs 0).base < (nth im.bufs 1).base + (nth im.bufs 1).length ∧
      (∀ j, ¬ 262144 < (nth im.bufs j).base + (nth im.bufs j).length) := by
  obtain ⟨im, w, e⟩ := walk_two 0 2 1 1
  refine ⟨im, w, ?_, ?_, ?_, ?_, fun j => ?_⟩ <;> simp only [e, nth_twoRecs]
  · simp [definedRec, recIn]
  · simp [definedRec, recIn]
  · simp [definedRec]
  · simp [definedRec]
  · split
    · simp [definedRec]
    · split <;> simp [definedRec, BufRec.reset]

theorem test_meets_apply :
    ∃ im, walkEntries 0 (defining [.define 0 0 0 1, .define 1 0 1 1]).image [.define 0 0 0 1, .define 1 0 1 1] = .ok im ∧
      (∀ j, ¬ 262144 < (nth im.bufs j).base + (nth im.bufs j).length) ∧
      ∀ i j, i < j → (nth im.bufs i).state ≠ .void → (nth im.bufs j).state ≠ .void →
        (nth im.bufs i).base + (nth im.bufs i).length ≤ (nth im.bufs j).base := by
  obtain ⟨im, w, e⟩ := walk_two 0 1 1 1
  refine ⟨im, w, fun j => ?_, fun i j c vi vj => ?_⟩
  · simp only [e, nth_twoRecs]
    split
    · simp [definedRec]
    · split <;> simp [definedRec, BufRec.reset]
  · simp only [e, nth_twoRecs] at vi vj ⊢
    have i0 : i = 0 := by
      by_cases h : i = 0
      · exact h
      · by_cases h1 : i = 1
        · subst h1
          have : j ≠ 1 ∧ j ≠ 0 := by omega
          simp [this.1, this.2, BufRec.reset] at vj
        · simp [h, h1, BufRec.reset] at vi
    subst i0
    have j1 : j = 1 := by
      by_cases h : j = 1
      · exact h
      · have : j ≠ 0 := by omega
        simp [h, this, BufRec.reset] at vj
    subst j1
    simp [definedRec]

/-- Index 1 is the last entry that places handle 2. -/
theorem test_meets_lastPlacing :
    ([.define 0 0 0 2, .define 1 0 1 1] : List Edit)[1]? = some (.define 1 0 1 1) ∧
      ∀ m, 1 < m → ([.define 0 0 0 2, .define 1 0 1 1] : List Edit)[m]? = none := by
  refine ⟨rfl, fun m c => ?_⟩
  simp
  omega

theorem test_meets_entry :
    applyEntry State.reset.image (.retire 0) = .error .notFree ∧
      ∃ im, applyEntry State.reset.image (.pool 0 ⟨0, 0, false, 0, 0⟩) = .ok im := by
  refine ⟨?_, _, rfl⟩
  simp [applyEntry, State.image, State.reset, Custody.reset, BufRec.reset]

theorem test_meets_unpool :
    let im := State.reset.image
    (nth im.pools 0).members = 0 ∧
      (nth { im with pools := put im.pools 0 { PoolRec.reset with members := 1 } }.pools 0).members ≠ 0 := by decide

/-! ### Commands on custody and agents -/

theorem test_meets_handle_numbers :
    (1 : BitVec 16).toNat = (0 : Handle).val + 1 ∧ (511 : BitVec 16).toNat = (510 : Handle).val + 1 ∧
      (0 : BitVec 16).toNat = 0 ∧ 511 < (512 : BitVec 16).toNat ∧ (15 : Byte).toNat = (15 : Agent).val ∧
      15 < (16 : Byte).toNat := by decide

theorem test_meets_force :
    let sent := (withRec { recIn .inTransit with custodian := some 0, target := some 1 }).setQueue 1 [0]
    sent.resetLow = false ∧ sent.mgmt.scan = none ∧ (State.reset.buf 0).state ≠ .held ∧
      (State.reset.buf 0).state ≠ .inTransit ∧ ((withRec heldRec).buf 0).state = .held ∧
      (sent.buf 0).state = .inTransit ∧ (sent.buf 0).target = some 1 := by decide

theorem test_meets_withheld :
    let s := withRec (recIn .withheld)
    s.resetLow = false ∧ s.mgmt.scan = none ∧ (s.buf 0).state = .withheld ∧ s.mem.link = .down ∧ (State.reset.buf 0).state ≠ .withheld ∧
      s.scrub.engine = .idle ∧ s.scrub.queue = [] ∧ { s with mem.link := .up }.mem.link = .up := by decide

theorem test_meets_withheld_quiet : (withRec (recIn .withheld)).quiet := quiet_of_scrubIdle _ ⟨rfl, rfl⟩ rfl

theorem test_meets_agentReset :
    held1.ready ∧ held1.custodyLawful ∧ (0 : Byte).toNat = (0 : Agent).val ∧ held1.quiet ∧ held1.checker.hold = none :=
  ⟨⟨rfl, rfl, .inl rfl⟩, test_meets_custodyLawful, rfl, quiet_of_scrubIdle _ ⟨rfl, rfl⟩ rfl, rfl⟩

/-- Handle 1 is IN_TRANSIT from agent 0 to agent 1. -/
def sent1 : State := (withRec { recIn .inTransit with custodian := some 0, target := some 1 }).setQueue 1 [0]

theorem sent1_queue (a : Agent) : sent1.queue a = if a = 1 then [0] else [] := by
  rw [sent1, queue_setQueue]
  split
  · rfl
  · simp [withRec, State.queue, State.reset, Custody.reset, State.setBuf]

/-- The reset of a target: its queue holds a buffer, and the access held is its own. -/
theorem test_meets_agentReset_target :
    sent1.ready ∧ sent1.custodyLawful ∧ sent1.quiet ∧ (sent1.buf 0).target = some 1 ∧
      (1 : Byte).toNat = (1 : Agent).val ∧ (holding held1).custodyLawful ∧ (holding held1).quiet ∧
      (holding held1).checker.hold = some readOne ∧ readOne.agent = 0 := by
  have own := test_meets_custodyLawful.2.2
  have b (h : Handle) : sent1.buf h = _ := buf_withRec _ h
  have p (q : PoolId) : (sent1.pool q).freeList = [] := by
    simp [sent1, withRec, State.pool, State.setQueue, State.setBuf, State.reset, Custody.reset, PoolRec.reset]
  refine ⟨⟨rfl, rfl, .inl rfl⟩, ⟨?_, ?_, ⟨?_, ?_, ?_, ?_, ?_, ?_⟩⟩, quiet_of_scrubIdle _ ⟨rfl, rfl⟩ rfl, by decide, by decide,
    ⟨test_meets_recordsFit, test_meets_rolesPresent, own.free, own.freeOnce, own.transit, own.transitOnce, own.scrub, own.scrubOnce⟩,
    ⟨fun h => (nomatch h.1), fun _ h => (nomatch h)⟩, rfl, rfl⟩
  · exact recordsFit_withRec _ (by constructor <;> simp [recIn, BufRec.reset])
  · intro h
    rw [b]
    split <;> constructor <;> simp [recIn, BufRec.reset]
  · intro q h
    rw [b, p]
    split <;> simp [recIn, BufRec.reset]
  · intro q
    rw [p]
    exact List.nodup_nil
  · intro a h
    rw [sent1_queue, b]
    by_cases c : a = 1 <;> by_cases d : h = 0 <;> simp [c, d, recIn, BufRec.reset, eq_comm]
  · intro a
    rw [sent1_queue]
    split <;> simp
  · intro h
    rw [b]
    split <;> simp [sent1, withRec, recIn, State.reset, ScrubUnit.reset, State.setBuf, State.setQueue, Engine.handle, BufRec.reset]
  · simp [sent1, withRec, State.reset, ScrubUnit.reset, State.setBuf, State.setQueue, Engine.handle]

/-- A record that agent 0 has no tie to. -/
theorem test_meets_untied :
    (State.reset.buf 0).custodian ≠ some 0 ∧ (State.reset.buf 0).target ≠ some 0 ∧ (State.reset.buf 0).lends = [] ∧
      memAgent 0 (State.reset.buf 0).expired = false := by decide

/-! ### Management port -/

theorem test_meets_positions : 2 ^ 29 ≤ (0x20000000 : BitVec 32).toNat ∧ (0x1FFFFFFF : BitVec 32).toNat < 2 ^ 29 := by decide

/-- The kinds, values and start handles at the edges of what a FIND takes, and what they name. -/
theorem test_meets_find :
    (findKeyOf 0 6 = some (.byState .withheld) ∧ findKeyOf 1 15 = some (.byCustodian 15) ∧ findKeyOf 2 0 = some .expiredLends) ∧
      (findKeyOf 0 7 = none ∧ findKeyOf 1 16 = none ∧ findKeyOf 2 1 = none ∧ findKeyOf 3 0 = none) ∧
      handleOf 511 = some 510 ∧ handleOf 512 = none ∧ handleOf 0 = none ∧
      ([.void, .free, .held, .inTransit, .draining, .scrubbing, .withheld] : List BufState)[(6 : Byte).toNat]? = some .withheld := by
  decide

/-- The pools at the edge of what READ_POOL takes. -/
theorem test_meets_read_pool : (7 : Byte).toNat = (7 : PoolId).val ∧ 7 < (8 : Byte).toNat := by decide

/-- The answer frame of a RANGE: code, length, check byte. -/
theorem test_answer_frame : (⟨.range, []⟩ : HostAnswer).frame = [0x07, 0x00, 0xF9] := by decide

set_option maxRecDepth 8000 in
theorem test_meets_scan :
    let c : Scan := ⟨.byState .held, 0, 510⟩
    let s := { State.reset with mgmt.scan := some c }
    s.resetLow = false ∧ s.mgmt.receiver = .idle ∧ s.mgmt.scan = some c ∧ (s.buf c.next).state ≠ .held ∧ c.next.val = 510 ∧
      ((withRec heldRec).buf 0).state = .held ∧ (1 : Handle).val = (0 : Handle).val + 1 := by decide

/-- A scan at a tick: with nothing else due; with the idle count at its end; with the mark due; with both. -/
theorem test_meets_scan_at_tick (mark : Bool) (count : Nat) (c : count = 0 ∨ count = 24999) :
    let s : State := { markNext .idle with
      timer.position := if mark then 33332 else 0
      mgmt := { State.reset.mgmt with scan := some ⟨.expiredLends, 0, 0⟩, receiver := .receiving, idleCount := count } }
    s.resetLow = false ∧ s.nothingDue ∧ s.mgmt.scan ≠ none ∧ s.timer.markDue = mark ∧ s.mgmt.receiver ≠ .idle := by
  refine ⟨rfl, ⟨rfl, by show State.reset.mem.settling ≠ some 0; decide, ?_, Or.inr ?_⟩, nofun, by cases mark <;> rfl, nofun⟩
  · exact (test_meets_markNothingDue .idle).1.2.2.1
  · show count < 25000
    omega

theorem test_meets_frame :
    let s := { State.reset with mgmt.receiver := .discarding, mgmt.frame := [0x01, 0xFF], mgmt.idleCount := 24999 }
    s.ready ∧ s.mgmt.idleCount < 25000 ∧ hostFrame .identify = some s.mgmt.frame := ⟨⟨rfl, rfl, .inr (by decide)⟩, by decide, by decide⟩

theorem test_meets_mode_bytes :
    let s := { State.reset with mgmt.receiver := .discarding, mgmt.frame := [0x52, 2, 0xAC], mgmt.idleCount := 24999 }
    s.ready ∧ s.mgmt.idleCount < 25000 ∧ 1 < (2 : Byte).toNat ∧ (0x52 : Byte) + 2 + 0xAC = 0 ∧ (0x11 : Byte) + 2 + 0xED = 0 :=
  ⟨⟨rfl, rfl, .inr (by decide)⟩, by decide, by decide, by decide, by decide⟩

theorem test_meets_bus :
    let s := { State.reset with mgmt.receiver := .receiving }
    s.mgmt.frame = [] ∧ s.mgmt.idleCount < 25000 ∧ argumentBytes 0x99 = none ∧ argumentBytes 0x01 = some 0 ∧
      ([0x01] : List Byte).foldl (· + ·) 0 ≠ 0 ∧ 0 + 1 ≤ ([0x02] : List Byte).length ∧
      ([0x01, 0x02] : List Byte).foldl (· + ·) 0 ≠ 0 := by decide

theorem test_meets_read :
    let s := { State.reset with mgmt.receiver := .sending, mgmt.sendRest := State.reset.mgmt.answer.frame }
    s.resetLow = false ∧ s.mgmt.receiver = .sending ∧ s.mgmt.idleCount < 25000 ∧ State.reset.mgmt.receiver ≠ .sending := by decide

end Sys2Proof.Tests
end

