-- ==== Sys2Proof/Proofs/Events.lean ====
section
/-! The events that steps are made of. A law that holds of the part is shown for each event once; `exec_events` then gives
it for every command. -/

namespace Sys2Proof.Machine

/-! ### Events -/

/-- An update beside the records that the laws of custody, of tags and of the scrub engine speak of: at most the time left
of busy tags changes there. -/
structure Aside (s t : State) : Prop where
  custody : t.custody = s.custody
  entries : t.stage.outstanding = s.stage.outstanding
  hold : t.checker.hold = s.checker.hold
  link : t.mem.link = s.mem.link
  scrub : t.scrub = s.scrub
  tags : ∀ i, (t.tag i).generation = (s.tag i).generation ∧
    (t.tag i).use.map TagUse.owner = (s.tag i).use.map TagUse.owner

/-- A change of a record's sealed flag, lend list and expired set alone, which keeps R3. -/
structure BufRec.Tended (r r' : BufRec) : Prop where
  rest : r' = { r with sealed := r'.sealed, lends := r'.lends, expired := r'.expired }
  fits : r.Fits → r'.Fits

/-- One event: what it does, and what the part has checked before it. -/
inductive Event : State → State → Prop
  | aside {s t : State} (same : Aside s t) : Event s t
  | reset {s : State} (pins : BitVec 2) : Event s (s.partReset pins)
  | tend {s : State} (bufs : Vector BufRec 511) (each : ∀ h, (s.buf h).Tended (nth bufs h)) :
      Event s { s with custody.bufs := bufs }
  | claim {s : State} {a : Agent} {p : PoolId} {h : Handle} {rest : List Handle}
      (head : (s.pool p).freeList = h :: rest) : Event s (s.claimHead a p h rest)
  | pass {s : State} {a b : Agent} {h : Handle} (held : (s.buf h).state = .held)
      (holder : (s.buf h).custodian = some a) (other : b ≠ a) (unlent : (s.buf h).lends = [])
      (room : (s.queue b).length < Config.queueCapacity) : Event s (s.passTo h b)
  | accept {s : State} {a : Agent} {h : Handle} {rest : List Handle} (head : s.queue a = h :: rest) :
      Event s (s.acceptHead a h rest)
  | bringBack {s : State} {h : Handle} (transit : (s.buf h).state = .inTransit) : Event s (s.bringBack h)
  | returnAll {s : State} (a : Agent) : Event s ((s.queue a).foldl State.bringBack s)
  | release {s : State} {h : Handle}
      (owned : (s.buf h).state = .held ∨ (s.buf h).state = .inTransit ∨ (s.buf h).custodian ≠ none) :
      Event s (s.forceOut h)
  | readmit {s : State} {h : Handle} (withheld : (s.buf h).state = .withheld) : Event s (s.becomeFree h)
  | rescrub {s : State} {h : Handle} (withheld : (s.buf h).state = .withheld) : Event s (s.enterScrubbing h)
  | apply {s : State} {staged : List Edit} {im : Image} (good : s.judge staged = .ok im) : Event s (s.adopt im)
  | forward {s : State} {t : Txn} {h : Handle} {i : TagIndex} (up : s.mem.link = .up) (empty : s.checker.hold = none)
      (vacant : s.entry t.agent t.tag = none) (named : t.handle = some h) (passes : s.accessCheck t h = none)
      (free : (s.tag i).use = none) : Event s (s.forward t h i)
  | hold {s : State} {t : Txn} {h : Handle} (empty : s.checker.hold = none) (vacant : s.entry t.agent t.tag = none)
      (named : t.handle = some h) :
      Event s { s.setEntry t.agent t.tag (some .tagWait) with checker.hold := some t }
  | unhold {s : State} {t : Txn} (held : s.checker.hold = some t) : Event s (s.dropHold.setEntry t.agent t.tag none)
  | dropUnnamed {s : State} {t : Txn} (held : s.checker.hold = some t) (unnamed : t.handle = none) : Event s s.dropHold
  | cancel {s : State} {a : Agent} (g : StageTag) (unheld : ∀ t, s.checker.hold = some t → t.agent ≠ a) :
      Event s (s.setEntry a g none)
  | endAccess {s : State} {i : TagIndex} {a : Agent} {g : StageTag} {h : Handle} {m : Nat}
      (busy : (s.tag i).use = some ⟨.access a g h, m⟩) (gen : BitVec 2) (status : RespStatus) (data : List Byte) :
      Event s (((s.setTag i ⟨gen, none⟩).endInFlight h).report a g i (s.tag i).generation status data)
  | drain {s : State} (h : Handle) : Event s (s.completeDrain h)
  | takeHead {s : State} : Event s s.takeHead
  | issueBurst {s : State} {i : TagIndex} (up : s.mem.link = .up) (wants : s.scrub.engine.wants = true)
      (free : (s.tag i).use = none) : Event s (s.issueBurst i)
  | endBurst {s : State} {i : TagIndex} {h : Handle} {n m : Nat} (busy : (s.tag i).use = some ⟨.burst h n, m⟩)
      (gen : BitVec 2) (good : Bool) : Event s ((s.setTag i ⟨gen, none⟩).burstEnd n good)
  | finishScrub {s : State} : Event s s.finishScrub
  | failScrub {s : State} : Event s s.failScrub
  | linkDown {s : State} (up : s.mem.link = .up) :
      Event s ((List.finRange 64).foldl State.loseTag { s with mem.link := .down }).scrubLinkDown
  | linkUp {s : State} (down : s.mem.link = .down) : Event s { s with mem.link := .up }.resumeScrub

/-- Events one after the other. -/
inductive Events : State → State → Prop
  | refl (s : State) : Events s s
  | tail {s t u : State} (run : Events s t) (last : Event t u) : Events s u

/-- A law that every event keeps, events in a row keep. -/
theorem Events.keeps {law : State → Prop} (each : ∀ s t, Event s t → law s → law t) {s t : State} (run : Events s t) :
    law s → law t := by
  induction run with
  | refl => exact id
  | tail _ last ih => exact fun l => each _ _ last (ih l)

theorem Events.trans {s t u : State} (first : Events s t) (next : Events t u) : Events s u := by
  induction next with
  | refl => exact first
  | tail _ last ih => exact ih.tail last

theorem Event.events {s t : State} (one : Event s t) : Events s t := Events.tail (.refl s) one

theorem Aside.events {s t : State} (same : Aside s t) : Events s t := (Event.aside same).events

/-- A fold of events. -/
theorem Events.foldl {β : Type} (f : State → β → State) (each : ∀ s b, Events s (f s b)) (l : List β) (s : State) :
    Events s (l.foldl f s) := by
  induction l generalizing s with
  | nil => exact .refl s
  | cons b l ih => exact (each s b).trans (ih _)

/-! ### Updates aside -/

@[simp] theorem Aside.refl (s : State) : Aside s s := ⟨rfl, rfl, rfl, rfl, rfl, fun _ => ⟨rfl, rfl⟩⟩

/-- An update is aside where it leaves the memory tags and the other records of the laws as they stand. -/
theorem Aside.of_eq {s t : State} (custody : t.custody = s.custody) (entries : t.stage.outstanding = s.stage.outstanding)
    (hold : t.checker.hold = s.checker.hold) (link : t.mem.link = s.mem.link) (tags : t.mem.tags = s.mem.tags)
    (scrub : t.scrub = s.scrub) : Aside s t :=
  ⟨custody, entries, hold, link, scrub, fun i => by simp only [State.tag, tags, and_self]⟩

theorem answerTxn_aside (s : State) (t : Txn) (x : RespStatus) (d : List Byte) : Aside s (s.answerTxn t x d) := by
  apply Aside.of_eq <;> simp

theorem refuse_aside (s : State) (t : Txn) (k : FaultKind) (b : Option BufState) : Aside s (s.refuse t k b) := by
  apply Aside.of_eq <;> simp

theorem raise_aside (s : State) (n : Notice) : Aside s (s.raise n) := by
  apply Aside.of_eq <;> simp

theorem setAnswer_aside (s : State) (x : HostStatus) (d : List Byte) : Aside s (s.setAnswer x d) := by
  apply Aside.of_eq <;> simp

theorem settleIdle_aside (s : State) : Aside s s.settleIdle := by
  apply Aside.of_eq <;> simp

theorem sendBus_aside (s : State) (o : BusOut) : Aside s (s.sendBus o) := by
  apply Aside.of_eq <;> simp

theorem emptySlot_aside (s : State) (a : Agent) : Aside s (s.emptySlot a) := by
  apply Aside.of_eq <;> simp

theorem scanStep_aside (s : State) : Aside s s.scanStep := by
  apply Aside.of_eq <;> simp

theorem endPulse_aside (s : State) : Aside s s.endPulse := by
  apply Aside.of_eq <;> simp

/-- A tick lowers the time left of the busy tags, and nothing else of them. -/
theorem atTick_tag (s : State) (i : TagIndex) :
    (State.tag { s with mem := s.mem.atTick } i).generation = (s.tag i).generation ∧
      (State.tag { s with mem := s.mem.atTick } i).use.map TagUse.owner = (s.tag i).use.map TagUse.owner := by
  simp [State.tag, MemPort.atTick, TagRec.atTick, Function.comp_def]

/-! ### Custody requests -/

theorem stateCheck_eq_none (r : BufRec) (a : Agent) (g : BitVec 8) (st : BufState) (h : stateCheck r a g st = none) :
    r.custodian = some a ∧ r.state = st := by
  unfold stateCheck holderCheck at h
  grind

/-- A HELD buffer stands in no inbound queue: it is forced out by the release path alone. -/
theorem forceOut_of_held (s : State) (h : Handle) (held : (s.buf h).state = .held) : s.forceOut h = s.releasePath h := by
  unfold State.forceOut
  split
  · next transit _ => rw [held] at transit; cases transit
  · rfl

theorem Tended_refl (r : BufRec) : r.Tended r := ⟨rfl, id⟩

/-- A record tended alone. -/
theorem tend_one (s : State) (h : Handle) (r : BufRec) (tended : (s.buf h).Tended r) : Events s (s.setBuf h r) := by
  refine (Event.tend (s := s) (put s.custody.bufs h r) fun k => ?_).events
  rw [nth_put]
  split
  · next e => exact e ▸ tended
  · exact Tended_refl _

/-- Every record tended. -/
theorem tend_all (s : State) (f : BufRec → BufRec) (tended : ∀ r : BufRec, r.Tended (f r)) : Events s (s.mapBufs f) := by
  refine (Event.tend (s := s) (mapAll s.custody.bufs f) fun k => ?_).events
  rw [nth_mapAll]
  exact tended _

theorem seal_tended (r : BufRec) (held : r.state = .held) : r.Tended { r with sealed := true } :=
  ⟨rfl, fun f => { f with sealed := fun _ => .inl held, lends := fun _ => ⟨held, rfl⟩ }⟩

theorem unseal_tended (r : BufRec) (unlent : r.lends = []) : r.Tended { r with sealed := false } :=
  ⟨rfl, fun f => { f with sealed := fun h => absurd h (by simp), lends := fun h => absurd unlent h }⟩

/-- An expired set loses a member: it gains none. -/
theorem dropAgent_ne_zero (b : Agent) (set : AgentSet) (h : dropAgent b set ≠ 0) : set ≠ 0 := by
  rintro rfl
  exact h (by simp [dropAgent])

theorem lendTo_tended (r : BufRec) (b : Agent) (d : Option Nat) (held : r.state = .held) (shut : r.sealed = true)
    (room : r.lends.length < Config.lendCapacity ∨ r.lists b = true) : r.Tended (r.lendTo b d) := by
  unfold BufRec.lendTo
  split
  · exact ⟨rfl, fun f => { f with lends := fun _ => ⟨held, shut⟩, lendCount := by simpa using f.lendCount }⟩
  · next unlisted =>
    have room := room.resolve_right unlisted
    exact ⟨rfl, fun f =>
      { f with
        lends := fun _ => ⟨held, shut⟩, lendCount := by simpa [Nat.add_one_le_iff] using room
        expired := f.expired ∘ dropAgent_ne_zero b r.expired }⟩

theorem endLend_tended (r : BufRec) (b : Agent) : r.Tended (r.endLend b) := by
  refine ⟨rfl, fun f => ?_⟩
  have count := Nat.le_trans (List.length_filter_le (fun l : Lend => l.borrower ≠ b) r.lends) f.lendCount
  have some_left : r.lends.filter (fun l : Lend => l.borrower ≠ b) ≠ [] → r.lends ≠ [] := by grind
  exact { f with lends := f.lends ∘ some_left, lendCount := count }

theorem endExpiry_tended (r : BufRec) (b : Agent) : r.Tended (r.endExpiry b) :=
  ⟨rfl, fun f => { f with expired := f.expired ∘ dropAgent_ne_zero b r.expired }⟩

theorem Tended_trans {r r' r'' : BufRec} (h : r.Tended r') (h' : r'.Tended r'') : r.Tended r'' :=
  ⟨by rw [h'.rest, h.rest], h'.fits ∘ h.fits⟩

theorem dropTaken_tended (a : Agent) (r : BufRec) : r.Tended (r.dropTaken a) :=
  Tended_trans (endLend_tended r a) (endExpiry_tended _ a)

theorem dropGiven_tended (a : Agent) (r : BufRec) : r.Tended (r.dropGiven a) := by
  unfold BufRec.dropGiven
  split
  · exact ⟨rfl, fun f => { f with lends := fun h => absurd rfl h, lendCount := Nat.zero_le _ }⟩
  · exact Tended_refl r

theorem atMark_tended (r : BufRec) : r.Tended r.atMark := by
  unfold BufRec.atMark
  split
  · next held =>
    refine ⟨rfl, fun f => { f with lends := fun _ => held, lendCount := ?_, expired := fun _ => .inl held.1 }⟩
    have := List.length_filter_le (fun l : Lend => !l.isExpired) (r.lends.map Lend.lowered)
    rw [List.length_map] at this
    exact Nat.le_trans this f.lendCount
  · exact Tended_refl r


theorem claim_events (s : State) (a : Agent) (p : PoolId) : Events s (s.takeRequest a (.claim p)).1 := by
  simp only [State.takeRequest]
  split
  · exact .refl s
  · exact .refl s
  · next head => exact (Event.claim head).events

theorem releaseRequest_events (s : State) (a : Agent) (h : Handle) (g : BitVec 8) :
    Events s (s.takeRequest a (.release h g)).1 := by
  simp only [State.takeRequest]
  split
  · exact .refl s
  · next checked =>
    have held : (s.buf h).state = .held := by
      unfold State.releaseCheck at checked
      grind [→ stateCheck_eq_none]
    rw [← forceOut_of_held s h held]
    exact (Event.release (.inl held)).events

theorem pass_events (s : State) (a b : Agent) (h : Handle) (g : BitVec 8) :
    Events s (s.takeRequest a (.pass h g b)).1 := by
  simp only [State.takeRequest]
  split
  · exact .refl s
  · next checked =>
    have checks : (s.buf h).custodian = some a ∧ (s.buf h).state = .held ∧ b ≠ a ∧ (s.buf h).lends = [] ∧
        (s.queue b).length < Config.queueCapacity := by
      unfold State.passCheck at checked
      grind [→ stateCheck_eq_none]
    obtain ⟨holder, held, other, unlent, room⟩ := checks
    exact (Event.pass held holder other unlent room).events

theorem accept_events (s : State) (a : Agent) : Events s (s.takeRequest a .accept).1 := by
  simp only [State.takeRequest]
  split
  · exact .refl s
  · next head => exact (Event.accept head).events

theorem recall_events (s : State) (a : Agent) (h : Handle) (g : BitVec 8) :
    Events s (s.takeRequest a (.recall h g)).1 := by
  simp only [State.takeRequest]
  split
  · exact .refl s
  · next checked => exact (Event.bringBack (stateCheck_eq_none _ _ _ _ checked).2).events

theorem seal_events (s : State) (a : Agent) (h : Handle) (g : BitVec 8) : Events s (s.takeRequest a (.seal h g)).1 := by
  simp only [State.takeRequest]
  split
  · exact .refl s
  · next checked =>
    have held : (s.buf h).state = .held := by
      unfold State.sealCheck at checked
      grind [→ stateCheck_eq_none]
    exact tend_one s h _ (seal_tended _ held)

theorem unseal_events (s : State) (a : Agent) (h : Handle) (g : BitVec 8) :
    Events s (s.takeRequest a (.unseal h g)).1 := by
  simp only [State.takeRequest]
  split
  · exact .refl s
  · next checked =>
    have unlent : (s.buf h).lends = [] := by
      unfold State.unsealCheck at checked
      grind
    exact tend_one s h _ (unseal_tended _ unlent)

theorem lend_events (s : State) (a b : Agent) (h : Handle) (g : BitVec 8) :
    Events s (s.takeRequest a (.lend h g b)).1 := by
  simp only [State.takeRequest]
  split
  · exact .refl s
  · next checked =>
    have checks : (s.buf h).state = .held ∧ (s.buf h).sealed = true ∧
        ((s.buf h).lends.length < Config.lendCapacity ∨ (s.buf h).lists b = true) := by
      unfold State.lendCheck at checked
      grind [→ stateCheck_eq_none]
    obtain ⟨held, shut, room⟩ := checks
    exact tend_one s h _ (lendTo_tended _ b _ held shut room)

theorem giveBack_events (s : State) (a : Agent) (h : Handle) (g : BitVec 8) :
    Events s (s.takeRequest a (.giveBack h g)).1 := by
  simp only [State.takeRequest]
  split
  · exact .refl s
  · split
    · exact tend_one s h _ (endLend_tended _ a)
    · split
      · exact tend_one s h _ (endExpiry_tended _ a)
      · exact .refl s

/-- A custody request is at most one event. -/
theorem takeRequest_events (s : State) (a : Agent) (q : Request) : Events s (s.takeRequest a q).1 := by
  match q with
  | .claim p => exact claim_events s a p
  | .release h g => exact releaseRequest_events s a h g
  | .pass h g b => exact pass_events s a b h g
  | .accept => exact accept_events s a
  | .recall h g => exact recall_events s a h g
  | .seal h g => exact seal_events s a h g
  | .unseal h g => exact unseal_events s a h g
  | .lend h g b => exact lend_events s a b h g
  | .giveBack h g => exact giveBack_events s a h g

theorem custodyRequest_events (s : State) (a : Agent) (w : List Byte) : Events s (s.custodyRequest a w).1 := by
  unfold State.custodyRequest
  split
  · exact .refl s
  · exact takeRequest_events s a _


/-! ### Accesses and the arbiter -/

/-- What a grant of the arbiter rests on: the link UP, and a tag that is free. -/
theorem nextGrant_free (s : State) (r : Requester) (i : TagIndex) (g : s.nextGrant = some (r, i)) :
    s.mem.link = .up ∧ (s.tag i).use = none := by
  unfold State.nextGrant at g
  split at g
  · next open_ =>
    refine ⟨((grants_iff _).mp open_).1, (mem_freeTags s.mem i).mp ?_⟩
    cases e : freeTags s.mem <;> grind
  · cases g

theorem put_put {α : Type} {n : Nat} (v : Vector α n) (i : Fin n) (a b : α) : put (put v i a) i b = put v i b := by
  simp [put]

/-- Forwarding writes the entry anew, whatever stood there. -/
theorem forward_setEntry (s : State) (t : Txn) (h : Handle) (i : TagIndex) (e : Option Phase) :
    (s.setEntry t.agent t.tag e).forward t h i = s.forward t h i := by
  simp [State.forward, State.setEntry, State.setTag, State.setBuf, State.sendRequest, State.buf, State.tag, put_put]

/-- The access that a grant is for leaves the hold place, and is refused or forwarded. -/
theorem recheckGranted_events (s : State) (i : TagIndex) (up : s.mem.link = .up) (free : (s.tag i).use = none) :
    Events s (s.recheckGranted i) := by
  simp only [State.recheckGranted]
  split
  · exact .refl s
  · next t held =>
    split
    · next unnamed =>
      refine (Event.dropUnnamed held unnamed).events.trans (Aside.events ?_)
      apply Aside.of_eq <;> simp
    · next h named =>
      let turned : State := { s.dropHold with mem.preference := .scrub }.setEntry t.agent t.tag none
      have left : Events s turned :=
        (Event.unhold held).events.trans
          (Aside.of_eq (s := s.dropHold.setEntry t.agent t.tag none) (t := turned) rfl rfl rfl rfl rfl rfl).events
      split
      · exact left.trans (refuse_aside turned _ _ _).events
      · next passes =>
        rw [← forward_setEntry _ t h i none]
        refine left.trans (Event.forward (s := turned) up rfl ?_ named passes free).events
        simp [turned, entry_setEntry]

/-- With the link going DOWN the access leaves the hold place, and is answered. -/
theorem recheckDown_events (s : State) : Events s s.recheckDown := by
  unfold State.recheckDown
  split
  · exact .refl s
  · next t held =>
    have left : Events s (s.dropHold.setEntry t.agent t.tag none) := (Event.unhold held).events
    split
    · exact left
    · split
      · exact left.trans (refuse_aside _ _ _ _).events
      · exact left.trans (answerTxn_aside _ _ _ _).events

theorem grantOnce_events (s : State) : Events s s.grantOnce := by
  unfold State.grantOnce
  split
  · exact .refl s
  · next i granted =>
    obtain ⟨up, free⟩ := nextGrant_free s _ i granted
    exact recheckGranted_events s i up free
  · next i granted =>
    obtain ⟨up, free⟩ := nextGrant_free s _ i granted
    exact (Event.issueBurst up ((standing_of_nextGrant s i).2 granted) free).events

theorem arbitrate_events (s : State) : Events s s.arbitrate :=
  (grantOnce_events s).trans <| (grantOnce_events _).trans <| (grantOnce_events _).trans <|
    (grantOnce_events _).trans (grantOnce_events _)

theorem kick_events (s : State) : Events s s.kick := Event.takeHead.events.trans (arbitrate_events _)

theorem Events.kick {s t : State} (run : Events s t) : Events s t.kick := run.trans (kick_events t)

theorem Events.setAnswer {s t : State} (run : Events s t) (x : HostStatus) (d : List Byte) : Events s (t.setAnswer x d) :=
  run.trans (setAnswer_aside t x d).events

theorem passingAccess_events (s : State) (t : Txn) (h : Handle) (empty : s.checker.hold = none)
    (vacant : s.entry t.agent t.tag = none) (named : t.handle = some h) (passes : s.accessCheck t h = none) :
    Events s (s.passingAccess t h) := by
  unfold State.passingAccess
  split
  · exact (answerTxn_aside _ _ _ _).events
  · next i _ up _ free =>
    have free : (s.tag i).use = none := (mem_freeTags s.mem i).mp (by rw [free]; exact List.mem_cons_self)
    refine (Event.forward up empty vacant named passes free).events.trans (Aside.events ?_)
    apply Aside.of_eq <;> rfl
  · exact (Event.hold empty vacant named).events

theorem aperture_events (s : State) (t : Txn) : Events s (s.aperture t) := by
  unfold State.aperture
  split
  · exact (custodyRequest_events s t.agent t.data).trans (answerTxn_aside _ _ _ _).events
  · exact (answerTxn_aside _ _ _ _).events

/-- The checker takes a transaction: answered, refused, a custody request, or an access that passes. -/
theorem takeTxn_events (s : State) (t : Txn) (empty : s.checker.hold = none) : Events s (s.takeTxn t) := by
  unfold State.takeTxn
  split
  · exact (answerTxn_aside _ _ _ _).events
  · split
    · exact (refuse_aside _ _ _ _).events
    · next vacant =>
      split
      · exact (refuse_aside _ _ _ _).events
      · split
        · exact aperture_events s t
        · next h named =>
          split
          · exact (refuse_aside _ _ _ _).events
          · next passes => exact passingAccess_events s t h empty (by simpa using vacant) named passes

theorem inputArbiterGrant_events (s : State) : ∃ t, exec .inputArbiterGrant s = .next t ∧ Events s t := by
  refine ⟨_, rfl, ?_⟩
  split
  · exact .refl s
  · split
    · exact .refl s
    · next a granted =>
      split
      · exact .refl s
      · next t _ =>
        have empty : s.checker.hold = none := by
          refine Decidable.byContradiction fun held => ?_
          rw [nextGranted_eq_none s (.inl held)] at granted
          cases granted
        have aside : Aside s { s.setWaiting a none with stage.pointer := a } := by apply Aside.of_eq <;> simp
        exact (aside.events.trans (takeTxn_events _ t (by simpa using empty))).kick

/-! ### Memory -/

theorem takeResponse_events (s : State) (i : TagIndex) (u : TagUse) (busy : (s.tag i).use = some u) (good : Bool)
    (data : List Byte) : Events s (s.takeResponse i u good data) := by
  obtain ⟨owner, m⟩ := u
  cases owner with
  | access a g h => exact (Event.endAccess busy _ _ _).events
  | burst h n => exact (Event.endBurst busy _ _).events

theorem expireTag_events (s : State) (i : TagIndex) : Events s (s.expireTag i) := by
  simp only [State.expireTag]
  split
  · exact .refl s
  · next u busy =>
    obtain ⟨owner, m⟩ := u
    refine Events.kick (Events.trans ?_ (raise_aside _ _).events)
    cases owner with
    | access a g h => exact (Event.endAccess busy _ _ _).events
    | burst h n => exact (Event.endBurst busy _ _).events

theorem endSettling_events (s : State) : Events s s.endSettling := by
  unfold State.endSettling
  split
  · refine Events.kick (Aside.events ?_)
    apply Aside.of_eq <;> rfl
  · exact .refl s

theorem goDown_events (s : State) (up : s.mem.link = .up) : Events s s.goDown := by
  unfold State.goDown
  exact (Event.linkDown up).events.trans ((recheckDown_events _).trans (raise_aside _ _).events)

theorem takeExpiries_events (n : Nat) (s : State) : Events s (s.takeExpiries n) := by
  induction n generalizing s with
  | zero => exact .refl s
  | succ n ih =>
    unfold State.takeExpiries
    split
    · exact .refl s
    · exact expireTag_events s _
    · have aside : Aside s { s with freeCount := s.freeCount + 1 } := by apply Aside.of_eq <;> rfl
      exact aside.events.trans ((expireTag_events _ _).trans (ih _))

/-! ### Groups, agents and time -/

theorem presentGroup_events (s : State) (c : Option (BitVec 32)) : Events s (s.presentGroup c) := by
  have adopted : Events s (s.applyGroup s.edit.staged).1 := by
    unfold State.applyGroup
    split
    · next good => exact (Event.apply good).events
    · exact .refl s
  simp only [State.presentGroup]
  refine adopted.trans (Aside.events ?_)
  apply Aside.of_eq <;> simp

theorem sweep_events (s : State) (a : Agent) : Events s (s.sweep a) := by
  have release (u : State) (h : Handle) : Events u (State.sweepRelease a u h) := by
    unfold State.sweepRelease
    split
    · next own => exact (Event.release (.inr (.inr (by simp [own])))).events
    · exact .refl u
  exact (tend_all s _ (dropGiven_tended a)).trans <| (Events.foldl _ release _ _).trans <|
    (Event.returnAll a).events.trans (tend_all _ _ (dropTaken_tended a))

/-- The entries of an agent are cancelled after its held access: none of them waits for a tag. -/
theorem cancelEntries_events (a : Agent) (l : List StageTag) (s : State)
    (unheld : ∀ t, s.checker.hold = some t → t.agent ≠ a) : Events s (l.foldl (State.cancelEntry a) s) := by
  induction l generalizing s with
  | nil => exact .refl s
  | cons g l ih =>
    have first : Events s (State.cancelEntry a s g) := by
      unfold State.cancelEntry
      split
      · exact .refl s
      · refine (Event.cancel g unheld).events.trans (Aside.events ?_)
        apply Aside.of_eq <;> simp
    exact first.trans (ih _ (by simpa using unheld))

theorem cancelHeld_events (s : State) (a : Agent) : Events s (s.cancelHeld a) := by
  unfold State.cancelHeld
  split
  · exact .refl s
  · next t held =>
    split
    · next own => exact own ▸ (Event.unhold held).events.trans (answerTxn_aside _ _ _ _).events
    · exact .refl s

theorem cancelHeld_hold (s : State) (a : Agent) (t : Txn) (held : (s.cancelHeld a).checker.hold = some t) :
    t.agent ≠ a := by
  unfold State.cancelHeld at held
  split at held
  · next empty => rw [empty] at held; cases held
  · split at held
    · simp [State.dropHold] at held
    · grind

theorem cancelAgent_events (s : State) (a : Agent) : Events s (s.cancelAgent a) := by
  have waiting : Aside s (s.cancelWaiting a) := by
    unfold State.cancelWaiting
    split
    · exact .refl s
    · apply Aside.of_eq <;> simp
  exact waiting.events.trans <| (cancelHeld_events _ a).trans <|
    cancelEntries_events a _ _ (cancelHeld_hold _ a)

theorem makeMark_events (s : State) : Events s s.makeMark := by
  have timer : Aside s { s with timer := s.timer.atMark } := by apply Aside.of_eq <;> rfl
  have custody (u : State) : Events u u.custodyMark := by
    have tended : Events u (u.mapBufs BufRec.atMark) := tend_all u _ atMark_tended
    unfold State.custodyMark
    split
    · exact tended.trans (raise_aside _ _).events
    · exact tended
  have edit (u : State) (c : BitVec 32) : Events u (u.editMark c) := by
    unfold State.editMark
    split
    · exact presentGroup_events u _
    · exact .refl u
  exact (timer.events.trans ((custody _).trans (edit _ _))).kick

theorem advanceCycle_events (s : State) : Events s s.advanceCycle := by
  unfold State.advanceCycle
  split
  · exact makeMark_events s
  · split
    · refine Aside.events ?_
      apply Aside.of_eq <;> rfl
    · exact .refl s

theorem scanAndCycle_events (s : State) : Events s s.scanAndCycle := by
  have drawn : Aside s { s with freeCount := s.freeCount + 1 } := by apply Aside.of_eq <;> rfl
  unfold State.scanAndCycle
  split
  · split
    · exact drawn.events.trans ((scanStep_aside _).events.trans (advanceCycle_events _))
    · exact drawn.events.trans ((advanceCycle_events _).trans (scanStep_aside _).events)
  · exact (scanStep_aside _).events.trans (advanceCycle_events _)

theorem settleOutstanding_events (s : State) : Events s s.settleOutstanding :=
  (endPulse_aside s).events.trans <| (endSettling_events _).trans <| (takeExpiries_events 64 _).trans
    (settleIdle_aside _).events

theorem tick_events (s : State) (low : Bool) : Events s (s.tick low) := by
  have counted (u : State) : Aside u { u with timer.divider := 0, mem := u.mem.atTick } :=
    { custody := rfl, entries := rfl, hold := rfl, link := rfl, scrub := rfl, tags := atTick_tag u }
  have idle (u : State) : Aside u (u.countIdle low).idleAgainstScan := by apply Aside.of_eq <;> simp
  exact (settleOutstanding_events s).trans <| (counted _).events.trans <| (idle _).events.trans (scanAndCycle_events _)


/-! ### Management commands

Each is a run of events from every state. -/

@[simp] theorem setAnswer_events (s : State) (x : HostStatus) (d : List Byte) : Events s (s.setAnswer x d) :=
  (setAnswer_aside s x d).events

/-- A change of the timer, the edit stage or the management port, answered. -/
theorem answered_events {s u : State} (x : HostStatus) (d : List Byte) (custody : u.custody = s.custody)
    (stage : u.stage = s.stage) (checker : u.checker = s.checker) (mem : u.mem = s.mem) (scrub : u.scrub = s.scrub) :
    Events s (u.setAnswer x d) :=
  (Aside.of_eq custody (by rw [stage]) (by rw [checker]) (by rw [mem]) (by rw [mem]) scrub).events.setAnswer x d

@[simp] theorem cmdAgentReset_events (n : Nat) (s : State) : Events s (cmdAgentReset n s) := by
  unfold cmdAgentReset
  split
  · simp
  · next a _ =>
    exact ((cancelAgent_events s a).trans ((emptySlot_aside _ a).events.trans (sweep_events _ a)) |>.setAnswer _ _).kick

@[simp] theorem cmdSetAgent_events (n mode : Nat) (s : State) : Events s (cmdSetAgent n mode s) := by
  unfold cmdSetAgent
  split
  · simp
  · split
    · refine Events.setAnswer (Aside.events ?_) _ _
      apply Aside.of_eq <;> simp
    · simp

@[simp] theorem cmdClearFault_events (n : Nat) (s : State) : Events s (cmdClearFault n s) := by
  unfold cmdClearFault
  split
  · simp
  · exact (emptySlot_aside s _).events.setAnswer _ _

@[simp] theorem cmdReadFault_events (n : Nat) (s : State) : Events s (cmdReadFault n s) := by
  unfold cmdReadFault
  split <;> simp

@[simp] theorem cmdOpenGroup_events (s : State) : Events s (cmdOpenGroup s) := by
  unfold cmdOpenGroup
  split
  · exact answered_events _ _ rfl rfl rfl rfl rfl
  · simp
  · simp

@[simp] theorem stageEntry_events (e : Option Edit) (s : State) : Events s (stageEntry e s) := by
  unfold stageEntry
  split
  · simp
  · simp
  · simp
  · split
    · simp
    · exact answered_events _ _ rfl rfl rfl rfl rfl

@[simp] theorem cmdCloseNow_events (s : State) : Events s (cmdCloseNow s) := by
  unfold cmdCloseNow
  split
  · simp
  · simp
  · exact ((presentGroup_events s none).setAnswer _ _).kick

@[simp] theorem cmdCloseMark_events (s : State) : Events s (cmdCloseMark s) := by
  unfold cmdCloseMark
  split
  · simp
  · simp
  · split
    · simp
    · exact answered_events _ _ rfl rfl rfl rfl rfl

@[simp] theorem cmdCloseUnknown_events (s : State) : Events s (cmdCloseUnknown s) := by
  unfold cmdCloseUnknown
  split <;> simp

@[simp] theorem cmdCloseGroup_events (mode : Nat) (s : State) : Events s (cmdCloseGroup mode s) := by
  unfold cmdCloseGroup
  split <;> simp

@[simp] theorem cmdAbandonGroup_events (s : State) : Events s (cmdAbandonGroup s) := by
  unfold cmdAbandonGroup
  split
  · simp
  · exact answered_events _ _ rfl rfl rfl rfl rfl
  · exact answered_events _ _ rfl rfl rfl rfl rfl

@[simp] theorem cmdReadGroup_events (s : State) : Events s (cmdReadGroup s) := setAnswer_events s _ _

@[simp] theorem cmdForceRelease_events (n : Nat) (s : State) : Events s (cmdForceRelease n s) := by
  unfold cmdForceRelease
  split
  · simp
  · split
    · next owned => exact ((Event.release (by grind)).events.setAnswer _ _).kick
    · simp

@[simp] theorem cmdForceReturn_events (n b : Nat) (s : State) : Events s (cmdForceReturn n b s) := by
  unfold cmdForceReturn
  split
  · dsimp only
    split
    · split
      · exact (tend_one s _ _ (endLend_tended _ _)).setAnswer _ _
      · split
        · exact (tend_one s _ _ (endExpiry_tended _ _)).setAnswer _ _
        · simp
    · simp
  · simp
  · simp

@[simp] theorem cmdAdmit_events (n : Nat) (s : State) : Events s (cmdAdmit n s) := by
  unfold cmdAdmit
  split
  · simp
  · split
    · next withheld => exact (Event.readmit withheld).events.setAnswer _ _
    · simp

@[simp] theorem cmdRescrub_events (n : Nat) (s : State) : Events s (cmdRescrub n s) := by
  unfold cmdRescrub
  split
  · simp
  · split
    · next withheld => exact ((Event.rescrub withheld).events.setAnswer _ _).kick
    · simp

@[simp] theorem cmdSetMemlimit_events (n : Nat) (s : State) : Events s (cmdSetMemlimit n s) := by
  unfold cmdSetMemlimit
  split
  · exact answered_events _ _ rfl rfl rfl rfl rfl
  · simp

@[simp] theorem cmdReadNotices_events (s : State) : Events s (cmdReadNotices s) := setAnswer_events s _ _

@[simp] theorem cmdAckNotices_events (n : Nat) (s : State) : Events s (cmdAckNotices n s) := by
  unfold cmdAckNotices
  split
  · simp
  · exact answered_events _ _ rfl rfl rfl rfl rfl

@[simp] theorem cmdSetNoticeEnable_events (n : Nat) (s : State) : Events s (cmdSetNoticeEnable n s) := by
  unfold cmdSetNoticeEnable
  split
  · simp
  · exact answered_events _ _ rfl rfl rfl rfl rfl

@[simp] theorem cmdIdentify_events (s : State) : Events s (cmdIdentify s) := setAnswer_events s _ _

@[simp] theorem cmdPartReset_events (pins : BitVec 2) (s : State) : Events s (cmdPartReset pins s) :=
  (Event.reset pins).events

@[simp] theorem cmdReadBuffer_events (n : Nat) (s : State) : Events s (cmdReadBuffer n s) := by
  unfold cmdReadBuffer
  split <;> simp

@[simp] theorem cmdReadPool_events (n : Nat) (s : State) : Events s (cmdReadPool n s) := by
  unfold cmdReadPool
  split <;> simp

@[simp] theorem cmdReadQueue_events (n : Nat) (s : State) : Events s (cmdReadQueue n s) := by
  unfold cmdReadQueue
  split <;> simp

@[simp] theorem cmdReadCycle_events (s : State) : Events s (cmdReadCycle s) := setAnswer_events s _ _

@[simp] theorem cmdFind_events (kind value start : Nat) (s : State) : Events s (cmdFind kind value start s) := by
  unfold cmdFind
  split
  · refine Events.trans ?_ (scanStep_aside _).events
    exact answered_events _ _ rfl rfl rfl rfl rfl
  · simp
  · simp

@[simp] theorem cmdSetTimebase_events (n : Nat) (s : State) : Events s (cmdSetTimebase n s) := by
  unfold cmdSetTimebase
  split
  · exact answered_events _ _ rfl rfl rfl rfl rfl
  · simp

@[simp] theorem cmdSetCycle_events (n g : Nat) (s : State) : Events s (cmdSetCycle n g s) := by
  unfold cmdSetCycle
  split
  · simp
  · split <;> exact answered_events _ _ rfl rfl rfl rfl rfl

@[simp] theorem cmdPacingOn_events (s : State) : Events s (cmdPacingOn s) := by
  unfold cmdPacingOn
  split
  · simp
  · exact answered_events _ _ rfl rfl rfl rfl rfl

@[simp] theorem cmdPacingOff_events (s : State) : Events s (cmdPacingOff s) := by
  unfold cmdPacingOff
  split
  · simp
  · split
    · simp
    · split <;> exact answered_events _ _ rfl rfl rfl rfl rfl

@[simp] theorem cmdPacing_events (mode : Nat) (s : State) : Events s (cmdPacing mode s) := by
  unfold cmdPacing
  split <;> simp

/-- Whatever frame is taken, its command is a run of events. -/
theorem frameCommand_events (pins : BitVec 2) (code : Nat) (args : List Byte) (s : State) :
    Events s (frameCommand pins code args s) := by
  unfold frameCommand
  split <;> simp

theorem runCommand_events (s : State) (command : State → State) (run : ∀ u, Events u (command u)) :
    Events s (s.runCommand command) := by
  unfold State.runCommand
  split
  · exact .refl s
  · refine (settleIdle_aside s).events.trans ?_
    dsimp only
    split
    · simp
    · exact run _

/-! ### The bus -/

theorem takeFrame_events (s : State) (pins : BitVec 2) : Events s (s.takeFrame pins) := by
  have emptied : Aside s { s with mgmt.receiver := .idle, mgmt.frame := [], mgmt.idleCount := 0 } := by
    apply Aside.of_eq <;> rfl
  have judged (u : State) (frame : List Byte) : Events u (u.judgeFrame pins frame) := by
    unfold State.judgeFrame
    split
    · exact .refl u
    · split
      · simp
      · split
        · simp
        · split
          · simp
          · exact frameCommand_events _ _ _ _
  unfold State.takeFrame
  refine emptied.events.trans ?_
  dsimp only
  split
  · exact .refl _
  · split
    · simp
    · exact judged _ _

theorem endWrite_events (s : State) (pins : BitVec 2) : Events s (s.endWrite pins) := by
  unfold State.endWrite
  split
  · exact takeFrame_events s pins
  · exact .refl s

theorem compareAddress_aside (s : State) (x : BitVec 7) (read : Bool) : Aside s (s.compareAddress x read) := by
  apply Aside.of_eq <;> simp

theorem i2cAddress_events (s : State) (x : BitVec 7) (read : Bool) (pins : BitVec 2) :
    ∃ t, exec (.i2cAddress x read pins) s = .next t ∧ Events s t := by
  refine ⟨_, rfl, ?_⟩
  split
  · exact (sendBus_aside s _).events
  · exact (settleIdle_aside s).events.trans ((endWrite_events _ pins).trans (compareAddress_aside _ _ _).events)

theorem frameTaken_events (s : State) (pins : BitVec 2) : ∃ t, exec (.frameTaken pins) s = .next t ∧ Events s t := by
  refine ⟨_, rfl, ?_⟩
  split
  · exact .refl s
  · split
    · exact (settleIdle_aside s).events.trans (takeFrame_events _ pins)
    · exact (settleIdle_aside s).events

theorem i2cDataByte_events (s : State) (b : Byte) : ∃ t, exec (.i2cDataByte b) s = .next t ∧ Events s t := by
  refine ⟨_, rfl, Aside.events ?_⟩
  split
  · exact sendBus_aside s _
  · dsimp only
    split <;> apply Aside.of_eq <;> simp

theorem answerRead_events (s : State) (acks : List Bool) (stop : Bool) :
    ∃ t, exec (.answerRead acks stop) s = .next t ∧ Events s t := by
  refine ⟨_, rfl, Aside.events ?_⟩
  split
  · exact .refl s
  · dsimp only
    split
    · split <;> apply Aside.of_eq <;> simp
    · exact settleIdle_aside s
    · exact settleIdle_aside s
    · exact settleIdle_aside s


/-! ### Every command -/

theorem memoryResponse_events (s : State) (b : Byte) (good : Bool) (data : List Byte) :
    ∃ t, exec (.memoryResponse b good data) s = .next t ∧ Events s t := by
  refine ⟨_, rfl, ?_⟩
  split
  · split
    · next u busy =>
      split
      · exact (takeResponse_events s _ u busy good data).kick
      · exact .refl s
    · exact .refl s
  · exact .refl s

theorem transactionIssue_events (s : State) (t : Txn) : ∃ u, exec (.transactionIssue t) s = .next u ∧ Events s u := by
  refine ⟨_, rfl, Aside.events ?_⟩
  split
  · exact .refl s
  · apply Aside.of_eq <;> simp

theorem heldAccessRecheck_events (s : State) : ∃ t, exec .heldAccessRecheck s = .next t ∧ Events s t := by
  refine ⟨_, rfl, ?_⟩
  split
  · exact .refl s
  · split
    · exact arbitrate_events s
    · exact recheckDown_events s

theorem linkDown_events (s : State) : ∃ t, exec .linkDown s = .next t ∧ Events s t := by
  refine ⟨_, rfl, ?_⟩
  split
  · exact .refl s
  · split
    · next up => exact goDown_events s up
    · exact .refl s

theorem linkUp_events (s : State) : ∃ t, exec .linkUp s = .next t ∧ Events s t := by
  refine ⟨_, rfl, ?_⟩
  split
  · exact .refl s
  · split
    · exact .refl s
    · next down => exact (Event.linkUp down).events.kick

theorem resetAssert_events (s : State) : ∃ t, exec .resetAssert s = .next t ∧ Events s t := by
  refine ⟨_, rfl, ?_⟩
  split
  · exact .refl s
  · refine (Event.reset 0).events.trans (Aside.events ?_)
    apply Aside.of_eq <;> rfl

/-- An event that takes place where a condition stands, and else nothing. -/
theorem events_if {c : Prop} [Decidable c] {s t : State} (run : Events s t) : Events s (if c then t else s) := by
  split
  · exact run
  · exact .refl s

theorem events_unless {c : Prop} [Decidable c] {s t : State} (run : Events s t) : Events s (if c then s else t) := by
  split
  · exact .refl s
  · exact run

/-- Every command is a run of events. -/
theorem exec_events (c : Instr) (s : State) : ∃ t, exec c s = .next t ∧ Events s t := by
  have command (f : State → State) (run : ∀ u, Events u (f u)) :
      ∃ t, (.next (s.runCommand f) : Host.Outcome State Fault Refusal) = .next t ∧ Events s t :=
    ⟨_, rfl, runCommand_events s f run⟩
  cases c with
  | transactionIssue t => exact transactionIssue_events s t
  | inputArbiterGrant => exact inputArbiterGrant_events s
  | heldAccessRecheck => exact heldAccessRecheck_events s
  | memoryResponse b good data => exact memoryResponse_events s b good data
  | drainCompletion h => exact ⟨_, rfl, events_unless (Event.drain h).events.kick⟩
  | scrubCompletion => exact ⟨_, rfl, events_unless Event.finishScrub.events.kick⟩
  | scrubFailure => exact ⟨_, rfl, events_unless Event.failScrub.events.kick⟩
  | scrubTakeHead => exact ⟨_, rfl, events_unless (kick_events s)⟩
  | tick low => exact ⟨_, rfl, events_unless (tick_events s low)⟩
  | tagExpiry i => exact ⟨_, rfl, events_if (expireTag_events s i)⟩
  | mark low => exact ⟨_, rfl, events_if (tick_events s low)⟩
  | markPulseEnd => exact ⟨_, rfl, (endPulse_aside s).events⟩
  | settlingIntervalEnd => exact ⟨_, rfl, events_unless (endSettling_events s)⟩
  | linkDown => exact linkDown_events s
  | linkUp => exact linkUp_events s
  | resetAssert => exact resetAssert_events s
  | resetRelease pins => exact ⟨_, rfl, events_if (Event.reset pins).events⟩
  | i2cAddress x read pins => exact i2cAddress_events s x read pins
  | frameTaken pins => exact frameTaken_events s pins
  | answerRead acks stop => exact answerRead_events s acks stop
  | i2cIdleTimeout => exact ⟨_, rfl, events_unless (settleIdle_aside s).events⟩
  | i2cDataByte b => exact i2cDataByte_events s b
  | openGroup => exact command _ cmdOpenGroup_events
  | stageDefine => exact command _ (stageEntry_events _)
  | stageMove => exact command _ (stageEntry_events _)
  | stageResize => exact command _ (stageEntry_events _)
  | stageRetire => exact command _ (stageEntry_events _)
  | stagePool => exact command _ (stageEntry_events _)
  | stageUnpool => exact command _ (stageEntry_events _)
  | closeGroupNow => exact command _ cmdCloseNow_events
  | closeGroupMark => exact command _ cmdCloseMark_events
  | abandonGroup => exact command _ cmdAbandonGroup_events
  | readGroup => exact command _ cmdReadGroup_events
  | forceRelease => exact command _ (cmdForceRelease_events _)
  | forceReturn => exact command _ (cmdForceReturn_events _ _)
  | admitBuffer => exact command _ (cmdAdmit_events _)
  | rescrub => exact command _ (cmdRescrub_events _)
  | setAgent => exact command _ (cmdSetAgent_events _ _)
  | agentReset => exact command _ (cmdAgentReset_events _)
  | clearFault => exact command _ (cmdClearFault_events _)
  | readFault => exact command _ (cmdReadFault_events _)
  | readBuffer => exact command _ (cmdReadBuffer_events _)
  | readPool => exact command _ (cmdReadPool_events _)
  | readQueue => exact command _ (cmdReadQueue_events _)
  | readCycle => exact command _ cmdReadCycle_events
  | find => exact command _ (cmdFind_events _ _ _)
  | setTimebase => exact command _ (cmdSetTimebase_events _)
  | setCycle => exact command _ (cmdSetCycle_events _ _)
  | pacingOn => exact command _ cmdPacingOn_events
  | pacingOff => exact command _ cmdPacingOff_events
  | setMemlimit => exact command _ (cmdSetMemlimit_events _)
  | readNotices => exact command _ cmdReadNotices_events
  | ackNotices => exact command _ (cmdAckNotices_events _)
  | setNoticeEnable => exact command _ (cmdSetNoticeEnable_events _)
  | identify => exact command _ cmdIdentify_events
  | partReset pins => exact command _ (cmdPartReset_events pins)

/-- A step is a run of events. -/
theorem step_events {s t : State} (taken : step s = .next t) : Events s t := by
  unfold step at taken
  split at taken
  · cases taken
    exact .refl s
  · next c rest _ =>
    have queue : Aside s { s with pending := rest } := Aside.of_eq rfl rfl rfl rfl rfl rfl
    obtain ⟨u, next, run⟩ := exec_events c { s with pending := rest }
    rw [next] at taken
    cases taken
    exact queue.events.trans run

/-- A law that every event keeps, every step keeps. -/
theorem step_keeps {law : State → Prop} (each : ∀ s t, Event s t → law s → law t) {s t : State}
    (taken : step s = .next t) : law s → law t := (step_events taken).keeps each

end Sys2Proof.Machine
end

