-- ==== Sys2Proof/Proofs/Records.lean ====
section
/-! What each operation does with the buffer records, and that every event keeps R3. -/

namespace Sys2Proof.Machine

/-! ### What the accessors read after an update -/

@[simp] theorem buf_setPool (s : State) (p : PoolId) (r : PoolRec) (h : Handle) : (s.setPool p r).buf h = s.buf h := rfl
@[simp] theorem buf_setQueue (s : State) (a : Agent) (l : List Handle) (h : Handle) : (s.setQueue a l).buf h = s.buf h := rfl
@[simp] theorem buf_leaveQueue (s : State) (a : Agent) (k h : Handle) : (s.leaveQueue a k).buf h = s.buf h := rfl
@[simp] theorem buf_raise (s : State) (n : Notice) (h : Handle) : (s.raise n).buf h = s.buf h := rfl
@[simp] theorem pool_setBuf (s : State) (h : Handle) (r : BufRec) (p : PoolId) : (s.setBuf h r).pool p = s.pool p := rfl
@[simp] theorem pool_setQueue (s : State) (a : Agent) (l : List Handle) (p : PoolId) : (s.setQueue a l).pool p = s.pool p := rfl
@[simp] theorem pool_leaveQueue (s : State) (a : Agent) (h : Handle) (p : PoolId) : (s.leaveQueue a h).pool p = s.pool p := rfl
@[simp] theorem pool_raise (s : State) (n : Notice) (p : PoolId) : (s.raise n).pool p = s.pool p := rfl
@[simp] theorem queue_setBuf (s : State) (h : Handle) (r : BufRec) (a : Agent) : (s.setBuf h r).queue a = s.queue a := rfl
@[simp] theorem queue_setPool (s : State) (p : PoolId) (r : PoolRec) (a : Agent) : (s.setPool p r).queue a = s.queue a := rfl
@[simp] theorem queue_raise (s : State) (n : Notice) (a : Agent) : (s.raise n).queue a = s.queue a := rfl

/-! ### What an operation does with the records -/

/-- A law of records holds of all of them after a write, where it holds of the others and of the one written. -/
theorem every_setBuf {law : BufRec → Prop} {s : State} {h : Handle} {r : BufRec}
    (others : ∀ k, k ≠ h → law (s.buf k)) (here : law r) (k : Handle) : law ((s.setBuf h r).buf k) := by
  rw [buf_setBuf]
  split
  · exact here
  · next ne => exact others k ne

theorem buf_becomeFree (s : State) (h k : Handle) :
    (s.becomeFree h).buf k =
      if k = h then
        { s.buf h with
          state := .free, generation := (s.buf h).generation + 1, custodian := none, target := none, sealed := false
          written := false, lends := [], expired := 0, inFlight := 0 }
      else s.buf k := buf_setBuf s h k _

theorem buf_enterScrubbing (s : State) (h k : Handle) :
    (s.enterScrubbing h).buf k =
      if k = h then
        { s.buf h with
          state := .scrubbing, custodian := none, target := none, sealed := false, lends := [], expired := 0, inFlight := 0 }
      else s.buf k := buf_setBuf s h k _

theorem buf_withhold (s : State) (h k : Handle) :
    (s.withhold h).buf k =
      if k = h then
        { s.buf h with
          state := .withheld, custodian := none, target := none, sealed := false, lends := [], expired := 0, inFlight := 0 }
      else s.buf k := buf_setBuf s h k _

/-- A record after an operation on it, as far as the laws of records go: a bare one with no access in flight. -/
structure BufRec.Bare (r : BufRec) : Prop where
  state : r.state = .free ∨ r.state = .scrubbing ∨ r.state = .withheld
  inFlight : r.inFlight = 0
  fits : r.Fits

theorem becomeFree_bare (s : State) (h : Handle) : ((s.becomeFree h).buf h).Bare := by
  rw [buf_becomeFree, if_pos rfl]
  refine ⟨.inl rfl, rfl, ?_⟩
  constructor <;> simp

theorem enterScrubbing_bare (s : State) (h : Handle) : ((s.enterScrubbing h).buf h).Bare := by
  rw [buf_enterScrubbing, if_pos rfl]
  refine ⟨.inr (.inl rfl), rfl, ?_⟩
  constructor <;> simp

theorem withhold_bare (s : State) (h : Handle) : ((s.withhold h).buf h).Bare := by
  rw [buf_withhold, if_pos rfl]
  refine ⟨.inr (.inr rfl), rfl, ?_⟩
  constructor <;> simp

theorem settleRelease_bare (s : State) (h : Handle) : ((s.settleRelease h).buf h).Bare := by
  unfold State.settleRelease
  split
  · exact enterScrubbing_bare s h
  · exact becomeFree_bare s h

theorem buf_settleRelease_ne (s : State) {h k : Handle} (ne : k ≠ h) : (s.settleRelease h).buf k = s.buf k := by
  unfold State.settleRelease
  split
  · rw [buf_enterScrubbing, if_neg ne]
  · rw [buf_becomeFree, if_neg ne]

/-- A record on the release path: a bare one, or DRAINING with its count. -/
theorem releasePath_self (s : State) (h : Handle) :
    ((s.releasePath h).buf h).Bare ∧ (s.buf h).inFlight = 0 ∨
      0 < (s.buf h).inFlight ∧
        (s.releasePath h).buf h =
          { s.buf h with custodian := none, target := none, sealed := false, lends := [], state := .draining } := by
  simp only [State.releasePath]
  split
  · next busy => exact .inr ⟨busy, by rw [buf_setBuf_self, buf_setBuf_self]⟩
  · exact .inl ⟨settleRelease_bare _ h, by omega⟩

theorem buf_releasePath_ne (s : State) {h k : Handle} (ne : k ≠ h) : (s.releasePath h).buf k = s.buf k := by
  simp only [State.releasePath]
  split
  · simp only [buf_setBuf, if_neg ne]
  · rw [buf_settleRelease_ne _ ne, buf_setBuf, if_neg ne]

theorem forceOut_self (s : State) (h : Handle) :
    ((s.forceOut h).buf h).Bare ∧ (s.buf h).inFlight = 0 ∨
      0 < (s.buf h).inFlight ∧
        (s.forceOut h).buf h =
          { s.buf h with custodian := none, target := none, sealed := false, lends := [], state := .draining } := by
  unfold State.forceOut
  split
  · exact releasePath_self (s.leaveQueue _ h) h
  · exact releasePath_self s h

theorem buf_forceOut_ne (s : State) {h k : Handle} (ne : k ≠ h) : (s.forceOut h).buf k = s.buf k := by
  unfold State.forceOut
  split
  · exact buf_releasePath_ne (s.leaveQueue _ h) ne
  · exact buf_releasePath_ne s ne

theorem buf_completeDrain_ne (s : State) {h k : Handle} (ne : k ≠ h) : (s.completeDrain h).buf k = s.buf k := by
  unfold State.completeDrain
  split
  · exact buf_settleRelease_ne s ne
  · rfl

/-- A drain's end leaves a bare record, or nothing changed. -/
theorem completeDrain_self (s : State) (h : Handle) :
    ((s.completeDrain h).buf h).Bare ∧ (s.buf h).inFlight = 0 ∨
      ¬((s.buf h).state = .draining ∧ (s.buf h).inFlight = 0) ∧ (s.completeDrain h).buf h = s.buf h := by
  unfold State.completeDrain
  split
  · next done => exact .inl ⟨settleRelease_bare s h, done.2⟩
  · next busy => exact .inr ⟨busy, rfl⟩

theorem buf_endInFlight_ne (s : State) {h k : Handle} (ne : k ≠ h) : (s.endInFlight h).buf k = s.buf k := by
  rw [State.endInFlight, buf_completeDrain_ne _ ne, buf_setBuf, if_neg ne]

/-- The end of an access leaves a bare record, or one with the count lowered, which the drain's end did not find at 0. -/
theorem endInFlight_self (s : State) (h : Handle) :
    ((s.endInFlight h).buf h).Bare ∧ (s.buf h).inFlight - 1 = 0 ∨
      ¬((s.buf h).state = .draining ∧ (s.buf h).inFlight - 1 = 0) ∧
        (s.endInFlight h).buf h = { s.buf h with inFlight := (s.buf h).inFlight - 1 } := by
  have := completeDrain_self (s.setBuf h { s.buf h with inFlight := (s.buf h).inFlight - 1 }) h
  simpa only [buf_setBuf_self, State.endInFlight] using this

theorem buf_finishScrub_ne (s : State) {k : Handle} (ne : s.scrub.engine.handle ≠ some k) : s.finishScrub.buf k = s.buf k := by
  unfold State.finishScrub
  split
  · next c issuing =>
    rw [issuing] at ne
    split
    · rw [buf_becomeFree, if_neg fun e => ne (congrArg some e.symm)]
      rfl
    · rfl
  all_goals rfl

theorem buf_failScrub_ne (s : State) {k : Handle} (ne : s.scrub.engine.handle ≠ some k) : s.failScrub.buf k = s.buf k := by
  unfold State.failScrub
  split
  · next c failing =>
    rw [failing] at ne
    split
    · rw [buf_withhold, if_neg fun e => ne (congrArg some e.symm)]
      rfl
    · rfl
  all_goals rfl

/-- A scrub's end leaves a bare record, or nothing changed. -/
theorem finishScrub_self (s : State) (k : Handle) : (s.finishScrub.buf k).Bare ∨ s.finishScrub.buf k = s.buf k := by
  by_cases e : s.scrub.engine.handle = some k
  · unfold State.finishScrub
    split
    · next c issuing =>
      rw [issuing] at e
      split
      · exact .inl (Option.some.inj e ▸ becomeFree_bare _ _)
      · exact .inr rfl
    all_goals exact .inr rfl
  · exact .inr (buf_finishScrub_ne s e)

theorem failScrub_self (s : State) (k : Handle) : (s.failScrub.buf k).Bare ∨ s.failScrub.buf k = s.buf k := by
  by_cases e : s.scrub.engine.handle = some k
  · unfold State.failScrub
    split
    · next c failing =>
      rw [failing] at e
      split
      · exact .inl (Option.some.inj e ▸ withhold_bare _ _)
      · exact .inr rfl
    all_goals exact .inr rfl
  · exact .inr (buf_failScrub_ne s e)

/-- A burst's end may end a scrub, and changes no record otherwise. -/
theorem burstEnd_self (s : State) (n : Nat) (good : Bool) (k : Handle) :
    ((s.burstEnd n good).buf k).Bare ∨ (s.burstEnd n good).buf k = s.buf k := by
  unfold State.burstEnd
  split
  · dsimp only
    split
    · exact finishScrub_self { s with scrub.engine := .issuing _ } k
    · exact failScrub_self { s with scrub.engine := .failing _ } k
  · exact failScrub_self { s with scrub.engine := .failing _ } k
  · exact .inr rfl
  · exact .inr rfl

/-- The engine's answer to link DOWN may end a scrub, and changes no record otherwise. -/
theorem scrubLinkDown_self (s : State) (k : Handle) : (s.scrubLinkDown.buf k).Bare ∨ s.scrubLinkDown.buf k = s.buf k := by
  unfold State.scrubLinkDown
  split
  · exact .inr rfl
  · exact failScrub_self { s with scrub.engine := .failing _ } k
  · exact .inr rfl
  · exact .inr rfl

/-- A tag lost with the link: it was free, or the access that held it ends, or a burst loses it. -/
theorem loseTag_cases (s : State) (i : TagIndex) :
    (s.tag i).use = none ∧ s.loseTag i = s ∨
      (∃ a g h m, (s.tag i).use = some ⟨.access a g h, m⟩ ∧
        s.loseTag i =
          ((s.setTag i ⟨(s.tag i).generation + 1, none⟩).endInFlight h).report a g i (s.tag i).generation .memDown []) ∨
      ∃ h n m, (s.tag i).use = some ⟨.burst h n, m⟩ ∧ s.loseTag i = s.setTag i ⟨(s.tag i).generation + 1, none⟩ := by
  unfold State.loseTag
  split
  · next free => exact .inl ⟨free, rfl⟩
  · next u busy =>
    obtain ⟨owner, m⟩ := u
    cases owner with
    | access a g h => exact .inr (.inl ⟨a, g, h, m, busy, rfl⟩)
    | burst h n => exact .inr (.inr ⟨h, n, m, busy, rfl⟩)

/-- A law that each step of a fold keeps, the fold keeps. -/
theorem foldl_keeps_law {β : Type} {law : State → Prop} (f : State → β → State) (each : ∀ s b, law s → law (f s b))
    (l : List β) (s : State) : law s → law (l.foldl f s) := by
  induction l generalizing s with
  | nil => exact id
  | cons b l ih => exact fun h => ih _ (each s b h)

/-- An access passes its checks to a HELD buffer alone. -/
theorem held_of_accessCheck (s : State) (t : Txn) (h : Handle) (passes : s.accessCheck t h = none) :
    (s.buf h).state = .held := by
  unfold State.accessCheck bufferCheck at passes
  split at passes <;> first | assumption | cases passes

/-! ### R3: the fields of a record -/

theorem recordsFit_of_eq {s t : State} (bufs : t.custody.bufs = s.custody.bufs) (f : s.recordsFit) : t.recordsFit := by
  intro h
  rw [State.buf, bufs]
  exact f h

/-- R3 is kept where each record stands as it did or is a bare one. -/
theorem recordsFit_of_bare {s t : State} (each : ∀ k, (t.buf k).Bare ∨ t.buf k = s.buf k) (f : s.recordsFit) :
    t.recordsFit := fun k => (each k).elim (·.fits) fun e => e ▸ f k

/-- R3 is kept where one record changes and fits after it. -/
theorem recordsFit_of_one {s t : State} (h : Handle) (others : ∀ k, k ≠ h → t.buf k = s.buf k) (here : (t.buf h).Fits)
    (f : s.recordsFit) : t.recordsFit := by
  intro k
  by_cases e : k = h
  · exact e ▸ here
  · exact others k e ▸ f k

theorem forceOut_fits (s : State) (h : Handle) (f : s.recordsFit) : (s.forceOut h).recordsFit := by
  refine recordsFit_of_one h (fun k => buf_forceOut_ne s) ?_ f
  rcases forceOut_self s h with ⟨bare, -⟩ | ⟨busy, e⟩
  · exact bare.fits
  · have here := f h
    rw [e]
    constructor <;> simp [busy]

theorem endInFlight_fits (s : State) (h : Handle) (f : s.recordsFit) : (s.endInFlight h).recordsFit := by
  refine recordsFit_of_one h (fun k => buf_endInFlight_ne s) ?_ f
  rcases endInFlight_self s h with ⟨bare, -⟩ | ⟨busy, e⟩
  · exact bare.fits
  · have here := f h
    rw [e]
    exact { here with
      inFlight := fun p => here.inFlight (by simp at p; omega)
      draining := fun d => Nat.pos_of_ne_zero fun z => busy ⟨d, z⟩ }


/-! ### The working image of a group -/

/-- What one entry does to the records of the image, and to the handles it has made FREE or SCRUBBING. -/
inductive Image.Change (im im' : Image) : Prop
  | none (bufs : im'.bufs = im.bufs) (freed : im'.freed = im.freed) (scrubbed : im'.scrubbed = im.scrubbed)
  | define (h : Handle) (r : BufRec) (fits : r.Fits) (was : (nth im.bufs h).state = .void) (becomes : r.state = .free)
      (bufs : im'.bufs = put im.bufs h r) (freed : im'.freed = im.freed.filter (· ≠ h) ++ [h])
      (scrubbed : im'.scrubbed = im.scrubbed)
  | reshape (h : Handle) (r : BufRec) (fits : (nth im.bufs h).Fits → r.Fits) (was : (nth im.bufs h).state = .free)
      (becomes : r.state = .free) (pool : r.pool = (nth im.bufs h).pool) (bufs : im'.bufs = put im.bufs h r)
      (freed : im'.freed = im.freed) (scrubbed : im'.scrubbed = im.scrubbed)
  | scrub (h : Handle) (r : BufRec) (fits : (nth im.bufs h).Fits → r.Fits)
      (was : (nth im.bufs h).state = .void ∨ (nth im.bufs h).state = .free) (becomes : r.state = .scrubbing)
      (bufs : im'.bufs = put im.bufs h r) (freed : im'.freed = im.freed.filter (· ≠ h))
      (scrubbed : im'.scrubbed = im.scrubbed ++ [h])
  | retire (h : Handle) (r : BufRec) (fits : r.Fits)
      (was : (nth im.bufs h).state = .free ∨ (nth im.bufs h).state = .withheld) (becomes : r.state = .void)
      (bufs : im'.bufs = put im.bufs h r) (freed : im'.freed = im.freed.filter (· ≠ h))
      (scrubbed : im'.scrubbed = im.scrubbed)

theorem definedRec_fits (p : PoolId) (base length : Nat) (st : BufState) (h : st = .free ∨ st = .scrubbing) :
    ({ definedRec p base length with state := st } : BufRec).Fits := by
  rcases h with rfl | rfl <;> constructor <;> simp [definedRec, BufRec.reset]

theorem retiredRec_fits (r : BufRec) : (retiredRec r).Fits := by
  constructor <;> simp [retiredRec, BufRec.reset]

/-- A FREE record moved or resized fits as a FREE and as a SCRUBBING one. -/
theorem reshaped_fits (r : BufRec) (base length : Nat) (st : BufState) (h : st = .free ∨ st = .scrubbing)
    (was : r.state = .free) (f : r.Fits) : ({ r with base := base, length := length, state := st } : BufRec).Fits := by
  obtain ⟨custodian, target, shut, lends, lendCount, expired, inFlight, draining, written, place⟩ := f
  rcases h with rfl | rfl <;> constructor <;> simp_all

/-- A FREE buffer moved or resized stays FREE, or becomes SCRUBBING. -/
theorem place_reshape (im : Image) (h : Handle) (base length : Nat) (was : (nth im.bufs h).state = .free) :
    im.Change (im.place h { nth im.bufs h with base := base, length := length }) := by
  unfold Image.place
  split
  · exact .scrub h _ (reshaped_fits _ base length _ (.inr rfl) was) (.inr was) rfl rfl rfl rfl
  · exact .reshape h _ (reshaped_fits _ base length _ (.inl rfl) was) was rfl rfl rfl rfl rfl

/-- Each entry that does not fail makes one change. -/
theorem applyEntry_change {im im' : Image} {e : Edit} (good : applyEntry im e = .ok im') : im.Change im' := by
  cases e with
  | define h p base length =>
    simp only [applyEntry] at good
    split at good
    · cases good
    · next was =>
      split at good
      · cases good
      · cases good
        have was : (nth im.bufs h).state = .void := by simpa using was
        unfold Image.place Image.noteFree
        split
        · exact .scrub h _ (fun _ => definedRec_fits p base length _ (.inr rfl)) (.inl was) rfl rfl (by simp) rfl
        · exact .define h _ (definedRec_fits p base length _ (.inl rfl)) was rfl rfl rfl rfl
  | move h base =>
    simp only [applyEntry] at good
    split at good
    · cases good
    · next was =>
      cases good
      exact place_reshape im h base (nth im.bufs h).length (by simpa using was)
  | resize h length =>
    simp only [applyEntry] at good
    split at good
    · cases good
    · next was =>
      cases good
      exact place_reshape im h (nth im.bufs h).base length (by simpa using was)
  | retire h =>
    simp only [applyEntry] at good
    split at good
    · cases good
    · next was =>
      cases good
      exact .retire h _ (retiredRec_fits _) (by grind) rfl rfl rfl rfl
  | pool p c =>
    cases good
    exact .none rfl rfl rfl
  | unpool p =>
    simp only [applyEntry] at good
    split at good
    · cases good
    · cases good
      exact .none rfl rfl rfl

/-- A law of images that each entry keeps holds of the image that an apply adopts. -/
theorem judge_keeps {law : Image → Prop} (each : ∀ im im' e, applyEntry im e = .ok im' → law im → law im')
    {s : State} {staged : List Edit} {im : Image} (good : s.judge staged = .ok im) (first : law s.image) : law im := by
  have walk (es : List Edit) (k : Nat) (im₀ : Image) (h : walkEntries k im₀ es = .ok im) (l : law im₀) : law im := by
    induction es generalizing k im₀ with
    | nil => cases h; exact l
    | cons e es ih =>
      unfold walkEntries at h
      split at h
      · cases h
      · next im₁ ok => exact ih _ _ h (each _ _ _ ok l)
  unfold State.judge at good
  split at good
  · cases good
  · next im₁ walked =>
    split at good
    · cases good
    · cases good
      exact walk staged 0 s.image walked first

theorem Image.Change.fits {im im' : Image} (c : im.Change im') (f : ∀ h, (nth im.bufs h).Fits) (h : Handle) :
    (nth im'.bufs h).Fits := by
  cases c with
  | none bufs => exact bufs ▸ f h
  | define _ _ fits _ _ bufs => rw [bufs, nth_put]; split <;> simp [fits, f]
  | reshape _ _ fits _ _ _ bufs => rw [bufs, nth_put]; split <;> simp [fits, f]
  | scrub _ _ fits _ _ bufs => rw [bufs, nth_put]; split <;> simp [fits, f]
  | retire _ _ fits _ _ bufs => rw [bufs, nth_put]; split <;> simp [fits, f]


/-! ### R3 after each event -/

theorem claimHead_bufs (s : State) (a : Agent) (p : PoolId) (h k : Handle) (rest : List Handle) :
    (s.claimHead a p h rest).buf k =
      if k = h then
        { s.buf h with
          state := .held, custodian := some a, target := none, sealed := false, written := false, lends := [], expired := 0
          inFlight := 0 }
      else s.buf k := by
  unfold State.claimHead
  dsimp only
  split <;> exact buf_setBuf s h k _

theorem buf_bringBack (s : State) (h k : Handle) :
    (s.bringBack h).buf k = if k = h then { s.buf h with state := .held, target := none } else s.buf k := by
  unfold State.bringBack
  dsimp only
  split <;> exact buf_setBuf _ h k _

theorem claimHead_fits (s : State) (a : Agent) (p : PoolId) (h : Handle) (rest : List Handle) (f : s.recordsFit) :
    (s.claimHead a p h rest).recordsFit := by
  intro k
  rw [claimHead_bufs]
  split
  · constructor <;> simp
  · exact f k

theorem passTo_fits (s : State) (a b : Agent) (h : Handle) (holder : (s.buf h).custodian = some a) (other : b ≠ a)
    (unlent : (s.buf h).lends = []) (f : s.recordsFit) : (s.passTo h b).recordsFit := by
  refine every_setBuf (fun k _ => f k) ?_
  have here := f h
  constructor <;> simp [holder, other, unlent]

/-- A record that becomes HELD, with a custodian and no target, fits. -/
theorem held_fits (r : BufRec) (c : Option Agent) (f : r.Fits) :
    ({ r with state := .held, custodian := c, target := none } : BufRec).Fits := by
  have sealed_ := fun l => (f.lends l).2
  constructor <;> simp_all [f.lendCount]

theorem bringBack_fits (s : State) (h : Handle) (f : s.recordsFit) : (s.bringBack h).recordsFit := by
  intro k
  rw [buf_bringBack]
  split
  · exact held_fits (s.buf h) _ (f h)
  · exact f k

theorem forward_fits (s : State) (t : Txn) (h : Handle) (i : TagIndex) (held : (s.buf h).state = .held)
    (f : s.recordsFit) : (s.forward t h i).recordsFit := by
  refine every_setBuf (s := s) (fun k _ => f k) ?_
  have here := f h
  exact { here with
    inFlight := fun _ => .inl held
    draining := fun _ => Nat.succ_pos _
    written := fun _ => by simp [held] }

theorem endAccess_fits (s : State) (i j : TagIndex) (r : TagRec) (a : Agent) (g : StageTag) (h : Handle) (x : BitVec 2)
    (st : RespStatus) (d : List Byte) (f : s.recordsFit) :
    (((s.setTag i r).endInFlight h).report a g j x st d).recordsFit :=
  recordsFit_of_eq (by simp) (endInFlight_fits (s.setTag i r) h f)

theorem loseTag_fits (s : State) (i : TagIndex) (f : s.recordsFit) : (s.loseTag i).recordsFit := by
  rcases loseTag_cases s i with ⟨-, e⟩ | ⟨a, g, h, m, -, e⟩ | ⟨h, n, m, -, e⟩ <;> rw [e]
  · exact f
  · exact endAccess_fits s i i _ a g h _ _ _ f
  · exact f

/-- R3 is kept by every event. -/
theorem recordsFit_of_event (s t : State) (e : Event s t) (f : s.recordsFit) : t.recordsFit := by
  cases e with
  | aside same => exact recordsFit_of_eq (by rw [same.custody]) f
  | reset pins =>
    intro h
    simp only [State.buf, State.partReset, Custody.reset, nth_replicate]
    constructor <;> simp [BufRec.reset]
  | tend bufs each => exact fun h => (each h).fits (f h)
  | claim => exact claimHead_fits s _ _ _ _ f
  | pass _ holder other unlent _ => exact passTo_fits s _ _ _ holder other unlent f
  | accept => exact every_setBuf (fun k _ => f k) (held_fits _ _ (f _))
  | bringBack => exact bringBack_fits s _ f
  | returnAll a => exact foldl_keeps_law _ bringBack_fits _ s f
  | release => exact forceOut_fits s _ f
  | readmit => exact recordsFit_of_one _ (fun k ne => by rw [buf_becomeFree, if_neg ne]) (becomeFree_bare s _).fits f
  | rescrub =>
    exact recordsFit_of_one _ (fun k ne => by rw [buf_enterScrubbing, if_neg ne]) (enterScrubbing_bare s _).fits f
  | apply good => exact judge_keeps (fun _ _ _ ok => (applyEntry_change ok).fits) good f
  | forward _ _ _ _ passes => exact forward_fits s _ _ _ (held_of_accessCheck s _ _ passes) f
  | hold => exact recordsFit_of_eq (by simp) f
  | unhold => exact recordsFit_of_eq (by simp) f
  | dropUnnamed => exact recordsFit_of_eq (by simp) f
  | cancel => exact recordsFit_of_eq (by simp) f
  | endAccess _ gen status data => exact endAccess_fits s _ _ _ _ _ _ _ status data f
  | drain h =>
    refine recordsFit_of_one h (fun k => buf_completeDrain_ne s) ?_ f
    rcases completeDrain_self s h with ⟨bare, -⟩ | ⟨-, e⟩
    · exact bare.fits
    · exact e ▸ f h
  | takeHead => exact recordsFit_of_eq (by simp) f
  | issueBurst => exact recordsFit_of_eq (by simp) f
  | endBurst _ gen good => exact recordsFit_of_bare (burstEnd_self (s.setTag _ ⟨gen, none⟩) _ good) f
  | finishScrub => exact recordsFit_of_bare (finishScrub_self s) f
  | failScrub => exact recordsFit_of_bare (failScrub_self s) f
  | linkDown =>
    refine recordsFit_of_bare (scrubLinkDown_self _) ?_
    exact foldl_keeps_law _ loseTag_fits _ { s with mem.link := .down } f
  | linkUp => exact recordsFit_of_eq (by simp) f

end Sys2Proof.Machine
end

