-- ==== Sys2Proof/Proofs/Custody.lean ====
section
/-! The law of the custody table (R3, R5): each event keeps it. A handle that changes its place is lifted out of its collection
and put down in another; in between, the law holds of every handle but that one. -/

namespace Sys2Proof.Machine

/-! ### A handle lifted out of its collection -/

/-- R5 for every handle but `h`, which stands nowhere. -/
structure State.Lifted (s : State) (h : Handle) : Prop where
  free : ∀ p k, k ∈ (s.pool p).freeList ↔ k ≠ h ∧ (s.buf k).state = .free ∧ (s.buf k).pool = p
  freeOnce : ∀ p, (s.pool p).freeList.Nodup
  transit : ∀ a k, k ∈ s.queue a ↔ k ≠ h ∧ (s.buf k).state = .inTransit ∧ (s.buf k).target = some a
  transitOnce : ∀ a, (s.queue a).Nodup
  scrub : ∀ k, (k ∈ s.scrub.queue ∨ s.scrub.engine.handle = some k) ↔ k ≠ h ∧ (s.buf k).state = .scrubbing
  scrubOnce : s.scrub.queue.Nodup ∧ ∀ k, s.scrub.engine.handle = some k → k ∉ s.scrub.queue

/-- The states in which a handle stands in no collection. -/
def BufState.apart (st : BufState) : Prop := st ≠ .free ∧ st ≠ .inTransit ∧ st ≠ .scrubbing

/-- A handle that stands in no collection needs no lifting. -/
theorem State.Collected.lifted {s : State} (c : s.Collected) {h : Handle} (apart : (s.buf h).state.apart) : s.Lifted h := by
  obtain ⟨free, freeOnce, transit, transitOnce, scrub, scrubOnce⟩ := c
  unfold BufState.apart at apart
  constructor <;> grind

/-- The head of a free list is lifted by taking it. -/
theorem State.Collected.lift_free {s : State} (c : s.Collected) {p : PoolId} {h : Handle} {rest : List Handle}
    (r : PoolRec) (head : (s.pool p).freeList = h :: rest) (left : r.freeList = rest) : (s.setPool p r).Lifted h := by
  obtain ⟨free, freeOnce, transit, transitOnce, scrub, scrubOnce⟩ := c
  have once := freeOnce p
  have mine := free p
  simp only [head, List.nodup_cons] at once mine
  constructor
  · intro q k
    simp only [pool_setPool, buf_setPool]
    split
    · grind
    · grind
  · intro q
    simp only [pool_setPool]
    split <;> grind
  · grind [queue_setPool, buf_setPool]
  · exact transitOnce
  · grind [setPool_keeps, buf_setPool]
  · exact scrubOnce

/-- A handle is lifted out of an inbound queue. -/
theorem State.Collected.lift_transit {s : State} (c : s.Collected) {a : Agent} {h : Handle}
    (waits : (s.buf h).state = .inTransit) (target : (s.buf h).target = some a) (l : List Handle)
    (left : ∀ k, k ∈ l ↔ k ≠ h ∧ k ∈ s.queue a) (once : l.Nodup) : (s.setQueue a l).Lifted h := by
  obtain ⟨free, freeOnce, transit, transitOnce, scrub, scrubOnce⟩ := c
  constructor
  · grind [pool_setQueue, buf_setQueue]
  · exact freeOnce
  · intro b k
    simp only [queue_setQueue, buf_setQueue]
    grind
  · intro b
    rw [queue_setQueue]
    grind
  · grind [setQueue_keeps, buf_setQueue]
  · exact scrubOnce

/-- A handle that waits leaves its target's queue. -/
theorem State.Collected.leaveQueue {s : State} (c : s.Collected) {a : Agent} {h : Handle}
    (waits : (s.buf h).state = .inTransit) (target : (s.buf h).target = some a) : (s.leaveQueue a h).Lifted h :=
  c.lift_transit waits target _ (fun k => by simp [and_comm]) ((c.transitOnce a).filter _)

/-- The engine's handle is lifted by the engine's turning IDLE. -/
theorem State.Collected.lift_engine {s : State} (c : s.Collected) {h : Handle} (mine : s.scrub.engine.handle = some h) :
    State.Lifted { s with scrub.engine := .idle } h := by
  obtain ⟨free, freeOnce, transit, transitOnce, scrub, scrubOnce⟩ := c
  have state := (scrub h).mp (.inr mine)
  constructor
  · show ∀ p k, k ∈ (s.pool p).freeList ↔ k ≠ h ∧ (s.buf k).state = .free ∧ (s.buf k).pool = p
    grind
  · exact freeOnce
  · show ∀ a k, k ∈ s.queue a ↔ k ≠ h ∧ (s.buf k).state = .inTransit ∧ (s.buf k).target = some a
    grind
  · exact transitOnce
  · intro k
    show (k ∈ s.scrub.queue ∨ Engine.idle.handle = some k) ↔ k ≠ h ∧ (s.buf k).state = .scrubbing
    simp only [Engine.handle]
    grind
  · exact ⟨scrubOnce.1, fun k e => by cases e⟩

/-! ### A handle put down -/

/-- A write of the lifted record leaves it lifted. -/
theorem State.Lifted.setBuf {s : State} {h : Handle} (l : s.Lifted h) (r : BufRec) : (s.setBuf h r).Lifted h := by
  obtain ⟨free, freeOnce, transit, transitOnce, scrub, scrubOnce⟩ := l
  constructor
  · intro p k
    simp only [pool_setBuf, buf_setBuf]
    grind
  · exact freeOnce
  · intro a k
    simp only [queue_setBuf, buf_setBuf]
    grind
  · exact transitOnce
  · intro k
    simp only [setBuf_keeps, buf_setBuf]
    grind
  · exact scrubOnce

/-- A lifted handle whose state wants no collection is put down where it is. -/
theorem State.Lifted.collected {s : State} {h : Handle} (l : s.Lifted h) (apart : (s.buf h).state.apart) : s.Collected := by
  obtain ⟨free, freeOnce, transit, transitOnce, scrub, scrubOnce⟩ := l
  unfold BufState.apart at apart
  constructor <;> grind

/-- A lifted handle gets a record whose state wants no collection. -/
theorem State.Lifted.put {s : State} {h : Handle} (l : s.Lifted h) (r : BufRec) (apart : r.state.apart) :
    (s.setBuf h r).Collected := (l.setBuf r).collected (by rwa [buf_setBuf_self])

/-- A lifted handle joins the tail of its pool's free list. -/
theorem State.Lifted.becomeFree {s : State} {h : Handle} (l : s.Lifted h) : (s.becomeFree h).Collected := by
  obtain ⟨free, freeOnce, transit, transitOnce, scrub, scrubOnce⟩ := l
  constructor
  · intro p k
    simp only [State.becomeFree, pool_setPool, buf_setPool, buf_setBuf, PoolRec.rearm, pool_setBuf]
    grind
  · intro p
    simp only [State.becomeFree, pool_setPool, PoolRec.rearm, pool_setBuf]
    grind
  · intro a k
    simp only [State.becomeFree, queue_setPool, buf_setPool, buf_setBuf, queue_setBuf]
    grind
  · exact transitOnce
  · intro k
    simp only [State.becomeFree, setPool_keeps, setBuf_keeps, buf_setPool, buf_setBuf]
    grind
  · exact scrubOnce

/-- A lifted handle joins the tail of the scrub queue. -/
theorem State.Lifted.enterScrubbing {s : State} {h : Handle} (l : s.Lifted h) : (s.enterScrubbing h).Collected := by
  obtain ⟨free, freeOnce, transit, transitOnce, scrub, scrubOnce⟩ := l
  constructor
  · intro p k
    rw [buf_enterScrubbing]
    show k ∈ (s.pool p).freeList ↔ _
    grind
  · exact freeOnce
  · intro a k
    rw [buf_enterScrubbing]
    show k ∈ s.queue a ↔ _
    grind
  · exact transitOnce
  · intro k
    rw [buf_enterScrubbing]
    simp only [State.enterScrubbing, setBuf_keeps]
    grind
  · simp only [State.enterScrubbing, setBuf_keeps]
    grind

/-- A lifted handle joins the tail of its target's inbound queue. -/
theorem State.Lifted.join {s : State} {h : Handle} {a : Agent} (l : s.Lifted h) (r : BufRec) (waits : r.state = .inTransit)
    (target : r.target = some a) : ((s.setBuf h r).setQueue a (s.queue a ++ [h])).Collected := by
  obtain ⟨free, freeOnce, transit, transitOnce, scrub, scrubOnce⟩ := l
  constructor
  · intro p k
    simp only [pool_setQueue, buf_setQueue, pool_setBuf, buf_setBuf]
    grind
  · exact freeOnce
  · intro b k
    simp only [queue_setQueue, buf_setQueue, queue_setBuf, buf_setBuf]
    grind
  · intro b
    simp only [queue_setQueue, queue_setBuf]
    grind
  · intro k
    simp only [setQueue_keeps, setBuf_keeps, buf_setQueue, buf_setBuf]
    grind
  · exact scrubOnce

theorem State.Lifted.settleRelease {s : State} {h : Handle} (l : s.Lifted h) : (s.settleRelease h).Collected := by
  unfold State.settleRelease
  split
  · exact l.enterScrubbing
  · exact l.becomeFree

theorem State.Lifted.releasePath {s : State} {h : Handle} (l : s.Lifted h) : (s.releasePath h).Collected := by
  unfold State.releasePath
  dsimp only
  split
  · exact (l.setBuf _).put _ (by simp [BufState.apart])
  · exact (l.setBuf _).settleRelease

theorem State.Lifted.withhold {s : State} {h : Handle} (l : s.Lifted h) : (s.withhold h).Collected := by
  have placed := l.put { s.buf h with
    state := .withheld, custodian := none, target := none, sealed := false, lends := [], expired := 0, inFlight := 0 }
    (by simp [BufState.apart])
  exact { placed with }

/-! ### What the law does not speak of -/

/-- R5 speaks of each record's state, pool and target, of the free lists, the inbound queues, the scrub queue and the handle of
the engine alone. -/
theorem State.Collected.congr {s t : State} (c : s.Collected)
    (bufs : ∀ k, (t.buf k).state = (s.buf k).state ∧ (t.buf k).pool = (s.buf k).pool ∧ (t.buf k).target = (s.buf k).target)
    (pools : ∀ p, (t.pool p).freeList = (s.pool p).freeList) (queues : t.custody.queues = s.custody.queues)
    (queue : t.scrub.queue = s.scrub.queue) (engine : t.scrub.engine.handle = s.scrub.engine.handle) : t.Collected := by
  obtain ⟨free, freeOnce, transit, transitOnce, scrub, scrubOnce⟩ := c
  have queues (a : Agent) : t.queue a = s.queue a := by simp only [State.queue, queues]
  constructor
  · intro p k
    rw [pools, (bufs k).1, (bufs k).2.1]
    exact free p k
  · intro p
    rw [pools]
    exact freeOnce p
  · intro a k
    rw [queues, (bufs k).1, (bufs k).2.2]
    exact transit a k
  · intro a
    rw [queues]
    exact transitOnce a
  · intro k
    rw [queue, engine, (bufs k).1]
    exact scrub k
  · rw [queue, engine]
    exact scrubOnce

/-- R5 where the custody unit and the scrub queue are the same. -/
theorem State.Collected.of_eq {s t : State} (c : s.Collected) (custody : t.custody = s.custody)
    (queue : t.scrub.queue = s.scrub.queue) (engine : t.scrub.engine.handle = s.scrub.engine.handle) : t.Collected := by
  refine c.congr (fun k => ?_) (fun p => ?_) (by rw [custody]) queue engine
  · simp only [State.buf, custody, and_self]
  · simp only [State.pool, custody]

/-- R5 where one record changes beside its state, pool and target. -/
theorem State.Collected.setBuf {s : State} (c : s.Collected) {h : Handle} {r : BufRec} (state : r.state = (s.buf h).state)
    (pool : r.pool = (s.buf h).pool) (target : r.target = (s.buf h).target) : (s.setBuf h r).Collected := by
  refine c.congr (fun k => ?_) (fun _ => rfl) rfl rfl rfl
  rw [buf_setBuf]
  grind

/-! ### R5 after each event -/

theorem claimHead_collected {s : State} {p : PoolId} {h : Handle} {rest : List Handle} (a : Agent) (c : s.Collected)
    (head : (s.pool p).freeList = h :: rest) : (s.claimHead a p h rest).Collected := by
  let taken : PoolRec := { s.pool p with
    freeList := rest, tripped := (s.pool p).tripped || decide (rest.length < (s.pool p).lowMark) }
  have placed := (c.lift_free taken head rfl).put { s.buf h with
    state := .held, custodian := some a, target := none, sealed := false, written := false, lends := [], expired := 0
    inFlight := 0 } (by simp [BufState.apart])
  unfold State.claimHead
  dsimp only
  split
  · exact placed.of_eq rfl rfl rfl
  · exact placed

theorem passTo_collected {s : State} {h : Handle} (a : Agent) (c : s.Collected) (held : (s.buf h).state = .held) :
    (s.passTo h a).Collected := (c.lifted (by simp [held, BufState.apart])).join _ rfl rfl

theorem acceptHead_collected {s : State} {a : Agent} {h : Handle} {rest : List Handle} (c : s.Collected)
    (head : s.queue a = h :: rest) : (s.acceptHead a h rest).Collected := by
  have once := c.transitOnce a
  obtain ⟨waits, target⟩ := (c.transit a h).mp (by simp [head])
  rw [head, List.nodup_cons] at once
  have lifted := c.lift_transit waits target rest (fun k => by grind) once.2
  exact lifted.put { s.buf h with state := .held, custodian := some a, target := none } (by simp [BufState.apart])

theorem bringBack_collected {s : State} {h : Handle} {a : Agent} (c : s.Collected) (waits : (s.buf h).state = .inTransit)
    (target : (s.buf h).target = some a) : (s.bringBack h).Collected := by
  unfold State.bringBack
  rw [target]
  exact (c.leaveQueue waits target).put _ (by simp [BufState.apart])

theorem forceOut_collected {s : State} {h : Handle} (c : s.Collected) (r : s.rolesPresent)
    (owned : (s.buf h).state = .held ∨ (s.buf h).state = .inTransit) : (s.forceOut h).Collected := by
  rcases owned with held | waits
  · rw [forceOut_of_held s h held]
    exact (c.lifted (by simp [held, BufState.apart])).releasePath
  · obtain ⟨a, target⟩ := Option.ne_none_iff_exists'.mp ((r h).target waits)
    simp only [State.forceOut, waits, target]
    exact (c.leaveQueue waits target).releasePath

theorem completeDrain_collected {s : State} (h : Handle) (c : s.Collected) : (s.completeDrain h).Collected := by
  unfold State.completeDrain
  split
  · next done => exact (c.lifted (by simp [done.1, BufState.apart])).settleRelease
  · exact c

theorem endInFlight_collected {s : State} (h : Handle) (c : s.Collected) : (s.endInFlight h).Collected :=
  completeDrain_collected h (c.setBuf rfl rfl rfl)

theorem endAccess_collected {s : State} (i j : TagIndex) (r : TagRec) (a : Agent) (g : StageTag) (h : Handle) (x : BitVec 2)
    (st : RespStatus) (d : List Byte) (c : s.Collected) :
    (((s.setTag i r).endInFlight h).report a g j x st d).Collected := by
  have tagged : (s.setTag i r).Collected := c.of_eq rfl rfl rfl
  refine (endInFlight_collected h tagged).of_eq ?_ ?_ ?_ <;> simp

theorem loseTag_collected (s : State) (i : TagIndex) (c : s.Collected) : (s.loseTag i).Collected := by
  rcases loseTag_cases s i with ⟨-, e⟩ | ⟨a, g, h, m, -, e⟩ | ⟨h, n, m, -, e⟩ <;> rw [e]
  · exact c
  · exact endAccess_collected i i _ a g h _ _ _ c
  · exact c.of_eq rfl rfl rfl

theorem finishScrub_collected {s : State} (c : s.Collected) : s.finishScrub.Collected := by
  unfold State.finishScrub
  split
  · next issuing =>
    split
    · exact (c.lift_engine (by rw [issuing]; rfl)).becomeFree
    · exact c
  all_goals exact c

theorem failScrub_collected {s : State} (c : s.Collected) : s.failScrub.Collected := by
  unfold State.failScrub
  split
  · next failing =>
    split
    · exact (c.lift_engine (by rw [failing]; rfl)).withhold
    · exact c
  all_goals exact c

/-- R5 does not speak of what the engine's context holds beside the handle. -/
theorem State.Collected.setEngine {s : State} (c : s.Collected) (e : Engine) (handle : e.handle = s.scrub.engine.handle) :
    State.Collected { s with scrub.engine := e } := c.of_eq rfl rfl handle

theorem burstEnd_collected {s : State} (n : Nat) (good : Bool) (c : s.Collected) : (s.burstEnd n good).Collected := by
  unfold State.burstEnd
  split
  · next issuing =>
    dsimp only
    split
    · exact finishScrub_collected (c.setEngine _ (by rw [issuing]; rfl))
    · exact failScrub_collected (c.setEngine _ (by rw [issuing]; rfl))
  · next failing => exact failScrub_collected (c.setEngine _ (by rw [failing]; rfl))
  · exact c
  · exact c

theorem scrubLinkDown_collected {s : State} (c : s.Collected) : s.scrubLinkDown.Collected := by
  unfold State.scrubLinkDown
  split
  · next issuing => exact c.setEngine _ (by rw [issuing]; rfl)
  · next failing => exact failScrub_collected (c.setEngine _ (by rw [failing]; rfl))
  · exact c
  · exact c

theorem resumeScrub_collected {s : State} (c : s.Collected) : s.resumeScrub.Collected := by
  unfold State.resumeScrub
  split
  · next paused => exact c.setEngine _ (by rw [paused]; rfl)
  all_goals exact c

theorem takeHead_collected {s : State} (c : s.Collected) : s.takeHead.Collected := by
  unfold State.takeHead
  split
  · next h rest idle _ queue =>
    obtain ⟨free, freeOnce, transit, transitOnce, scrub, scrubOnce⟩ := c
    rw [queue, List.nodup_cons] at scrubOnce
    refine ⟨free, freeOnce, transit, transitOnce, fun k => ?_, scrubOnce.1.2, ?_⟩
    · show (k ∈ rest ∨ some h = some k) ↔ (s.buf k).state = .scrubbing
      rw [← scrub k, queue, idle]
      simp only [Engine.handle]
      grind
    · intro k e
      cases e
      exact scrubOnce.1.1
  · exact c

theorem issueBurst_handle (s : State) (i : TagIndex) : (s.issueBurst i).scrub.engine.handle = s.scrub.engine.handle := by
  unfold State.issueBurst
  split
  · next issuing => rw [issuing]; rfl
  all_goals rfl

theorem forward_collected {s : State} (t : Txn) (h : Handle) (i : TagIndex) (c : s.Collected) :
    (s.forward t h i).Collected :=
  (c.setBuf (h := h)
    (r := { s.buf h with inFlight := (s.buf h).inFlight + 1, written := (s.buf h).written || decide (t.kind = .write) })
    rfl rfl rfl).of_eq rfl rfl rfl

theorem tend_collected {s : State} (bufs : Vector BufRec 511) (each : ∀ h, (s.buf h).Tended (nth bufs h))
    (c : s.Collected) : State.Collected { s with custody.bufs := bufs } := by
  refine c.congr (fun k => ?_) (fun _ => rfl) rfl rfl rfl
  show (nth bufs k).state = _ ∧ (nth bufs k).pool = _ ∧ (nth bufs k).target = _
  rw [(each k).rest]
  exact ⟨rfl, rfl, rfl⟩

theorem partReset_collected (s : State) (pins : BitVec 2) : (s.partReset pins).Collected := by
  constructor <;>
    simp [State.partReset, State.pool, State.buf, State.queue, Custody.reset, PoolRec.reset, BufRec.reset, ScrubUnit.reset,
      Engine.handle]

/-! ### R5 after an apply -/

/-- How a working image stands to the table that the apply found. -/
structure Image.Follows (s : State) (im : Image) : Prop where
  kept : ∀ h, nth im.bufs h = s.buf h ∨
    ((s.buf h).state = .void ∨ (s.buf h).state = .free ∨ (s.buf h).state = .withheld) ∧
      ((nth im.bufs h).state = .void ∨ (nth im.bufs h).state = .free ∨ (nth im.bufs h).state = .scrubbing)
  freedOnce : im.freed.Nodup
  free : ∀ h, (nth im.bufs h).state = .free →
    h ∈ im.freed ∨ (s.buf h).state = .free ∧ (s.buf h).pool = (nth im.bufs h).pool
  scrubbed : ∀ h, h ∈ im.scrubbed ↔ (nth im.bufs h).state = .scrubbing ∧ (s.buf h).state ≠ .scrubbing
  scrubbedOnce : im.scrubbed.Nodup

theorem image_follows (s : State) : s.image.Follows s :=
  ⟨fun _ => .inl rfl, .nil, fun _ free => .inr ⟨free, rfl⟩, fun h => by simp [State.image, State.buf], .nil⟩

theorem Image.Change.follows {s : State} {im im' : Image} (c : im.Change im') (f : im.Follows s) : im'.Follows s := by
  obtain ⟨kept, freedOnce, free, scrubbed, scrubbedOnce⟩ := f
  cases c with
  | none bufs freed scrub =>
    exact ⟨by rwa [bufs], by rwa [freed], by rwa [bufs, freed], by rwa [bufs, scrub], by rwa [scrub]⟩
  | define h r _ was becomes bufs freed scrub =>
    constructor <;> simp only [bufs, freed, scrub, nth_put] <;> grind
  | reshape h r _ was becomes pool bufs freed scrub =>
    constructor <;> simp only [bufs, freed, scrub, nth_put] <;> grind
  | scrub h r _ was becomes bufs freed scrub =>
    constructor <;> simp only [bufs, freed, scrub, nth_put] <;> grind
  | retire h r _ was becomes bufs freed scrub =>
    constructor <;> simp only [bufs, freed, scrub, nth_put] <;> grind

theorem judge_follows {s : State} {staged : List Edit} {im : Image} (good : s.judge staged = .ok im) : im.Follows s :=
  judge_keeps (fun _ _ _ ok => (applyEntry_change ok).follows) good (image_follows s)

theorem freeIn_iff (r : BufRec) (p : PoolId) : r.freeIn p = true ↔ r.state = .free ∧ r.pool = p := by
  simp [BufRec.freeIn]

/-- Two lists without repeats and without a common handle make one. -/
theorem nodup_append_of_apart {l m : List Handle} (left : l.Nodup) (right : m.Nodup) (apart : ∀ h ∈ l, h ∉ m) :
    (l ++ m).Nodup :=
  List.nodup_append.mpr ⟨left, right, fun h old _ new same => apart h old (same ▸ new)⟩

/-- R161: after an apply a free list holds the FREE buffers of its pool, each once. -/
theorem freeListAfter_lawful {s : State} {im : Image} (c : s.Collected) (f : im.Follows s) (p : PoolId) :
    (∀ h, h ∈ freeListAfter s im p ↔ (nth im.bufs h).state = .free ∧ (nth im.bufs h).pool = p) ∧
      (freeListAfter s im p).Nodup := by
  unfold freeListAfter
  constructor
  · intro h
    have stays := c.free p h
    have newly := f.free h
    simp only [List.mem_append, List.mem_filter, Bool.and_eq_true, Bool.not_eq_true', ← Bool.not_eq_true, freeIn_iff]
    grind
  · refine nodup_append_of_apart ((c.freeOnce p).filter _) (f.freedOnce.filter _) fun h old new => ?_
    have mine := (c.free p h).mp (List.mem_filter.mp old).1
    have fresh := (List.mem_filter.mp new).2
    simp only [Bool.and_eq_true, Bool.not_eq_true', ← Bool.not_eq_true, freeIn_iff] at fresh
    exact fresh.2 mine

theorem adopt_collected {s : State} {im : Image} (c : s.Collected) (f : im.Follows s) : (s.adopt im).Collected := by
  have pool (p : PoolId) : ((s.adopt im).pool p).freeList = freeListAfter s im p := by
    simp only [State.pool, State.adopt, nth_ofFn, PoolRec.setLowFlag]
  have lists := freeListAfter_lawful c f
  constructor
  · intro p h
    rw [pool]
    exact (lists p).1 h
  · intro p
    rw [pool]
    exact (lists p).2
  · intro a h
    have waits := c.transit a h
    have kept := f.kept h
    show h ∈ s.queue a ↔ (nth im.bufs h).state = .inTransit ∧ (nth im.bufs h).target = some a
    grind
  · exact c.transitOnce
  · intro h
    have scrub := c.scrub h
    have kept := f.kept h
    have scrubbed := f.scrubbed h
    show h ∈ s.scrub.queue ++ im.scrubbed ∨ s.scrub.engine.handle = some h ↔ (nth im.bufs h).state = .scrubbing
    rw [List.mem_append]
    grind
  · have fresh (h : Handle) (new : h ∈ im.scrubbed) : h ∉ s.scrub.queue ∧ s.scrub.engine.handle ≠ some h := by
      have scrub := c.scrub h
      have scrubbed := f.scrubbed h
      grind
    refine ⟨nodup_append_of_apart c.scrubOnce.1 f.scrubbedOnce fun h old new => (fresh h new).1 old,
      fun h (mine : s.scrub.engine.handle = some h) => ?_⟩
    have apart := c.scrubOnce.2 h mine
    show h ∉ s.scrub.queue ++ im.scrubbed
    grind

/-! ### R3, the fields that are present -/

theorem BufRec.Bare.roles {r : BufRec} (b : r.Bare) : r.RolesPresent := by
  constructor <;> grind [b.state]

theorem rolesPresent_of_eq {s t : State} (bufs : t.custody.bufs = s.custody.bufs) (r : s.rolesPresent) : t.rolesPresent := by
  intro h
  rw [State.buf, bufs]
  exact r h

theorem rolesPresent_of_bare {s t : State} (each : ∀ k, (t.buf k).Bare ∨ t.buf k = s.buf k) (r : s.rolesPresent) :
    t.rolesPresent := fun k => (each k).elim (·.roles) fun e => e ▸ r k

theorem rolesPresent_of_one {s t : State} (h : Handle) (others : ∀ k, k ≠ h → t.buf k = s.buf k)
    (here : (t.buf h).RolesPresent) (r : s.rolesPresent) : t.rolesPresent := by
  intro k
  by_cases e : k = h
  · exact e ▸ here
  · exact others k e ▸ r k

theorem forceOut_roles (s : State) (h : Handle) (r : s.rolesPresent) : (s.forceOut h).rolesPresent := by
  refine rolesPresent_of_one h (fun k => buf_forceOut_ne s) ?_ r
  rcases forceOut_self s h with ⟨bare, -⟩ | ⟨-, e⟩
  · exact bare.roles
  · rw [e]
    constructor <;> simp

theorem endAccess_roles (s : State) (i j : TagIndex) (x : TagRec) (a : Agent) (g : StageTag) (h : Handle) (y : BitVec 2)
    (st : RespStatus) (d : List Byte) (r : s.rolesPresent) :
    (((s.setTag i x).endInFlight h).report a g j y st d).rolesPresent := by
  have ended : ((s.setTag i x).endInFlight h).rolesPresent := by
    refine rolesPresent_of_one (s := s.setTag i x) h (fun k => buf_endInFlight_ne _) ?_ r
    rcases endInFlight_self (s.setTag i x) h with ⟨bare, -⟩ | ⟨-, e⟩
    · exact bare.roles
    · rw [e]
      exact { r h with }
  exact rolesPresent_of_eq (by simp) ended

theorem loseTag_roles (s : State) (i : TagIndex) (r : s.rolesPresent) : (s.loseTag i).rolesPresent := by
  rcases loseTag_cases s i with ⟨-, e⟩ | ⟨a, g, h, m, -, e⟩ | ⟨h, n, m, -, e⟩ <;> rw [e]
  · exact r
  · exact endAccess_roles s i i _ a g h _ _ _ r
  · exact r

theorem bringBack_roles (s : State) (h : Handle) (holder : (s.buf h).custodian ≠ none) (r : s.rolesPresent) :
    (s.bringBack h).rolesPresent := by
  intro k
  rw [buf_bringBack]
  split
  · constructor <;> simp [holder]
  · exact r k

/-- A queue returned handle by handle: the table is lawful after each. -/
theorem returnAll_lawful (a : Agent) (l : List Handle) (s : State) (once : l.Nodup)
    (wait : ∀ h ∈ l, (s.buf h).state = .inTransit ∧ (s.buf h).target = some a) (r : s.rolesPresent) (c : s.Collected) :
    (l.foldl State.bringBack s).rolesPresent ∧ (l.foldl State.bringBack s).Collected := by
  induction l generalizing s with
  | nil => exact ⟨r, c⟩
  | cons h l ih =>
    obtain ⟨waits, target⟩ := wait h (by simp)
    rw [List.nodup_cons] at once
    refine ih _ once.2 (fun k mem => ?_) (bringBack_roles s h ((r h).custodian (.inr waits)) r)
      (bringBack_collected c waits target)
    rw [buf_bringBack, if_neg (by grind)]
    exact wait k (by simp [mem])

theorem Image.Follows.roles {s : State} {im : Image} (f : im.Follows s) (r : s.rolesPresent) (h : Handle) :
    (nth im.bufs h).RolesPresent := by
  rcases f.kept h with e | ⟨-, state⟩
  · exact e ▸ r h
  · constructor <;> grind

theorem tend_roles {s : State} (bufs : Vector BufRec 511) (each : ∀ h, (s.buf h).Tended (nth bufs h))
    (r : s.rolesPresent) : State.rolesPresent { s with custody.bufs := bufs } := by
  intro h
  show (nth bufs h).RolesPresent
  rw [(each h).rest]
  exact { r h with }

/-! ### R3 and R5 -/

/-- In a lawful table the present half of R3, and R5, are kept by every event. -/
theorem rolesCollected_of_event (s t : State) (e : Event s t) (law : s.custodyLawful) : t.rolesPresent ∧ t.Collected := by
  obtain ⟨f, r, c⟩ := law
  cases e with
  | aside same =>
    exact ⟨rolesPresent_of_eq (by rw [same.custody]) r, c.of_eq same.custody (by rw [same.scrub]) (by rw [same.scrub])⟩
  | reset pins =>
    refine ⟨fun h => ?_, partReset_collected s pins⟩
    simp only [State.buf, State.partReset, Custody.reset, nth_replicate]
    constructor <;> simp [BufRec.reset]
  | tend bufs each => exact ⟨tend_roles bufs each r, tend_collected bufs each c⟩
  | claim head =>
    refine ⟨fun k => ?_, claimHead_collected _ c head⟩
    rw [claimHead_bufs]
    split
    · constructor <;> simp
    · exact r k
  | pass held holder =>
    refine ⟨every_setBuf (fun k _ => r k) ?_, passTo_collected _ c held⟩
    constructor <;> simp [holder]
  | accept head =>
    refine ⟨every_setBuf (fun k _ => r k) ?_, acceptHead_collected c head⟩
    constructor <;> simp
  | bringBack waits =>
    obtain ⟨a, target⟩ := Option.ne_none_iff_exists'.mp ((r _).target waits)
    exact ⟨bringBack_roles s _ ((r _).custodian (.inr waits)) r, bringBack_collected c waits target⟩
  | returnAll a => exact returnAll_lawful a _ s (c.transitOnce a) (fun h => (c.transit a h).mp) r c
  | release owned =>
    refine ⟨forceOut_roles s _ r, forceOut_collected c r ?_⟩
    rcases owned with held | waits | holder
    · exact .inl held
    · exact .inr waits
    · exact (f _).custodian holder
  | readmit withheld =>
    refine ⟨rolesPresent_of_one _ (fun k ne => by rw [buf_becomeFree, if_neg ne]) (becomeFree_bare s _).roles r, ?_⟩
    exact (c.lifted (by simp [withheld, BufState.apart])).becomeFree
  | rescrub withheld =>
    refine ⟨rolesPresent_of_one _ (fun k ne => by rw [buf_enterScrubbing, if_neg ne]) (enterScrubbing_bare s _).roles r, ?_⟩
    exact (c.lifted (by simp [withheld, BufState.apart])).enterScrubbing
  | apply good =>
    have follows := judge_follows good
    exact ⟨follows.roles r, adopt_collected c follows⟩
  | forward => exact ⟨every_setBuf (s := s) (fun k _ => r k) { r _ with }, forward_collected _ _ _ c⟩
  | hold => exact ⟨rolesPresent_of_eq (by simp) r, c.of_eq (by simp) (by simp) (by simp)⟩
  | unhold => exact ⟨rolesPresent_of_eq (by simp) r, c.of_eq (by simp) (by simp) (by simp)⟩
  | dropUnnamed => exact ⟨rolesPresent_of_eq (by simp) r, c.of_eq (by simp) (by simp) (by simp)⟩
  | cancel => exact ⟨rolesPresent_of_eq (by simp) r, c.of_eq (by simp) (by simp) (by simp)⟩
  | endAccess _ gen status data =>
    exact ⟨endAccess_roles s _ _ _ _ _ _ _ status data r, endAccess_collected _ _ _ _ _ _ _ status data c⟩
  | drain h =>
    refine ⟨rolesPresent_of_one h (fun k => buf_completeDrain_ne s) ?_ r, completeDrain_collected h c⟩
    rcases completeDrain_self s h with ⟨bare, -⟩ | ⟨-, e⟩
    · exact bare.roles
    · exact e ▸ r h
  | takeHead => exact ⟨rolesPresent_of_eq (by simp) r, takeHead_collected c⟩
  | issueBurst =>
    exact ⟨rolesPresent_of_eq (by simp) r, c.of_eq (by simp) (by simp) (issueBurst_handle s _)⟩
  | endBurst _ gen good =>
    have tagged (i : TagIndex) : (s.setTag i ⟨gen, none⟩).Collected := c.of_eq rfl rfl rfl
    exact ⟨rolesPresent_of_bare (burstEnd_self (s.setTag _ ⟨gen, none⟩) _ good) r, burstEnd_collected _ good (tagged _)⟩
  | finishScrub => exact ⟨rolesPresent_of_bare (finishScrub_self s) r, finishScrub_collected c⟩
  | failScrub => exact ⟨rolesPresent_of_bare (failScrub_self s) r, failScrub_collected c⟩
  | linkDown =>
    have down : State.Collected { s with mem.link := .down } := c.of_eq rfl rfl rfl
    exact ⟨rolesPresent_of_bare (scrubLinkDown_self _) (foldl_keeps_law _ loseTag_roles _ { s with mem.link := .down } r),
      scrubLinkDown_collected (foldl_keeps_law _ loseTag_collected _ _ down)⟩
  | linkUp =>
    have up : State.Collected { s with mem.link := .up } := c.of_eq rfl rfl rfl
    exact ⟨rolesPresent_of_eq (by simp) r, resumeScrub_collected up⟩

theorem custodyLawful_of_event (s t : State) (e : Event s t) (law : s.custodyLawful) : t.custodyLawful :=
  ⟨recordsFit_of_event s t e law.1, rolesCollected_of_event s t e law⟩

/-- Settles O7: the table is lawful after each of the events that a step is made of. -/
theorem custodyTableStaysLawful : Obligations.CustodyTableStaysLawful :=
  fun _ _ law taken => step_keeps custodyLawful_of_event taken law

/-- Settles O6: R3's absent fields by the events alone, its present ones with the lawful table. -/
theorem recordsKeepTheirFields : Obligations.RecordsKeepTheirFields :=
  fun s t taken => ⟨step_keeps recordsFit_of_event taken, fun law => (custodyTableStaysLawful s t law taken).2.1⟩

end Sys2Proof.Machine
end

