-- ==== Sys2Proof/Proofs/Tags.lean ====
section
/-! The memory tags: what each operation does with them, and that the in-flight counts agree with them (R10, R120). -/

namespace Sys2Proof.Machine

/-! ### The owner of a tag -/

/-- Whom a tag is held for, if it is busy. The laws of tags speak of the owner, not of the time left. -/
def TagRec.owner (r : TagRec) : Option Owner := r.use.map TagUse.owner

theorem owner_eq_some (r : TagRec) (o : Owner) : r.owner = some o ↔ ∃ m, r.use = some ⟨o, m⟩ := by
  unfold TagRec.owner
  rw [Option.map_eq_some_iff]
  constructor
  · rintro ⟨⟨o', m⟩, e, rfl⟩
    exact ⟨m, e⟩
  · rintro ⟨m, e⟩
    exact ⟨_, e, rfl⟩

theorem owner_of_busy {r : TagRec} {o : Owner} {m : Nat} (busy : r.use = some ⟨o, m⟩) : r.owner = some o :=
  (owner_eq_some r o).mpr ⟨m, busy⟩

theorem owner_eq_none (r : TagRec) : r.owner = none ↔ r.use = none := Option.map_eq_none_iff

@[simp] theorem owner_free (g : BitVec 2) : (⟨g, none⟩ : TagRec).owner = none := rfl
@[simp] theorem owner_busy (g : BitVec 2) (o : Owner) (m : Nat) : (⟨g, some ⟨o, m⟩⟩ : TagRec).owner = some o := rfl

theorem heldFor_iff (r : TagRec) (h : Handle) : r.heldFor h = true ↔ ∃ a g, r.owner = some (.access a g h) := by
  unfold TagRec.heldFor TagRec.owner
  split
  · next e => simp [e]
  · next e => simp [e]
  · next e => simp [e]

theorem heldFor_of_owner {r r' : TagRec} (e : r'.owner = r.owner) (h : Handle) : r'.heldFor h = r.heldFor h := by
  rw [Bool.eq_iff_iff, heldFor_iff, heldFor_iff, e]

/-! ### Counting tags -/

/-- Two tests that differ at one place alone count alike, but for that place. -/
theorem length_filter_update {n : Nat} (p q : Fin n → Bool) (i : Fin n) (same : ∀ j, j ≠ i → q j = p j) :
    ((List.finRange n).filter q).length + (p i).toNat = ((List.finRange n).filter p).length + (q i).toNat := by
  have split (f : Fin n → Bool) :
      ((List.finRange n).filter f).length = (((List.finRange n).erase i).filter f).length + (f i).toNat := by
    rw [((List.perm_cons_erase (List.mem_finRange i)).filter f).length_eq, List.filter_cons]
    cases f i <;> simp
  have rest : ((List.finRange n).erase i).filter q = ((List.finRange n).erase i).filter p :=
    List.filter_congr fun j mem => same j ((List.nodup_finRange n).mem_erase_iff.mp mem).1
  rw [split p, split q, rest]
  omega

/-- The number of tags that accesses to a buffer hold. -/
def State.accessTags (s : State) (h : Handle) : Nat := ((List.finRange 64).filter fun i => (s.tag i).heldFor h).length

theorem inFlightCounted_iff (s : State) : s.inFlightCounted ↔ ∀ h, (s.buf h).inFlight = s.accessTags h := Iff.rfl

/-- A tag written: the count changes by what it was held for and what it is held for. -/
theorem accessTags_setTag (s : State) (i : TagIndex) (r : TagRec) (h : Handle) :
    (s.setTag i r).accessTags h + ((s.tag i).heldFor h).toNat = s.accessTags h + (r.heldFor h).toNat := by
  have := length_filter_update (fun j => (s.tag j).heldFor h) (fun j => ((s.setTag i r).tag j).heldFor h) i
    fun j ne => by simp only [tag_setTag, if_neg ne]
  simpa only [State.accessTags, tag_setTag, if_true] using this

theorem accessTags_of_owner {s t : State} (tags : ∀ i, (t.tag i).owner = (s.tag i).owner) (h : Handle) :
    t.accessTags h = s.accessTags h := by
  unfold State.accessTags
  simp only [heldFor_of_owner (tags _)]

theorem accessTags_of_eq {s t : State} (tags : t.mem.tags = s.mem.tags) (h : Handle) : t.accessTags h = s.accessTags h :=
  accessTags_of_owner (fun i => by rw [State.tag, tags]; rfl) h

/-- The counts agree still where neither a count nor the tags of a buffer change. -/
theorem inFlightCounted_congr {s t : State} (n : s.inFlightCounted) (counts : ∀ k, (t.buf k).inFlight = (s.buf k).inFlight)
    (tags : ∀ k, t.accessTags k = s.accessTags k) : t.inFlightCounted := by
  intro h
  exact (counts h).trans ((n h).trans (tags h).symm)

/-! ### Counts that do not change -/

/-- R3: outside HELD, IN_TRANSIT and DRAINING no access is in flight. -/
theorem BufRec.Fits.idle {r : BufRec} (f : r.Fits)
    (state : r.state ≠ .held ∧ r.state ≠ .inTransit ∧ r.state ≠ .draining) : r.inFlight = 0 := by
  have := f.inFlight
  grind

theorem inFlight_setBuf (s : State) (h : Handle) (r : BufRec) (same : r.inFlight = (s.buf h).inFlight) (k : Handle) :
    ((s.setBuf h r).buf k).inFlight = (s.buf k).inFlight := by
  rw [buf_setBuf]
  split
  · next e => rw [e, same]
  · rfl

theorem forceOut_inFlight (s : State) (h k : Handle) : ((s.forceOut h).buf k).inFlight = (s.buf k).inFlight := by
  by_cases e : k = h
  · subst e
    rcases forceOut_self s k with ⟨bare, zero⟩ | ⟨-, e⟩
    · rw [bare.inFlight, zero]
    · rw [e]
  · rw [buf_forceOut_ne s e]

theorem completeDrain_inFlight (s : State) (h k : Handle) : ((s.completeDrain h).buf k).inFlight = (s.buf k).inFlight := by
  by_cases e : k = h
  · subst e
    rcases completeDrain_self s k with ⟨bare, zero⟩ | ⟨-, e⟩
    · rw [bare.inFlight, zero]
    · rw [e]
  · rw [buf_completeDrain_ne s e]

theorem bringBack_inFlight (s : State) (h k : Handle) : ((s.bringBack h).buf k).inFlight = (s.buf k).inFlight := by
  rw [buf_bringBack]
  split
  · next e => rw [e]
  · rfl

/-- The end of an access lowers its buffer's count by one, and no other. -/
theorem endInFlight_inFlight (s : State) (h k : Handle) :
    ((s.endInFlight h).buf k).inFlight = if k = h then (s.buf h).inFlight - 1 else (s.buf k).inFlight := by
  rw [State.endInFlight, completeDrain_inFlight, buf_setBuf]
  split <;> rfl

theorem buf_burstEnd_ne (s : State) (n : Nat) (good : Bool) {k : Handle} (ne : s.scrub.engine.handle ≠ some k) :
    (s.burstEnd n good).buf k = s.buf k := by
  unfold State.burstEnd
  split
  · next issuing =>
    rw [issuing] at ne
    dsimp only
    split
    · exact buf_finishScrub_ne { s with scrub.engine := .issuing _ } ne
    · exact buf_failScrub_ne { s with scrub.engine := .failing _ } ne
  · next failing =>
    rw [failing] at ne
    exact buf_failScrub_ne { s with scrub.engine := .failing _ } ne
  · rfl
  · rfl

theorem buf_scrubLinkDown_ne (s : State) {k : Handle} (ne : s.scrub.engine.handle ≠ some k) :
    s.scrubLinkDown.buf k = s.buf k := by
  unfold State.scrubLinkDown
  split
  · rfl
  · next failing =>
    rw [failing] at ne
    exact buf_failScrub_ne { s with scrub.engine := .failing _ } ne
  · rfl
  · rfl

/-- In a lawful table the buffer that the engine scrubs has no access in flight, so the end of its scrub changes no count. -/
theorem inFlight_of_scrub {s t : State} (law : s.custodyLawful)
    (others : ∀ k, s.scrub.engine.handle ≠ some k → t.buf k = s.buf k)
    (each : ∀ k, (t.buf k).Bare ∨ t.buf k = s.buf k) (k : Handle) : (t.buf k).inFlight = (s.buf k).inFlight := by
  obtain ⟨f, -, c⟩ := law
  by_cases mine : s.scrub.engine.handle = some k
  · have scrubbing := (c.scrub k).mp (.inr mine)
    rcases each k with bare | e
    · rw [bare.inFlight, (f k).idle (by simp [scrubbing])]
    · rw [e]
  · rw [others k mine]

/-! ### R10 after each event -/

/-- R10 in a lawful table: what every event keeps. -/
def State.counted (s : State) : Prop := s.custodyLawful ∧ s.inFlightCounted

theorem report_accessTags (s : State) (a : Agent) (g : StageTag) (i : TagIndex) (x : BitVec 2) (st : RespStatus)
    (d : List Byte) (h : Handle) : (s.report a g i x st d).accessTags h = s.accessTags h :=
  accessTags_of_eq (by simp) h

/-- An access that ends frees its tag and lowers its buffer's count. -/
theorem endAccess_counted {s : State} {i : TagIndex} {a : Agent} {g : StageTag} {h : Handle} {m : Nat}
    (busy : (s.tag i).use = some ⟨.access a g h, m⟩) (gen : BitVec 2) (status : RespStatus) (data : List Byte)
    (n : s.inFlightCounted) :
    (((s.setTag i ⟨gen, none⟩).endInFlight h).report a g i (s.tag i).generation status data).inFlightCounted := by
  intro k
  have count : ((((s.setTag i ⟨gen, none⟩).endInFlight h).report a g i (s.tag i).generation status data).buf k).inFlight =
      if k = h then (s.buf h).inFlight - 1 else (s.buf k).inFlight := by
    rw [State.buf, (report_keeps _ _ _ _ _ _ _).1]
    exact endInFlight_inFlight (s.setTag i ⟨gen, none⟩) h k
  have tags : (((s.setTag i ⟨gen, none⟩).endInFlight h).report a g i (s.tag i).generation status data).accessTags k =
      (s.setTag i ⟨gen, none⟩).accessTags k := by
    rw [report_accessTags]
    exact accessTags_of_eq (by simp) k
  have freed := accessTags_setTag s i ⟨gen, none⟩ k
  have held : (s.tag i).heldFor k = decide (k = h) := by
    rw [Bool.eq_iff_iff, heldFor_iff, owner_of_busy busy]
    simp [eq_comm]
  have free : (⟨gen, none⟩ : TagRec).heldFor k = false := rfl
  rw [held, free] at freed
  refine count.trans (Eq.trans ?_ tags.symm)
  have before := n k
  change _ = s.accessTags k at before
  by_cases e : k = h
  · subst e
    simp at freed ⊢
    omega
  · simp [e] at freed ⊢
    omega

/-- A tag that no access holds, written so that none holds it, counts for no buffer. -/
theorem accessTags_setTag_unheld (s : State) (i : TagIndex) (r : TagRec) (h : Handle) (before : (s.tag i).heldFor h = false)
    (after : r.heldFor h = false) : (s.setTag i r).accessTags h = s.accessTags h := by
  have := accessTags_setTag s i r h
  rw [before, after] at this
  exact Nat.add_right_cancel this

theorem heldFor_burst {r : TagRec} {h : Handle} {n m : Nat} (busy : r.use = some ⟨.burst h n, m⟩) (k : Handle) :
    r.heldFor k = false := by
  rw [← Bool.not_eq_true, heldFor_iff, owner_of_busy busy]
  simp

theorem heldFor_free {r : TagRec} (free : r.use = none) (k : Handle) : r.heldFor k = false := by
  rw [← Bool.not_eq_true, heldFor_iff, (owner_eq_none r).mpr free]
  simp

theorem loseTag_counted (s : State) (i : TagIndex) (law : s.counted) : (s.loseTag i).counted := by
  obtain ⟨lawful, n⟩ := law
  obtain ⟨f, r, c⟩ := lawful
  refine ⟨⟨loseTag_fits s i f, loseTag_roles s i r, loseTag_collected s i c⟩, ?_⟩
  rcases loseTag_cases s i with ⟨-, e⟩ | ⟨a, g, h, m, busy, e⟩ | ⟨h, k, m, busy, e⟩ <;> rw [e]
  · exact n
  · exact endAccess_counted busy _ _ _ n
  · exact inFlightCounted_congr n (fun _ => rfl)
      (fun k => accessTags_setTag_unheld s i _ k (heldFor_burst busy k) rfl)

/-- A forwarded access takes a tag and raises its buffer's count. -/
theorem forward_counted {s : State} {t : Txn} {h : Handle} {i : TagIndex} (free : (s.tag i).use = none)
    (n : s.inFlightCounted) : (s.forward t h i).inFlightCounted := by
  intro k
  have taken := accessTags_setTag s i ⟨(s.tag i).generation, some ⟨.access t.agent t.tag h, s.mgmt.memLimit⟩⟩ k
  have held : (⟨(s.tag i).generation, some ⟨.access t.agent t.tag h, s.mgmt.memLimit⟩⟩ : TagRec).heldFor k =
      decide (h = k) := rfl
  rw [heldFor_free free, held] at taken
  have before := n k
  change _ = s.accessTags k at before
  show (State.buf (s.setBuf h _) k).inFlight = State.accessTags (s.setTag i _) k
  rw [buf_setBuf]
  by_cases e : k = h
  · subst e
    simp at taken ⊢
    omega
  · simp [e, Ne.symm e] at taken ⊢
    omega

theorem issueBurst_accessTags {s : State} {i : TagIndex} (free : (s.tag i).use = none) (h : Handle) :
    (s.issueBurst i).accessTags h = s.accessTags h := by
  unfold State.issueBurst
  split
  · exact accessTags_setTag_unheld s i _ h (heldFor_free free h) rfl
  all_goals rfl

theorem partReset_counted (s : State) (pins : BitVec 2) : (s.partReset pins).inFlightCounted := by
  refine (inFlightCounted_iff _).mpr fun h => ?_
  have unheld : (s.partReset pins).accessTags h = 0 := by
    rw [State.accessTags, List.length_eq_zero_iff, List.filter_eq_nil_iff]
    simp [State.partReset, State.tag, MemPort.reset, TagRec.heldFor]
  rw [unheld]
  simp [State.partReset, State.buf, Custody.reset, BufRec.reset]

/-- An apply changes the record of no buffer that has an access in flight. -/
theorem judge_inFlight {s : State} {staged : List Edit} {im : Image} (good : s.judge staged = .ok im) (f : s.recordsFit)
    (h : Handle) : (nth im.bufs h).inFlight = (s.buf h).inFlight := by
  have fits := judge_keeps (law := fun im => ∀ h, (nth im.bufs h).Fits) (fun _ _ _ ok => (applyEntry_change ok).fits) good f
  rcases (judge_follows good).kept h with e | ⟨was, becomes⟩
  · rw [e]
  · rw [(f h).idle (by grind), (fits h).idle (by grind)]

/-- R10: in a lawful table the counts agree with the tags after every event. -/
theorem inFlightCounted_of_event (s t : State) (e : Event s t) (law : s.counted) : t.inFlightCounted := by
  obtain ⟨lawful, n⟩ := law
  obtain ⟨f, r, c⟩ := id lawful
  cases e with
  | aside same =>
    refine inFlightCounted_congr n (fun k => ?_) (accessTags_of_owner fun i => (same.tags i).2)
    rw [State.buf, same.custody]
    rfl
  | reset pins => exact partReset_counted s pins
  | tend bufs each =>
    refine inFlightCounted_congr n (fun k => ?_) (fun _ => rfl)
    show (nth bufs k).inFlight = _
    rw [(each k).rest]
  | @claim a p h rest head =>
    refine inFlightCounted_congr n (fun k => ?_) (accessTags_of_eq (by simp))
    have free := ((c.free p h).mp (by simp [head])).1
    rw [claimHead_bufs]
    split
    · next e => rw [e, (f h).idle (by simp [free])]
    · rfl
  | pass => exact inFlightCounted_congr n (inFlight_setBuf s _ _ rfl) (fun _ => rfl)
  | accept => exact inFlightCounted_congr n (inFlight_setBuf s _ _ rfl) (fun _ => rfl)
  | bringBack =>
    exact inFlightCounted_congr n (bringBack_inFlight s _) (accessTags_of_eq (by simp))
  | returnAll a =>
    exact foldl_keeps_law (law := State.inFlightCounted) _
      (fun u h n => inFlightCounted_congr n (bringBack_inFlight u h) (accessTags_of_eq (by simp))) _ s n
  | release =>
    exact inFlightCounted_congr n (forceOut_inFlight s _) (accessTags_of_eq (by simp))
  | readmit withheld =>
    refine inFlightCounted_congr n (fun k => ?_) (accessTags_of_eq (by simp))
    rw [buf_becomeFree]
    split
    · next e => rw [e, (f _).idle (by simp [withheld])]
    · rfl
  | rescrub withheld =>
    refine inFlightCounted_congr n (fun k => ?_) (accessTags_of_eq (by simp))
    rw [buf_enterScrubbing]
    split
    · next e => rw [e, (f _).idle (by simp [withheld])]
    · rfl
  | apply good => exact inFlightCounted_congr n (judge_inFlight good f) (accessTags_of_eq (by simp))
  | forward _ _ _ _ _ free => exact forward_counted free n
  | hold => exact inFlightCounted_congr n (fun _ => rfl) (fun _ => rfl)
  | unhold => exact inFlightCounted_congr n (fun _ => rfl) (fun _ => rfl)
  | dropUnnamed => exact inFlightCounted_congr n (fun _ => rfl) (fun _ => rfl)
  | cancel => exact inFlightCounted_congr n (fun _ => rfl) (fun _ => rfl)
  | endAccess busy gen status data => exact endAccess_counted busy gen status data n
  | drain h => exact inFlightCounted_congr n (completeDrain_inFlight s h) (accessTags_of_eq (by simp))
  | takeHead =>
    refine inFlightCounted_congr n (fun k => ?_) (accessTags_of_eq (by simp))
    simp [State.buf]
  | issueBurst _ _ free =>
    refine inFlightCounted_congr n (fun k => ?_) (issueBurst_accessTags free)
    simp [State.buf]
  | @endBurst i h k m busy gen good =>
    have tagged : (s.setTag i ⟨gen, none⟩).custodyLawful := ⟨f, r, c.of_eq rfl rfl rfl⟩
    have freed : (s.setTag i ⟨gen, none⟩).inFlightCounted := inFlightCounted_congr n (fun _ => rfl)
      (fun x => accessTags_setTag_unheld s i _ x (heldFor_burst busy x) rfl)
    exact inFlightCounted_congr freed
      (inFlight_of_scrub tagged (fun _ => buf_burstEnd_ne _ k good) (burstEnd_self _ k good)) (accessTags_of_eq (by simp))
  | finishScrub =>
    exact inFlightCounted_congr n (inFlight_of_scrub lawful (fun _ => buf_finishScrub_ne s) (finishScrub_self s))
      (accessTags_of_eq (by simp))
  | failScrub =>
    exact inFlightCounted_congr n (inFlight_of_scrub lawful (fun _ => buf_failScrub_ne s) (failScrub_self s))
      (accessTags_of_eq (by simp))
  | linkDown =>
    have down : State.counted { s with mem.link := .down } := ⟨⟨f, r, c.of_eq rfl rfl rfl⟩, n⟩
    have ⟨lost, count⟩ := foldl_keeps_law (law := State.counted) _ loseTag_counted (List.finRange 64) _ down
    exact inFlightCounted_congr count (inFlight_of_scrub lost (fun _ => buf_scrubLinkDown_ne _) (scrubLinkDown_self _))
      (accessTags_of_eq (by simp))
  | linkUp =>
    refine inFlightCounted_congr n (fun k => ?_) (accessTags_of_eq (by simp))
    simp [State.buf]

theorem counted_of_event (s t : State) (e : Event s t) (law : s.counted) : t.counted :=
  ⟨custodyLawful_of_event s t e law.1, inFlightCounted_of_event s t e law⟩

end Sys2Proof.Machine
end

