-- ==== Sys2Proof/Proofs/Scrub.lean ====
section
/-! The scrub engine: its laws (R131, R133, R136), the tags of its bursts (R120), and the number of busy tags. -/

namespace Sys2Proof.Machine

/-! ### The engine's laws after each event -/

theorem scrubLaws_of_eq {s t : State} (l : s.scrubLaws) (engine : t.scrub.engine = s.scrub.engine)
    (link : t.mem.link = s.mem.link) : t.scrubLaws := by
  unfold State.scrubLaws
  rw [engine, link]
  exact l

theorem scrubLaws_of_idle {s : State} (idle : s.scrub.engine = .idle) : s.scrubLaws := by
  simp [State.scrubLaws, idle]

theorem State.scrubLaws.issuing {s : State} {c : ScrubCtx} (l : s.scrubLaws) (e : s.scrub.engine = .issuing c) :
    c.InRange ∧ s.mem.link = .up := by
  simpa only [State.scrubLaws, e] using l

theorem State.scrubLaws.paused {s : State} {c : ScrubCtx} (l : s.scrubLaws) (e : s.scrub.engine = .paused c) :
    c.InRange ∧ c.inFlight = [] ∧ s.mem.link = .down := by
  simpa only [State.scrubLaws, e] using l

theorem State.scrubLaws.failing {s : State} {c : ScrubCtx} (l : s.scrubLaws) (e : s.scrub.engine = .failing c) :
    c.InRange ∧ c.inFlight ≠ [] ∧ s.mem.link = .up := by
  simpa only [State.scrubLaws, e] using l

theorem finishScrub_engine (s : State) :
    s.finishScrub.scrub.engine = s.scrub.engine ∨
      s.finishScrub.scrub.engine = .idle ∧ ∃ c, s.scrub.engine = .issuing c ∧ c.issue = c.count ∧ c.inFlight = [] := by
  unfold State.finishScrub
  split
  · next c issuing =>
    split
    · next done => exact .inr ⟨by simp, c, issuing, done⟩
    · exact .inl rfl
  all_goals exact .inl rfl

theorem failScrub_engine (s : State) :
    s.failScrub.scrub.engine = s.scrub.engine ∧ (∀ c, s.scrub.engine = .failing c → c.inFlight ≠ []) ∨
      s.failScrub.scrub.engine = .idle ∧ ∃ c, s.scrub.engine = .failing c ∧ c.inFlight = [] := by
  unfold State.failScrub
  split
  · next c failing =>
    split
    · next none_left => exact .inr ⟨by simp, c, failing, none_left⟩
    · next left => exact .inl ⟨rfl, fun c' e => by rw [failing] at e; cases e; exact left⟩
  all_goals next e => exact .inl ⟨rfl, fun c' e' => by rw [e] at e'; cases e'⟩

/-- A context without one of its bursts is in range. -/
theorem ScrubCtx.InRange.drop {c : ScrubCtx} (r : c.InRange) (f : Nat × TagIndex → Bool) :
    ({ c with inFlight := c.inFlight.filter f } : ScrubCtx).InRange :=
  { issue := r.issue
    room := Nat.le_trans (List.length_filter_le _ _) r.room
    below := fun b mem => r.below b (List.mem_filter.mp mem).1
    once := r.once.sublist (List.filter_sublist.map _) }

theorem finishScrub_laws {s : State} (l : s.scrubLaws) : s.finishScrub.scrubLaws := by
  rcases finishScrub_engine s with same | ⟨idle, -⟩
  · exact scrubLaws_of_eq l same (by simp)
  · exact scrubLaws_of_idle idle

/-- An engine that is FAILING with the link UP keeps its laws, or turns IDLE. -/
theorem failScrub_laws {s : State} {c : ScrubCtx} (failing : s.scrub.engine = .failing c) (r : c.InRange)
    (up : s.mem.link = .up) : s.failScrub.scrubLaws := by
  rcases failScrub_engine s with ⟨same, left⟩ | ⟨idle, -⟩
  · unfold State.scrubLaws
    rw [same, failing]
    exact ⟨r, left c failing, by simpa using up⟩
  · exact scrubLaws_of_idle idle

theorem burstEnd_laws {s : State} (n : Nat) (good : Bool) (l : s.scrubLaws) : (s.burstEnd n good).scrubLaws := by
  unfold State.burstEnd
  split
  · next issuing =>
    obtain ⟨r, up⟩ := l.issuing issuing
    dsimp only
    split
    · exact finishScrub_laws (s := { s with scrub.engine := .issuing _ }) ⟨r.drop _, up⟩
    · exact failScrub_laws (s := { s with scrub.engine := .failing _ }) rfl (r.drop _) up
  · next failing =>
    obtain ⟨r, -, up⟩ := l.failing failing
    exact failScrub_laws (s := { s with scrub.engine := .failing _ }) rfl (r.drop _) up
  · exact l
  · exact l

theorem takeHead_laws {s : State} (l : s.scrubLaws) : s.takeHead.scrubLaws := by
  unfold State.takeHead
  split
  · next up _ =>
    exact ⟨{ issue := Nat.zero_le _, room := Nat.zero_le _, below := fun b mem => by simp at mem, once := .nil }, up⟩
  · exact l

theorem issueBurst_laws {s : State} (i : TagIndex) (wants : s.scrub.engine.wants = true) (l : s.scrubLaws) :
    (s.issueBurst i).scrubLaws := by
  obtain ⟨c, issuing, more, room⟩ := (wants_iff _).mp wants
  obtain ⟨r, up⟩ := l.issuing issuing
  unfold State.scrubLaws
  rw [issueBurst_engine s i c issuing]
  refine ⟨{ issue := more, room := by simpa [Nat.add_one_le_iff] using room, below := fun b mem => ?_, once := ?_ }, by simpa using up⟩
  · have := r.below b
    grind
  · have := r.below
    simp only [List.map_append, List.map_cons, List.map_nil]
    refine List.nodup_append.mpr ⟨r.once, by simp, fun x mem => ?_⟩
    grind

theorem rewindPoint_le (issue : Nat) (lost : List (Nat × TagIndex)) : rewindPoint issue lost ≤ issue := by
  unfold rewindPoint
  induction lost generalizing issue with
  | nil => exact Nat.le_refl _
  | cons b l ih => exact Nat.le_trans (ih _) (Nat.min_le_left _ _)

/-- The link goes DOWN: an engine that was at work pauses with no burst in flight, or has failed. -/
theorem scrubLinkDown_laws {s : State} (r : ∀ c, s.scrub.engine = .issuing c → c.InRange)
    (paused : ∀ c, s.scrub.engine = .paused c → c.InRange ∧ c.inFlight = []) (down : s.mem.link = .down) :
    s.scrubLinkDown.scrubLaws := by
  unfold State.scrubLinkDown
  split
  · next c issuing =>
    exact ⟨{ issue := Nat.le_trans (rewindPoint_le _ _) (r c issuing).issue, room := Nat.zero_le _
             below := fun b mem => by simp at mem, once := .nil }, rfl, down⟩
  · exact scrubLaws_of_idle (by simp [State.failScrub])
  · next idle => exact scrubLaws_of_idle idle
  · next c e =>
    unfold State.scrubLaws
    rw [e]
    exact ⟨(paused c e).1, (paused c e).2, down⟩

theorem resumeScrub_laws {s : State} (l : s.scrubLaws) (down : s.mem.link = .down) :
    State.scrubLaws (State.resumeScrub { s with mem.link := .up }) := by
  unfold State.resumeScrub
  split
  · next c paused => exact ⟨(l.paused paused).1, rfl⟩
  · next idle => exact scrubLaws_of_idle idle
  · next c issuing => exact absurd (down.symm.trans (l.issuing issuing).2) (by simp)
  · next c failing => exact absurd (down.symm.trans (l.failing failing).2.2) (by simp)

/-- What the loss of all tags leaves of the engine, the link and the hold place. -/
theorem loseTags_keeps (l : List TagIndex) (s : State) :
    (l.foldl State.loseTag s).scrub.engine = s.scrub.engine ∧ (l.foldl State.loseTag s).mem.link = s.mem.link ∧
      (l.foldl State.loseTag s).checker = s.checker := by
  have e := foldl_keeps State.loseTag (fun s => (s.scrub.engine, s.mem.link, s.checker)) (by simp) l s
  simpa only [Prod.mk.injEq] using e

/-- The link goes DOWN, with whatever tags are lost. -/
theorem linkDown_laws {s : State} (tags : List TagIndex) (l : s.scrubLaws) :
    (tags.foldl State.loseTag { s with mem.link := .down }).scrubLinkDown.scrubLaws := by
  obtain ⟨engine, link, -⟩ := loseTags_keeps tags { s with mem.link := .down }
  refine scrubLinkDown_laws (fun c e => (l.issuing (engine.symm.trans e)).1) (fun c e => ?_) link
  obtain ⟨r, unlisted, -⟩ := l.paused (engine.symm.trans e)
  exact ⟨r, unlisted⟩

/-- What a queue's return leaves of the engine, the stage port, the hold place and the tags. -/
theorem returnAll_keeps (l : List Handle) (s : State) :
    (l.foldl State.bringBack s).scrub.engine = s.scrub.engine ∧ (l.foldl State.bringBack s).mem = s.mem ∧
      (l.foldl State.bringBack s).checker = s.checker ∧ (l.foldl State.bringBack s).stage = s.stage := by
  have e := foldl_keeps State.bringBack (fun s => (s.scrub.engine, s.mem, s.checker, s.stage)) (by simp) l s
  simpa only [Prod.mk.injEq] using e

/-- R131, R133, R136: the engine's laws are kept by every event. -/
theorem scrubLaws_of_event (s t : State) (e : Event s t) (l : s.scrubLaws) : t.scrubLaws := by
  cases e with
  | aside same => exact scrubLaws_of_eq l (by rw [same.scrub]) same.link
  | reset => exact scrubLaws_of_idle rfl
  | returnAll a => exact scrubLaws_of_eq l (returnAll_keeps _ s).1 (by rw [(returnAll_keeps _ s).2.1])
  | takeHead => exact takeHead_laws l
  | issueBurst _ wants => exact issueBurst_laws _ wants l
  | endBurst => exact burstEnd_laws _ _ (scrubLaws_of_eq l rfl rfl)
  | finishScrub => exact finishScrub_laws l
  | failScrub =>
    rcases failScrub_engine s with ⟨same, -⟩ | ⟨idle, -⟩
    · exact scrubLaws_of_eq l same (by simp)
    · exact scrubLaws_of_idle idle
  | linkDown =>
    generalize List.finRange 64 = tags
    exact linkDown_laws tags l
  | linkUp down => exact resumeScrub_laws l down
  | _ => exact scrubLaws_of_eq l (by simp) (by simp)

/-! ### The tags of the bursts after each event -/

/-- R120, in terms of the owner of each tag. -/
theorem burstsHoldTags_iff (s : State) :
    s.burstsHoldTags ↔ ∀ i h n, (s.tag i).owner = some (.burst h n) ↔
      s.scrub.engine.handle = some h ∧ (n, i) ∈ s.scrub.engine.bursts := by
  simp only [State.burstsHoldTags, owner_eq_some]

/-- R120 speaks of which bursts hold which tags, and of the engine's handle and its bursts alone. -/
theorem burstsHoldTags_congr {s t : State} (b : s.burstsHoldTags)
    (tags : ∀ i h n, (t.tag i).owner = some (.burst h n) ↔ (s.tag i).owner = some (.burst h n))
    (handle : t.scrub.engine.handle = s.scrub.engine.handle) (bursts : t.scrub.engine.bursts = s.scrub.engine.bursts) :
    t.burstsHoldTags := by
  rw [burstsHoldTags_iff] at b ⊢
  intro i h n
  rw [tags, handle, bursts]
  exact b i h n

theorem burstsHoldTags_of_eq {s t : State} (b : s.burstsHoldTags) (tags : t.mem.tags = s.mem.tags)
    (engine : t.scrub.engine = s.scrub.engine) : t.burstsHoldTags :=
  burstsHoldTags_congr b (fun i h n => by rw [State.tag, tags]; rfl) (by rw [engine]) (by rw [engine])

/-- With no burst in flight, no tag is a burst's. -/
theorem burstsHoldTags_of_none {s : State} (tags : ∀ i h n, (s.tag i).owner ≠ some (.burst h n))
    (bursts : s.scrub.engine.bursts = []) : s.burstsHoldTags := by
  rw [burstsHoldTags_iff, bursts]
  intro i h n
  simp [tags]

theorem State.burstsHoldTags.none {s : State} (b : s.burstsHoldTags) (bursts : s.scrub.engine.bursts = []) (i : TagIndex)
    (h : Handle) (n : Nat) : (s.tag i).owner ≠ some (.burst h n) := by
  intro e
  have := (((burstsHoldTags_iff s).mp b i h n).mp e).2
  simp [bursts] at this

/-- A tag written that is a burst's neither before nor after. -/
theorem setTag_bursts {s : State} {i : TagIndex} {r : TagRec} (b : s.burstsHoldTags)
    (before : ∀ h n, (s.tag i).owner ≠ some (.burst h n)) (after : ∀ h n, r.owner ≠ some (.burst h n)) :
    (s.setTag i r).burstsHoldTags := by
  refine burstsHoldTags_congr b (fun j h n => ?_) rfl rfl
  rw [tag_setTag]
  split
  · next e => simp [e, before, after]
  · rfl

/-- The end of a scrub has no burst in flight before it, nor after it. -/
theorem finishScrub_bursts {s : State} (b : s.burstsHoldTags) : s.finishScrub.burstsHoldTags := by
  rcases finishScrub_engine s with same | ⟨idle, c, issuing, -, unlisted⟩
  · exact burstsHoldTags_of_eq b (by simp) same
  · refine burstsHoldTags_of_none (fun i h n => ?_) (by rw [idle]; rfl)
    have := b.none (by rw [issuing]; exact unlisted) i h n
    simpa [State.tag] using this

theorem failScrub_bursts {s : State} (b : s.burstsHoldTags) : s.failScrub.burstsHoldTags := by
  rcases failScrub_engine s with ⟨same, -⟩ | ⟨idle, c, failing, unlisted⟩
  · exact burstsHoldTags_of_eq b (by simp) same
  · refine burstsHoldTags_of_none (fun i h n => ?_) (by rw [idle]; rfl)
    have := b.none (by rw [failing]; exact unlisted) i h n
    simpa [State.tag] using this

/-- Where the images of a list's members are apart, a member is known by its image. -/
theorem eq_of_nodup_map {α β : Type} (f : α → β) {l : List α} (once : (l.map f).Nodup) {x y : α} (mx : x ∈ l) (my : y ∈ l)
    (same : f x = f y) : x = y := by
  induction l with
  | nil => cases mx
  | cons a l ih =>
    obtain ⟨new, once⟩ := List.nodup_cons.mp once
    have apart {z : α} (mz : z ∈ l) : f a ≠ f z := fun e => new (e ▸ List.mem_map_of_mem mz)
    cases mx with
    | head => cases my with
      | head => rfl
      | tail _ my => exact absurd same (apart my)
    | tail _ mx => cases my with
      | head => exact absurd same.symm (apart mx)
      | tail _ my => exact ih once mx my

/-- A burst's tag is freed and the burst leaves the set: each other burst holds its own tag. -/
theorem dropBurst_bursts {s : State} {i : TagIndex} {h : Handle} {n : Nat} (gen : BitVec 2) (e : Engine)
    (b : s.burstsHoldTags) (owned : (s.tag i).owner = some (.burst h n)) (once : (s.scrub.engine.bursts.map Prod.fst).Nodup)
    (handle : e.handle = s.scrub.engine.handle)
    (bursts : e.bursts = s.scrub.engine.bursts.filter fun x => x.1 ≠ n) :
    State.burstsHoldTags { s.setTag i ⟨gen, none⟩ with scrub.engine := e } := by
  rw [burstsHoldTags_iff] at b ⊢
  intro j k x
  show ((s.setTag i _).tag j).owner = _ ↔ e.handle = some k ∧ (x, j) ∈ e.bursts
  have mine := (b i h n).mp owned
  have other := b j k x
  rw [tag_setTag, handle, bursts, List.mem_filter]
  have inj : (x, j) ∈ s.scrub.engine.bursts → x = n → j = i := fun mem e =>
    congrArg Prod.snd (eq_of_nodup_map Prod.fst once mem mine.2 e)
  by_cases c : j = i
  · subst c
    rw [owned] at other
    simp only [if_true, owner_free]
    grind
  · simp only [c, if_false, other]
    grind

theorem burstEnd_bursts {s : State} {i : TagIndex} {h : Handle} {n m : Nat} (busy : (s.tag i).use = some ⟨.burst h n, m⟩)
    (gen : BitVec 2) (good : Bool) (l : s.scrubLaws) (b : s.burstsHoldTags) :
    ((s.setTag i ⟨gen, none⟩).burstEnd n good).burstsHoldTags := by
  have owned := owner_of_busy busy
  have mine := ((burstsHoldTags_iff s).mp b i h n).mp owned
  unfold State.burstEnd
  split
  · next c issuing =>
    change s.scrub.engine = _ at issuing
    have once : (s.scrub.engine.bursts.map Prod.fst).Nodup := by rw [issuing]; exact (l.issuing issuing).1.once
    dsimp only
    split
    · exact finishScrub_bursts (dropBurst_bursts gen _ b owned once (by rw [issuing]; rfl) (by rw [issuing]; rfl))
    · exact failScrub_bursts (dropBurst_bursts gen _ b owned once (by rw [issuing]; rfl) (by rw [issuing]; rfl))
  · next c failing =>
    change s.scrub.engine = _ at failing
    have once : (s.scrub.engine.bursts.map Prod.fst).Nodup := by rw [failing]; exact (l.failing failing).1.once
    exact failScrub_bursts (dropBurst_bursts gen _ b owned once (by rw [failing]; rfl) (by rw [failing]; rfl))
  · next idle =>
    change s.scrub.engine = _ at idle
    rw [idle] at mine
    cases mine.1
  · next c paused =>
    change s.scrub.engine = _ at paused
    rw [paused] at mine
    have := (l.paused paused).2.1
    simp [Engine.bursts, this] at mine

theorem issueBurst_tag (s : State) (i : TagIndex) {c : ScrubCtx} (issuing : s.scrub.engine = .issuing c) (j : TagIndex) :
    (s.issueBurst i).tag j =
      if j = i then ⟨(s.tag i).generation, some ⟨.burst c.handle c.issue, s.mgmt.memLimit⟩⟩ else s.tag j := by
  rw [← tag_setTag]
  unfold State.issueBurst
  rw [issuing]
  rfl

/-- A burst issued holds the tag it was granted. -/
theorem issueBurst_bursts {s : State} {i : TagIndex} (wants : s.scrub.engine.wants = true) (free : (s.tag i).use = none)
    (b : s.burstsHoldTags) : (s.issueBurst i).burstsHoldTags := by
  obtain ⟨c, issuing, -, -⟩ := (wants_iff _).mp wants
  rw [burstsHoldTags_iff] at b ⊢
  intro j h n
  have old := b j h n
  rw [issuing] at old
  rw [issueBurst_tag s i issuing, issueBurst_engine s i c issuing]
  simp only [Engine.handle, Engine.bursts, List.mem_append, List.mem_singleton] at old ⊢
  by_cases e : j = i
  · subst e
    rw [(owner_eq_none _).mpr free] at old
    simp only [if_true, owner_busy]
    grind
  · simp only [e, if_false, old]
    grind

theorem takeHead_bursts {s : State} (b : s.burstsHoldTags) : s.takeHead.burstsHoldTags := by
  unfold State.takeHead
  split
  · next idle _ _ => exact burstsHoldTags_of_none (b.none (by rw [idle]; rfl)) rfl
  · exact b

/-- A lost tag is free after it; the others stand as they did. -/
theorem loseTag_use (s : State) (i j : TagIndex) :
    ((s.loseTag i).tag j).use = if j = i then none else (s.tag j).use := by
  rcases loseTag_cases s i with ⟨free, e⟩ | ⟨a, g, h, m, -, e⟩ | ⟨h, n, m, -, e⟩
  · rw [e]
    split
    · next j_i => rw [j_i, free]
    · rfl
  · rw [e]
    simp only [State.tag, report_keeps, endInFlight_keeps]
    show ((s.setTag i _).tag j).use = _
    rw [tag_setTag]
    split <;> rfl
  · rw [e, tag_setTag]
    split <;> rfl

theorem loseTags_use (l : List TagIndex) (s : State) (i : TagIndex) :
    ((l.foldl State.loseTag s).tag i).use = if i ∈ l then none else (s.tag i).use := by
  induction l generalizing s with
  | nil => simp
  | cons j l ih =>
    rw [List.foldl_cons, ih, loseTag_use]
    grind

/-- The engine's answer to link DOWN: an engine with no burst in flight, and no other tag. -/
theorem scrubLinkDown_bursts {s : State} (free : ∀ i, (s.tag i).use = none)
    (paused : ∀ c, s.scrub.engine = .paused c → c.inFlight = []) : s.scrubLinkDown.burstsHoldTags := by
  have none_held (i : TagIndex) (h : Handle) (n : Nat) : (s.tag i).owner ≠ some (.burst h n) := by
    rw [(owner_eq_none _).mpr (free i)]
    simp
  refine burstsHoldTags_of_none (fun i h n => ?_) ?_
  · simpa [State.tag] using none_held i h n
  · unfold State.scrubLinkDown
    split
    · rfl
    · simp [State.failScrub, Engine.bursts]
    · next idle => rw [idle]; rfl
    · next c e => rw [e]; exact paused c e

theorem linkDown_bursts {s : State} (l : s.scrubLaws) :
    ((List.finRange 64).foldl State.loseTag { s with mem.link := .down }).scrubLinkDown.burstsHoldTags := by
  obtain ⟨engine, -, -⟩ := loseTags_keeps (List.finRange 64) { s with mem.link := .down }
  refine scrubLinkDown_bursts (fun i => ?_) fun c e => (l.paused (engine.symm.trans e)).2.1
  rw [loseTags_use, if_pos (List.mem_finRange i)]

theorem resumeScrub_bursts {s : State} (b : s.burstsHoldTags) : s.resumeScrub.burstsHoldTags := by
  unfold State.resumeScrub
  split
  · next paused => exact burstsHoldTags_congr b (fun _ _ _ => Iff.rfl) (by rw [paused]; rfl) (by rw [paused]; rfl)
  all_goals exact b

/-- R120: each burst in flight holds its tag, and no other tag is a burst's, after every event. -/
theorem burstsHoldTags_of_event (s t : State) (e : Event s t) (law : s.scrubLaws ∧ s.burstsHoldTags) :
    t.scrubLaws ∧ t.burstsHoldTags := by
  refine ⟨scrubLaws_of_event s t e law.1, ?_⟩
  obtain ⟨l, b⟩ := law
  cases e with
  | aside same =>
    refine burstsHoldTags_congr b (fun i h n => ?_) (by rw [same.scrub]) (by rw [same.scrub])
    rw [TagRec.owner, (same.tags i).2]
    rfl
  | reset => exact burstsHoldTags_of_none (fun i h n => by simp [State.tag, State.partReset, MemPort.reset]) rfl
  | returnAll a => exact burstsHoldTags_of_eq b (by rw [(returnAll_keeps _ s).2.1]) (returnAll_keeps _ s).1
  | forward _ _ _ _ _ free =>
    exact setTag_bursts b (fun _ _ => by rw [(owner_eq_none _).mpr free]; simp) (fun _ _ => by simp)
  | @endAccess i a g h m busy gen =>
    have freed : (s.setTag i ⟨gen, none⟩).burstsHoldTags :=
      setTag_bursts b (fun _ _ => by rw [owner_of_busy busy]; simp) (fun _ _ => by simp)
    exact burstsHoldTags_of_eq freed (by simp) (by simp)
  | takeHead => exact takeHead_bursts b
  | issueBurst _ wants free => exact issueBurst_bursts wants free b
  | endBurst busy gen good => exact burstEnd_bursts busy gen good l b
  | finishScrub => exact finishScrub_bursts b
  | failScrub => exact failScrub_bursts b
  | linkDown => exact linkDown_bursts l
  | linkUp => exact resumeScrub_bursts (s := { s with mem.link := .up }) b
  | _ => exact burstsHoldTags_of_eq b (by simp) (by simp)

/-! ### The number of busy tags -/

/-- Whether a tag is held by a scrub burst. -/
def TagRec.burst (r : TagRec) : Bool :=
  match r.owner with
  | some (.burst _ _) => true
  | some (.access _ _ _) => false
  | none => false

theorem sum_map_zero {α : Type} (l : List α) : (l.map fun _ => 0).sum = 0 := by
  induction l with
  | nil => rfl
  | cons _ l ih => rw [List.map_cons, List.sum_cons, ih]

theorem sum_map_add {α : Type} (l : List α) (f g : α → Nat) :
    (l.map fun x => f x + g x).sum = (l.map f).sum + (l.map g).sum := by
  induction l with
  | nil => rfl
  | cons x l ih =>
    simp only [List.map_cons, List.sum_cons, ih]
    omega

theorem length_filter_cons {α : Type} (p : α → Bool) (x : α) (l : List α) :
    ((x :: l).filter p).length = (p x).toNat + (l.filter p).length := by
  rw [List.filter_cons]
  cases p x
  · exact (Nat.zero_add _).symm
  · exact Nat.add_comm _ 1

/-- A handle stands once among all handles. -/
theorem sum_eq_handle (k : Handle) : ((List.finRange 511).map fun h => (decide (k = h)).toNat).sum = 1 := by
  have count (l : List Handle) : (l.map fun h => (decide (k = h)).toNat).sum = l.count k := by
    induction l with
    | nil => rfl
    | cons h l ih =>
      rw [List.map_cons, List.sum_cons, ih, List.count_cons, Nat.add_comm]
      by_cases same : k = h
      · subst same
        simp
      · simp [same, Ne.symm same]
  rw [count, (List.nodup_finRange 511).count, if_pos (List.mem_finRange k)]

/-- A busy tag is held by an access to one buffer, or by a burst. -/
theorem isSome_eq_sum (r : TagRec) :
    r.use.isSome.toNat = ((List.finRange 511).map fun h => (r.heldFor h).toNat).sum + r.burst.toNat := by
  obtain ⟨generation, use⟩ := r
  match use with
  | none => simp only [TagRec.heldFor, TagRec.burst, owner_free, Option.isSome_none, Bool.toNat_false, sum_map_zero]
  | some ⟨.access a g k, m⟩ =>
    simp only [TagRec.heldFor, TagRec.burst, owner_busy, Option.isSome_some, Bool.toNat_false, Bool.toNat_true, sum_eq_handle]
  | some ⟨.burst k n, m⟩ =>
    simp only [TagRec.heldFor, TagRec.burst, owner_busy, Option.isSome_some, Bool.toNat_false, Bool.toNat_true, sum_map_zero]

/-- Among any tags, the busy ones are those held for each buffer, and those held by bursts. -/
theorem busyTags_length (s : State) (l : List TagIndex) :
    (l.filter fun i => (s.tag i).use.isSome).length =
      ((List.finRange 511).map fun h => (l.filter fun i => (s.tag i).heldFor h).length).sum +
        (l.filter fun i => (s.tag i).burst).length := by
  induction l with
  | nil => simp only [List.filter_nil, List.length_nil, sum_map_zero]
  | cons i l ih =>
    simp only [length_filter_cons, sum_map_add, ih, isSome_eq_sum]
    omega

theorem burst_iff (r : TagRec) : r.burst = true ↔ ∃ h n, r.owner = some (.burst h n) := by
  unfold TagRec.burst
  split <;> simp_all

/-- An engine with a burst in flight has a context. -/
theorem handle_of_burst {e : Engine} {x : Nat × TagIndex} (mem : x ∈ e.bursts) : ∃ h, e.handle = some h := by
  cases e with
  | idle => cases mem
  | issuing c => exact ⟨_, rfl⟩
  | paused c => exact ⟨_, rfl⟩
  | failing c => exact ⟨_, rfl⟩

/-- The tags that bursts hold are as many as the bursts in flight. -/
theorem burstTags_length {s : State} (b : s.burstsHoldTags) (once : (s.scrub.engine.bursts.map Prod.fst).Nodup) :
    ((List.finRange 64).filter fun i => (s.tag i).burst).length = s.scrub.engine.bursts.length := by
  rw [burstsHoldTags_iff] at b
  have inj : ∀ x ∈ s.scrub.engine.bursts, ∀ y ∈ s.scrub.engine.bursts, x.2 = y.2 → x = y := by
    rintro ⟨n, i⟩ mx ⟨n', j⟩ my (rfl : i = j)
    obtain ⟨h, handle⟩ := handle_of_burst mx
    have one := (b i h n).mpr ⟨handle, mx⟩
    rw [(b i h n').mpr ⟨handle, my⟩] at one
    cases one
    rfl
  have apart : s.scrub.engine.bursts.Pairwise (· ≠ ·) := (List.pairwise_map.mp once).imp fun ne same => ne (congrArg Prod.fst same)
  have nodup : (s.scrub.engine.bursts.map Prod.snd).Nodup := List.pairwise_map.mpr (apart.imp_of_mem fun mx my ne same => ne (inj _ mx _ my same))
  have same : ((List.finRange 64).filter fun i => (s.tag i).burst).Perm (s.scrub.engine.bursts.map Prod.snd) := by
    refine (List.perm_ext_iff_of_nodup ((List.nodup_finRange 64).filter _) nodup).mpr fun i => ?_
    simp only [List.mem_filter, List.mem_finRange, true_and, burst_iff, List.mem_map, Prod.exists, exists_eq_right]
    constructor
    · rintro ⟨h, n, owned⟩
      exact ⟨n, ((b i h n).mp owned).2⟩
    · rintro ⟨n, mem⟩
      obtain ⟨h, handle⟩ := handle_of_burst mem
      exact ⟨h, n, (b i h n).mpr ⟨handle, mem⟩⟩
  rw [same.length_eq, List.length_map]

theorem tagsAccounted_of_laws {s : State} (n : s.inFlightCounted) (l : s.scrubLaws) (b : s.burstsHoldTags) :
    s.tagsAccounted := by
  have once : (s.scrub.engine.bursts.map Prod.fst).Nodup := by
    cases e : s.scrub.engine with
    | idle => exact .nil
    | issuing c => exact (l.issuing e).1.once
    | paused c => exact (l.paused e).1.once
    | failing c => exact (l.failing e).1.once
  have counts : (fun h => (s.buf h).inFlight) = s.accessTags := funext ((inFlightCounted_iff s).mp n)
  unfold State.tagsAccounted
  rw [busyTags_length, burstTags_length b once, counts]
  rfl

end Sys2Proof.Machine
end

