-- ==== Sys2Proof/Proofs/Entries.lean ====
section
/-! The outstanding tables: each entry agrees with the memory tags and with the hold place (R87, R88, R112). -/

namespace Sys2Proof.Machine

theorem entry_report (s : State) (a b : Agent) (g k : StageTag) (i : TagIndex) (x : BitVec 2) (st : RespStatus)
    (d : List Byte) :
    (s.report a g i x st d).entry b k =
      if s.entry a g = some (.inMemory i x) ∧ b = a ∧ k = g then none else s.entry b k := by
  unfold State.report
  split
  · next here =>
    rw [entry_setEntry]
    simp only [here, true_and]
    rfl
  · next other => simp [other]

/-! ### Reading the law -/

/-- The tag that an entry names is held for its access. -/
theorem State.EntriesAgree.owner {s : State} (e : s.EntriesAgree) {a : Agent} {g : StageTag} {i : TagIndex} {k : BitVec 2}
    (entry : s.entry a g = some (.inMemory i k)) :
    (s.tag i).generation = k ∧ ∃ h, (s.tag i).owner = some (.access a g h) := by
  obtain ⟨generation, h, m, busy⟩ := e.inMemory a g i k entry
  exact ⟨generation, h, owner_of_busy busy⟩

/-- No entry names a tag that is not held for its access. -/
theorem State.EntriesAgree.unnamed {s : State} (e : s.EntriesAgree) {i : TagIndex} {a : Agent} {g : StageTag}
    (other : ∀ h, (s.tag i).owner ≠ some (.access a g h)) (k : BitVec 2) : s.entry a g ≠ some (.inMemory i k) := by
  intro entry
  obtain ⟨-, h, owned⟩ := e.owner entry
  exact other h owned

theorem entriesAgree_of_owner {s : State}
    (inMemory : ∀ a g i k, s.entry a g = some (.inMemory i k) →
      (s.tag i).generation = k ∧ ∃ h, (s.tag i).owner = some (.access a g h))
    (tagWait : ∀ a g, s.entry a g = some .tagWait ↔ ∃ t, s.checker.hold = some t ∧ t.agent = a ∧ t.tag = g)
    (held : ∀ t, s.checker.hold = some t → t.handle ≠ none) : s.EntriesAgree where
  inMemory a g i k entry := by
    obtain ⟨generation, h, owned⟩ := inMemory a g i k entry
    exact ⟨generation, h, (owner_eq_some _ _).mp owned⟩
  tagWait := tagWait
  held := held

/-- The law speaks of the outstanding tables, the hold place, and each tag's generation and owner alone. -/
theorem entriesAgree_congr {s t : State} (e : s.EntriesAgree) (entries : t.stage.outstanding = s.stage.outstanding)
    (hold : t.checker.hold = s.checker.hold)
    (tags : ∀ i, (t.tag i).generation = (s.tag i).generation ∧ (t.tag i).owner = (s.tag i).owner) : t.EntriesAgree := by
  have entry (a : Agent) (g : StageTag) : t.entry a g = s.entry a g := by simp only [State.entry, entries]
  refine entriesAgree_of_owner (fun a g i k here => ?_) (fun a g => ?_) (by rw [hold]; exact e.held)
  · rw [(tags i).1, (tags i).2]
    exact e.owner (entry a g ▸ here)
  · rw [entry, hold]
    exact e.tagWait a g

theorem entriesAgree_of_eq {s t : State} (e : s.EntriesAgree) (entries : t.stage.outstanding = s.stage.outstanding)
    (hold : t.checker.hold = s.checker.hold) (tags : t.mem.tags = s.mem.tags) : t.EntriesAgree :=
  entriesAgree_congr e entries hold fun i => by simp only [State.tag, tags, and_self]

/-! ### The law after each event -/

/-- A tag that no access holds is named by no entry: it may be written. -/
theorem setTag_entries {s : State} {i : TagIndex} (r : TagRec) (e : s.EntriesAgree)
    (unheld : ∀ a g h, (s.tag i).owner ≠ some (.access a g h)) : (s.setTag i r).EntriesAgree := by
  refine entriesAgree_of_owner (fun a g j k here => ?_) e.tagWait e.held
  have ne : j ≠ i := by
    rintro rfl
    exact e.unnamed (unheld a g) k here
  rw [tag_setTag, if_neg ne]
  exact e.owner here

theorem free_unheld {s : State} {i : TagIndex} (free : (s.tag i).use = none) (a : Agent) (g : StageTag) (h : Handle) :
    (s.tag i).owner ≠ some (.access a g h) := by
  rw [(owner_eq_none _).mpr free]
  simp

/-- An entry that is cleared, and was not that of the hold place. -/
theorem clearEntry_entries {s : State} {a : Agent} {g : StageTag} (e : s.EntriesAgree)
    (unheld : ∀ t, s.checker.hold = some t → t.agent = a → t.tag ≠ g) : (s.setEntry a g none).EntriesAgree := by
  refine entriesAgree_of_owner (fun b k i x here => ?_) (fun b k => ?_) e.held
  · rw [entry_setEntry] at here
    split at here
    · cases here
    · exact e.owner here
  · have here := e.tagWait b k
    rw [entry_setEntry]
    show _ ↔ ∃ t, s.checker.hold = some t ∧ t.agent = b ∧ t.tag = k
    grind

/-- The held access leaves the hold place with its entry. -/
theorem unhold_entries {s : State} {t : Txn} (held : s.checker.hold = some t) (e : s.EntriesAgree) :
    (s.dropHold.setEntry t.agent t.tag none).EntriesAgree := by
  refine entriesAgree_of_owner (fun b k i x here => ?_) (fun b k => ?_) (fun u none_held => by simp [State.dropHold] at none_held)
  · rw [entry_setEntry] at here
    split at here
    · cases here
    · exact e.owner (s := s) here
  · have here := e.tagWait b k
    rw [entry_setEntry]
    show (if b = t.agent ∧ k = t.tag then none else s.entry b k) = some .tagWait ↔
      ∃ u : Txn, none = some u ∧ u.agent = b ∧ u.tag = k
    grind

/-- An access enters the hold place with its entry. -/
theorem hold_entries {s : State} {t : Txn} {h : Handle} (empty : s.checker.hold = none) (named : t.handle = some h)
    (e : s.EntriesAgree) :
    State.EntriesAgree { s.setEntry t.agent t.tag (some .tagWait) with checker.hold := some t } := by
  refine entriesAgree_of_owner (fun b k i x here => ?_) (fun b k => ?_) (fun u here => ?_)
  · replace here : (s.setEntry t.agent t.tag (some .tagWait)).entry b k = _ := here
    rw [entry_setEntry] at here
    split at here
    · cases here
    · exact e.owner (s := s) here
  · have here := e.tagWait b k
    show (s.setEntry t.agent t.tag (some .tagWait)).entry b k = _ ↔ ∃ u, some t = some u ∧ u.agent = b ∧ u.tag = k
    rw [entry_setEntry]
    grind
  · cases here
    simp [named]

/-- A forwarded access gets an entry that names its tag. -/
theorem forward_entries {s : State} {t : Txn} {h : Handle} {i : TagIndex} (empty : s.checker.hold = none)
    (free : (s.tag i).use = none) (e : s.EntriesAgree) : (s.forward t h i).EntriesAgree := by
  let taken : TagRec := ⟨(s.tag i).generation, some ⟨.access t.agent t.tag h, s.mgmt.memLimit⟩⟩
  have tagged : (s.setTag i taken).EntriesAgree := setTag_entries taken e (free_unheld free)
  have entry (b : Agent) (k : StageTag) : (s.forward t h i).entry b k =
      if b = t.agent ∧ k = t.tag then some (.inMemory i (s.tag i).generation) else s.entry b k :=
    entry_setEntry _ _ _ _ _ _
  refine entriesAgree_of_owner (fun b k j x here => ?_) (fun b k => ?_) (fun u held => ?_)
  · show ((s.setTag i taken).tag j).generation = x ∧ ∃ h, ((s.setTag i taken).tag j).owner = some (.access b k h)
    rw [entry] at here
    split at here
    · next own =>
      obtain ⟨rfl, rfl⟩ := own
      cases here
      rw [tag_setTag, if_pos rfl]
      exact ⟨rfl, h, rfl⟩
    · exact tagged.owner here
  · have here := e.tagWait b k
    rw [entry]
    show _ ↔ ∃ u, s.checker.hold = some u ∧ u.agent = b ∧ u.tag = k
    grind
  · exact e.held u held

/-- An access that ends frees its tag, and its entry, if it still stands, is cleared. -/
theorem endAccess_entries {s : State} {i : TagIndex} {a : Agent} {g : StageTag} {h : Handle} {m : Nat}
    (busy : (s.tag i).use = some ⟨.access a g h, m⟩) (gen : BitVec 2) (status : RespStatus) (data : List Byte)
    (e : s.EntriesAgree) :
    (((s.setTag i ⟨gen, none⟩).endInFlight h).report a g i (s.tag i).generation status data).EntriesAgree := by
  have owned := owner_of_busy busy
  have old (b : Agent) (k : StageTag) : ((s.setTag i ⟨gen, none⟩).endInFlight h).entry b k = s.entry b k := by
    simp [State.entry]
  have tag (j : TagIndex) : (((s.setTag i ⟨gen, none⟩).endInFlight h).report a g i (s.tag i).generation status data).tag j =
      if j = i then ⟨gen, none⟩ else s.tag j := by
    rw [← tag_setTag]
    simp [State.tag]
  have hold : (((s.setTag i ⟨gen, none⟩).endInFlight h).report a g i (s.tag i).generation status data).checker.hold =
    s.checker.hold := by simp
  refine entriesAgree_of_owner (fun b k j x here => ?_) (fun b k => ?_) (by rw [hold]; exact e.held)
  · rw [entry_report, old, old] at here
    split at here
    · cases here
    · next stands =>
      obtain ⟨generation, k', owner⟩ := e.owner here
      have ne : j ≠ i := by
        rintro rfl
        rw [owned] at owner
        cases owner
        exact stands ⟨generation ▸ here, rfl, rfl⟩
      rw [tag, if_neg ne]
      exact ⟨generation, k', owner⟩
  · have here := e.tagWait b k
    rw [hold, entry_report, old, old]
    grind

theorem loseTag_entries (s : State) (i : TagIndex) (e : s.EntriesAgree) : (s.loseTag i).EntriesAgree := by
  rcases loseTag_cases s i with ⟨-, same⟩ | ⟨a, g, h, m, busy, same⟩ | ⟨h, n, m, busy, same⟩ <;> rw [same]
  · exact e
  · exact endAccess_entries busy _ _ _ e
  · exact setTag_entries _ e fun a g k => by rw [owner_of_busy busy]; simp

theorem issueBurst_entries {s : State} {i : TagIndex} (free : (s.tag i).use = none) (e : s.EntriesAgree) :
    (s.issueBurst i).EntriesAgree := by
  unfold State.issueBurst
  split
  · next c _ =>
    let taken : TagRec := ⟨(s.tag i).generation, some ⟨.burst c.handle c.issue, s.mgmt.memLimit⟩⟩
    exact entriesAgree_of_eq (setTag_entries taken e (free_unheld free)) rfl rfl rfl
  all_goals exact e

theorem partReset_entries (s : State) (pins : BitVec 2) : (s.partReset pins).EntriesAgree := by
  constructor <;> simp [State.partReset, State.entry, StagePort.reset, Checker.reset]

/-- R87, R88, R112: the entries agree with the tags and with the hold place after every event. -/
theorem entriesAgree_of_event (s t : State) (ev : Event s t) (e : s.EntriesAgree) : t.EntriesAgree := by
  cases ev with
  | aside same => exact entriesAgree_congr e same.entries same.hold same.tags
  | reset pins => exact partReset_entries s pins
  | returnAll a =>
    obtain ⟨-, mem, checker, stage⟩ := returnAll_keeps (s.queue a) s
    exact entriesAgree_of_eq e (by rw [stage]) (by rw [checker]) (by rw [mem])
  | forward _ empty _ _ _ free => exact forward_entries empty free e
  | hold empty _ named => exact hold_entries empty named e
  | unhold held => exact unhold_entries held e
  | dropUnnamed held unnamed => exact absurd unnamed (e.held _ held)
  | cancel g unheld => exact clearEntry_entries e fun t held own => absurd own (unheld t held)
  | endAccess busy gen status data => exact endAccess_entries busy gen status data e
  | issueBurst _ _ free => exact issueBurst_entries free e
  | @endBurst i h n m busy gen good =>
    have freed : (s.setTag i ⟨gen, none⟩).EntriesAgree :=
      setTag_entries _ e fun a g k => by rw [owner_of_busy busy]; simp
    exact entriesAgree_of_eq freed (by simp) (by simp) (by simp)
  | linkDown =>
    have lost := foldl_keeps_law _ loseTag_entries (List.finRange 64) { s with mem.link := .down }
      (entriesAgree_of_eq e rfl rfl rfl)
    exact entriesAgree_of_eq lost (by simp) (by simp) (by simp)
  | linkUp => exact entriesAgree_of_eq e (by simp) (by simp) (by simp)
  | _ => exact entriesAgree_of_eq e (by simp) (by simp) (by simp)

/-- Settles O9: R10 with the lawful table, R120 by the engine's laws besides, and R87, R88 and R112, each kept by every event. -/
theorem inFlightCountsMatchTags : Obligations.InFlightCountsMatchTags := by
  intro s t taken
  refine ⟨fun lawful n => ?_, fun lawful n l b => ?_, step_keeps entriesAgree_of_event taken⟩
  · exact (step_keeps counted_of_event taken ⟨lawful, n⟩).2
  · obtain ⟨laws, bursts⟩ := step_keeps (law := fun s => s.scrubLaws ∧ s.burstsHoldTags) burstsHoldTags_of_event taken ⟨l, b⟩
    exact tagsAccounted_of_laws (step_keeps counted_of_event taken ⟨lawful, n⟩).2 laws bursts

end Sys2Proof.Machine
end

