-- ==== Sys2Proof/Proofs/Release.lean ====
section
/-! The release path, and the end of a drain and of a scrub, with their whole next states. -/

namespace Sys2Proof.Machine

/-- A record written twice stands as it was written last. -/
theorem setBuf_setBuf (s : State) (h : Handle) (r r' : BufRec) : (s.setBuf h r).setBuf h r' = s.setBuf h r' := by
  simp only [State.setBuf, put_put]

/-- R18, R34: what becoming FREE writes. -/
theorem becomeFree_eq (s : State) (h : Handle) :
    s.becomeFree h =
      (s.setBuf h { s.buf h with
        state := .free, generation := (s.buf h).generation + 1, custodian := none, target := none, sealed := false
        written := false, lends := [], expired := 0, inFlight := 0 }).setPool (s.buf h).pool
        { s.pool (s.buf h).pool with
          freeList := (s.pool (s.buf h).pool).freeList ++ [h]
          tripped := (s.pool (s.buf h).pool).tripped &&
            decide ((s.pool (s.buf h).pool).freeList.length + 1 < (s.pool (s.buf h).pool).lowMark) } := by
  simp only [State.becomeFree, PoolRec.rearm, List.length_append, List.length_singleton]

/-- R14: what entering SCRUBBING writes. -/
theorem enterScrubbing_eq (s : State) (h : Handle) :
    s.enterScrubbing h =
      { s.setBuf h { s.buf h with
          state := .scrubbing, custodian := none, target := none, sealed := false, lends := [], expired := 0
          inFlight := 0 } with
        scrub.queue := s.scrub.queue ++ [h] } := rfl

theorem releasePath_busy {s : State} {h : Handle} (busy : 0 < (s.buf h).inFlight) :
    s.releasePath h =
      s.setBuf h { s.buf h with custodian := none, target := none, sealed := false, lends := [], state := .draining } := by
  simp only [State.releasePath, busy, if_true, setBuf_setBuf, buf_setBuf_self]

theorem releasePath_idle {s : State} {h : Handle} (idle : (s.buf h).inFlight = 0) :
    s.releasePath h =
      (s.setBuf h { s.buf h with custodian := none, target := none, sealed := false, lends := [] }).settleRelease h := by
  simp only [State.releasePath, idle, Nat.lt_irrefl, if_false]

theorem settleRelease_scrub {s : State} {h : Handle} (scrubs : (s.pool (s.buf h).pool).scrubs = true)
    (written : (s.buf h).written = true) : s.settleRelease h = s.enterScrubbing h := by
  simp only [State.settleRelease, scrubs, written, Bool.and_self, if_true]

theorem settleRelease_free {s : State} {h : Handle}
    (unscrubbed : (s.pool (s.buf h).pool).scrubs = false ∨ (s.buf h).written = false) :
    s.settleRelease h = s.becomeFree h := by
  have : ((s.pool (s.buf h).pool).scrubs && (s.buf h).written) = false := by grind
  simp only [State.settleRelease, this, Bool.false_eq_true, if_false]

/-- Settles O26: the release path by its conditions; each end is a write of the record that the path has made bare. -/
theorem releasePathDecides : Obligations.ReleasePathDecides := by
  intro s h r p bare
  refine ⟨releasePath_busy, fun idle scrubs written => ?_, fun idle unscrubbed => ?_⟩
  · replace idle : (s.buf h).inFlight = 0 := idle
    rw [releasePath_idle idle, settleRelease_scrub (by rwa [buf_setBuf_self]) (by rwa [buf_setBuf_self]), enterScrubbing_eq]
    simp only [setBuf_setBuf, buf_setBuf_self, setBuf_keeps, bare, r, idle]
  · replace idle : (s.buf h).inFlight = 0 := idle
    rw [releasePath_idle idle, settleRelease_free (by rwa [buf_setBuf_self]), becomeFree_eq]
    simp only [setBuf_setBuf, buf_setBuf_self, pool_setBuf, bare, r, p, idle]

/-! ### The end of a drain and of a scrub -/

theorem completeDrain_eq {s : State} {h : Handle} (draining : (s.buf h).state = .draining) (idle : (s.buf h).inFlight = 0) :
    s.completeDrain h = s.settleRelease h := by
  simp only [State.completeDrain, draining, idle, and_self, if_true]

theorem completeDrain_none {s : State} {h : Handle} (busy : (s.buf h).state ≠ .draining ∨ (s.buf h).inFlight ≠ 0) :
    s.completeDrain h = s := by
  unfold State.completeDrain
  rw [if_neg (by grind)]

theorem exec_drainCompletion {s : State} (high : s.resetLow = false) (h : Handle) :
    exec (.drainCompletion h) s = .next (s.completeDrain h).kick := by
  simp only [exec, execDrainCompletion, high, Bool.false_eq_true, if_false]

theorem exec_scrubCompletion {s : State} (high : s.resetLow = false) {c : ScrubCtx} (issuing : s.scrub.engine = .issuing c) :
    exec .scrubCompletion s = .next
      (if c.issue = c.count ∧ c.inFlight = [] then State.becomeFree { s with scrub.engine := .idle } c.handle else s).kick := by
  simp only [exec, execScrubCompletion, high, Bool.false_eq_true, if_false, State.finishScrub, issuing]

theorem exec_scrubFailure {s : State} (high : s.resetLow = false) {c : ScrubCtx} (failing : s.scrub.engine = .failing c) :
    exec .scrubFailure s = .next
      (if c.inFlight = [] then State.withhold { s with scrub.engine := .idle } c.handle else s).kick := by
  simp only [exec, execScrubFailure, high, Bool.false_eq_true, if_false, State.failScrub, failing]

/-- With the link DOWN nothing is granted and no head is taken. -/
theorem quiet_of_down {s : State} (down : s.mem.link = .down) : s.quiet :=
  ⟨fun may => absurd (may.1.symm.trans down) (by simp), fun _ up => absurd (up.symm.trans down) (by simp)⟩

/-- Where the engine has nothing to do and no access is held, nothing follows. -/
theorem kick_of_scrubIdle {s : State} (idle : s.scrubIdle) (empty : s.checker.hold = none) : s.kick = s :=
  kick_of_quiet s (quiet_of_scrubIdle s idle empty)

/-- Settles O40: each event's own part, by its condition; and where no request can stand after it, that is all. -/
theorem drainAndScrubEnd : Obligations.DrainAndScrubEnd := by
  constructor
  · intro s h high r p bare freed
    have free (u : State) (buf : u.buf h = r) (pool : u.pool r.pool = p) : u.becomeFree h = freed u := by
      rw [becomeFree_eq, buf, pool]
    refine ⟨fun draining idle => ?_, fun busy => ?_, fun c own => ⟨fun issuing => ?_, fun failing => ?_⟩⟩
    · rw [exec_drainCompletion high, completeDrain_eq draining idle]
      split
      · next both => rw [settleRelease_scrub both.1 both.2]; rfl
      · next one => rw [settleRelease_free (by grind), free s rfl rfl]
    · rw [exec_drainCompletion high, completeDrain_none busy]
    · rw [exec_scrubCompletion high issuing, own, free { s with scrub.engine := .idle } rfl rfl]
    · rw [exec_scrubFailure high failing, own]
      rfl
  · intro s h high empty r p freed
    have free (u : State) (buf : u.buf h = r) (pool : u.pool r.pool = p) : u.becomeFree h = freed u := by
      rw [becomeFree_eq, buf, pool]
    refine ⟨fun draining idle rest unscrubbed => ?_, fun draining idle rest down scrubs written => ?_,
      fun c own unlisted queue => ⟨fun issuing all => ?_, fun failing => ?_⟩⟩
    · rw [exec_drainCompletion high, completeDrain_eq draining idle, settleRelease_free unscrubbed, free s rfl rfl,
        kick_of_scrubIdle (s := freed s) rest empty]
    · replace idle : (s.buf h).inFlight = 0 := idle
      rw [exec_drainCompletion high, completeDrain_eq draining idle, settleRelease_scrub scrubs written,
        kick_of_quiet _ (quiet_of_down (by simpa using down)), enterScrubbing_eq]
      simp only [rest.2, List.nil_append, r, idle]
    · rw [exec_scrubCompletion high issuing, if_pos ⟨all, unlisted⟩, own, free { s with scrub.engine := .idle } rfl rfl,
        kick_of_scrubIdle (s := freed { s with scrub.engine := .idle }) ⟨rfl, queue⟩ empty]
    · rw [exec_scrubFailure high failing, if_pos unlisted, own,
        kick_of_scrubIdle (s := State.withhold { s with scrub.engine := .idle } h) ⟨rfl, queue⟩ empty]
      rfl

end Sys2Proof.Machine
end

