-- ==== Sys2Proof/Proofs/Reads.lean ====
section
/-! The read commands: the byte layouts of 11.3, and that each command replaces the answer frame alone. -/

namespace Sys2Proof.Machine

/-! ### Bytes, flags and packed numbers -/

/-- A number's low bytes, each by its place. -/
theorem le_eq (n k : Nat) : le n k = (List.range n).map fun j => BitVec.ofNat 8 (k / 256 ^ j) := by
  induction n generalizing k with
  | zero => rfl
  | succ n ih =>
    rw [le, ih, List.range_succ_eq_map, List.map_cons, List.map_map]
    simp [Nat.div_div_eq_div_mul, Nat.pow_succ']

theorem le_one (k : Nat) : le 1 k = [BitVec.ofNat 8 k] := rfl

/-- A sum over the places of a list, the first taken apart. -/
theorem sum_range_succ_map (n : Nat) (f : Nat → Nat) :
    ((List.range (n + 1)).map f).sum = f 0 + ((List.range n).map fun k => f (k + 1)).sum := by
  rw [List.range_succ_eq_map, List.map_cons, List.map_map, List.sum_cons]
  rfl

theorem sum_map_mul {α : Type} (l : List α) (c : Nat) (f : α → Nat) : (l.map fun x => c * f x).sum = c * (l.map f).sum := by
  induction l with
  | nil => rfl
  | cons x l ih => rw [List.map_cons, List.sum_cons, ih, List.map_cons, List.sum_cons, Nat.mul_add]

/-- A byte of flags, each by its place. -/
theorem flagByte_eq (l : List Bool) :
    flagByte l = ((List.range l.length).map fun k => (l.getD k false).toNat * 2 ^ k).sum := by
  induction l with
  | nil => rfl
  | cons b l ih =>
    rw [List.length_cons, sum_range_succ_map]
    show b.toNat + 2 * flagByte l = _
    rw [ih, ← sum_map_mul]
    simp [Nat.pow_succ', Nat.mul_left_comm]

/-- Handles packed nine bits each, each by its place. -/
theorem packNine_eq (n : Nat) (l : List Handle) :
    packNine ((l.take n).map handleNum) =
      ((List.range n).map fun k => (match l[k]? with | some h => h.val + 1 | none => 0) * 512 ^ k).sum := by
  induction n generalizing l with
  | zero => rfl
  | succ n ih =>
    rw [sum_range_succ_map]
    cases l with
    | nil => simp only [List.take_nil, List.map_nil, packNine, List.getElem?_nil, Nat.zero_mul, sum_map_zero]
    | cons h l =>
      show handleNum h + 512 * packNine ((l.take n).map handleNum) = _
      rw [ih, ← sum_map_mul]
      simp [handleNum, Nat.pow_succ', Nat.mul_left_comm]

/-! ### The record images of 11.3 -/

/-- READ_BUFFER, with its single bytes written out. -/
theorem bufRec_image (r : BufRec) :
    r.image =
      [BitVec.ofNat 8 r.state.code,
        BitVec.ofNat 8 (flagByte [r.sealed, r.written, decide (r.state ≠ .void), r.custodian.isSome, r.target.isSome]),
        BitVec.ofNat 8 r.pool.val, r.generation] ++ le 3 r.base ++ le 2 r.length ++
      [BitVec.ofNat 8 (orZero (r.custodian.map Fin.val)), BitVec.ofNat 8 (orZero (r.target.map Fin.val)),
        BitVec.ofNat 8 r.inFlight] ++ le 2 r.expired.toNat ++ [BitVec.ofNat 8 r.lends.length] ++
      (List.range 4).flatMap fun k => lendImage r.lends[k]? := by
  simp [BufRec.image, le_one, List.range_succ]

/-- READ_POOL, with the handles at the head of the free list each at its place. -/
theorem poolRec_image (p : PoolRec) :
    p.image =
      [BitVec.ofNat 8 (flagByte [p.defined, p.scrubs, p.tripped])] ++ le 2 p.claimSet.toNat ++ le 2 p.borrowSet.toNat ++
      [BitVec.ofNat 8 p.lendLimit] ++ le 2 p.lowMark ++ le 2 p.members ++ le 2 p.freeList.length ++
      le 9 ((List.range 8).map fun k =>
        (match p.freeList[k]? with | some h => h.val + 1 | none => 0) * 512 ^ k).sum := by
  rw [← packNine_eq 8]
  simp only [PoolRec.image, le_one]

theorem handleNum_getD (h : Option Handle) :
    orZero (h.map handleNum) = match h with | some h => h.val + 1 | none => 0 := by
  cases h <;> rfl

/-- READ_FAULT: one byte of an empty slot, or the fault record. -/
theorem agentRec_image (a : AgentRec) :
    a.image =
      match a.slot with
      | none => [BitVec.ofNat 8 (flagByte [a.online])]
      | some f =>
        [BitVec.ofNat 8 (flagByte [a.online, true, decide (f.access = .write)]), BitVec.ofNat 8 f.kind.code] ++
          le 2 f.handle.toNat ++ le 3 f.offset.toNat ++
          [f.sizeLess1, match f.bufState with | some st => BitVec.ofNat 8 st.code | none => 0xFF] ++
          le 4 f.cycleCount.toNat := by
  unfold AgentRec.image
  cases a.slot with
  | none => simp [flagByte, le_one]
  | some f =>
    obtain ⟨kind, handle, offset, access, sizeLess1, bufState, cycleCount⟩ := f
    cases bufState <;> simp [le_one]

/-- READ_CYCLE. -/
theorem timer_image (t : Timer) :
    t.image =
      [BitVec.ofNat 8 (flagByte [t.pacing, t.pendingSet.isSome]), BitVec.ofNat 8 t.divisor] ++ le 3 t.running.length ++
        le 3 t.running.guard ++ le 3 (match t.pendingSet with | some c => c.length | none => 0) ++
        le 3 (match t.pendingSet with | some c => c.guard | none => 0) ++ le 3 t.position ++ le 4 t.cycleCount.toNat := by
  unfold Timer.image
  cases e : t.pendingSet <;> simp [le_one, orZero]

/-- READ_GROUP: the outcome's bytes are 0 where it, or a part of it, is absent. -/
theorem editStage_image (e : EditStage) :
    e.image =
      [BitVec.ofNat 8 e.group.code, BitVec.ofNat 8 e.staged.length] ++
        le 4 (match e.target with | some n => n.toNat | none => 0) ++
      match e.outcome with
      | none => BitVec.ofNat 8 (flagByte [e.target.isSome]) :: List.replicate 11 0
      | some o =>
        [BitVec.ofNat 8 (flagByte [e.target.isSome, true, o.rejection.isSome, o.cycleCount.isSome])] ++
          le 4 (match o.cycleCount with | some n => n.toNat | none => 0) ++ [BitVec.ofNat 8 o.entries] ++
          match o.rejection with
          | none => List.replicate 6 0
          | some r =>
            [BitVec.ofNat 8 r.index, BitVec.ofNat 8 r.reason.code] ++
              match r.pair with
              | some (h, k) => le 2 (h.val + 1) ++ le 2 (k.val + 1)
              | none => [0, 0, 0, 0] := by
  have count (n : Option (BitVec 32)) : orZero (n.map BitVec.toNat) = match n with | some n => n.toNat | none => 0 := by
    cases n <;> rfl
  have zeros : le 4 0 = [0, 0, 0, 0] ∧ le 2 0 = [0, 0] := by decide
  obtain ⟨group, staged, target, outcome⟩ := e
  simp only [EditStage.image, outcomeImage, count, le_one]
  match outcome with
  | none => simp [flagByte, zeros, orZero]
  | some ⟨none, cycleCount, entries⟩ => cases cycleCount <;> simp [zeros, orZero]
  | some ⟨some ⟨index, reason, none⟩, cycleCount, entries⟩ => cases cycleCount <;> simp [zeros, orZero]
  | some ⟨some ⟨index, reason, some (h, k)⟩, cycleCount, entries⟩ => cases cycleCount <;> simp [orZero, handleNum]

/-! ### The commands -/

theorem handleOf_eq_none {n : Nat} (out : n = 0 ∨ 511 < n) : handleOf n = none := by
  unfold handleOf
  rw [dif_neg (by omega)]

theorem handleOf_num (h : Handle) : handleOf (h.val + 1) = some h := by
  unfold handleOf
  rw [dif_pos (by omega)]
  rfl

theorem agentOf_val (a : Agent) : agentOf a.val = some a := by
  unfold agentOf
  rw [dif_pos a.isLt]

theorem agentOf_eq_none {n : Nat} (out : 15 < n) : agentOf n = none := by
  unfold agentOf
  rw [dif_neg (by omega)]

theorem poolOf_val (p : PoolId) : poolOf p.val = some p := by
  unfold poolOf
  rw [dif_pos p.isLt]

theorem poolOf_eq_none {n : Nat} (out : 7 < n) : poolOf n = none := by
  unfold poolOf
  rw [dif_neg (by omega)]

/-- A ready part runs a management command. -/
theorem runCommand_ready {s : State} (ready : s.ready) (command : State → State) : s.runCommand command = command s :=
  runCommand_eq s command ready.1 ready.2.1 ready.2.2

theorem exec_readBuffer {s : State} (ready : s.ready) (n : BitVec 16) :
    exec (.readBuffer n) s = .next (cmdReadBuffer n.toNat s) := congrArg _ (runCommand_ready ready _)

theorem exec_readPool {s : State} (ready : s.ready) (x : Byte) : exec (.readPool x) s = .next (cmdReadPool x.toNat s) :=
  congrArg _ (runCommand_ready ready _)

theorem exec_readQueue {s : State} (ready : s.ready) (x : Byte) : exec (.readQueue x) s = .next (cmdReadQueue x.toNat s) :=
  congrArg _ (runCommand_ready ready _)

theorem exec_readFault {s : State} (ready : s.ready) (x : Byte) : exec (.readFault x) s = .next (cmdReadFault x.toNat s) :=
  congrArg _ (runCommand_ready ready _)

/-- Settles O55: the images by their layouts, and each command by the record that its argument names. -/
theorem readCommandsAnswer : Obligations.ReadCommandsAnswer := by
  unfold Obligations.ReadCommandsAnswer
  intro byte bytes bits agentOr
  have leBytes (k n : Nat) : bytes k n = le k n := (le_eq k n).symm
  have leBits (l : List Bool) : bits l = BitVec.ofNat 8 (flagByte l) := by rw [flagByte_eq]
  have agent (x : Option Agent) : agentOr x 0 = BitVec.ofNat 8 (orZero (x.map Fin.val)) := by cases x <;> rfl
  simp only [leBytes, leBits, agent]
  refine ⟨bufRec_image, poolRec_image, fun q => ?_, agentRec_image, timer_image, editStage_image, by decide, by decide,
    by decide, by decide, fun s ready => ⟨fun n => ⟨fun out => ?_, fun h num => ?_⟩, fun x => ⟨fun out => ?_, fun p num => ?_,
      fun out => ⟨?_, ?_⟩, fun a num => ⟨?_, ?_⟩⟩, congrArg _ (runCommand_ready ready _),
      congrArg _ (runCommand_ready ready _), congrArg _ (runCommand_ready ready _), ?_⟩⟩
  · simp only [queueImage, le_one, handleNum_getD]
    rfl
  · rw [exec_readBuffer ready, cmdReadBuffer, handleOf_eq_none out]
  · rw [exec_readBuffer ready, cmdReadBuffer, num, handleOf_num]
  · rw [exec_readPool ready, cmdReadPool, poolOf_eq_none out]
  · rw [exec_readPool ready, cmdReadPool, num, poolOf_val]
  · rw [exec_readQueue ready, cmdReadQueue, agentOf_eq_none out]
  · rw [exec_readFault ready, cmdReadFault, agentOf_eq_none out]
  · rw [exec_readQueue ready, cmdReadQueue, num, agentOf_val]
  · rw [exec_readFault ready, cmdReadFault, num, agentOf_val]
  · exact congrArg _ (runCommand_ready ready cmdIdentify)

end Sys2Proof.Machine
end

