-- ==== Sys2Proof/Proofs/Pools.lean ====
section
/-! Pools: what each event does with the pool records, and the laws of the low flags (R34) and of the member counts (R26). -/

namespace Sys2Proof.Machine

/-! ### What an operation does with the pools -/

/-- R34 for one pool. -/
def PoolRec.LowFollows (r : PoolRec) : Prop := r.tripped = decide (r.freeList.length < r.lowMark)

theorem lowFlagsFollow_iff (s : State) : s.lowFlagsFollow ↔ ∀ p, (s.pool p).LowFollows := Iff.rfl

/-- A change of a pool's free list and low flag alone, which keeps R34. -/
structure PoolRec.Moved (r r' : PoolRec) : Prop where
  rest : r' = { r with freeList := r'.freeList, tripped := r'.tripped }
  low : r.LowFollows → r'.LowFollows

/-- Every pool has changed in its free list and low flag at most. -/
def State.PoolsMoved (s t : State) : Prop := ∀ p, (s.pool p).Moved (t.pool p)

theorem PoolRec.Moved.refl (r : PoolRec) : r.Moved r := ⟨rfl, id⟩

theorem PoolRec.Moved.trans {r r' r'' : PoolRec} (h : r.Moved r') (h' : r'.Moved r'') : r.Moved r'' :=
  ⟨by rw [h'.rest, h.rest], h'.low ∘ h.low⟩

theorem PoolRec.Moved.members {r r' : PoolRec} (h : r.Moved r') : r'.members = r.members := by rw [h.rest]

/-- R33, R34: the head of the free list leaves, and the flag trips where the free count falls below the low mark. -/
theorem PoolRec.moved_of_claim {r : PoolRec} {h : Handle} {rest : List Handle} (head : r.freeList = h :: rest) :
    r.Moved { r with freeList := rest, tripped := r.tripped || decide (rest.length < r.lowMark) } := by
  refine ⟨rfl, fun low => ?_⟩
  unfold PoolRec.LowFollows at low
  rw [low, head, List.length_cons, ← Bool.decide_or]
  exact decide_eq_decide.mpr (show _ ↔ rest.length < r.lowMark by omega)

/-- R34: a handle joins the tail of the free list, and the flag re-arms where the free count reaches the low mark. -/
theorem PoolRec.moved_of_join (r : PoolRec) (h : Handle) : r.Moved { r with freeList := r.freeList ++ [h] }.rearm := by
  refine ⟨rfl, fun low => ?_⟩
  unfold PoolRec.LowFollows at low
  unfold PoolRec.LowFollows PoolRec.rearm
  dsimp only
  rw [low, ← Bool.decide_and, decide_eq_decide, List.length_append, List.length_singleton]
  omega

theorem poolsMoved_of_eq {s t : State} (pools : t.custody.pools = s.custody.pools) : s.PoolsMoved t := by
  intro p
  rw [State.pool, State.pool, pools]
  exact .refl _

theorem State.PoolsMoved.trans {s t u : State} (first : s.PoolsMoved t) (next : t.PoolsMoved u) : s.PoolsMoved u :=
  fun p => (first p).trans (next p)

/-- One pool record written. -/
theorem setPool_moved {s : State} {p : PoolId} {r : PoolRec} (moved : (s.pool p).Moved r) : s.PoolsMoved (s.setPool p r) := by
  intro q
  rw [pool_setPool]
  split
  · next e => exact e ▸ moved
  · exact .refl _

theorem claimHead_moved {s : State} {p : PoolId} {h : Handle} {rest : List Handle} (a : Agent)
    (head : (s.pool p).freeList = h :: rest) : s.PoolsMoved (s.claimHead a p h rest) := by
  have taken := setPool_moved (PoolRec.moved_of_claim head)
  unfold State.claimHead
  dsimp only
  split <;> exact taken

theorem becomeFree_moved (s : State) (h : Handle) : s.PoolsMoved (s.becomeFree h) :=
  setPool_moved (PoolRec.moved_of_join (s.pool (s.buf h).pool) h)

theorem settleRelease_moved (s : State) (h : Handle) : s.PoolsMoved (s.settleRelease h) := by
  unfold State.settleRelease
  split
  · exact poolsMoved_of_eq (by simp)
  · exact becomeFree_moved s h

theorem releasePath_moved (s : State) (h : Handle) : s.PoolsMoved (s.releasePath h) := by
  unfold State.releasePath
  dsimp only
  split
  · exact poolsMoved_of_eq (by simp)
  · exact settleRelease_moved (s.setBuf h _) h

theorem forceOut_moved (s : State) (h : Handle) : s.PoolsMoved (s.forceOut h) := by
  unfold State.forceOut
  split
  · exact releasePath_moved (s.leaveQueue _ h) h
  · exact releasePath_moved s h

theorem completeDrain_moved (s : State) (h : Handle) : s.PoolsMoved (s.completeDrain h) := by
  unfold State.completeDrain
  split
  · exact settleRelease_moved s h
  · exact poolsMoved_of_eq rfl

theorem endAccess_moved (s : State) (i j : TagIndex) (r : TagRec) (a : Agent) (g : StageTag) (h : Handle) (x : BitVec 2)
    (st : RespStatus) (d : List Byte) : s.PoolsMoved (((s.setTag i r).endInFlight h).report a g j x st d) := by
  have ended : s.PoolsMoved ((s.setTag i r).endInFlight h) := completeDrain_moved ((s.setTag i r).setBuf h _) h
  exact ended.trans (poolsMoved_of_eq (by simp))

theorem finishScrub_moved (s : State) : s.PoolsMoved s.finishScrub := by
  unfold State.finishScrub
  split
  · split
    · exact becomeFree_moved { s with scrub.engine := .idle } _
    · exact poolsMoved_of_eq rfl
  all_goals exact poolsMoved_of_eq rfl

theorem burstEnd_moved (s : State) (n : Nat) (good : Bool) : s.PoolsMoved (s.burstEnd n good) := by
  unfold State.burstEnd
  split
  · dsimp only
    split
    · exact finishScrub_moved { s with scrub.engine := .issuing _ }
    · exact poolsMoved_of_eq (by simp)
  all_goals exact poolsMoved_of_eq (by simp)

theorem scrubLinkDown_pools (s : State) : s.scrubLinkDown.custody.pools = s.custody.pools := by
  unfold State.scrubLinkDown
  split <;> simp

theorem loseTag_moved (s : State) (i : TagIndex) : s.PoolsMoved (s.loseTag i) := by
  rcases loseTag_cases s i with ⟨-, e⟩ | ⟨a, g, h, m, -, e⟩ | ⟨h, n, m, -, e⟩ <;> rw [e]
  · exact poolsMoved_of_eq rfl
  · exact endAccess_moved s i i _ a g h _ _ _
  · exact poolsMoved_of_eq (by simp)

theorem returnAll_pools (l : List Handle) (s : State) : (l.foldl State.bringBack s).custody.pools = s.custody.pools :=
  foldl_keeps State.bringBack (fun s => s.custody.pools) (by simp) l s

/-- The two events that write every pool record anew. -/
inductive State.Rewritten (s : State) : State → Prop
  | reset (pins : BitVec 2) : s.Rewritten (s.partReset pins)
  | apply {staged : List Edit} {im : Image} (good : s.judge staged = .ok im) : s.Rewritten (s.adopt im)

/-- An event moves handles in and out of free lists, unless it is a part reset or the apply of a group. -/
theorem Event.pools {s t : State} (e : Event s t) : s.PoolsMoved t ∨ s.Rewritten t := by
  cases e with
  | aside same => exact .inl (poolsMoved_of_eq (by rw [same.custody]))
  | reset pins => exact .inr (.reset pins)
  | apply good => exact .inr (.apply good)
  | claim head => exact .inl (claimHead_moved _ head)
  | returnAll a => exact .inl (poolsMoved_of_eq (returnAll_pools _ s))
  | release => exact .inl (forceOut_moved s _)
  | readmit => exact .inl (becomeFree_moved s _)
  | endAccess => exact .inl (endAccess_moved s _ _ _ _ _ _ _ _ _)
  | drain h => exact .inl (completeDrain_moved s h)
  | @endBurst i _ n _ _ gen good => exact .inl (burstEnd_moved (s.setTag i ⟨gen, none⟩) n good)
  | finishScrub => exact .inl (finishScrub_moved s)
  | linkDown =>
    have lost : s.PoolsMoved ((List.finRange 64).foldl State.loseTag { s with mem.link := .down }) :=
      foldl_keeps_law (law := s.PoolsMoved) _ (fun u i moved => moved.trans (loseTag_moved u i)) _ _ (poolsMoved_of_eq rfl)
    exact .inl (lost.trans (poolsMoved_of_eq (scrubLinkDown_pools _)))
  | _ => exact .inl (poolsMoved_of_eq (by simp))

/-! ### R34 after each event -/

theorem adopt_pool (s : State) (im : Image) (p : PoolId) :
    (s.adopt im).pool p = PoolRec.setLowFlag { nth im.pools p with freeList := freeListAfter s im p } := by
  simp only [State.pool, State.adopt, nth_ofFn]

/-- R34 is kept by every event: an apply sets each flag anew. -/
theorem lowFlagsFollow_of_event (s t : State) (e : Event s t) (law : s.lowFlagsFollow) : t.lowFlagsFollow := by
  rcases e.pools with moved | ⟨⟨pins⟩ | _⟩
  · exact fun p => (moved p).low (law p)
  · simp [State.lowFlagsFollow, State.partReset, State.pool, Custody.reset, PoolRec.reset]
  · intro p
    rw [adopt_pool]
    rfl

/-- Settles O10: the flag and the free count agree after each of the events that a step is made of. -/
theorem lowFlagsFollowFreeCounts : Obligations.LowFlagsFollowFreeCounts :=
  fun _ _ law taken => step_keeps lowFlagsFollow_of_event taken law

/-! ### The members of a pool -/

/-- Whether a record is a non-VOID buffer of a pool. -/
def BufRec.isIn (r : BufRec) (p : PoolId) : Bool := decide (r.state ≠ .void) && decide (r.pool = p)

/-- The number of non-VOID buffers that name a pool. -/
def memberCount (bufs : Vector BufRec 511) (p : PoolId) : Nat :=
  ((List.finRange 511).filter fun h => (nth bufs h).isIn p).length

theorem membersCounted_iff (s : State) : s.membersCounted ↔ ∀ p, (s.pool p).members = memberCount s.custody.bufs p := Iff.rfl

theorem isIn_of_void {r : BufRec} (void : r.state = .void) (p : PoolId) : r.isIn p = false := by
  simp [BufRec.isIn, void]

theorem isIn_of_alive {r : BufRec} (alive : r.state ≠ .void) (p : PoolId) : r.isIn p = decide (r.pool = p) := by
  simp [BufRec.isIn, alive]

/-- A buffer that is not VOID before and after, in the same pool, is counted as before. -/
theorem isIn_congr {r r' : BufRec} (alive : r.state ≠ .void) (alive' : r'.state ≠ .void) (pool : r'.pool = r.pool) :
    r'.isIn = r.isIn := by
  funext p
  rw [isIn_of_alive alive, isIn_of_alive alive', pool]

/-- A record written: the count of each pool changes by what the record was and what it is. -/
theorem memberCount_put (bufs : Vector BufRec 511) (h : Handle) (r : BufRec) (p : PoolId) :
    memberCount (put bufs h r) p + ((nth bufs h).isIn p).toNat = memberCount bufs p + (r.isIn p).toNat := by
  have := length_filter_update (fun k => (nth bufs k).isIn p) (fun k => (nth (put bufs h r) k).isIn p) h
    fun k ne => by simp only [nth_put_ne _ _ _ _ ne]
  simpa only [memberCount, nth_put_self] using this

theorem memberCount_congr {bufs bufs' : Vector BufRec 511} (same : ∀ k, (nth bufs' k).isIn = (nth bufs k).isIn) (p : PoolId) :
    memberCount bufs' p = memberCount bufs p := by
  simp only [memberCount, same]

/-- Every buffer belongs to the pool that it belonged to. -/
def State.SameMembers (s t : State) : Prop := ∀ k, (t.buf k).isIn = (s.buf k).isIn

theorem State.SameMembers.trans {s t u : State} (first : s.SameMembers t) (next : t.SameMembers u) : s.SameMembers u :=
  fun k => (next k).trans (first k)

theorem sameMembers_of_eq {s t : State} (bufs : t.custody.bufs = s.custody.bufs) : s.SameMembers t := by
  intro k
  rw [State.buf, State.buf, bufs]

/-- One record written. -/
theorem setBuf_members {s : State} {h : Handle} {r : BufRec} (same : r.isIn = (s.buf h).isIn) : s.SameMembers (s.setBuf h r) := by
  intro k
  rw [buf_setBuf]
  split
  · next e => rw [e, same]
  · rfl

/-! ### Members that stay -/

section
variable {s : State} {h : Handle} (alive : (s.buf h).state ≠ .void)
include alive

theorem becomeFree_members : s.SameMembers (s.becomeFree h) :=
  setBuf_members (isIn_congr alive (by simp) rfl)

theorem enterScrubbing_members : s.SameMembers (s.enterScrubbing h) :=
  setBuf_members (isIn_congr alive (by simp) rfl)

theorem withhold_members : s.SameMembers (s.withhold h) :=
  setBuf_members (isIn_congr alive (by simp) rfl)

theorem bringBack_members : s.SameMembers (s.bringBack h) := by
  intro k
  rw [buf_bringBack]
  split
  · next e =>
    subst e
    exact isIn_congr alive (by simp) rfl
  · rfl

theorem settleRelease_members : s.SameMembers (s.settleRelease h) := by
  unfold State.settleRelease
  split
  · exact enterScrubbing_members alive
  · exact becomeFree_members alive

theorem releasePath_members : s.SameMembers (s.releasePath h) := by
  have bared : s.SameMembers (s.setBuf h { s.buf h with custodian := none, target := none, sealed := false, lends := [] }) :=
    setBuf_members rfl
  unfold State.releasePath
  dsimp only
  split
  · refine bared.trans (setBuf_members (isIn_congr ?_ (by simp) rfl))
    rwa [buf_setBuf_self]
  · refine bared.trans (settleRelease_members ?_)
    rwa [buf_setBuf_self]

theorem forceOut_members : s.SameMembers (s.forceOut h) := by
  unfold State.forceOut
  split
  · exact releasePath_members (s := s.leaveQueue _ h) alive
  · exact releasePath_members alive

end

/-- A drain that completes is that of a DRAINING buffer. -/
theorem completeDrain_members (s : State) (h : Handle) : s.SameMembers (s.completeDrain h) := by
  unfold State.completeDrain
  split
  · next done => exact settleRelease_members (by simp [done.1])
  · exact sameMembers_of_eq rfl

theorem endAccess_members (s : State) (i j : TagIndex) (r : TagRec) (a : Agent) (g : StageTag) (h : Handle) (x : BitVec 2)
    (st : RespStatus) (d : List Byte) : s.SameMembers (((s.setTag i r).endInFlight h).report a g j x st d) := by
  have lowered : s.SameMembers ((s.setTag i r).setBuf h { s.buf h with inFlight := (s.buf h).inFlight - 1 }) :=
    setBuf_members (s := s.setTag i r) rfl
  have ended : s.SameMembers ((s.setTag i r).endInFlight h) := lowered.trans (completeDrain_members _ h)
  exact ended.trans (sameMembers_of_eq (by simp))

theorem loseTag_members (s : State) (i : TagIndex) : s.SameMembers (s.loseTag i) := by
  rcases loseTag_cases s i with ⟨-, e⟩ | ⟨a, g, h, m, -, e⟩ | ⟨h, n, m, -, e⟩ <;> rw [e]
  · exact sameMembers_of_eq rfl
  · exact endAccess_members s i i _ a g h _ _ _
  · exact sameMembers_of_eq (by simp)

theorem tend_members {s : State} (bufs : Vector BufRec 511) (each : ∀ h, (s.buf h).Tended (nth bufs h)) :
    s.SameMembers { s with custody.bufs := bufs } := by
  intro k
  show (nth bufs k).isIn = _
  rw [(each k).rest]
  rfl

/-- A queue returned handle by handle: none of its buffers is VOID. -/
theorem returnAll_members (l : List Handle) (s : State) (alive : ∀ h ∈ l, (s.buf h).state ≠ .void) :
    s.SameMembers (l.foldl State.bringBack s) := by
  induction l generalizing s with
  | nil => exact sameMembers_of_eq rfl
  | cons h l ih =>
    refine (bringBack_members (alive h (by simp))).trans (ih _ fun k mem => ?_)
    rw [buf_bringBack]
    split
    · simp
    · exact alive k (by simp [mem])

section
variable {s : State} (c : s.Collected)
include c

/-- The buffer that the engine scrubs is not VOID. -/
theorem State.Collected.engine_alive {h : Handle} (mine : s.scrub.engine.handle = some h) : (s.buf h).state ≠ .void := by
  simp [(c.scrub h).mp (.inr mine)]

theorem finishScrub_members : s.SameMembers s.finishScrub := by
  unfold State.finishScrub
  split
  · next issuing =>
    split
    · exact becomeFree_members (s := { s with scrub.engine := .idle }) (c.engine_alive (by rw [issuing]; rfl))
    · exact sameMembers_of_eq rfl
  all_goals exact sameMembers_of_eq rfl

theorem failScrub_members : s.SameMembers s.failScrub := by
  unfold State.failScrub
  split
  · next failing =>
    split
    · exact withhold_members (s := { s with scrub.engine := .idle }) (c.engine_alive (by rw [failing]; rfl))
    · exact sameMembers_of_eq rfl
  all_goals exact sameMembers_of_eq rfl

theorem burstEnd_members (n : Nat) (good : Bool) : s.SameMembers (s.burstEnd n good) := by
  unfold State.burstEnd
  split
  · next issuing =>
    dsimp only
    split
    · exact finishScrub_members (c.setEngine _ (by rw [issuing]; rfl))
    · exact failScrub_members (c.setEngine _ (by rw [issuing]; rfl))
  · next failing => exact failScrub_members (c.setEngine _ (by rw [failing]; rfl))
  all_goals exact sameMembers_of_eq rfl

theorem scrubLinkDown_members : s.SameMembers s.scrubLinkDown := by
  unfold State.scrubLinkDown
  split
  · exact sameMembers_of_eq rfl
  · next failing => exact failScrub_members (c.setEngine _ (by rw [failing]; rfl))
  all_goals exact sameMembers_of_eq rfl

end

/-- R18, R26: in a lawful table, buffers come into a pool and leave it by a part reset or the apply of a group alone. -/
theorem Event.members {s t : State} (e : Event s t) (law : s.custodyLawful) : s.SameMembers t ∨ s.Rewritten t := by
  obtain ⟨f, -, c⟩ := law
  cases e with
  | aside same => exact .inl (sameMembers_of_eq (by rw [same.custody]))
  | reset pins => exact .inr (.reset pins)
  | apply good => exact .inr (.apply good)
  | tend bufs each => exact .inl (tend_members bufs each)
  | @claim a p h rest head =>
    have free := ((c.free p h).mp (by simp [head])).1
    refine .inl fun k => ?_
    rw [claimHead_bufs]
    split
    · next e =>
      subst e
      exact isIn_congr (by simp [free]) (by simp) rfl
    · rfl
  | pass held => exact .inl (setBuf_members (isIn_congr (by simp [held]) (by simp) rfl))
  | @accept a h rest head =>
    have waits := ((c.transit a h).mp (by simp [head])).1
    exact .inl (setBuf_members (isIn_congr (by simp [waits]) (by simp) rfl))
  | bringBack waits => exact .inl (bringBack_members (by simp [waits]))
  | returnAll a => exact .inl (returnAll_members _ s fun h mem => by simp [((c.transit a h).mp mem).1])
  | @release h owned =>
    have holder := (f h).custodian
    exact .inl (forceOut_members (by grind))
  | readmit withheld => exact .inl (becomeFree_members (by simp [withheld]))
  | rescrub withheld => exact .inl (enterScrubbing_members (by simp [withheld]))
  | forward => exact .inl (setBuf_members (s := s) rfl)
  | endAccess => exact .inl (endAccess_members s _ _ _ _ _ _ _ _ _)
  | drain h => exact .inl (completeDrain_members s h)
  | @endBurst i _ n _ _ gen good =>
    have tagged : (s.setTag i ⟨gen, none⟩).Collected := c.of_eq rfl rfl rfl
    exact .inl (burstEnd_members tagged n good)
  | finishScrub => exact .inl (finishScrub_members c)
  | failScrub => exact .inl (failScrub_members c)
  | linkDown =>
    have down : State.Collected { s with mem.link := .down } := c.of_eq rfl rfl rfl
    have lost : s.SameMembers ((List.finRange 64).foldl State.loseTag { s with mem.link := .down }) :=
      foldl_keeps_law (law := s.SameMembers) _ (fun u i same => same.trans (loseTag_members u i)) _ _ (sameMembers_of_eq rfl)
    exact .inl (lost.trans (scrubLinkDown_members (foldl_keeps_law _ loseTag_collected _ _ down)))
  | _ => exact .inl (sameMembers_of_eq (by simp))

/-! ### R26 after an apply -/

/-- R26 for the working image of a group. -/
def Image.Counted (im : Image) : Prop := ∀ p, (nth im.pools p).members = memberCount im.bufs p

/-- Placing a buffer writes its record, FREE or SCRUBBING, and leaves the pools. -/
theorem place_eq (im : Image) (h : Handle) (r : BufRec) :
    (im.place h r).pools = im.pools ∧
      ∃ st, st ≠ .void ∧ (im.place h r).bufs = put im.bufs h { r with state := st } := by
  unfold Image.place
  split
  · exact ⟨rfl, .scrubbing, by simp, rfl⟩
  · exact ⟨rfl, .free, by simp, rfl⟩

/-- A buffer of a pool moved or resized stays one of its members. -/
theorem place_counted {im : Image} {h : Handle} {r : BufRec} (alive : (nth im.bufs h).state ≠ .void)
    (pool : r.pool = (nth im.bufs h).pool) (law : im.Counted) : (im.place h r).Counted := by
  obtain ⟨pools, st, placed, bufs⟩ := place_eq im h r
  intro p
  have count := memberCount_put im.bufs h { r with state := st } p
  rw [isIn_congr (r' := { r with state := st }) alive placed pool] at count
  rw [pools, bufs, law p]
  exact (Nat.add_right_cancel count).symm

/-- R160: a defined buffer was VOID, and its pool's count rises by one. -/
theorem define_counted {im im₁ : Image} {h : Handle} {p : PoolId} (base length : Nat)
    (void : (nth im.bufs h).state = .void) (bufs₁ : im₁.bufs = im.bufs)
    (pools₁ : im₁.pools = put im.pools p { nth im.pools p with members := (nth im.pools p).members + 1 })
    (law : im.Counted) : (im₁.place h (definedRec p base length)).Counted := by
  obtain ⟨pools, st, placed, bufs⟩ := place_eq im₁ h (definedRec p base length)
  intro q
  have count := memberCount_put im.bufs h { definedRec p base length with state := st } q
  have joins : ({ definedRec p base length with state := st } : BufRec).isIn q = decide (p = q) := isIn_of_alive placed q
  have before := law q
  rw [isIn_of_void void, joins] at count
  rw [pools, bufs, pools₁, bufs₁, nth_put]
  by_cases e : q = p
  · subst e
    simp at count ⊢
    omega
  · simp [e, Ne.symm e] at count ⊢
    omega

/-- R160: a retired buffer was a member, and its pool's count falls by one. -/
theorem retire_counted {im : Image} {h : Handle} (alive : (nth im.bufs h).state ≠ .void) (law : im.Counted)
    (freed : List Handle) :
    Image.Counted { im with
      bufs := put im.bufs h (retiredRec (nth im.bufs h))
      pools := put im.pools (nth im.bufs h).pool
        { nth im.pools (nth im.bufs h).pool with members := (nth im.pools (nth im.bufs h).pool).members - 1 }
      freed := freed } := by
  intro q
  have count := memberCount_put im.bufs h (retiredRec (nth im.bufs h)) q
  have before := law q
  rw [isIn_of_alive alive, isIn_of_void (r := retiredRec _) rfl] at count
  simp only [nth_put]
  by_cases e : q = (nth im.bufs h).pool
  · subst e
    simp at count ⊢
    omega
  · simp [e, Ne.symm e] at count ⊢
    omega

/-- A pool's settings written anew leave its members. -/
theorem settings_counted {im : Image} {p : PoolId} {r : PoolRec} (members : r.members = (nth im.pools p).members)
    (law : im.Counted) : Image.Counted { im with pools := put im.pools p r } := by
  intro q
  refine Eq.trans ?_ (law q)
  simp only [nth_put]
  split
  · next e => rw [e, members]
  · rfl

/-- R26 is kept by each entry that does not fail. -/
theorem applyEntry_counted {im im' : Image} {e : Edit} (good : applyEntry im e = .ok im') (law : im.Counted) : im'.Counted := by
  cases e with
  | define h p base length =>
    simp only [applyEntry] at good
    split at good
    · cases good
    · next void =>
      split at good
      · cases good
      · cases good
        exact define_counted (im := im) base length (by simpa using void) rfl rfl law
  | move h base =>
    simp only [applyEntry] at good
    split at good
    · cases good
    · next free =>
      cases good
      exact place_counted (by grind) rfl law
  | resize h length =>
    simp only [applyEntry] at good
    split at good
    · cases good
    · next free =>
      cases good
      exact place_counted (by grind) rfl law
  | retire h =>
    simp only [applyEntry] at good
    split at good
    · cases good
    · next free =>
      cases good
      exact retire_counted (by grind) law _
  | pool p c =>
    cases good
    exact settings_counted rfl law
  | unpool p =>
    simp only [applyEntry] at good
    split at good
    · cases good
    · cases good
      exact settings_counted rfl law

/-! ### R26 after each event -/

theorem memberCount_reset (p : PoolId) : memberCount Custody.reset.bufs p = 0 := by
  rw [memberCount, List.length_eq_zero_iff, List.filter_eq_nil_iff]
  intro h _
  rw [Custody.reset, nth_replicate, isIn_of_void rfl]
  exact Bool.false_ne_true

theorem rewritten_counted {s t : State} (rewritten : s.Rewritten t) (counted : s.membersCounted) : t.membersCounted := by
  intro p
  cases rewritten with
  | reset pins =>
    refine Eq.trans ?_ (memberCount_reset p).symm
    simp only [State.partReset, State.pool, Custody.reset, nth_replicate, PoolRec.reset]
  | apply good =>
    rw [adopt_pool]
    exact judge_keeps (law := Image.Counted) (fun _ _ _ ok => applyEntry_counted ok) good counted p

/-- R26 in a lawful table: the counts are right after every event. -/
theorem membersCounted_of_event (s t : State) (e : Event s t) (law : s.custodyLawful) (counted : s.membersCounted) :
    t.membersCounted := by
  rcases e.pools with moved | rewritten
  · rcases e.members law with same | rewritten
    · intro p
      rw [(moved p).members, counted p]
      exact (memberCount_congr same p).symm
    · exact rewritten_counted rewritten counted
  · exact rewritten_counted rewritten counted

/-- Settles O8: the table is lawful and the counts are right after each of the events that a step is made of. -/
theorem membersStayCounted : Obligations.MembersStayCounted := by
  intro s t law counted taken
  have each (u v : State) (e : Event u v) (both : u.custodyLawful ∧ u.membersCounted) :
      v.custodyLawful ∧ v.membersCounted :=
    ⟨custodyLawful_of_event u v e both.1, membersCounted_of_event u v e both.1 both.2⟩
  exact (step_keeps (law := fun u => u.custodyLawful ∧ u.membersCounted) each taken ⟨law, counted⟩).2

end Sys2Proof.Machine
end

