-- ==== Sys2Proof/Proofs/PoolRequests.lean ====
section
/-! CLAIM and RELEASE, and the force commands: the checks in their order, and the whole next state. -/

namespace Sys2Proof.Machine

/-! ### CLAIM and RELEASE -/

theorem takeRequest_claim_refused {s : State} {a : Agent} {p : PoolId} {c : Code} (refused : s.claimCheck a p = some c) :
    s.takeRequest a (.claim p) = (s, { code := c }) := by
  simp only [State.takeRequest, refused]

theorem takeRequest_claim_head {s : State} {a : Agent} {p : PoolId} {h : Handle} {rest : List Handle}
    (passes : s.claimCheck a p = none) (head : (s.pool p).freeList = h :: rest) :
    s.takeRequest a (.claim p) = (s.claimHead a p h rest, claimAnswer h (s.buf h)) := by
  simp only [State.takeRequest, passes, head]

/-- Settles O24: each check by the conditions that those before it passed. -/
theorem claimInOrder : Obligations.ClaimInOrder := by
  intro s a p r
  refine ⟨fun _ => rfl, fun undefined => ?_, fun defined_ outside => ?_, fun defined_ member empty => ?_,
    fun h rest defined_ member head => ?_⟩
  · exact takeRequest_claim_refused (by simp [State.claimCheck, r, undefined])
  · exact takeRequest_claim_refused (by simp [State.claimCheck, r, defined_, outside])
  · exact takeRequest_claim_refused (by simp [State.claimCheck, r, defined_, member, empty])
  · have passes : s.claimCheck a p = none := by simp [State.claimCheck, r, defined_, member, head]
    rw [takeRequest_claim_head passes head]
    simp only [State.claimHead, claimAnswer, Bool.and_eq_true, Bool.not_eq_true', decide_eq_true_eq, r]

/-- Settles O25: the checks of R93 and R36 one after the other. -/
theorem releaseInOrder : Obligations.ReleaseInOrder := by
  intro s a h g r word
  simp only [State.takeRequest, State.releaseCheck, stateCheck, holderCheck]
  by_cases void : (s.buf h).state = .void
  · simp only [r, word, namedAnswer, if_pos void]
  by_cases stale : (s.buf h).generation ≠ g
  · simp only [r, word, namedAnswer, if_neg void, if_pos stale]
  by_cases stranger : (s.buf h).custodian ≠ some a
  · simp only [r, word, namedAnswer, if_neg void, if_neg stale, if_pos stranger]
  by_cases unheld : (s.buf h).state ≠ .held
  · simp only [r, word, namedAnswer, if_neg void, if_neg stale, if_neg stranger, if_pos unheld]
  by_cases lent : (s.buf h).lends ≠ []
  · simp only [r, word, namedAnswer, if_neg void, if_neg stale, if_neg stranger, if_neg unheld, if_pos lent]
  · simp only [r, word, namedAnswer, if_neg void, if_neg stale, if_neg stranger, if_neg unheld, if_neg lent]

/-! ### The answers of the force commands -/

theorem handleOf_of_num {n : Nat} {h : Handle} (num : n = h.val + 1) : handleOf n = some h := by
  rw [num, handleOf_num]

theorem exec_forceRelease {s : State} (ready : s.ready) (n : BitVec 16) :
    exec (.forceRelease n) s = .next (cmdForceRelease n.toNat s) := congrArg _ (runCommand_ready ready _)

theorem exec_forceReturn {s : State} (ready : s.ready) (n : BitVec 16) (x : Byte) :
    exec (.forceReturn n x) s = .next (cmdForceReturn n.toNat x.toNat s) := congrArg _ (runCommand_ready ready _)

theorem exec_admitBuffer {s : State} (ready : s.ready) (n : BitVec 16) :
    exec (.admitBuffer n) s = .next (cmdAdmit n.toNat s) := congrArg _ (runCommand_ready ready _)

theorem exec_rescrub {s : State} (ready : s.ready) (n : BitVec 16) :
    exec (.rescrub n) s = .next (cmdRescrub n.toNat s) := congrArg _ (runCommand_ready ready _)

section
variable {s : State} {n : Nat} {h : Handle} (num : handleOf n = some h)
include num

theorem cmdForceRelease_owned (owned : (s.buf h).state = .held ∨ (s.buf h).state = .inTransit) :
    cmdForceRelease n s =
      ((s.forceOut h).setAnswer .ok
        (le 1 ((s.forceOut h).buf h).state.code ++ [((s.forceOut h).buf h).generation])).kick := by
  simp only [cmdForceRelease, num, if_pos owned]

theorem cmdForceRelease_unowned (unowned : ¬((s.buf h).state = .held ∨ (s.buf h).state = .inTransit)) :
    cmdForceRelease n s = s.setAnswer .wrongState := by
  simp only [cmdForceRelease, num, if_neg unowned]

theorem cmdAdmit_withheld (withheld : (s.buf h).state = .withheld) :
    cmdAdmit n s = (s.becomeFree h).setAnswer .ok [((s.becomeFree h).buf h).generation] := by
  simp only [cmdAdmit, num, if_pos withheld]

theorem cmdRescrub_withheld (withheld : (s.buf h).state = .withheld) :
    cmdRescrub n s = ((s.enterScrubbing h).setAnswer .ok).kick := by
  simp only [cmdRescrub, num, if_pos withheld]

theorem cmdAdmit_wrongState (other : (s.buf h).state ≠ .withheld) : cmdAdmit n s = s.setAnswer .wrongState := by
  simp only [cmdAdmit, num, if_neg other]

theorem cmdRescrub_wrongState (other : (s.buf h).state ≠ .withheld) : cmdRescrub n s = s.setAnswer .wrongState := by
  simp only [cmdRescrub, num, if_neg other]

end

/-! ### FORCE_RELEASE and FORCE_RETURN -/

theorem lists_iff (r : BufRec) (b : Agent) : r.lists b = true ↔ b ∈ r.lends.map Lend.borrower := by
  simp [BufRec.lists]

/-- An IN_TRANSIT buffer is forced out of its target's queue first. -/
theorem forceOut_of_transit {s : State} {h : Handle} {b : Agent} (transit : (s.buf h).state = .inTransit)
    (target : (s.buf h).target = some b) :
    s.forceOut h = (s.setQueue b ((s.queue b).filter (· ≠ h))).releasePath h := by
  simp only [State.forceOut, transit, target, State.leaveQueue]

theorem cmdForceReturn_range {n x : Nat} (out : handleOf n = none ∨ agentOf x = none) (s : State) :
    cmdForceReturn n x s = s.setAnswer .range := by
  unfold cmdForceReturn
  split
  · next h b num agent => simp [num, agent] at out
  · rfl
  · rfl

/-- R80: FORCE_RETURN of a handle and an agent, in the order of its checks. -/
theorem cmdForceReturn_eq {s : State} {n x : Nat} {h : Handle} {b : Agent} (num : handleOf n = some h)
    (agent : agentOf x = some b) :
    cmdForceReturn n x s =
      if (s.buf h).state = .held ∨ (s.buf h).state = .inTransit then
        if b ∈ (s.buf h).lends.map Lend.borrower then
          (s.setBuf h ((s.buf h).endLend b)).setAnswer .ok
            [(s.buf h).generation, BitVec.ofNat 8 ((s.buf h).endLend b).lends.length]
        else if memAgent b (s.buf h).expired = true then
          (s.setBuf h ((s.buf h).endExpiry b)).setAnswer .expired
            [(s.buf h).generation, BitVec.ofNat 8 (s.buf h).lends.length]
        else s.setAnswer .noLend
      else s.setAnswer .wrongState := by
  simp only [cmdForceReturn, num, agent, lists_iff, le_one]

/-- Settles O51: the arguments, the state, and then the release path or the lend that ends. -/
theorem forceReleaseAndReturn : Obligations.ForceReleaseAndReturn := by
  intro s n x ready
  refine ⟨fun out => ?_, fun out => ?_, fun h num => ?_⟩
  · have none_ := handleOf_eq_none out
    exact ⟨by rw [exec_forceRelease ready, cmdForceRelease, none_],
      by rw [exec_forceReturn ready, cmdForceReturn_range (.inl none_)]⟩
  · rw [exec_forceReturn ready, cmdForceReturn_range (.inr (agentOf_eq_none out))]
  · have num := handleOf_of_num num
    intro r answered
    rw [exec_forceRelease ready, exec_forceReturn ready]
    refine ⟨fun unheld untransit => ⟨?_, fun small => ?_⟩, fun held => ?_, fun b transit target => ?_, fun b agent owned => ?_⟩
    · rw [cmdForceRelease_unowned num (by simp [unheld, untransit, r])]
    · have agent : agentOf x.toNat = some ⟨x.toNat, by omega⟩ := agentOf_val ⟨x.toNat, by omega⟩
      rw [cmdForceReturn_eq num agent, if_neg (by simp [unheld, untransit, r])]
    · rw [cmdForceRelease_owned num (.inl held), forceOut_of_held s h held]
    · rw [cmdForceRelease_owned num (.inr transit), forceOut_of_transit transit target]
    · have agent : agentOf x.toNat = some b := by rw [agent, agentOf_val]
      rw [cmdForceReturn_eq num agent, if_pos owned]
      rfl

/-! ### ADMIT and RESCRUB -/

/-- A law that each grant keeps, the arbiter keeps. -/
theorem arbitrate_keeps_law {law : State → Prop} (each : ∀ u, law u → law u.grantOnce) {s : State} (l : law s) :
    law s.arbitrate := each _ (each _ (each _ (each _ (each _ l))))

/-- The engine issues the bursts of a buffer with this place and length. -/
def Engine.Issues (e : Engine) (h : Handle) (base length : Nat) : Prop :=
  ∃ c, e = .issuing c ∧ c.handle = h ∧ c.base = base ∧ c.count = length * 16

/-- A grant issues at most the next burst of the same buffer. -/
theorem grantOnce_issues {s : State} {h : Handle} {base length : Nat} (issues : s.scrub.engine.Issues h base length) :
    s.grantOnce.scrub.engine.Issues h base length := by
  obtain ⟨c, issuing, same⟩ := issues
  unfold State.grantOnce
  split
  · exact ⟨c, issuing, same⟩
  · exact ⟨c, by simpa using issuing, same⟩
  · exact ⟨_, issueBurst_engine s _ c issuing, same⟩

/-- An access forwarded raises an in-flight count, and may set a written mark. -/
theorem forward_record (s : State) (t : Txn) (h k : Handle) (i : TagIndex) :
    ((s.forward t h i).buf k).state = (s.buf k).state ∧ ((s.forward t h i).buf k).generation = (s.buf k).generation := by
  show ((s.setBuf h _).buf k).state = _ ∧ ((s.setBuf h _).buf k).generation = _
  rw [buf_setBuf]
  split
  · next e => exact e ▸ ⟨rfl, rfl⟩
  · exact ⟨rfl, rfl⟩

theorem recheckGranted_record (s : State) (i : TagIndex) (k : Handle) :
    ((s.recheckGranted i).buf k).state = (s.buf k).state ∧
      ((s.recheckGranted i).buf k).generation = (s.buf k).generation := by
  unfold State.recheckGranted
  split
  · exact ⟨rfl, rfl⟩
  · dsimp only
    split
    · exact ⟨rfl, rfl⟩
    · split
      · simp [State.buf]
      · exact forward_record { s.dropHold with mem.preference := .scrub } _ _ k i

/-- A grant leaves the state and the generation of every buffer. -/
theorem grantOnce_record (s : State) (k : Handle) :
    (s.grantOnce.buf k).state = (s.buf k).state ∧ (s.grantOnce.buf k).generation = (s.buf k).generation := by
  unfold State.grantOnce
  split
  · exact ⟨rfl, rfl⟩
  · exact recheckGranted_record s _ k
  · simp [State.buf]

theorem arbitrate_record (s : State) (k : Handle) :
    (s.arbitrate.buf k).state = (s.buf k).state ∧ (s.arbitrate.buf k).generation = (s.buf k).generation :=
  arbitrate_keeps_law (law := fun u => (u.buf k).state = (s.buf k).state ∧ (u.buf k).generation = (s.buf k).generation)
    (fun u same => ⟨(grantOnce_record u k).1.trans same.1, (grantOnce_record u k).2.trans same.2⟩) ⟨rfl, rfl⟩

/-- R132: an IDLE engine with the link UP takes the one handle that waits, and keeps it while the arbiter grants. -/
theorem kick_takes {s : State} {h : Handle} (idle : s.scrub.engine = .idle) (up : s.mem.link = .up)
    (queue : s.scrub.queue = [h]) :
    s.kick.scrub.queue = [] ∧ s.kick.scrub.engine.Issues h (s.buf h).base (s.buf h).length := by
  have taken : s.takeHead = { s with scrub := ⟨[], .issuing
      { handle := h, base := (s.buf h).base, count := (s.buf h).length * 16, issue := 0, inFlight := [] }⟩ } := by
    simp only [State.takeHead, idle, up, queue]
  unfold State.kick
  rw [taken]
  refine ⟨by simp, ?_⟩
  exact arbitrate_keeps_law (law := fun u => u.scrub.engine.Issues h (s.buf h).base (s.buf h).length)
    (fun _ issues => grantOnce_issues issues) ⟨_, rfl, rfl, rfl, rfl⟩

theorem kick_record (s : State) (k : Handle) :
    (s.kick.buf k).state = (s.buf k).state ∧ (s.kick.buf k).generation = (s.buf k).generation := by
  have := arbitrate_record s.takeHead k
  simpa [State.buf, State.kick] using this

/-- A handle that joins the scrub queue leaves the part quiet where no engine could take it. -/
theorem enterScrubbing_quiet {s : State} {h : Handle} (busy : s.scrub.engine ≠ .idle ∨ s.mem.link = .down) (quiet : s.quiet) :
    (s.enterScrubbing h).quiet := by
  obtain ⟨granted, -⟩ := quiet
  unfold State.quiet State.mayGrant State.tag
  simp only [enterScrubbing_keeps]
  refine ⟨granted, fun idle up => ?_⟩
  rcases busy with busy | down
  · exact absurd idle busy
  · exact absurd (up.symm.trans down) (by simp)

/-- Settles O52: the argument, the state, and then the transition; RESCRUB's handle waits, or is taken at once. -/
theorem admitAndRescrub : Obligations.AdmitAndRescrub := by
  intro s n ready
  rw [exec_admitBuffer ready, exec_rescrub ready]
  refine ⟨fun out => ?_, fun h num => ?_⟩
  · have none_ := handleOf_eq_none out
    exact ⟨by rw [cmdAdmit, none_], by rw [cmdRescrub, none_]⟩
  · have num := handleOf_of_num num
    intro r p bare
    refine ⟨fun other => ?_, fun withheld => ?_, fun withheld => ?_, fun withheld busy quiet => ?_,
      fun withheld idle up empty => ?_⟩
    · exact ⟨by rw [cmdAdmit_wrongState num other], by rw [cmdRescrub_wrongState num other]⟩
    · rw [cmdAdmit_withheld num withheld, buf_becomeFree, if_pos rfl, becomeFree_eq]
    · rw [cmdRescrub_withheld num withheld, enterScrubbing_eq]
    · rw [cmdRescrub_withheld num withheld, kick_of_quiet, enterScrubbing_eq]
      exact quiet_of_eq (enterScrubbing_quiet (h := h) busy quiet) (by simp) (by simp) (by simp)
    · rw [cmdRescrub_withheld num withheld]
      let queued := (s.enterScrubbing h).setAnswer .ok
      have scrubbing : queued.buf h = { bare with state := .scrubbing } := by
        show (s.enterScrubbing h).buf h = _
        rw [buf_enterScrubbing, if_pos rfl]
      obtain ⟨taken, c, issuing, handle, base, count⟩ := kick_takes (s := queued) (h := h) (by simpa [queued] using idle)
        (by simpa [queued] using up) (by simp [queued, enterScrubbing_eq, empty])
      obtain ⟨state, generation⟩ := kick_record queued h
      rw [scrubbing] at base count state generation
      exact ⟨queued.kick, c, rfl, taken, issuing, handle, base, count, state, generation, by simp [queued, State.setAnswer]⟩

end Sys2Proof.Machine
end

