-- ==== Sys2Proof/Proofs/Passing.lean ====
section
/-! PASS, ACCEPT and RECALL: the checks in their order and the whole next state; and that no event takes an inbound queue past its
capacity. -/

namespace Sys2Proof.Machine

/-! ### The checks of R93 -/

/-- The four checks that a request on one state makes of the record it names, in the order of R93. -/
theorem stateCheck_eq (r : BufRec) (a : Agent) (g : BitVec 8) (required : BufState) :
    stateCheck r a g required =
      if r.state = .void then some .wrongState
      else if r.generation ≠ g then some .stale
      else if r.custodian ≠ some a then some .notHolder
      else if r.state ≠ required then some .wrongState
      else none := by
  unfold stateCheck holderCheck
  by_cases void : r.state = .void
  · simp only [if_pos void]
  by_cases stale : r.generation ≠ g
  · simp only [if_neg void, if_pos stale]
  by_cases stranger : r.custodian ≠ some a
  · simp only [if_neg void, if_neg stale, if_pos stranger]
  · simp only [if_neg void, if_neg stale, if_neg stranger]

/-- The checks of R51, those of R93 first. -/
theorem passCheck_eq (s : State) (a : Agent) (h : Handle) (g : BitVec 8) (b : Agent) :
    s.passCheck a h g b =
      if (s.buf h).state = .void then some .wrongState
      else if (s.buf h).generation ≠ g then some .stale
      else if (s.buf h).custodian ≠ some a then some .notHolder
      else if (s.buf h).state ≠ .held then some .wrongState
      else if b = a then some .self
      else if s.online b = false then some .offline
      else if memAgent b (s.pool (s.buf h).pool).claimSet = false then some .notAllowed
      else if (s.buf h).lends ≠ [] then some .lent
      else if Config.queueCapacity ≤ (s.queue b).length then some .full
      else none := by
  unfold State.passCheck
  rw [stateCheck_eq]
  by_cases void : (s.buf h).state = .void
  · simp only [if_pos void]
  by_cases stale : (s.buf h).generation ≠ g
  · simp only [if_neg void, if_pos stale]
  by_cases stranger : (s.buf h).custodian ≠ some a
  · simp only [if_neg void, if_neg stale, if_pos stranger]
  by_cases unheld : (s.buf h).state ≠ .held
  · simp only [if_neg void, if_neg stale, if_neg stranger, if_pos unheld]
  · simp only [if_neg void, if_neg stale, if_neg stranger, if_neg unheld]

/-- A chain of checks, read as the outcomes that it leads to: the first check that fails decides. -/
theorem elim_check {α : Type} (p : Prop) [Decidable p] (c : Code) (rest : Option Code) (passed : α) (failed : Code → α) :
    (if p then some c else rest).elim passed failed = if p then failed c else rest.elim passed failed := by
  split <;> rfl

/-! ### PASS -/

/-- PASS changes the table where every check passes, and else answers the check that failed. -/
theorem takeRequest_pass (s : State) (a : Agent) (h : Handle) (g : BitVec 8) (b : Agent) :
    s.takeRequest a (.pass h g b) =
      (s.passCheck a h g b).elim (s.passTo h b, namedAnswer .ok h g) fun c => (s, namedAnswer c h g) := by
  simp only [State.takeRequest]
  cases s.passCheck a h g b <;> rfl

/-- Settles O27: the chain of R51 with the outcome of each check in its place. -/
theorem passInOrder : Obligations.PassInOrder := by
  intro s a h g b r word
  rw [takeRequest_pass, passCheck_eq]
  simp only [elim_check, Option.elim_none]
  rfl

/-! ### ACCEPT and RECALL -/

theorem takeRequest_accept_empty {s : State} {a : Agent} (empty : s.queue a = []) :
    s.takeRequest a .accept = (s, { code := .empty }) := by
  simp only [State.takeRequest, empty]

theorem takeRequest_accept_head {s : State} {a : Agent} {h : Handle} {rest : List Handle} (head : s.queue a = h :: rest) :
    s.takeRequest a .accept = (s.acceptHead a h rest, acceptAnswer h (s.buf h)) := by
  simp only [State.takeRequest, head]

/-- RECALL changes the table where every check passes, and else answers the check that failed. -/
theorem takeRequest_recall (s : State) (a : Agent) (h : Handle) (g : BitVec 8) :
    s.takeRequest a (.recall h g) =
      (stateCheck (s.buf h) a g .inTransit).elim (s.bringBack h, namedAnswer .ok h g) fun c => (s, namedAnswer c h g) := by
  simp only [State.takeRequest, State.recallCheck]
  cases stateCheck (s.buf h) a g .inTransit <;> rfl

/-- R59: a buffer brought back leaves the queue of the target that it names. -/
theorem bringBack_of_target {s : State} {h : Handle} {b : Agent} (target : (s.buf h).target = some b) :
    s.bringBack h = (s.leaveQueue b h).setBuf h { s.buf h with state := .held, target := none } := by
  simp only [State.bringBack, target]

/-- Settles O28: ACCEPT by its queue; RECALL by the first check of R58 that fails. -/
theorem acceptAndRecall : Obligations.AcceptAndRecall := by
  intro s a
  refine ⟨takeRequest_accept_empty, fun h rest head => takeRequest_accept_head head, ?_⟩
  intro h g r word
  rw [takeRequest_recall, stateCheck_eq]
  refine ⟨fun void => ?_, fun alive stale => ?_, fun alive same stranger => ?_, fun alive same own other => ?_,
    fun b transit same own target => ?_⟩
  · rw [if_pos void]
    rfl
  · rw [if_neg alive, if_pos stale]
    rfl
  · rw [if_neg alive, if_neg (not_not_intro same), if_pos stranger]
    rfl
  · rw [if_neg alive, if_neg (not_not_intro same), if_neg (not_not_intro own), if_pos other]
    rfl
  · have alive : (s.buf h).state ≠ .void := fun void => by cases transit.symm.trans void
    rw [if_neg alive, if_neg (not_not_intro same), if_neg (not_not_intro own), if_neg (not_not_intro transit), bringBack_of_target target]
    rfl

/-! ### R44: the length of the inbound queues -/

/-- No inbound queue is longer than before. -/
def State.QueuesShrink (s t : State) : Prop := ∀ a, (t.queue a).length ≤ (s.queue a).length

theorem queuesShrink_of_eq {s t : State} (queues : t.custody.queues = s.custody.queues) : s.QueuesShrink t := by
  intro a
  simp only [State.queue, queues, Nat.le_refl]

theorem State.QueuesShrink.trans {s t u : State} (first : s.QueuesShrink t) (next : t.QueuesShrink u) : s.QueuesShrink u :=
  fun a => Nat.le_trans (next a) (first a)

/-- A queue written with a list no longer than it. -/
theorem setQueue_shrinks {s : State} {a : Agent} {l : List Handle} (short : l.length ≤ (s.queue a).length) :
    s.QueuesShrink (s.setQueue a l) := by
  intro b
  rw [queue_setQueue]
  split
  · next same => exact same ▸ short
  · exact Nat.le_refl _

theorem leaveQueue_shrinks (s : State) (a : Agent) (h : Handle) : s.QueuesShrink (s.leaveQueue a h) :=
  setQueue_shrinks (List.length_filter_le _ _)

theorem acceptHead_shrinks {s : State} {a : Agent} {h : Handle} {rest : List Handle} (head : s.queue a = h :: rest) :
    s.QueuesShrink (s.acceptHead a h rest) := by
  have shorter : rest.length ≤ (s.queue a).length := by simp [head]
  exact setQueue_shrinks shorter

theorem bringBack_shrinks (s : State) (h : Handle) : s.QueuesShrink (s.bringBack h) := by
  cases target : (s.buf h).target with
  | none => exact queuesShrink_of_eq (by simp [State.bringBack, target])
  | some b =>
    rw [bringBack_of_target target]
    exact leaveQueue_shrinks s b h

theorem forceOut_shrinks (s : State) (h : Handle) : s.QueuesShrink (s.forceOut h) := by
  unfold State.forceOut
  split
  · next t _ _ => exact (leaveQueue_shrinks s t h).trans (queuesShrink_of_eq (by simp))
  · exact queuesShrink_of_eq (by simp)

/-- An event lets no inbound queue grow but a PASS to an agent whose queue has room. -/
theorem Event.queues {s t : State} (e : Event s t) :
    s.QueuesShrink t ∨ ∃ h b, (s.queue b).length < Config.queueCapacity ∧ t = s.passTo h b := by
  cases e with
  | aside same => exact .inl (queuesShrink_of_eq (by rw [same.custody]))
  | reset pins => exact .inl fun a => by simp [State.queue, State.partReset, Custody.reset]
  | pass held holder other unlent room => exact .inr ⟨_, _, room, rfl⟩
  | accept head => exact .inl (acceptHead_shrinks head)
  | bringBack => exact .inl (bringBack_shrinks s _)
  | returnAll a =>
    exact .inl (foldl_keeps_law (law := s.QueuesShrink) _ (fun u h shrunk => shrunk.trans (bringBack_shrinks u h)) _ s
      (queuesShrink_of_eq rfl))
  | release => exact .inl (forceOut_shrinks s _)
  | linkDown =>
    have lost : ((List.finRange 64).foldl State.loseTag { s with mem.link := .down }).custody.queues = s.custody.queues :=
      foldl_keeps State.loseTag (fun u => u.custody.queues) (by simp) _ _
    exact .inl (queuesShrink_of_eq (by simp [lost]))
  | _ => exact .inl (queuesShrink_of_eq (by simp))

/-- R44 is kept by every event. -/
theorem queuesBounded_of_event (s t : State) (e : Event s t) (law : s.queuesBounded) : t.queuesBounded := by
  rcases e.queues with shrunk | ⟨h, b, room, rfl⟩
  · exact fun a => Nat.le_trans (shrunk a) (law a)
  · intro a
    rw [State.passTo, queue_setQueue]
    split
    · rw [List.length_append]
      exact room
    · exact law a

end Sys2Proof.Machine
end

