-- ==== Sys2Proof/Proofs/PortAnswers.lean ====
section
/-! The management port's answers: how long each is, and that every management command keeps the port's fields in their ranges
(R165, R168). -/

namespace Sys2Proof.Machine

/-! ### The lengths of the answers -/

@[simp] theorem le_length (n k : Nat) : (le n k).length = n := by
  simp [le_eq]

@[simp] theorem lendImage_length (l : Option Lend) : (lendImage l).length = 2 := by
  cases l <;> simp [lendImage]

@[simp] theorem bufRec_image_length (r : BufRec) : r.image.length = 23 := by
  simp [BufRec.image]

@[simp] theorem poolRec_image_length (p : PoolRec) : p.image.length = 21 := by
  simp [PoolRec.image]

theorem agentRec_image_length (a : AgentRec) : a.image.length ≤ 13 := by
  unfold AgentRec.image
  split <;> simp

@[simp] theorem outcomeImage_length (target : Option (BitVec 32)) (o : Option GroupOutcome) :
    (outcomeImage target o).length = 12 := by
  simp [outcomeImage]

@[simp] theorem editStage_image_length (e : EditStage) : e.image.length = 18 := by
  simp [EditStage.image]

@[simp] theorem timer_image_length (t : Timer) : t.image.length = 21 := by
  simp [Timer.image]

@[simp] theorem queueImage_length (q : List Handle) : (queueImage q).length = 17 := by
  simp [queueImage, List.range_succ]

@[simp] theorem foundImage_length (h : Handle) (r : BufRec) : (foundImage h r).length = 5 := by
  simp [foundImage]

@[simp] theorem noticeImage_length (n : NoticeSet) : (noticeImage n).length = 4 := by
  simp [noticeImage]

/-! ### What the part's own work leaves of the port -/

/-- What a command, or an event beside the bus, does to the port: its fields stay in range, and an IDLE receiver stays IDLE. -/
structure State.Serves (s t : State) : Prop where
  inRange : s.mgmt.InRange → t.mgmt.InRange
  idle : s.mgmt.receiver = .idle → t.mgmt.receiver = .idle

/-- The frame buffer's law speaks of the receiver and the frame buffer alone. -/
theorem frameFits_congr {m m' : Mgmt} (receiver : m'.receiver = m.receiver) (frame : m'.frame = m.frame) (fits : m.frameFits) :
    m'.frameFits := by
  unfold Mgmt.frameFits at fits ⊢
  rw [receiver, frame]
  exact fits

@[simp] theorem State.Serves.refl (s : State) : s.Serves s := ⟨id, id⟩

theorem State.Serves.trans {s t u : State} (first : s.Serves t) (next : t.Serves u) : s.Serves u :=
  ⟨next.inRange ∘ first.inRange, next.idle ∘ first.idle⟩

/-- What leaves the fields that have a range serves. -/
theorem serves_of_eq {s t : State} (ownAddress : t.mgmt.ownAddress = s.mgmt.ownAddress)
    (receiver : t.mgmt.receiver = s.mgmt.receiver) (frame : t.mgmt.frame = s.mgmt.frame)
    (answer : t.mgmt.answer = s.mgmt.answer) (memLimit : t.mgmt.memLimit = s.mgmt.memLimit)
    (idleCount : t.mgmt.idleCount = s.mgmt.idleCount) : s.Serves t where
  inRange r :=
    { ownAddress := ownAddress ▸ r.ownAddress
      memLimit := memLimit ▸ r.memLimit
      payload := answer ▸ r.payload
      idleCount := idleCount ▸ r.idleCount
      frame := frameFits_congr receiver frame r.frame }
  idle e := receiver.trans e

/-- An answer frame with a payload in range. -/
@[simp] theorem setAnswer_serves (s : State) (x : HostStatus) (d : List Byte) (short : d.length ≤ 24) :
    s.Serves (s.setAnswer x d) where
  inRange r := { r with payload := short, frame := frameFits_congr rfl rfl r.frame }
  idle := id

theorem State.Serves.setAnswer {s t : State} (served : s.Serves t) (x : HostStatus) (d : List Byte) (short : d.length ≤ 24) :
    s.Serves (t.setAnswer x d) :=
  served.trans (setAnswer_serves t x d short)

theorem serves_of_port {s t : State} (port : t.mgmt = s.mgmt) : s.Serves t :=
  ⟨fun r => port ▸ r, fun e => port ▸ e⟩

/-- A change of other blocks, answered. -/
theorem answered_serves {s t : State} (x : HostStatus) {d : List Byte} (port : t.mgmt = s.mgmt) (short : d.length ≤ 24) :
    s.Serves (t.setAnswer x d) :=
  (serves_of_port port).setAnswer x d short

@[simp] theorem kick_serves (s : State) : s.Serves s.kick := by
  apply serves_of_eq <;> simp

theorem State.Serves.kick {s t : State} (served : s.Serves t) : s.Serves t.kick := served.trans (kick_serves t)

/-- Part reset puts every field of the port in its range, whichever the sampled pins are. -/
@[simp] theorem partReset_serves (s : State) (pins : BitVec 2) : s.Serves (s.partReset pins) where
  inRange _ :=
    { ownAddress := (by decide : ∀ p : BitVec 2, 0x38#7 ≤ 0x38#7 + p.setWidth 7 ∧ 0x38#7 + p.setWidth 7 ≤ 0x3B#7) pins
      memLimit := (by decide : 1 ≤ 255 ∧ 255 ≤ 1023)
      payload := Nat.zero_le _
      idleCount := Nat.zero_le _
      frame := rfl }
  idle _ := rfl

/-! ### Management commands -/

@[simp] theorem cmdAgentReset_serves (n : Nat) (s : State) : s.Serves (cmdAgentReset n s) := by
  unfold cmdAgentReset
  split
  · simp
  · next a _ =>
    have parts : s.Serves (((s.cancelAgent a).emptySlot a).sweep a) := by apply serves_of_eq <;> simp
    exact (parts.setAnswer _ _ (Nat.zero_le _)).kick

@[simp] theorem cmdSetAgent_serves (n mode : Nat) (s : State) : s.Serves (cmdSetAgent n mode s) := by
  unfold cmdSetAgent
  split
  · simp
  · split
    · exact answered_serves _ (by simp) (by simp)
    · simp

@[simp] theorem cmdClearFault_serves (n : Nat) (s : State) : s.Serves (cmdClearFault n s) := by
  unfold cmdClearFault
  split
  · simp
  · next a _ =>
    have emptied : s.Serves (s.emptySlot a) := by apply serves_of_eq <;> simp
    exact emptied.setAnswer _ _ (by simp)

@[simp] theorem cmdReadFault_serves (n : Nat) (s : State) : s.Serves (cmdReadFault n s) := by
  unfold cmdReadFault
  split
  · simp
  · exact setAnswer_serves s _ _ (Nat.le_trans (agentRec_image_length _) (by decide))

@[simp] theorem cmdOpenGroup_serves (s : State) : s.Serves (cmdOpenGroup s) := by
  unfold cmdOpenGroup
  split
  · exact answered_serves _ rfl (Nat.zero_le _)
  · simp
  · simp

@[simp] theorem stageEntry_serves (e : Option Edit) (s : State) : s.Serves (stageEntry e s) := by
  unfold stageEntry
  split
  · simp
  · simp
  · simp
  · split
    · simp
    · exact answered_serves _ rfl (by simp)

@[simp] theorem cmdCloseNow_serves (s : State) : s.Serves (cmdCloseNow s) := by
  unfold cmdCloseNow
  split
  · simp
  · simp
  · have presented : s.Serves (s.presentGroup none) := by apply serves_of_eq <;> simp
    exact (presented.setAnswer _ _ (by simp)).kick

@[simp] theorem cmdCloseMark_serves (s : State) : s.Serves (cmdCloseMark s) := by
  unfold cmdCloseMark
  split
  · simp
  · simp
  · split
    · simp
    · exact answered_serves _ rfl (by simp)

@[simp] theorem cmdCloseUnknown_serves (s : State) : s.Serves (cmdCloseUnknown s) := by
  unfold cmdCloseUnknown
  split <;> simp

@[simp] theorem cmdCloseGroup_serves (mode : Nat) (s : State) : s.Serves (cmdCloseGroup mode s) := by
  unfold cmdCloseGroup
  split <;> simp

@[simp] theorem cmdAbandonGroup_serves (s : State) : s.Serves (cmdAbandonGroup s) := by
  unfold cmdAbandonGroup
  split
  · simp
  · exact answered_serves _ rfl (by simp)
  · exact answered_serves _ rfl (by simp)

@[simp] theorem cmdReadGroup_serves (s : State) : s.Serves (cmdReadGroup s) := setAnswer_serves s _ _ (by simp)

@[simp] theorem cmdForceRelease_serves (n : Nat) (s : State) : s.Serves (cmdForceRelease n s) := by
  unfold cmdForceRelease
  split
  · simp
  · split
    · exact (answered_serves _ (by simp) (by simp)).kick
    · simp

@[simp] theorem cmdForceReturn_serves (n b : Nat) (s : State) : s.Serves (cmdForceReturn n b s) := by
  unfold cmdForceReturn
  split
  · dsimp only
    split
    · split
      · exact answered_serves _ (by simp) (by simp)
      · split
        · exact answered_serves _ (by simp) (by simp)
        · simp
    · simp
  · simp
  · simp

@[simp] theorem cmdAdmit_serves (n : Nat) (s : State) : s.Serves (cmdAdmit n s) := by
  unfold cmdAdmit
  split
  · simp
  · split
    · exact answered_serves _ (by simp) (by simp)
    · simp

@[simp] theorem cmdRescrub_serves (n : Nat) (s : State) : s.Serves (cmdRescrub n s) := by
  unfold cmdRescrub
  split
  · simp
  · split
    · exact (answered_serves _ (by simp) (Nat.zero_le _)).kick
    · simp

/-- R172: a limit is taken where it is in range. -/
@[simp] theorem cmdSetMemlimit_serves (n : Nat) (s : State) : s.Serves (cmdSetMemlimit n s) := by
  unfold cmdSetMemlimit
  split
  · next within =>
    have limited : s.Serves { s with mgmt.memLimit := n } :=
      ⟨fun r => { r with memLimit := within, frame := frameFits_congr rfl rfl r.frame }, id⟩
    exact limited.setAnswer _ _ (by simp)
  · simp

@[simp] theorem cmdReadNotices_serves (s : State) : s.Serves (cmdReadNotices s) := setAnswer_serves s _ _ (by simp)

@[simp] theorem cmdAckNotices_serves (n : Nat) (s : State) : s.Serves (cmdAckNotices n s) := by
  unfold cmdAckNotices
  split
  · simp
  · refine State.Serves.setAnswer ?_ _ _ (by simp)
    exact serves_of_eq rfl rfl rfl rfl rfl rfl

@[simp] theorem cmdSetNoticeEnable_serves (n : Nat) (s : State) : s.Serves (cmdSetNoticeEnable n s) := by
  unfold cmdSetNoticeEnable
  split
  · simp
  · refine State.Serves.setAnswer ?_ _ _ (by simp)
    exact serves_of_eq rfl rfl rfl rfl rfl rfl

@[simp] theorem cmdIdentify_serves (s : State) : s.Serves (cmdIdentify s) := setAnswer_serves s _ _ (by simp)

@[simp] theorem cmdPartReset_serves (pins : BitVec 2) (s : State) : s.Serves (cmdPartReset pins s) := partReset_serves s pins

@[simp] theorem cmdReadBuffer_serves (n : Nat) (s : State) : s.Serves (cmdReadBuffer n s) := by
  unfold cmdReadBuffer
  split <;> simp

@[simp] theorem cmdReadPool_serves (n : Nat) (s : State) : s.Serves (cmdReadPool n s) := by
  unfold cmdReadPool
  split <;> simp

@[simp] theorem cmdReadQueue_serves (n : Nat) (s : State) : s.Serves (cmdReadQueue n s) := by
  unfold cmdReadQueue
  split <;> simp

@[simp] theorem cmdReadCycle_serves (s : State) : s.Serves (cmdReadCycle s) := setAnswer_serves s _ _ (by simp)

/-- R174: an examination that ends the scan answers with the record found, or with the start handle. -/
@[simp] theorem scanStep_serves (s : State) : s.Serves s.scanStep := by
  unfold State.scanStep
  split
  · next c _ =>
    unfold State.examine
    dsimp only
    have ended : s.Serves { s with mgmt.scan := none } := serves_of_eq rfl rfl rfl rfl rfl rfl
    split
    · exact ended.setAnswer _ _ (by simp)
    · split
      · exact ended.setAnswer _ _ (by simp)
      · exact serves_of_eq rfl rfl rfl rfl rfl rfl
  · exact .refl s

@[simp] theorem cmdFind_serves (kind value start : Nat) (s : State) : s.Serves (cmdFind kind value start s) := by
  unfold cmdFind
  split
  · refine State.Serves.trans (State.Serves.setAnswer ?_ _ _ (Nat.zero_le _)) (scanStep_serves _)
    exact serves_of_eq rfl rfl rfl rfl rfl rfl
  · simp
  · simp

@[simp] theorem cmdSetTimebase_serves (n : Nat) (s : State) : s.Serves (cmdSetTimebase n s) := by
  unfold cmdSetTimebase
  split
  · exact answered_serves _ rfl (Nat.zero_le _)
  · simp

@[simp] theorem cmdSetCycle_serves (n g : Nat) (s : State) : s.Serves (cmdSetCycle n g s) := by
  unfold cmdSetCycle
  split
  · simp
  · split <;> exact answered_serves _ rfl (Nat.zero_le _)

@[simp] theorem cmdPacingOn_serves (s : State) : s.Serves (cmdPacingOn s) := by
  unfold cmdPacingOn
  split
  · simp
  · exact answered_serves _ rfl (Nat.zero_le _)

@[simp] theorem cmdPacingOff_serves (s : State) : s.Serves (cmdPacingOff s) := by
  unfold cmdPacingOff
  split
  · simp
  · split
    · simp
    · split <;> exact answered_serves _ rfl (Nat.zero_le _)

@[simp] theorem cmdPacing_serves (mode : Nat) (s : State) : s.Serves (cmdPacing mode s) := by
  unfold cmdPacing
  split <;> simp

/-- Whatever frame is taken, its command serves. -/
theorem frameCommand_serves (pins : BitVec 2) (code : Nat) (args : List Byte) (s : State) :
    s.Serves (frameCommand pins code args s) := by
  unfold frameCommand
  split <;> simp

/-! ### The idle timeout -/

/-- R168: the timeout empties the frame buffer and leaves the receiver IDLE. -/
@[simp] theorem idleTimeout_serves (s : State) : s.Serves s.idleTimeout := by
  have released : s.Serves { s with mgmt.receiver := .idle, mgmt.frame := [], mgmt.sendRest := [], mgmt.idleCount := 0 } :=
    ⟨fun r => { r with idleCount := Nat.zero_le _, frame := rfl }, fun _ => rfl⟩
  unfold State.idleTimeout
  dsimp only
  split
  · exact released
  · split <;> exact released.setAnswer _ _ (Nat.zero_le _)

@[simp] theorem settleIdle_serves (s : State) : s.Serves s.settleIdle := by
  unfold State.settleIdle
  split <;> simp

theorem idleTimeout_receiver (s : State) : s.idleTimeout.mgmt.receiver = .idle := by
  unfold State.idleTimeout
  dsimp only
  split
  · rfl
  · split <;> rfl

/-- A timeout that was due has been taken. -/
theorem settleIdle_notDue (s : State) :
    s.settleIdle.mgmt.receiver = .idle ∨ s.settleIdle.mgmt.idleCount < Config.idleTicks := by
  unfold State.settleIdle
  split
  · exact .inl (idleTimeout_receiver s)
  · next early =>
    by_cases idle : s.mgmt.receiver = .idle
    · exact .inl idle
    · simp only [Mgmt.idleDue, ne_eq, idle, not_false_eq_true, decide_true, Bool.true_and, decide_eq_true_eq] at early
      exact .inr (Nat.lt_of_not_le early)

/-- A management command serves, run or not. -/
theorem runCommand_serves (s : State) (command : State → State) (run : ∀ u : State, u.Serves (command u)) :
    s.Serves (s.runCommand command) := by
  unfold State.runCommand
  split
  · exact .refl s
  · refine (settleIdle_serves s).trans ?_
    dsimp only
    split
    · simp
    · exact run _

end Sys2Proof.Machine
end

