-- ==== Sys2Proof/Proofs/PortBounds.lean ====
section
/-! The management port over the bus, at the ticks and in every command: its fields keep their ranges, and with the inbound queues'
bound that is what every step keeps. -/

namespace Sys2Proof.Machine

/-! ### The bus -/

/-- R167: outside a write the frame buffer is empty. -/
theorem frame_of_notWriting {m : Mgmt} (r : m.InRange) (closed : m.writing = false) : m.frame = [] := by
  have fits := r.frame
  unfold Mgmt.frameFits at fits
  cases receiver : m.receiver with
  | idle => simpa only [receiver] using fits
  | sending => simpa only [receiver] using fits
  | receiving => simp [Mgmt.writing, receiver] at closed
  | discarding => simp [Mgmt.writing, receiver] at closed

theorem judgeFrame_serves (s : State) (pins : BitVec 2) (frame : List Byte) : s.Serves (s.judgeFrame pins frame) := by
  unfold State.judgeFrame
  split
  · exact .refl s
  · split
    · simp
    · split
      · simp
      · split
        · simp
        · exact frameCommand_serves _ _ _ _

/-- A frame taken is judged, or answered BUSY, in the state that the end of its write leaves. -/
theorem takeFrame_answers (s : State) (pins : BitVec 2) :
    State.Serves { s with mgmt.receiver := .idle, mgmt.frame := [], mgmt.idleCount := 0 } (s.takeFrame pins) := by
  unfold State.takeFrame
  dsimp only
  split
  · exact .refl _
  · split
    · exact setAnswer_serves _ _ _ (Nat.zero_le _)
    · exact judgeFrame_serves _ pins _

/-- R167: a write transaction ends with an empty frame buffer and the receiver IDLE, whatever its frame does. -/
theorem takeFrame_serves (s : State) (pins : BitVec 2) : s.Serves (s.takeFrame pins) := by
  have emptied : s.Serves { s with mgmt.receiver := .idle, mgmt.frame := [], mgmt.idleCount := 0 } :=
    ⟨fun r => { r with idleCount := Nat.zero_le _, frame := rfl }, fun _ => rfl⟩
  exact emptied.trans (takeFrame_answers s pins)

theorem takeFrame_receiver (s : State) (pins : BitVec 2) : (s.takeFrame pins).mgmt.receiver = .idle :=
  (takeFrame_answers s pins).idle rfl

/-- R166: after a repeated START no frame is left in the buffer. -/
theorem endWrite_inRange (s : State) (pins : BitVec 2) (r : s.mgmt.InRange) :
    (s.endWrite pins).mgmt.InRange ∧ (s.endWrite pins).mgmt.frame = [] := by
  unfold State.endWrite
  split
  · have within := (takeFrame_serves s pins).inRange r
    exact ⟨within, frame_of_notWriting within (by simp [Mgmt.writing, takeFrame_receiver])⟩
  · next closed => exact ⟨r, frame_of_notWriting r (by simpa using closed)⟩

/-- R166: the address byte finds the frame buffer empty, as every receiver state that it leads to asks. -/
theorem compareAddress_inRange (s : State) (x : BitVec 7) (read : Bool) (r : s.mgmt.InRange) (empty : s.mgmt.frame = []) :
    (s.compareAddress x read).mgmt.InRange := by
  unfold State.compareAddress
  split
  · split
    · exact { r with idleCount := Nat.zero_le _, frame := empty }
    · exact { r with idleCount := Nat.zero_le _, frame := .inl empty }
  · exact { r with idleCount := Nat.zero_le _, frame := empty }

/-- R167: the code of a frame stays its first byte, whichever byte follows. -/
theorem frame_code {m : Mgmt} (r : m.InRange) (receiving : m.receiver = .receiving) (b : Byte) :
    m.frame = [] ∨ ∃ n, argumentBytes ((m.frame ++ [b]).headD 0).toNat = some n ∧ m.frame.length < n + 2 := by
  have fits := r.frame
  simp only [Mgmt.frameFits, receiving] at fits
  cases content : m.frame with
  | nil => exact .inl rfl
  | cons code rest => simpa [content] using fits

/-- R167: the byte that completes a frame, or is an unknown code, turns the receiver to DISCARDING. -/
theorem receiveByte_inRange (s : State) (b : Byte) (r : s.mgmt.InRange) (receiving : s.mgmt.receiver = .receiving) :
    (s.receiveByte b).mgmt.InRange := by
  have fits := frame_code r receiving b
  simp only [State.receiveByte]
  split
  · next unknown =>
    have first : s.mgmt.frame = [] := by simpa only [unknown, reduceCtorEq, false_and, exists_false, or_false] using fits
    exact { r with idleCount := Nat.zero_le _, frame := .inl (by simp [first]) }
  · next n known =>
    have room : s.mgmt.frame.length < n + 2 := by
      rcases fits with empty | ⟨m, same, short⟩
      · simp [empty]
      · rw [known, Option.some_inj] at same
        exact same ▸ short
    split
    · exact { r with idleCount := Nat.zero_le _, frame := .inr ⟨n, known, by simpa [Nat.lt_succ_iff] using room⟩ }
    · next short =>
      refine { r with idleCount := Nat.zero_le _, frame := ?_ }
      simp only [sendBus_keeps, Mgmt.frameFits, receiving]
      exact .inr ⟨n, known, by simpa using short⟩

/-- I2C_ADDRESS: a timeout that is due, the frame that a repeated START ends, then the address byte. -/
theorem i2cAddress_port (s : State) (x : BitVec 7) (read : Bool) (pins : BitVec 2) :
    ∃ t, exec (.i2cAddress x read pins) s = .next t ∧ (s.mgmt.InRange → t.mgmt.InRange) := by
  refine ⟨_, rfl, fun r => ?_⟩
  split
  · exact r
  · obtain ⟨within, empty⟩ := endWrite_inRange s.settleIdle pins ((settleIdle_serves s).inRange r)
    exact compareAddress_inRange _ x read within empty

theorem frameTaken_port (s : State) (pins : BitVec 2) :
    ∃ t, exec (.frameTaken pins) s = .next t ∧ (s.mgmt.InRange → t.mgmt.InRange) := by
  refine ⟨_, rfl, State.Serves.inRange ?_⟩
  split
  · exact .refl s
  · split
    · exact (settleIdle_serves s).trans (takeFrame_serves _ pins)
    · exact settleIdle_serves s

/-- The idle count set back to 0 is in range. -/
theorem restartIdle_serves (s : State) : s.Serves { s with mgmt.idleCount := 0 } :=
  ⟨fun r => { r with idleCount := Nat.zero_le _, frame := frameFits_congr rfl rfl r.frame }, id⟩

theorem i2cDataByte_port (s : State) (b : Byte) :
    ∃ t, exec (.i2cDataByte b) s = .next t ∧ (s.mgmt.InRange → t.mgmt.InRange) := by
  refine ⟨_, rfl, fun r => ?_⟩
  have within := (settleIdle_serves s).inRange r
  split
  · exact r
  · dsimp only
    split
    · next receiving => exact receiveByte_inRange _ b within receiving
    · exact within
    · exact (restartIdle_serves _).inRange within
    · exact (restartIdle_serves _).inRange within

theorem sendBytes_serves (s : State) (acks : List Bool) : s.Serves (s.sendBytes acks) := by
  apply serves_of_eq <;> simp

/-- R169: a read ends with the frame buffer empty, as it was. -/
theorem endRead_inRange {s : State} (r : s.mgmt.InRange) (sending : s.mgmt.receiver = .sending) :
    Mgmt.InRange { s.mgmt with receiver := .idle, sendRest := [] } := by
  have empty : s.mgmt.frame = [] := frame_of_notWriting r (by simp [Mgmt.writing, sending])
  exact { r with frame := empty }

theorem answerRead_port (s : State) (acks : List Bool) (stop : Bool) :
    ∃ t, exec (.answerRead acks stop) s = .next t ∧ (s.mgmt.InRange → t.mgmt.InRange) := by
  refine ⟨_, rfl, fun r => ?_⟩
  have within := (settleIdle_serves s).inRange r
  split
  · exact r
  · dsimp only
    split
    · next sending =>
      have read := (sendBytes_serves _ acks).inRange ((restartIdle_serves _).inRange within)
      split
      · exact endRead_inRange read (by simp [sending])
      · exact read
    · exact within
    · exact within
    · exact within

/-! ### The tick -/

/-- R168: the count stays below its end where no timeout is due, so that a tick raises it to the end at most. -/
theorem countIdle_inRange (s : State) (low : Bool) (r : s.mgmt.InRange)
    (early : s.mgmt.receiver = .idle ∨ s.mgmt.idleCount < Config.idleTicks) : (s.countIdle low).mgmt.InRange := by
  refine { r with idleCount := ?_, frame := frameFits_congr rfl rfl r.frame }
  show (if low && decide (s.mgmt.receiver ≠ .idle) then s.mgmt.idleCount + 1 else 0) ≤ Config.idleTicks
  split
  · next counted =>
    rcases early with idle | below
    · simp [idle] at counted
    · exact below
  · exact Nat.zero_le _

theorem idleAgainstScan_serves (s : State) : s.Serves s.idleAgainstScan := by
  unfold State.idleAgainstScan
  split
  · have drawn : s.Serves { s with freeCount := s.freeCount + 1 } := serves_of_port rfl
    dsimp only
    split
    · exact drawn
    · exact drawn.trans (idleTimeout_serves _)
  · exact .refl s

theorem advanceCycle_serves (s : State) : s.Serves s.advanceCycle := by
  apply serves_of_eq <;> simp

theorem scanAndCycle_serves (s : State) : s.Serves s.scanAndCycle := by
  unfold State.scanAndCycle
  split
  · have drawn : s.Serves { s with freeCount := s.freeCount + 1 } := serves_of_port rfl
    dsimp only
    split
    · exact drawn.trans ((scanStep_serves _).trans (advanceCycle_serves _))
    · exact drawn.trans ((advanceCycle_serves _).trans (scanStep_serves _))
  · exact (scanStep_serves s).trans (advanceCycle_serves _)

/-- What an earlier tick left outstanding ends with its idle timeout, so none is due after it. -/
theorem settleOutstanding_inRange (s : State) (r : s.mgmt.InRange) :
    s.settleOutstanding.mgmt.InRange ∧
      (s.settleOutstanding.mgmt.receiver = .idle ∨ s.settleOutstanding.mgmt.idleCount < Config.idleTicks) := by
  have expired : s.Serves (s.endPulse.endSettling.takeExpiries 64) := by apply serves_of_eq <;> simp
  exact ⟨(expired.trans (settleIdle_serves _)).inRange r, settleIdle_notDue _⟩

theorem tick_inRange (s : State) (low : Bool) (r : s.mgmt.InRange) : (s.tick low).mgmt.InRange := by
  obtain ⟨within, early⟩ := settleOutstanding_inRange s r
  exact ((idleAgainstScan_serves _).trans (scanAndCycle_serves _)).inRange (countIdle_inRange _ low within early)

/-! ### Every command -/

theorem serves_if {c : Prop} [Decidable c] {s t : State} (served : s.Serves t) : s.Serves (if c then t else s) := by
  split
  · exact served
  · exact .refl s

theorem serves_unless {c : Prop} [Decidable c] {s t : State} (served : s.Serves t) : s.Serves (if c then s else t) := by
  split
  · exact .refl s
  · exact served

theorem memoryResponse_serves (s : State) (b : Byte) (good : Bool) (data : List Byte) :
    ∃ t, exec (.memoryResponse b good data) s = .next t ∧ s.Serves t := by
  refine ⟨_, rfl, serves_if ?_⟩
  split
  · refine serves_if (State.Serves.kick ?_)
    apply serves_of_eq <;> simp
  · exact .refl s

theorem inputArbiterGrant_serves (s : State) : ∃ t, exec .inputArbiterGrant s = .next t ∧ s.Serves t := by
  refine ⟨_, rfl, serves_unless ?_⟩
  split
  · exact .refl s
  · split
    · exact .refl s
    · refine State.Serves.kick ?_
      apply serves_of_eq <;> simp

theorem heldAccessRecheck_serves (s : State) : ∃ t, exec .heldAccessRecheck s = .next t ∧ s.Serves t := by
  refine ⟨_, rfl, serves_unless ?_⟩
  split <;> apply serves_of_eq <;> simp

theorem failScrub_serves (s : State) : s.Serves s.failScrub := by
  apply serves_of_eq <;> simp

theorem expireTag_serves (s : State) (i : TagIndex) : s.Serves (s.expireTag i) := by
  apply serves_of_eq <;> simp

theorem endSettling_serves (s : State) : s.Serves s.endSettling := by
  apply serves_of_eq <;> simp

theorem linkDown_serves (s : State) : ∃ t, exec .linkDown s = .next t ∧ s.Serves t := by
  refine ⟨_, rfl, serves_unless ?_⟩
  split
  · apply serves_of_eq <;> simp
  · exact .refl s

theorem linkUp_serves (s : State) : ∃ t, exec .linkUp s = .next t ∧ s.Serves t := by
  refine ⟨_, rfl, serves_unless ?_⟩
  split
  · exact .refl s
  · refine State.Serves.kick ?_
    apply serves_of_eq <;> simp

/-- R181: an assertion leaves the own address and takes every other field from part reset. -/
theorem resetAssert_port (s : State) :
    ∃ t, exec .resetAssert s = .next t ∧ (s.mgmt.InRange → t.mgmt.InRange) := by
  refine ⟨_, rfl, fun r => ?_⟩
  split
  · exact r
  · exact { (partReset_serves s 0).inRange r with ownAddress := r.ownAddress, frame := rfl }

/-- Every command keeps the port's fields in their ranges. -/
theorem exec_port (c : Instr) (s : State) : ∃ t, exec c s = .next t ∧ (s.mgmt.InRange → t.mgmt.InRange) := by
  have served {o : Host.Outcome State Fault Refusal} (h : ∃ t, o = .next t ∧ s.Serves t) :
      ∃ t, o = .next t ∧ (s.mgmt.InRange → t.mgmt.InRange) :=
    h.imp fun _ h => h.imp_right State.Serves.inRange
  have command (f : State → State) (run : ∀ u : State, u.Serves (f u)) :
      ∃ t, (.next (s.runCommand f) : Host.Outcome State Fault Refusal) = .next t ∧ (s.mgmt.InRange → t.mgmt.InRange) :=
    ⟨_, rfl, (runCommand_serves s f run).inRange⟩
  cases c with
  | transactionIssue t => exact served ⟨_, rfl, serves_unless (serves_of_port (by simp))⟩
  | inputArbiterGrant => exact served (inputArbiterGrant_serves s)
  | heldAccessRecheck => exact served (heldAccessRecheck_serves s)
  | memoryResponse b good data => exact served (memoryResponse_serves s b good data)
  | drainCompletion h => exact served ⟨_, rfl, serves_unless (serves_of_port (by simp)).kick⟩
  | scrubCompletion => exact served ⟨_, rfl, serves_unless (serves_of_port (by simp)).kick⟩
  | scrubFailure => exact served ⟨_, rfl, serves_unless (failScrub_serves s).kick⟩
  | scrubTakeHead => exact served ⟨_, rfl, serves_unless (kick_serves s)⟩
  | tick low =>
    refine ⟨_, rfl, fun r => ?_⟩
    split
    · exact r
    · exact tick_inRange s low r
  | mark low =>
    refine ⟨_, rfl, fun r => ?_⟩
    split
    · exact tick_inRange s low r
    · exact r
  | tagExpiry i => exact served ⟨_, rfl, serves_if (expireTag_serves s i)⟩
  | markPulseEnd => exact served ⟨_, rfl, serves_of_port rfl⟩
  | settlingIntervalEnd => exact served ⟨_, rfl, serves_unless (endSettling_serves s)⟩
  | linkDown => exact served (linkDown_serves s)
  | linkUp => exact served (linkUp_serves s)
  | resetAssert => exact resetAssert_port s
  | resetRelease pins => exact served ⟨_, rfl, serves_if (partReset_serves s pins)⟩
  | i2cAddress x read pins => exact i2cAddress_port s x read pins
  | frameTaken pins => exact frameTaken_port s pins
  | answerRead acks stop => exact answerRead_port s acks stop
  | i2cIdleTimeout => exact served ⟨_, rfl, serves_unless (settleIdle_serves s)⟩
  | i2cDataByte b => exact i2cDataByte_port s b
  | openGroup => exact command _ cmdOpenGroup_serves
  | stageDefine => exact command _ (stageEntry_serves _)
  | stageMove => exact command _ (stageEntry_serves _)
  | stageResize => exact command _ (stageEntry_serves _)
  | stageRetire => exact command _ (stageEntry_serves _)
  | stagePool => exact command _ (stageEntry_serves _)
  | stageUnpool => exact command _ (stageEntry_serves _)
  | closeGroupNow => exact command _ cmdCloseNow_serves
  | closeGroupMark => exact command _ cmdCloseMark_serves
  | abandonGroup => exact command _ cmdAbandonGroup_serves
  | readGroup => exact command _ cmdReadGroup_serves
  | forceRelease => exact command _ (cmdForceRelease_serves _)
  | forceReturn => exact command _ (cmdForceReturn_serves _ _)
  | admitBuffer => exact command _ (cmdAdmit_serves _)
  | rescrub => exact command _ (cmdRescrub_serves _)
  | setAgent => exact command _ (cmdSetAgent_serves _ _)
  | agentReset => exact command _ (cmdAgentReset_serves _)
  | clearFault => exact command _ (cmdClearFault_serves _)
  | readFault => exact command _ (cmdReadFault_serves _)
  | readBuffer => exact command _ (cmdReadBuffer_serves _)
  | readPool => exact command _ (cmdReadPool_serves _)
  | readQueue => exact command _ (cmdReadQueue_serves _)
  | readCycle => exact command _ cmdReadCycle_serves
  | find => exact command _ (cmdFind_serves _ _ _)
  | setTimebase => exact command _ (cmdSetTimebase_serves _)
  | setCycle => exact command _ (cmdSetCycle_serves _ _)
  | pacingOn => exact command _ cmdPacingOn_serves
  | pacingOff => exact command _ cmdPacingOff_serves
  | setMemlimit => exact command _ (cmdSetMemlimit_serves _)
  | readNotices => exact command _ cmdReadNotices_serves
  | ackNotices => exact command _ (cmdAckNotices_serves _)
  | setNoticeEnable => exact command _ (cmdSetNoticeEnable_serves _)
  | identify => exact command _ cmdIdentify_serves
  | partReset pins => exact command _ (cmdPartReset_serves pins)

/-- A step keeps the port's fields in their ranges: the queue of commands is none of them. -/
theorem step_port {s t : State} (taken : step s = .next t) (r : s.mgmt.InRange) : t.mgmt.InRange := by
  unfold step at taken
  split at taken
  · cases taken
    exact r
  · next c rest _ =>
    obtain ⟨u, next, keeps⟩ := exec_port c { s with pending := rest }
    rw [next] at taken
    cases taken
    exact keeps r

/-- Settles O17: the queues by the events that a step is made of, the port by its command. -/
theorem queuesAndPortStayInBounds : Obligations.QueuesAndPortStayInBounds :=
  fun _ _ taken => ⟨step_keeps queuesBounded_of_event taken, step_port taken⟩

end Sys2Proof.Machine
end

