-- ==== Sys2Proof/Proofs/Lends.lean ====
section
/-! SEAL, UNSEAL, LEND and RETURN: the checks in their order and the whole next state; and what a mark does to a lend list. -/

namespace Sys2Proof.Machine

/-! ### Requests on a HELD buffer -/

/-- The checks of R93 on a HELD buffer, then those of the kind's own, read as the outcomes that they lead to. -/
theorem elim_heldCheck {α : Type} (r : BufRec) (a : Agent) (g : BitVec 8) (own : Option Code) (passed : α)
    (failed : Code → α) :
    ((stateCheck r a g .held).or own).elim passed failed =
      if r.state = .void then failed .wrongState
      else if r.generation ≠ g then failed .stale
      else if r.custodian ≠ some a then failed .notHolder
      else if r.state ≠ .held then failed .wrongState
      else own.elim passed failed := by
  have chain : (stateCheck r a g .held).or own =
      if r.state = .void then some .wrongState
      else if r.generation ≠ g then some .stale
      else if r.custodian ≠ some a then some .notHolder
      else if r.state ≠ .held then some .wrongState
      else own := by
    simp only [stateCheck_eq, apply_ite (Option.or · own), Option.some_or, Option.none_or]
  simp only [chain, elim_check]

/-! ### SEAL and UNSEAL -/

theorem sealCheck_eq (s : State) (a : Agent) (h : Handle) (g : BitVec 8) :
    s.sealCheck a h g = (stateCheck (s.buf h) a g .held).or (if (s.buf h).sealed = true then some .isSealed else none) := by
  unfold State.sealCheck
  cases stateCheck (s.buf h) a g .held <;> rfl

theorem unsealCheck_eq (s : State) (a : Agent) (h : Handle) (g : BitVec 8) :
    s.unsealCheck a h g = (stateCheck (s.buf h) a g .held).or
      (if (s.buf h).sealed = false then some .notSealed else if (s.buf h).lends ≠ [] then some .lent else none) := by
  unfold State.unsealCheck
  cases stateCheck (s.buf h) a g .held <;> rfl

/-- SEAL sets the sealed field where every check passes, and else answers the check that failed. -/
theorem takeRequest_seal (s : State) (a : Agent) (h : Handle) (g : BitVec 8) :
    s.takeRequest a (.seal h g) =
      (s.sealCheck a h g).elim (s.setBuf h { s.buf h with sealed := true }, namedAnswer .ok h g)
        fun c => (s, namedAnswer c h g) := by
  simp only [State.takeRequest]
  cases s.sealCheck a h g <;> rfl

/-- UNSEAL clears the sealed field where every check passes, and else answers the check that failed. -/
theorem takeRequest_unseal (s : State) (a : Agent) (h : Handle) (g : BitVec 8) :
    s.takeRequest a (.unseal h g) =
      (s.unsealCheck a h g).elim (s.setBuf h { s.buf h with sealed := false }, namedAnswer .ok h g)
        fun c => (s, namedAnswer c h g) := by
  simp only [State.takeRequest]
  cases s.unsealCheck a h g <;> rfl

/-- Settles O29: the checks on a HELD buffer, then the sealed field, and for UNSEAL the lend list. -/
theorem sealAndUnsealInOrder : Obligations.SealAndUnsealInOrder := by
  intro s a h g r word
  constructor
  · rw [takeRequest_seal, sealCheck_eq, elim_heldCheck, elim_check]
    rfl
  · rw [takeRequest_unseal, unsealCheck_eq, elim_heldCheck, elim_check, elim_check]
    rfl

/-! ### LEND -/

theorem lendCheck_eq (s : State) (a : Agent) (h : Handle) (g : BitVec 8) (b : Agent) :
    s.lendCheck a h g b = (stateCheck (s.buf h) a g .held).or
      (if (s.buf h).sealed = false then some .notSealed
      else if b = a then some .self
      else if s.online b = false then some .offline
      else if memAgent b (s.pool (s.buf h).pool).borrowSet = false then some .notAllowed
      else if Config.lendCapacity ≤ (s.buf h).lends.length ∧ (s.buf h).lists b = false then some .full
      else none) := by
  unfold State.lendCheck
  cases stateCheck (s.buf h) a g .held <;> rfl

/-- LEND changes the lend list where every check passes, and else answers the check that failed. -/
theorem takeRequest_lend (s : State) (a : Agent) (h : Handle) (g : BitVec 8) (b : Agent) :
    s.takeRequest a (.lend h g b) =
      (s.lendCheck a h g b).elim
        (s.setBuf h ((s.buf h).lendTo b (s.pool (s.buf h).pool).deadline),
          namedAnswer (if (s.buf h).lists b then .renewed else .ok) h g)
        fun c => (s, namedAnswer c h g) := by
  simp only [State.takeRequest]
  cases s.lendCheck a h g b <;> rfl

/-- R72: the entry of a listed borrower is renewed at its place. -/
theorem lendTo_of_listed {r : BufRec} {b : Agent} (listed : r.lists b = true) (d : Option Nat) :
    r.lendTo b d = { r with lends := r.lends.map fun l => if l.borrower = b then ⟨b, d⟩ else l } := by
  have renewed : (fun l : Lend => if l.borrower = b then { l with deadline := d } else l) =
      fun l => if l.borrower = b then ⟨b, d⟩ else l := by
    funext l
    split
    · next same => rw [same]
    · rfl
  rw [BufRec.lendTo, if_pos listed, renewed]

/-- R72: a new entry joins the tail, and its borrower leaves the expired-borrower set. -/
theorem lendTo_of_unlisted {r : BufRec} {b : Agent} (unlisted : ¬r.lists b = true) (d : Option Nat) :
    r.lendTo b d = { r with lends := r.lends ++ [⟨b, d⟩], expired := dropAgent b r.expired } := by
  rw [BufRec.lendTo, if_neg unlisted]

/-- A listed borrower never meets FULL, so RENEWED may as well be decided before it. -/
theorem full_after_renewed {α : Type} {full listed : Prop} [Decidable full] [Decidable listed] (refused renewed lent : α) :
    (if full ∧ ¬listed then refused else if listed then renewed else lent) =
      if listed then renewed else if full then refused else lent := by
  by_cases l : listed
  · rw [if_neg fun both => both.2 l, if_pos l, if_pos l]
  · simp only [l, not_false_eq_true, and_true, if_false]

/-- R72: the last check and the two ways to lend, with RENEWED before FULL. -/
theorem lend_outcome (s : State) (h : Handle) (g : BitVec 8) (b : Agent) (d : Option Nat) :
    (if Config.lendCapacity ≤ (s.buf h).lends.length ∧ (s.buf h).lists b = false then (s, namedAnswer .full h g)
      else (s.setBuf h ((s.buf h).lendTo b d), namedAnswer (if (s.buf h).lists b then .renewed else .ok) h g)) =
      if b ∈ (s.buf h).lends.map Lend.borrower then
        (s.setBuf h
          { s.buf h with lends := (s.buf h).lends.map fun l => if l.borrower = b then ⟨b, d⟩ else l },
          namedAnswer .renewed h g)
      else if Config.lendCapacity ≤ (s.buf h).lends.length then (s, namedAnswer .full h g)
      else
        (s.setBuf h { s.buf h with lends := (s.buf h).lends ++ [⟨b, d⟩], expired := dropAgent b (s.buf h).expired },
          namedAnswer .ok h g) := by
  rw [← full_after_renewed]
  simp only [← lists_iff, Bool.not_eq_true]
  by_cases listed : (s.buf h).lists b = true
  · simp only [lendTo_of_listed listed, if_pos listed]
  · simp only [lendTo_of_unlisted listed, if_neg listed]

/-- Settles O30: the checks on a HELD buffer, those of R72, and then the entry that is renewed or joins. -/
theorem lendInOrder : Obligations.LendInOrder := by
  intro s a h g b r p word deadline
  rw [takeRequest_lend, lendCheck_eq, elim_heldCheck]
  simp only [elim_check, Option.elim_none, lend_outcome]
  rfl

/-! ### RETURN -/

/-- RETURN, its two checks first, then by what the record holds of the requester. -/
theorem takeRequest_giveBack (s : State) (a : Agent) (h : Handle) (g : BitVec 8) :
    s.takeRequest a (.giveBack h g) =
      (s.returnCheck h g).elim
        (if a ∈ (s.buf h).lends.map Lend.borrower then (s.setBuf h ((s.buf h).endLend a), namedAnswer .ok h g)
        else if memAgent a (s.buf h).expired = true then (s.setBuf h ((s.buf h).endExpiry a), namedAnswer .expired h g)
        else (s, namedAnswer .noLend h g))
        fun c => (s, namedAnswer c h g) := by
  simp only [State.takeRequest, lists_iff]
  cases s.returnCheck h g <;> rfl

/-- Settles O31: the chain of R74 with the outcome of each check in its place. -/
theorem returnInOrder : Obligations.ReturnInOrder := by
  intro s a h g r word
  rw [takeRequest_giveBack, State.returnCheck, elim_check, elim_check]
  rfl

/-! ### R76: the mark -/

theorem memAgent_addAgent (a b : Agent) (set : AgentSet) :
    memAgent b (addAgent a set) = true ↔ memAgent b set = true ∨ a = b := by
  simp only [memAgent, addAgent, BitVec.getLsbD_or, BitVec.getLsbD_twoPow, Bool.or_eq_true, Bool.and_eq_true,
    decide_eq_true_eq, a.isLt, true_and, Fin.ext_iff]

/-- The borrowers of a list of entries, added one by one. -/
theorem memAgent_addBorrowers (lends : List Lend) (b : Agent) (set : AgentSet) :
    memAgent b (lends.foldl (fun set l => addAgent l.borrower set) set) = true ↔
      memAgent b set = true ∨ ∃ l ∈ lends, l.borrower = b := by
  induction lends generalizing set with
  | nil => simp
  | cons l lends ih => simp only [List.foldl_cons, ih, memAgent_addAgent, List.mem_cons, exists_eq_or_imp, or_assoc]

/-- An entry expires at a mark that finds its deadline present and at 1 or less; an absent deadline never expires. -/
theorem isExpired_lowered (l : Lend) : l.lowered.isExpired = true ↔ ∃ n, l.deadline = some n ∧ n ≤ 1 := by
  cases d : l.deadline with
  | none => simp [Lend.isExpired, Lend.lowered, d]
  | some n => simp [Lend.isExpired, Lend.lowered, d, Nat.sub_eq_zero_iff_le]

theorem atMark_of_lendable {r : BufRec} (held : r.state = .held) (shut : r.sealed = true) :
    r.atMark = { r with
      lends := (r.lends.map Lend.lowered).filter fun l => !l.isExpired
      expired := ((r.lends.map Lend.lowered).filter Lend.isExpired).foldl (fun set l => addAgent l.borrower set)
        r.expired } := by
  rw [BufRec.atMark, if_pos ⟨held, shut⟩]

theorem atMark_of_unlendable {r : BufRec} (other : r.state ≠ .held ∨ r.sealed = false) : r.atMark = r := by
  rw [BufRec.atMark, if_neg]
  rintro ⟨held, shut⟩
  simp [held, shut] at other

theorem expiresAtMark_of_unlendable {r : BufRec} (other : r.state ≠ .held ∨ r.sealed = false) :
    r.expiresAtMark = false := by
  rcases other with unheld | unsealed
  · simp [BufRec.expiresAtMark, unheld]
  · simp [BufRec.expiresAtMark, unsealed]

theorem expiresAtMark_iff {r : BufRec} (held : r.state = .held) (shut : r.sealed = true) :
    r.expiresAtMark = true ↔ ∃ l, l ∈ r.lends ∧ ∃ n, l.deadline = some n ∧ n ≤ 1 := by
  simp only [BufRec.expiresAtMark, held, shut, decide_true, Bool.true_and, List.any_eq_true, isExpired_lowered]

/-- The expired-borrower set after a mark. -/
theorem memAgent_atMark {r : BufRec} (held : r.state = .held) (shut : r.sealed = true) (b : Agent) :
    memAgent b r.atMark.expired = true ↔
      memAgent b r.expired = true ∨ ∃ l, l ∈ r.lends ∧ l.borrower = b ∧ ∃ n, l.deadline = some n ∧ n ≤ 1 := by
  rw [atMark_of_lendable held shut, memAgent_addBorrowers]
  refine or_congr_right ⟨?_, ?_⟩
  · rintro ⟨l', member, borrower⟩
    obtain ⟨mapped, expires⟩ := List.mem_filter.1 member
    obtain ⟨l, listed, rfl⟩ := List.mem_map.1 mapped
    exact ⟨l, listed, borrower, (isExpired_lowered l).1 expires⟩
  · rintro ⟨l, listed, borrower, expires⟩
    exact ⟨l.lowered, List.mem_filter.2 ⟨List.mem_map_of_mem listed, (isExpired_lowered l).2 expires⟩, borrower⟩

/-- Settles O43: the entries one by one, kept as they are, lowered, or moved to the expired-borrower set. -/
theorem lendsExpireAtMark : Obligations.LendsExpireAtMark := by
  refine fun r => ⟨fun other => ⟨atMark_of_unlendable other, expiresAtMark_of_unlendable other⟩, fun held shut =>
    ⟨?_, ?_, memAgent_atMark held shut, expiresAtMark_iff held shut⟩⟩
  · rw [atMark_of_lendable held shut]
  · rw [atMark_of_lendable held shut]
    simp only [← List.filterMap_eq_filter, List.filterMap_map]
    congr 1
    funext l
    obtain ⟨b, _ | n⟩ := l
    · rfl
    · by_cases last : n ≤ 1
      · simp [Lend.lowered, Lend.isExpired, last]
      · simp [Lend.lowered, Lend.isExpired, last, Nat.sub_eq_zero_iff_le]

end Sys2Proof.Machine
end

section
/-! The way into the part: an offered transaction and its waiting place. -/

namespace Sys2Proof.Machine

theorem exec_transactionIssue_vacant {s : State} {t : Txn} (high : s.resetLow = false) (vacant : s.waiting t.agent = none) :
    exec (.transactionIssue t) s = .next (s.setWaiting t.agent (some t)) := by
  simp [exec, execTransactionIssue, high, vacant]

/-- An occupied place holds the request channel off (log 19). -/
theorem exec_transactionIssue_occupied {s : State} {t : Txn} (occupied : s.waiting t.agent ≠ none) :
    exec (.transactionIssue t) s = .next s := by
  simp [exec, execTransactionIssue, Option.isSome_iff_ne_none.mpr occupied]

theorem exec_grant_none {s : State} (idle : s.nextGranted = none) : exec .inputArbiterGrant s = .next s := by
  simp [exec, execInputArbiterGrant, idle]

/-- Settles O18: the two cases of the place, and the two reasons for which no agent is granted. -/
theorem transactionEntersItsPlace : Obligations.TransactionEntersItsPlace := by
  intro s high
  refine ⟨fun t => ⟨exec_transactionIssue_vacant high, exec_transactionIssue_occupied⟩, fun held => ?_, fun vacant => ?_⟩
  · exact exec_grant_none (nextGranted_eq_none s (.inl held))
  · exact exec_grant_none (nextGranted_eq_none s (.inr vacant))

end Sys2Proof.Machine
end

section
/-! Custody request words (R92, R179): what each kind's word spells, where a word is malformed, and that the word of every request
spells it. -/

namespace Sys2Proof.Machine

/-! ### Numbers and their bytes -/

/-- The bytes of a number that they can hold make that number. -/
theorem unle_le (n : Nat) {k : Nat} (fits : k < 256 ^ n) : unle (le n k) = k := by
  induction n generalizing k with
  | zero =>
    rw [Nat.pow_zero, Nat.lt_one_iff] at fits
    rw [fits]
    rfl
  | succ n ih =>
    have rest : k / 256 < 256 ^ n := Nat.div_lt_of_lt_mul (by rwa [Nat.pow_succ'] at fits)
    rw [le, unle, ih rest, BitVec.toNat_ofNat]
    exact Nat.mod_add_div k 256

theorem unle_two (lo hi : Byte) : unle [lo, hi] = lo.toNat + 256 * hi.toNat := by
  simp [unle]

theorem unle_three_eq_zero (x y z : Byte) : unle [x, y, z] = 0 ↔ x = 0 ∧ y = 0 ∧ z = 0 := by
  simp only [unle]
  bv_omega

theorem handleOf_eq_none_iff (n : Nat) : handleOf n = none ↔ n = 0 ∨ 511 < n := by
  refine ⟨fun out => ?_, handleOf_eq_none⟩
  refine Decidable.byContradiction fun within => ?_
  simp [handleOf, show 1 ≤ n ∧ n ≤ 511 by omega] at out

theorem agentOf_eq_none_iff (n : Nat) : agentOf n = none ↔ 15 < n := by
  refine ⟨fun out => ?_, agentOf_eq_none⟩
  refine Decidable.byContradiction fun within => ?_
  simp [agentOf, show n < 16 by omega] at out

theorem poolOf_eq_none_iff (n : Nat) : poolOf n = none ↔ 7 < n := by
  refine ⟨fun out => ?_, poolOf_eq_none⟩
  refine Decidable.byContradiction fun within => ?_
  simp [poolOf, show n < 8 by omega] at out

/-! ### What a word spells, by its kind -/

/-- The kinds whose requests name a handle and a generation alone. -/
def handleKinds : List (Byte × (Handle → BitVec 8 → Request)) :=
  [(2, .release), (5, .recall), (6, .seal), (7, .unseal), (9, .giveBack)]

/-- The kinds whose requests also name an agent. -/
def agentKinds : List (Byte × (Handle → BitVec 8 → Agent → Request)) :=
  [(3, .pass), (8, .lend)]

theorem mem_handleKinds {k : Byte} {make : Handle → BitVec 8 → Request} :
    (k, make) ∈ handleKinds ↔
      k = 2 ∧ make = .release ∨ k = 5 ∧ make = .recall ∨ k = 6 ∧ make = .seal ∨ k = 7 ∧ make = .unseal ∨
        k = 9 ∧ make = .giveBack := by
  simp [handleKinds]

theorem mem_agentKinds {k : Byte} {make : Handle → BitVec 8 → Agent → Request} :
    (k, make) ∈ agentKinds ↔ k = 3 ∧ make = .pass ∨ k = 8 ∧ make = .lend := by
  simp [agentKinds]

/-- Every kind byte has one of the four shapes of request, or names no kind. -/
theorem kind_cases (k : Byte) :
    k = 1 ∨ k = 4 ∨ (∃ make, (k, make) ∈ handleKinds) ∨ (∃ make, (k, make) ∈ agentKinds) ∨
      k.toNat = 0 ∨ 9 < k.toNat := by
  simp only [mem_handleKinds, mem_agentKinds, exists_or, exists_and_left, exists_eq, and_true]
  bv_omega

section
variable (g hl hh x : Byte)

theorem decodeRequest_reserved (k : Byte) {r1 r2 r3 : Byte} (used : ¬ (r1 = 0 ∧ r2 = 0 ∧ r3 = 0)) :
    decodeRequest [k, g, hl, hh, x, r1, r2, r3] = none :=
  if_pos (mt (unle_three_eq_zero r1 r2 r3).mp used)

theorem decodeRequest_claim :
    decodeRequest [1, g, hl, hh, x, 0, 0, 0] =
      if g = 0 ∧ unle [hl, hh] = 0 then (poolOf x.toNat).map .claim else none := rfl

theorem decodeRequest_accept :
    decodeRequest [4, g, hl, hh, x, 0, 0, 0] = if (g, unle [hl, hh], x.toNat) = (0, 0, 0) then some .accept else none := rfl

theorem decodeRequest_handleKind {k : Byte} {make : Handle → BitVec 8 → Request} (kind : (k, make) ∈ handleKinds) :
    decodeRequest [k, g, hl, hh, x, 0, 0, 0] =
      if x.toNat = 0 then (handleOf (unle [hl, hh])).map fun h => make h g else none := by
  obtain ⟨rfl, rfl⟩ | ⟨rfl, rfl⟩ | ⟨rfl, rfl⟩ | ⟨rfl, rfl⟩ | ⟨rfl, rfl⟩ := mem_handleKinds.mp kind <;> rfl

theorem decodeRequest_agentKind {k : Byte} {make : Handle → BitVec 8 → Agent → Request} (kind : (k, make) ∈ agentKinds) :
    decodeRequest [k, g, hl, hh, x, 0, 0, 0] =
      (handleOf (unle [hl, hh])).bind fun h => (agentOf x.toNat).map fun a => make h g a := by
  obtain ⟨rfl, rfl⟩ | ⟨rfl, rfl⟩ := mem_agentKinds.mp kind <;> rfl

theorem decodeRequest_noKind {k : Byte} (unknown : k.toNat = 0 ∨ 9 < k.toNat) :
    decodeRequest [k, g, hl, hh, x, 0, 0, 0] = none := by
  unfold decodeRequest
  dsimp only
  split
  · rfl
  · split
    case h_10 => rfl
    all_goals
      next named =>
      simp only [List.getD_cons_zero] at named
      omega

/-! ### Where a word is malformed -/

theorem malformed_claim :
    decodeRequest [1, g, hl, hh, x, 0, 0, 0] = none ↔ g ≠ 0 ∨ unle [hl, hh] ≠ 0 ∨ 7 < x.toNat := by
  rw [decodeRequest_claim, ite_eq_right_iff, Option.map_eq_none_iff, poolOf_eq_none_iff]
  simp only [Decidable.imp_iff_not_or, Decidable.not_and_iff_not_or_not, or_assoc, ne_eq]

theorem malformed_accept :
    decodeRequest [4, g, hl, hh, x, 0, 0, 0] = none ↔ g ≠ 0 ∨ unle [hl, hh] ≠ 0 ∨ x.toNat ≠ 0 := by
  rw [decodeRequest_accept, ite_eq_right_iff, Prod.mk.injEq, Prod.mk.injEq]
  simp only [reduceCtorEq, imp_false, Decidable.not_and_iff_not_or_not, ne_eq]

theorem malformed_handleKind {k : Byte} {make : Handle → BitVec 8 → Request} (kind : (k, make) ∈ handleKinds) :
    decodeRequest [k, g, hl, hh, x, 0, 0, 0] = none ↔ (unle [hl, hh] = 0 ∨ 511 < unle [hl, hh]) ∨ x.toNat ≠ 0 := by
  rw [decodeRequest_handleKind g hl hh x kind, ite_eq_right_iff, Option.map_eq_none_iff, handleOf_eq_none_iff,
    Decidable.imp_iff_not_or, or_comm]

theorem malformed_agentKind {k : Byte} {make : Handle → BitVec 8 → Agent → Request} (kind : (k, make) ∈ agentKinds) :
    decodeRequest [k, g, hl, hh, x, 0, 0, 0] = none ↔ (unle [hl, hh] = 0 ∨ 511 < unle [hl, hh]) ∨ 15 < x.toNat := by
  rw [decodeRequest_agentKind g hl hh x kind, ← handleOf_eq_none_iff, ← agentOf_eq_none_iff]
  cases handleOf (unle [hl, hh]) <;> simp

end

/-! ### The word of a request -/

/-- The bytes of a request word, with the number and the argument that they make. -/
theorem requestBytes_eq (kind : Nat) (g : BitVec 8) (n x : Nat) :
    requestBytes kind g n x =
      [BitVec.ofNat 8 kind, g, BitVec.ofNat 8 n, BitVec.ofNat 8 (n / 256), BitVec.ofNat 8 x, 0, 0, 0] := rfl

theorem unle_handleNum (h : Handle) : unle [BitVec.ofNat 8 (handleNum h), BitVec.ofNat 8 (handleNum h / 256)] = handleNum h :=
  unle_le 2 (show h.val + 1 < 256 ^ 2 by omega)

theorem decodeRequest_word_handleKind {k : Byte} {make : Handle → BitVec 8 → Request} (kind : (k, make) ∈ handleKinds)
    (h : Handle) (g : BitVec 8) : decodeRequest (requestBytes k.toNat g (handleNum h) 0) = some (make h g) := by
  rw [requestBytes_eq, BitVec.ofNat_toNat, BitVec.setWidth_eq, decodeRequest_handleKind _ _ _ _ kind, unle_handleNum, handleNum,
    handleOf_num]
  rfl

theorem decodeRequest_word_agentKind {k : Byte} {make : Handle → BitVec 8 → Agent → Request} (kind : (k, make) ∈ agentKinds)
    (h : Handle) (g : BitVec 8) (a : Agent) :
    decodeRequest (requestBytes k.toNat g (handleNum h) a.val) = some (make h g a) := by
  have argument : (BitVec.ofNat 8 a.val).toNat = a.val := Nat.mod_eq_of_lt (show a.val < 2 ^ 8 by omega)
  rw [requestBytes_eq, BitVec.ofNat_toNat, BitVec.setWidth_eq, decodeRequest_agentKind _ _ _ _ kind, unle_handleNum, handleNum,
    handleOf_num, argument, agentOf_val]
  rfl

theorem decodeRequest_word_claim (p : PoolId) : decodeRequest (requestBytes 1 0 0 p.val) = some (.claim p) := by
  have argument : (BitVec.ofNat 8 p.val).toNat = p.val := Nat.mod_eq_of_lt (show p.val < 2 ^ 8 by omega)
  rw [requestBytes_eq]
  show decodeRequest [1, _, _, _, _, _, _, _] = _
  rw [decodeRequest_claim, argument, poolOf_val]
  rfl

/-- A request word is read as sent. -/
theorem decodeRequest_word : ∀ q : Request, decodeRequest q.word = some q
  | .claim p => decodeRequest_word_claim p
  | .release h g => decodeRequest_word_handleKind (k := 2) (by simp [handleKinds]) h g
  | .pass h g a => decodeRequest_word_agentKind (k := 3) (by simp [agentKinds]) h g a
  | .accept => rfl
  | .recall h g => decodeRequest_word_handleKind (k := 5) (by simp [handleKinds]) h g
  | .seal h g => decodeRequest_word_handleKind (k := 6) (by simp [handleKinds]) h g
  | .unseal h g => decodeRequest_word_handleKind (k := 7) (by simp [handleKinds]) h g
  | .lend h g a => decodeRequest_word_agentKind (k := 8) (by simp [agentKinds]) h g a
  | .giveBack h g => decodeRequest_word_handleKind (k := 9) (by simp [handleKinds]) h g

/-! ### What the custody unit does with a word -/

theorem custodyRequest_malformed {w : List Byte} (malformed : decodeRequest w = none) (s : State) (a : Agent) :
    s.custodyRequest a w = (s, { code := .malformed }) := by
  simp only [State.custodyRequest, malformed]

theorem custodyRequest_spelled {w : List Byte} {q : Request} (spelled : decodeRequest w = some q) (s : State) (a : Agent) :
    s.custodyRequest a w = s.takeRequest a q := by
  simp only [State.custodyRequest, spelled]

theorem malformed_word : ({ code := .malformed } : Answer).word = [0x10, 0, 0, 0, 0, 0, 0, 0] := rfl

/-- Settles O23: a word with a reserved byte used is malformed whatever its kind; any other by the line of R92 for its kind. -/
theorem requestWordsAreDecoded : Obligations.RequestWordsAreDecoded := by
  refine ⟨decodeRequest_word, fun k g hl hh x r1 r2 r3 => ⟨?_, fun s a malformed => ?_⟩⟩
  · by_cases zeros : r1 = 0 ∧ r2 = 0 ∧ r3 = 0
    · obtain ⟨rfl, rfl, rfl⟩ := zeros
      rcases kind_cases k with rfl | rfl | ⟨make, kind⟩ | ⟨make, kind⟩ | unknown
      · rw [malformed_claim, unle_two]
        simp
      · rw [malformed_accept, unle_two]
        simp [← BitVec.toNat_inj]
      · rw [malformed_handleKind g hl hh x kind, unle_two]
        obtain ⟨rfl, -⟩ | ⟨rfl, -⟩ | ⟨rfl, -⟩ | ⟨rfl, -⟩ | ⟨rfl, -⟩ := mem_handleKinds.mp kind <;> simp [← BitVec.toNat_inj]
      · rw [malformed_agentKind g hl hh x kind, unle_two]
        obtain ⟨rfl, -⟩ | ⟨rfl, -⟩ := mem_agentKinds.mp kind <;> simp
      · simp only [decodeRequest_noKind g hl hh x unknown, unknown, true_or]
    · have used : r1 ≠ 0 ∨ r2 ≠ 0 ∨ r3 ≠ 0 := by
        simpa only [Decidable.not_and_iff_not_or_not] using zeros
      simp only [decodeRequest_reserved g hl hh x k zeros, used, true_or, or_true]
  · rw [custodyRequest_malformed malformed]
    exact ⟨rfl, malformed_word⟩

end Sys2Proof.Machine
end

section
/-! The aperture at handle 0: the answer word and the status word byte by byte, and the grant of an access to it (R91, R94, R95,
R105). -/

namespace Sys2Proof.Machine

/-! ### The words that the aperture answers with -/

/-- The answer word byte by byte (R94, 11.1). -/
theorem answer_word_eq (w : Answer) :
    w.word =
      [BitVec.ofNat 8 w.code.byte, w.generation, BitVec.ofNat 8 w.handle, BitVec.ofNat 8 (w.handle / 256),
        BitVec.ofNat 8 w.length, BitVec.ofNat 8 (w.length / 256),
        BitVec.ofNat 8 (w.isSealed.toNat + 2 * w.written.toNat + 4 * w.fromAgent.isSome.toNat),
        BitVec.ofNat 8 (match w.fromAgent with | some a => a.val | none => 0)] := by
  have flags : flagByte [w.isSealed, w.written, w.fromAgent.isSome] =
      w.isSealed.toNat + 2 * w.written.toNat + 4 * w.fromAgent.isSome.toNat := by
    simp [flagByte_eq, List.range_succ]
    omega
  rw [← flags]
  rfl

/-- The status word of an agent that is ONLINE (R95). -/
theorem statusWord_online {s : State} {a : Agent} (online : s.online a = true) :
    s.statusWord a =
      [if (s.agent a).slot = none then 1 else 3, BitVec.ofNat 8 (s.queue a).length,
        BitVec.ofNat 8 ((List.finRange 8).filter fun g => (s.entry a g).isSome).length, 0, 0, 0, 0, 0] := by
  have flags : BitVec.ofNat 8 (flagByte [s.online a, (s.agent a).slot.isSome]) =
      if (s.agent a).slot = none then 1 else 3 := by
    rw [online]
    cases (s.agent a).slot <;> rfl
  rw [← flags]
  rfl

/-- A grant empties a place and moves the pointer: what an agent may read of itself stays. -/
theorem statusWord_granted (s : State) (a b : Agent) : (s.granted a).statusWord b = s.statusWord b := rfl

/-! ### The grant of an access to handle 0 -/

/-- R103 to R105: a well-shaped access to handle 0 under a free stage tag is routed to the aperture. -/
theorem takeTxn_aperture {s : State} {t : Txn} (online : s.online t.agent = true) (vacant : s.entry t.agent t.tag = none)
    (size : t.size = 8) (offset : t.offset = 0) (handle : t.handle = none) : s.takeTxn t = s.aperture t := by
  have shape : t.shapeOk = true := by simp [Txn.shapeOk, size, offset]
  simp [State.takeTxn, online, vacant, shape, handle]

/-- The transaction that is granted is its agent's own. -/
theorem agent_of_nextTxn {s : State} {a : Agent} {t : Txn} (turn : s.nextTxn a t) : t.agent = a := by
  obtain ⟨-, -, -, own, -⟩ := turn
  exact own

theorem exec_grant_aperture {s : State} {a : Agent} {t : Txn} (turn : s.nextTxn a t) (online : s.online a = true)
    (vacant : s.entry a t.tag = none) (size : t.size = 8) (offset : t.offset = 0) (handle : t.handle = none) :
    exec .inputArbiterGrant s = .next ((s.granted a).aperture t).kick := by
  obtain rfl := agent_of_nextTxn turn
  have routed : (s.granted t.agent).takeTxn t = (s.granted t.agent).aperture t :=
    takeTxn_aperture online vacant size offset handle
  rw [exec_grant s _ t turn, routed]

theorem aperture_write (s : State) {t : Txn} (write : t.kind = .write) :
    s.aperture t =
      (s.custodyRequest t.agent t.data).1.respond ⟨t.agent, t.tag, .done, none, (s.custodyRequest t.agent t.data).2.word⟩ := by
  simp only [State.aperture, write]
  rfl

theorem aperture_read (s : State) {t : Txn} (read : t.kind = .read) :
    s.aperture t = s.respond ⟨t.agent, t.tag, .done, none, s.statusWord t.agent⟩ := by
  simp only [State.aperture, read]
  rfl

/-- A grant that is answered and no more leaves a quiet part quiet, so nothing follows it. -/
theorem kick_granted_respond {s : State} (quiet : s.quiet) (a : Agent) (r : Response) :
    ((s.granted a).respond r).kick = (s.granted a).respond r :=
  kick_of_quiet _ (quiet_of_eq quiet rfl rfl rfl)

/-- Settles O22: a WRITE is the request that its data spell, a READ the status of its agent; a malformed word and a READ only
answer, and nothing follows them. -/
theorem apertureIsRouted : Obligations.ApertureIsRouted := by
  refine ⟨answer_word_eq, rfl, fun s a t turn online vacant size offset handle => ?_⟩
  have grant := exec_grant_aperture turn online vacant size offset handle
  obtain rfl := agent_of_nextTxn turn
  have request (write : t.kind = .write) := aperture_write (s.granted t.agent) write ▸ grant
  refine ⟨request, fun q write spelled => ?_, fun write malformed quiet => ?_, fun read quiet => ?_⟩
  · rw [request write, custodyRequest_spelled spelled]
  · rw [request write, custodyRequest_malformed malformed, malformed_word, kick_granted_respond quiet]
  · rw [grant, aperture_read _ read, kick_granted_respond quiet, statusWord_granted, statusWord_online online]

end Sys2Proof.Machine
end

section
/-! The FAULT bits and the fault slots (R115, R116, R118): what each operation does with them, and that every command keeps each
FAULT bit set exactly while its slot is occupied. -/

namespace Sys2Proof.Machine

/-! ### The bit and the slot of an agent -/

theorem slot_setAgentRec (s : State) (a b : Agent) (r : AgentRec) :
    ((s.setAgentRec a r).agent b).slot = if b = a then r.slot else (s.agent b).slot := by
  rw [agent_setAgentRec, apply_ite AgentRec.slot]

@[simp] theorem notice_setAgentRec (s : State) (a : Agent) (r : AgentRec) (n : Notice) :
    (s.setAgentRec a r).notice n = s.notice n := rfl

/-- The law speaks of the agent records and the notice set alone. -/
theorem faults_of_eq {s t : State} (law : s.faultBitsFollow) (agents : t.checker.agents = s.checker.agents)
    (notices : t.mgmt.notices = s.mgmt.notices) : t.faultBitsFollow := by
  intro a
  rw [State.notice, notices, State.agent, agents]
  exact law a

theorem setAnswer_faults {s : State} (law : s.faultBitsFollow) (x : HostStatus) (d : List Byte) :
    (s.setAnswer x d).faultBitsFollow := law

/-- R175: a notice of another kind is none of the FAULT bits. -/
theorem raise_faults {s : State} {n : Notice} (law : s.faultBitsFollow) (other : ∀ a, n ≠ .fault a) :
    (s.raise n).faultBitsFollow := by
  intro a
  rw [notice_raise, decide_eq_false (other a).symm, Bool.or_false]
  exact law a

/-- R115: the slot that a refusal fills is the one whose bit it sets. -/
theorem fillSlot_faults {s : State} (law : s.faultBitsFollow) (a : Agent) (f : FaultRec) :
    (s.fillSlot a f).faultBitsFollow := by
  unfold State.fillSlot
  split
  · intro b
    show ((s.setAgentRec a _).raise (.fault a)).notice (.fault b) = ((s.setAgentRec a _).agent b).slot.isSome
    rw [notice_raise, slot_setAgentRec]
    by_cases same : b = a
    · simp [same]
    · simpa [same] using law b
  · exact law

/-- R116, R118: the slot that is emptied is the one whose bit is cleared. -/
theorem emptySlot_faults {s : State} (law : s.faultBitsFollow) (a : Agent) : (s.emptySlot a).faultBitsFollow := by
  intro b
  show ((s.setAgentRec a _).lower (.fault a)).notice (.fault b) = ((s.setAgentRec a _).agent b).slot.isSome
  rw [notice_lower, slot_setAgentRec]
  by_cases same : b = a
  · simp [same]
  · simpa [same] using law b

/-- R117: the enabled flag is no part of the law. -/
theorem setOnline_faults {s : State} (law : s.faultBitsFollow) (a : Agent) (online : Bool) :
    (s.setAgentRec a { s.agent a with online := online }).faultBitsFollow := by
  intro b
  rw [slot_setAgentRec]
  split
  · next same => exact same ▸ law b
  · exact law b

/-- R175: an acknowledgement leaves the FAULT bits as they stand. -/
theorem ackNotices_faults {s : State} (law : s.faultBitsFollow) (n : NoticeSet) :
    State.faultBitsFollow { s with mgmt.notices := s.mgmt.notices &&& ~~~(n &&& ~~~faultPositions) } := by
  intro a
  have position : faultPositions.getLsbD a.val = true :=
    (by decide : ∀ a : Agent, faultPositions.getLsbD a.val = true) a
  have below : a.val < 29 := by omega
  refine Eq.trans ?_ (law a)
  simp [State.notice, Notice.position, position, below]

/-- R116, R178: part reset empties every slot and clears the notice set. -/
theorem partReset_faults (s : State) (pins : BitVec 2) : (s.partReset pins).faultBitsFollow := by
  intro a
  simp [State.notice, State.agent, State.partReset, Mgmt.reset, Checker.reset]

/-! ### Accesses and the arbiter -/

theorem refuse_faults {s : State} (law : s.faultBitsFollow) (t : Txn) (k : FaultKind) (b : Option BufState) :
    (s.refuse t k b).faultBitsFollow := by
  have answered : (s.respond ⟨t.agent, t.tag, .refused, some k, []⟩).faultBitsFollow := law
  exact fillSlot_faults answered _ _

theorem recheckGranted_faults {s : State} (law : s.faultBitsFollow) (i : TagIndex) : (s.recheckGranted i).faultBitsFollow := by
  simp only [State.recheckGranted]
  split
  · exact law
  · next t _ =>
    split
    · exact law
    · split
      · refine refuse_faults ?_ _ _ _
        exact faults_of_eq law (by simp) (by simp)
      · exact faults_of_eq law (by simp) (by simp)

theorem recheckDown_faults {s : State} (law : s.faultBitsFollow) : s.recheckDown.faultBitsFollow := by
  simp only [State.recheckDown]
  split
  · exact law
  · next t _ =>
    have left : (s.dropHold.setEntry t.agent t.tag none).faultBitsFollow := faults_of_eq law (by simp) (by simp)
    split
    · exact left
    · split
      · exact refuse_faults left _ _ _
      · exact left

theorem grantOnce_faults {s : State} (law : s.faultBitsFollow) : s.grantOnce.faultBitsFollow := by
  unfold State.grantOnce
  split
  · exact law
  · exact recheckGranted_faults law _
  · exact faults_of_eq law (by simp) (by simp)

theorem arbitrate_faults {s : State} (law : s.faultBitsFollow) : s.arbitrate.faultBitsFollow :=
  arbitrate_keeps_law (law := State.faultBitsFollow) (fun _ => grantOnce_faults) law

theorem kick_faults {s : State} (law : s.faultBitsFollow) : s.kick.faultBitsFollow :=
  arbitrate_faults (faults_of_eq law (by simp) (by simp))

/-- A CLAIM may set POOL_LOW; no other request sets a notice. -/
theorem takeRequest_faults {s : State} (law : s.faultBitsFollow) (a : Agent) (q : Request) :
    (s.takeRequest a q).1.faultBitsFollow := by
  match q with
  | .claim p =>
    simp only [State.takeRequest]
    split
    · exact law
    · exact law
    · next h rest _ =>
      simp only [State.claimHead]
      split
      · exact raise_faults (n := .poolLow p) law (by simp)
      · exact law
  | .release h g | .recall h g =>
    simp only [State.takeRequest]
    split
    · exact law
    · exact faults_of_eq law (by simp) (by simp)
  | .pass h g b | .lend h g b =>
    simp only [State.takeRequest]
    split <;> exact law
  | .accept =>
    simp only [State.takeRequest]
    split <;> exact law
  | .seal h g | .unseal h g =>
    simp only [State.takeRequest]
    split <;> exact law
  | .giveBack h g =>
    simp only [State.takeRequest]
    split
    · exact law
    · split
      · exact law
      · split <;> exact law

theorem aperture_faults {s : State} (law : s.faultBitsFollow) (t : Txn) : (s.aperture t).faultBitsFollow := by
  unfold State.aperture
  split
  · simp only [State.custodyRequest]
    split
    · exact law
    · exact takeRequest_faults law _ _
  · exact law

theorem takeTxn_faults {s : State} (law : s.faultBitsFollow) (t : Txn) : (s.takeTxn t).faultBitsFollow := by
  have passing (h : Handle) : (s.passingAccess t h).faultBitsFollow := by
    unfold State.passingAccess
    split
    · exact law
    · exact faults_of_eq law (by simp) (by simp)
    · exact law
  unfold State.takeTxn
  split
  · exact law
  · split
    · exact refuse_faults law _ _ _
    · split
      · exact refuse_faults law _ _ _
      · split
        · exact aperture_faults law t
        · split
          · exact refuse_faults law _ _ _
          · exact passing _

theorem inputArbiterGrant_faults {s : State} (law : s.faultBitsFollow) :
    ∃ t, exec .inputArbiterGrant s = .next t ∧ t.faultBitsFollow := by
  refine ⟨_, rfl, ?_⟩
  split
  · exact law
  · split
    · exact law
    · next a _ =>
      split
      · exact law
      · next t _ => exact kick_faults (takeTxn_faults (s := { s.setWaiting a none with stage.pointer := a }) law t)

/-! ### Memory, groups and time -/

theorem failScrub_faults {s : State} (law : s.faultBitsFollow) : s.failScrub.faultBitsFollow := by
  unfold State.failScrub
  split
  · next c _ =>
    split
    · exact raise_faults (n := .scrubFailed) law (by simp)
    · exact law
  · exact law
  · exact law
  · exact law

theorem burstEnd_faults {s : State} (law : s.faultBitsFollow) (n : Nat) (good : Bool) :
    (s.burstEnd n good).faultBitsFollow := by
  simp only [State.burstEnd]
  split
  · split
    · exact faults_of_eq law (by simp) (by simp)
    · exact failScrub_faults law
  · exact failScrub_faults law
  · exact law
  · exact law

theorem takeResponse_faults {s : State} (law : s.faultBitsFollow) (i : TagIndex) (u : TagUse) (good : Bool)
    (data : List Byte) : (s.takeResponse i u good data).faultBitsFollow := by
  simp only [State.takeResponse]
  split
  · exact faults_of_eq law (by simp) (by simp)
  · exact burstEnd_faults (s := s.setTag i _) law _ _

theorem expireTag_faults {s : State} (law : s.faultBitsFollow) (i : TagIndex) : (s.expireTag i).faultBitsFollow := by
  simp only [State.expireTag]
  split
  · exact law
  · refine kick_faults (raise_faults ?_ (by simp))
    split
    · exact faults_of_eq law (by simp) (by simp)
    · exact burstEnd_faults (s := s.setTag i _) law _ _

theorem endSettling_faults {s : State} (law : s.faultBitsFollow) : s.endSettling.faultBitsFollow := by
  unfold State.endSettling
  split
  · exact kick_faults law
  · exact law

theorem goDown_faults {s : State} (law : s.faultBitsFollow) : s.goDown.faultBitsFollow := by
  have lost : ((List.finRange 64).foldl State.loseTag { s with mem.link := .down }).faultBitsFollow :=
    foldl_keeps_law _ (fun u i (l : u.faultBitsFollow) => faults_of_eq l (by simp) (by simp)) _ _ law
  have engine {u : State} (l : u.faultBitsFollow) : u.scrubLinkDown.faultBitsFollow := by
    unfold State.scrubLinkDown
    split
    · exact l
    · exact failScrub_faults l
    · exact l
    · exact l
  exact raise_faults (recheckDown_faults (engine lost)) (by simp)

theorem presentGroup_faults {s : State} (law : s.faultBitsFollow) (c : Option (BitVec 32)) :
    (s.presentGroup c).faultBitsFollow := by
  have applied : (s.applyGroup s.edit.staged).1.faultBitsFollow := faults_of_eq law (by simp) (by simp)
  simp only [State.presentGroup]
  exact raise_faults (faults_of_eq applied rfl rfl) (by simp)

theorem makeMark_faults {s : State} (law : s.faultBitsFollow) : s.makeMark.faultBitsFollow := by
  have custody {u : State} (l : u.faultBitsFollow) : u.custodyMark.faultBitsFollow := by
    unfold State.custodyMark
    split
    · exact raise_faults (n := .lendExpired) l (by simp)
    · exact l
  have edit {u : State} (l : u.faultBitsFollow) (c : BitVec 32) : (u.editMark c).faultBitsFollow := by
    unfold State.editMark
    split
    · exact presentGroup_faults l _
    · exact l
  have timed : State.faultBitsFollow { s with timer := s.timer.atMark } := law
  exact kick_faults (edit (custody timed) _)

theorem advanceCycle_faults {s : State} (law : s.faultBitsFollow) : s.advanceCycle.faultBitsFollow := by
  unfold State.advanceCycle
  split
  · exact makeMark_faults law
  · split <;> exact law

theorem scanStep_faults {s : State} (law : s.faultBitsFollow) : s.scanStep.faultBitsFollow :=
  faults_of_eq law (by simp) (by simp)

theorem scanAndCycle_faults {s : State} (law : s.faultBitsFollow) : s.scanAndCycle.faultBitsFollow := by
  unfold State.scanAndCycle
  split
  · split
    · exact advanceCycle_faults (scanStep_faults law)
    · exact scanStep_faults (advanceCycle_faults law)
  · exact advanceCycle_faults (scanStep_faults law)

theorem takeExpiries_faults (n : Nat) {s : State} (law : s.faultBitsFollow) : (s.takeExpiries n).faultBitsFollow := by
  induction n generalizing s with
  | zero => exact law
  | succ n ih =>
    unfold State.takeExpiries
    split
    · exact law
    · exact expireTag_faults law _
    · have drawn : State.faultBitsFollow { s with freeCount := s.freeCount + 1 } := law
      exact ih (expireTag_faults drawn _)

theorem settleIdle_faults {s : State} (law : s.faultBitsFollow) : s.settleIdle.faultBitsFollow :=
  faults_of_eq law (by simp) (by simp)

theorem tick_faults {s : State} (law : s.faultBitsFollow) (low : Bool) : (s.tick low).faultBitsFollow := by
  have unpulsed : s.endPulse.faultBitsFollow := law
  have settled : s.settleOutstanding.faultBitsFollow :=
    settleIdle_faults (takeExpiries_faults 64 (endSettling_faults unpulsed))
  refine scanAndCycle_faults (faults_of_eq settled ?_ ?_)
  · simp
  · simp

/-! ### Management commands -/

theorem cmdAgentReset_faults (n : Nat) {s : State} (law : s.faultBitsFollow) : (cmdAgentReset n s).faultBitsFollow := by
  unfold cmdAgentReset
  split
  · exact law
  · next a _ =>
    have cancelled : (s.cancelAgent a).faultBitsFollow := faults_of_eq law (by simp) (by simp)
    have swept : (((s.cancelAgent a).emptySlot a).sweep a).faultBitsFollow :=
      faults_of_eq (emptySlot_faults cancelled a) (by simp) (by simp)
    exact kick_faults (setAnswer_faults swept _ _)

theorem cmdSetAgent_faults (n mode : Nat) {s : State} (law : s.faultBitsFollow) : (cmdSetAgent n mode s).faultBitsFollow := by
  unfold cmdSetAgent
  split
  · exact law
  · split
    · exact setOnline_faults law _ _
    · exact law

theorem cmdClearFault_faults (n : Nat) {s : State} (law : s.faultBitsFollow) : (cmdClearFault n s).faultBitsFollow := by
  unfold cmdClearFault
  split
  · exact law
  · exact emptySlot_faults law _

theorem cmdAckNotices_faults (n : Nat) {s : State} (law : s.faultBitsFollow) : (cmdAckNotices n s).faultBitsFollow := by
  unfold cmdAckNotices
  split
  · exact law
  · exact ackNotices_faults law _

theorem cmdCloseNow_faults {s : State} (law : s.faultBitsFollow) : (cmdCloseNow s).faultBitsFollow := by
  unfold cmdCloseNow
  split
  · exact law
  · exact law
  · exact kick_faults (presentGroup_faults law none)

theorem cmdForceRelease_faults (n : Nat) {s : State} (law : s.faultBitsFollow) : (cmdForceRelease n s).faultBitsFollow := by
  unfold cmdForceRelease
  split
  · exact law
  · next h _ =>
    split
    · have forced : (s.forceOut h).faultBitsFollow := faults_of_eq law (by simp) (by simp)
      exact kick_faults forced
    · exact law

theorem cmdRescrub_faults (n : Nat) {s : State} (law : s.faultBitsFollow) : (cmdRescrub n s).faultBitsFollow := by
  unfold cmdRescrub
  split
  · exact law
  · split
    · exact kick_faults law
    · exact law

theorem cmdFind_faults (kind value start : Nat) {s : State} (law : s.faultBitsFollow) :
    (cmdFind kind value start s).faultBitsFollow := by
  unfold cmdFind
  split
  · exact scanStep_faults law
  · exact law
  · exact law

/-! The other commands change neither an agent record nor the notice set. -/

theorem cmdReadFault_faults (n : Nat) {s : State} (law : s.faultBitsFollow) : (cmdReadFault n s).faultBitsFollow := by
  unfold cmdReadFault
  split <;> exact law

theorem cmdOpenGroup_faults {s : State} (law : s.faultBitsFollow) : (cmdOpenGroup s).faultBitsFollow := by
  unfold cmdOpenGroup
  split <;> exact law

theorem stageEntry_faults (e : Option Edit) {s : State} (law : s.faultBitsFollow) : (stageEntry e s).faultBitsFollow := by
  unfold stageEntry
  split
  · exact law
  · exact law
  · exact law
  · split <;> exact law

theorem cmdCloseMark_faults {s : State} (law : s.faultBitsFollow) : (cmdCloseMark s).faultBitsFollow := by
  unfold cmdCloseMark
  split
  · exact law
  · exact law
  · split <;> exact law

theorem cmdCloseGroup_faults (mode : Nat) {s : State} (law : s.faultBitsFollow) : (cmdCloseGroup mode s).faultBitsFollow := by
  unfold cmdCloseGroup
  split
  · exact cmdCloseNow_faults law
  · exact cmdCloseMark_faults law
  · unfold cmdCloseUnknown
    split <;> exact law

theorem cmdAbandonGroup_faults {s : State} (law : s.faultBitsFollow) : (cmdAbandonGroup s).faultBitsFollow := by
  unfold cmdAbandonGroup
  split <;> exact law

theorem cmdForceReturn_faults (n b : Nat) {s : State} (law : s.faultBitsFollow) : (cmdForceReturn n b s).faultBitsFollow := by
  unfold cmdForceReturn
  split
  · dsimp only
    split
    · split
      · exact law
      · split <;> exact law
    · exact law
  · exact law
  · exact law

theorem cmdAdmit_faults (n : Nat) {s : State} (law : s.faultBitsFollow) : (cmdAdmit n s).faultBitsFollow := by
  unfold cmdAdmit
  split
  · exact law
  · split <;> exact law

theorem cmdSetMemlimit_faults (n : Nat) {s : State} (law : s.faultBitsFollow) : (cmdSetMemlimit n s).faultBitsFollow := by
  unfold cmdSetMemlimit
  split <;> exact law

theorem cmdSetNoticeEnable_faults (n : Nat) {s : State} (law : s.faultBitsFollow) :
    (cmdSetNoticeEnable n s).faultBitsFollow := by
  unfold cmdSetNoticeEnable
  split <;> exact law

theorem cmdReadBuffer_faults (n : Nat) {s : State} (law : s.faultBitsFollow) : (cmdReadBuffer n s).faultBitsFollow := by
  unfold cmdReadBuffer
  split <;> exact law

theorem cmdReadPool_faults (n : Nat) {s : State} (law : s.faultBitsFollow) : (cmdReadPool n s).faultBitsFollow := by
  unfold cmdReadPool
  split <;> exact law

theorem cmdReadQueue_faults (n : Nat) {s : State} (law : s.faultBitsFollow) : (cmdReadQueue n s).faultBitsFollow := by
  unfold cmdReadQueue
  split <;> exact law

theorem cmdSetTimebase_faults (n : Nat) {s : State} (law : s.faultBitsFollow) : (cmdSetTimebase n s).faultBitsFollow := by
  unfold cmdSetTimebase
  split <;> exact law

theorem cmdSetCycle_faults (n g : Nat) {s : State} (law : s.faultBitsFollow) : (cmdSetCycle n g s).faultBitsFollow := by
  unfold cmdSetCycle
  split
  · exact law
  · split <;> exact law

theorem cmdPacingOn_faults {s : State} (law : s.faultBitsFollow) : (cmdPacingOn s).faultBitsFollow := by
  unfold cmdPacingOn
  split <;> exact law

theorem cmdPacingOff_faults {s : State} (law : s.faultBitsFollow) : (cmdPacingOff s).faultBitsFollow := by
  unfold cmdPacingOff
  split
  · exact law
  · split
    · exact law
    · split <;> exact law

theorem cmdPacing_faults (mode : Nat) {s : State} (law : s.faultBitsFollow) : (cmdPacing mode s).faultBitsFollow := by
  unfold cmdPacing
  split
  · exact cmdPacingOff_faults law
  · exact cmdPacingOn_faults law
  · exact law

theorem frameCommand_faults (pins : BitVec 2) (code : Nat) (args : List Byte) {s : State} (law : s.faultBitsFollow) :
    (frameCommand pins code args s).faultBitsFollow := by
  unfold frameCommand
  split
  · exact law
  · exact partReset_faults s pins
  · exact cmdOpenGroup_faults law
  · exact cmdCloseGroup_faults _ law
  · exact cmdAbandonGroup_faults law
  · exact stageEntry_faults _ law
  · exact stageEntry_faults _ law
  · exact stageEntry_faults _ law
  · exact stageEntry_faults _ law
  · exact stageEntry_faults _ law
  · exact stageEntry_faults _ law
  · exact law
  · exact cmdForceRelease_faults _ law
  · exact cmdForceReturn_faults _ _ law
  · exact cmdAdmit_faults _ law
  · exact cmdRescrub_faults _ law
  · exact cmdSetAgent_faults _ _ law
  · exact cmdAgentReset_faults _ law
  · exact cmdClearFault_faults _ law
  · exact cmdReadFault_faults _ law
  · exact cmdReadBuffer_faults _ law
  · exact cmdReadPool_faults _ law
  · exact cmdReadQueue_faults _ law
  · exact law
  · exact cmdFind_faults _ _ _ law
  · exact cmdSetTimebase_faults _ law
  · exact cmdSetCycle_faults _ _ law
  · exact cmdPacing_faults _ law
  · exact cmdSetMemlimit_faults _ law
  · exact law
  · exact cmdAckNotices_faults _ law
  · exact cmdSetNoticeEnable_faults _ law
  · exact law

theorem runCommand_faults {s : State} {command : State → State} (law : s.faultBitsFollow)
    (run : ∀ u : State, u.faultBitsFollow → (command u).faultBitsFollow) : (s.runCommand command).faultBitsFollow := by
  unfold State.runCommand
  split
  · exact law
  · dsimp only
    split
    · exact settleIdle_faults law
    · exact run _ (settleIdle_faults law)

/-! ### The bus -/

theorem takeFrame_faults {s : State} (law : s.faultBitsFollow) (pins : BitVec 2) : (s.takeFrame pins).faultBitsFollow := by
  have judged {u : State} (l : u.faultBitsFollow) (frame : List Byte) : (u.judgeFrame pins frame).faultBitsFollow := by
    unfold State.judgeFrame
    split
    · exact l
    · split
      · exact l
      · split
        · exact l
        · split
          · exact l
          · exact frameCommand_faults _ _ _ l
  have emptied : State.faultBitsFollow { s with mgmt.receiver := .idle, mgmt.frame := [], mgmt.idleCount := 0 } := law
  unfold State.takeFrame
  dsimp only
  split
  · exact law
  · split
    · exact law
    · exact judged emptied _

theorem i2cAddress_faults {s : State} (law : s.faultBitsFollow) (x : BitVec 7) (read : Bool) (pins : BitVec 2) :
    ∃ t, exec (.i2cAddress x read pins) s = .next t ∧ t.faultBitsFollow := by
  have ended : (s.settleIdle.endWrite pins).faultBitsFollow := by
    unfold State.endWrite
    split
    · exact takeFrame_faults (settleIdle_faults law) pins
    · exact settleIdle_faults law
  refine ⟨_, rfl, ?_⟩
  split
  · exact law
  · exact faults_of_eq ended (by simp) (by simp)

theorem frameTaken_faults {s : State} (law : s.faultBitsFollow) (pins : BitVec 2) :
    ∃ t, exec (.frameTaken pins) s = .next t ∧ t.faultBitsFollow := by
  refine ⟨_, rfl, ?_⟩
  split
  · exact law
  · split
    · exact takeFrame_faults (settleIdle_faults law) pins
    · exact settleIdle_faults law

theorem i2cDataByte_faults {s : State} (law : s.faultBitsFollow) (b : Byte) :
    ∃ t, exec (.i2cDataByte b) s = .next t ∧ t.faultBitsFollow := by
  have settled := settleIdle_faults law
  refine ⟨_, rfl, ?_⟩
  split
  · exact law
  · dsimp only
    split
    · exact faults_of_eq settled (by simp) (by simp)
    · exact settled
    · exact settled
    · exact settled

theorem answerRead_faults {s : State} (law : s.faultBitsFollow) (acks : List Bool) (stop : Bool) :
    ∃ t, exec (.answerRead acks stop) s = .next t ∧ t.faultBitsFollow := by
  have settled := settleIdle_faults law
  have sent : (State.sendBytes { s.settleIdle with mgmt.idleCount := 0 } acks).faultBitsFollow :=
    faults_of_eq settled (by simp) (by simp)
  refine ⟨_, rfl, ?_⟩
  split
  · exact law
  · dsimp only
    split
    · split <;> exact sent
    · exact settled
    · exact settled
    · exact settled

/-! ### Every command -/

theorem memoryResponse_faults {s : State} (law : s.faultBitsFollow) (b : Byte) (good : Bool) (data : List Byte) :
    ∃ t, exec (.memoryResponse b good data) s = .next t ∧ t.faultBitsFollow := by
  refine ⟨_, rfl, ?_⟩
  split
  · split
    · split
      · exact kick_faults (takeResponse_faults law _ _ _ _)
      · exact law
    · exact law
  · exact law

theorem heldAccessRecheck_faults {s : State} (law : s.faultBitsFollow) :
    ∃ t, exec .heldAccessRecheck s = .next t ∧ t.faultBitsFollow := by
  refine ⟨_, rfl, ?_⟩
  split
  · exact law
  · split
    · exact arbitrate_faults law
    · exact recheckDown_faults law

theorem linkDown_faults {s : State} (law : s.faultBitsFollow) : ∃ t, exec .linkDown s = .next t ∧ t.faultBitsFollow := by
  refine ⟨_, rfl, ?_⟩
  split
  · exact law
  · split
    · exact goDown_faults law
    · exact law

theorem linkUp_faults {s : State} (law : s.faultBitsFollow) : ∃ t, exec .linkUp s = .next t ∧ t.faultBitsFollow := by
  refine ⟨_, rfl, ?_⟩
  split
  · exact law
  · split
    · exact law
    · exact kick_faults (faults_of_eq law (by simp) (by simp))

theorem resetAssert_faults {s : State} (law : s.faultBitsFollow) :
    ∃ t, exec .resetAssert s = .next t ∧ t.faultBitsFollow := by
  refine ⟨_, rfl, ?_⟩
  split
  · exact law
  · exact faults_of_eq (partReset_faults s 0) rfl rfl

/-- Where a condition decides between a state and the one before it, the law holds of both. -/
theorem faults_if {c : Prop} [Decidable c] {s t : State} (law : s.faultBitsFollow) (kept : t.faultBitsFollow) :
    (if c then t else s).faultBitsFollow := by
  split
  · exact kept
  · exact law

theorem faults_unless {c : Prop} [Decidable c] {s t : State} (law : s.faultBitsFollow) (kept : t.faultBitsFollow) :
    (if c then s else t).faultBitsFollow := by
  split
  · exact law
  · exact kept

/-- Every command keeps the FAULT bits with their slots. -/
theorem exec_faults (c : Instr) {s : State} (law : s.faultBitsFollow) : ∃ t, exec c s = .next t ∧ t.faultBitsFollow := by
  have command (f : State → State) (run : ∀ u : State, u.faultBitsFollow → (f u).faultBitsFollow) :
      ∃ t, (.next (s.runCommand f) : Host.Outcome State Fault Refusal) = .next t ∧ t.faultBitsFollow :=
    ⟨_, rfl, runCommand_faults law run⟩
  cases c with
  | transactionIssue t => exact ⟨_, rfl, faults_unless law law⟩
  | inputArbiterGrant => exact inputArbiterGrant_faults law
  | heldAccessRecheck => exact heldAccessRecheck_faults law
  | memoryResponse b good data => exact memoryResponse_faults law b good data
  | drainCompletion h =>
    exact ⟨_, rfl, faults_unless law (kick_faults (faults_of_eq law (by simp) (by simp)))⟩
  | scrubCompletion => exact ⟨_, rfl, faults_unless law (kick_faults (faults_of_eq law (by simp) (by simp)))⟩
  | scrubFailure => exact ⟨_, rfl, faults_unless law (kick_faults (failScrub_faults law))⟩
  | scrubTakeHead => exact ⟨_, rfl, faults_unless law (kick_faults law)⟩
  | tick low => exact ⟨_, rfl, faults_unless law (tick_faults law low)⟩
  | tagExpiry i => exact ⟨_, rfl, faults_if law (expireTag_faults law i)⟩
  | mark low => exact ⟨_, rfl, faults_if law (tick_faults law low)⟩
  | markPulseEnd => exact ⟨_, rfl, law⟩
  | settlingIntervalEnd => exact ⟨_, rfl, faults_unless law (endSettling_faults law)⟩
  | linkDown => exact linkDown_faults law
  | linkUp => exact linkUp_faults law
  | resetAssert => exact resetAssert_faults law
  | resetRelease pins => exact ⟨_, rfl, faults_if law (partReset_faults s pins)⟩
  | i2cAddress x read pins => exact i2cAddress_faults law x read pins
  | frameTaken pins => exact frameTaken_faults law pins
  | answerRead acks stop => exact answerRead_faults law acks stop
  | i2cIdleTimeout => exact ⟨_, rfl, faults_unless law (settleIdle_faults law)⟩
  | i2cDataByte b => exact i2cDataByte_faults law b
  | openGroup => exact command _ fun _ => cmdOpenGroup_faults
  | stageDefine | stageMove | stageResize | stageRetire | stagePool | stageUnpool =>
    exact command _ fun _ => stageEntry_faults _
  | closeGroupNow => exact command _ fun _ => cmdCloseNow_faults
  | closeGroupMark => exact command _ fun _ => cmdCloseMark_faults
  | abandonGroup => exact command _ fun _ => cmdAbandonGroup_faults
  | forceRelease => exact command _ fun _ => cmdForceRelease_faults _
  | forceReturn => exact command _ fun _ => cmdForceReturn_faults _ _
  | admitBuffer => exact command _ fun _ => cmdAdmit_faults _
  | rescrub => exact command _ fun _ => cmdRescrub_faults _
  | setAgent => exact command _ fun _ => cmdSetAgent_faults _ _
  | agentReset => exact command _ fun _ => cmdAgentReset_faults _
  | clearFault => exact command _ fun _ => cmdClearFault_faults _
  | readFault => exact command _ fun _ => cmdReadFault_faults _
  | readBuffer => exact command _ fun _ => cmdReadBuffer_faults _
  | readPool => exact command _ fun _ => cmdReadPool_faults _
  | readQueue => exact command _ fun _ => cmdReadQueue_faults _
  | find => exact command _ fun _ => cmdFind_faults _ _ _
  | setTimebase => exact command _ fun _ => cmdSetTimebase_faults _
  | setCycle => exact command _ fun _ => cmdSetCycle_faults _ _
  | pacingOn => exact command _ fun _ => cmdPacingOn_faults
  | pacingOff => exact command _ fun _ => cmdPacingOff_faults
  | setMemlimit => exact command _ fun _ => cmdSetMemlimit_faults _
  | ackNotices => exact command _ fun _ => cmdAckNotices_faults _
  | setNoticeEnable => exact command _ fun _ => cmdSetNoticeEnable_faults _
  | partReset pins => exact command _ fun u _ => partReset_faults u pins
  | readGroup | readCycle | readNotices | identify => exact command _ fun _ l => l

/-- Settles O11: by the command at the front of the queue; the queue is no part of the law. -/
theorem faultBitsFollowSlots : Obligations.FaultBitsFollowSlots := by
  intro s t law taken
  unfold step at taken
  split at taken
  · cases taken
    exact law
  · next c rest _ =>
    have queue : State.faultBitsFollow { s with pending := rest } := law
    obtain ⟨u, next, kept⟩ := exec_faults c queue
    rw [next] at taken
    cases taken
    exact kept

end Sys2Proof.Machine
end

section
/-! The access checks: the parts of a stage address, the table of R108, what a refusal leaves, and the grant of a transaction that
a check turns away or that passes (R101 to R115). -/

namespace Sys2Proof.Machine

/-! ### The stage address (R101) -/

theorem handleField_toNat (t : Txn) : t.handleField.toNat = t.address.toNat / 8388608 := by
  have bound := t.address.isLt
  rw [Txn.handleField, BitVec.extractLsb'_toNat, Nat.shiftRight_eq_div_pow]
  omega

theorem offsetField_toNat (t : Txn) : t.offsetField.toNat = t.address.toNat % 8388608 := by
  rw [Txn.offsetField, BitVec.extractLsb'_toNat, Nat.shiftRight_zero]

theorem handleOf_eq_some_iff (n : Nat) (h : Handle) : handleOf n = some h ↔ n = h.val + 1 := by
  refine ⟨fun named => ?_, handleOf_of_num⟩
  unfold handleOf at named
  split at named
  · cases named
    show n = n - 1 + 1
    omega
  · cases named

theorem txn_handle_none_iff (t : Txn) : t.handle = none ↔ t.address.toNat / 8388608 = 0 := by
  have bound := t.address.isLt
  rw [Txn.handle, handleOf_eq_none_iff, handleField_toNat]
  omega

theorem txn_handle_some_iff (t : Txn) (h : Handle) : t.handle = some h ↔ t.address.toNat / 8388608 = h.val + 1 := by
  rw [Txn.handle, handleOf_eq_some_iff, handleField_toNat]

/-! ### The shape check and the buffer checks -/

/-- R104. -/
theorem shapeOk_iff (t : Txn) :
    t.shapeOk = true ↔ t.offset % 256 + t.size ≤ 256 ∧ (t.handle = none → t.size = 8 ∧ t.offset = 0) := by
  cases named : t.handle <;> simp [Txn.shapeOk, named]

section
variable {r : BufRec} {t : Txn}

/-- R107: the custodian reads, and writes while the buffer is unsealed. -/
theorem bufferCheck_custodian (held : r.state = .held) (custodian : r.custodian = some t.agent) :
    bufferCheck r t = if t.kind = .write ∧ r.sealed = true then some .sealedWrite else rangeCheck r t := by
  simp only [bufferCheck, held, if_pos custodian]

/-- R107: a listed borrower reads and never writes. -/
theorem bufferCheck_borrower (held : r.state = .held) (other : r.custodian ≠ some t.agent) (listed : r.lists t.agent = true) :
    bufferCheck r t = if t.kind = .write then some .borrowerWrite else rangeCheck r t := by
  simp only [bufferCheck, held, if_neg other, if_pos listed]

theorem bufferCheck_stranger (held : r.state = .held) (other : r.custodian ≠ some t.agent)
    (unlisted : ¬r.lists t.agent = true) :
    bufferCheck r t = some .notEntitled := by
  simp only [bufferCheck, held, if_neg other, if_neg unlisted]

theorem lists_iff_exists : r.lists t.agent = true ↔ ∃ l, l ∈ r.lends ∧ l.borrower = t.agent := by
  rw [lists_iff, List.mem_map]

end

/-- Settles O20: by the state of the record, and in HELD by the role of the agent and the direction. -/
theorem entitlementTable : Obligations.EntitlementTable := by
  intro r t range listed
  refine ⟨fun void => ?_, fun free => ?_, fun shut => ?_, fun held custodian read => ?_,
    fun held custodian write unsealed => ?_, fun held custodian write shut => ?_, fun held other lent read => ?_,
    fun held other lent write => ?_,
    fun held other unlent => ?_⟩
  · simp only [bufferCheck, void]
  · simp only [bufferCheck, free]
  · rcases shut with state | state | state | state <;> simp only [bufferCheck, state]
  · rw [bufferCheck_custodian held custodian, if_neg (by simp [read])]
    rfl
  · rw [bufferCheck_custodian held custodian, if_neg (by simp [unsealed])]
    rfl
  · rw [bufferCheck_custodian held custodian, if_pos ⟨write, shut⟩]
  · rw [bufferCheck_borrower held other (lists_iff_exists.mpr lent), if_neg (by simp [read])]
    rfl
  · rw [bufferCheck_borrower held other (lists_iff_exists.mpr lent), if_pos write]
  · exact bufferCheck_stranger held other (mt lists_iff_exists.mp unlent)

/-! ### What a refusal leaves (R114, R115) -/

/-- An occupied fault slot keeps its record: the refusal is a response alone. -/
theorem refuse_occupied {s : State} {t : Txn} {f : FaultRec} (occupied : (s.agent t.agent).slot = some f) (k : FaultKind)
    (b : Option BufState) : s.refuse t k b = s.respond ⟨t.agent, t.tag, .refused, some k, []⟩ := by
  have same : ((s.respond ⟨t.agent, t.tag, .refused, some k, []⟩).agent t.agent).slot = some f := occupied
  simp only [State.refuse, State.fillSlot, same]

/-- An empty fault slot takes the record of the refusal, and the FAULT bit is set. -/
theorem refuse_empty {s : State} {t : Txn} (empty : (s.agent t.agent).slot = none) (k : FaultKind) (b : Option BufState) :
    s.refuse t k b =
      ((s.respond ⟨t.agent, t.tag, .refused, some k, []⟩).setAgentRec t.agent
        { online := s.online t.agent
          slot := some
            { kind := k, handle := t.handleField, offset := t.offsetField, access := t.kind, sizeLess1 := t.sizeLess1
              bufState := b, cycleCount := s.timer.cycleCount } }).raise (.fault t.agent) := by
  have same : ((s.respond ⟨t.agent, t.tag, .refused, some k, []⟩).agent t.agent).slot = none := empty
  simp only [State.refuse, State.fillSlot, same]
  rfl

/-! ### The checks in their order (R102) -/

/-- R90: an agent is granted while the checker holds no transaction. -/
theorem hold_of_nextTxn {s : State} {a : Agent} {t : Txn} (turn : s.nextTxn a t) : s.checker.hold = none := by
  obtain ⟨-, empty, -⟩ := turn
  exact empty

section
variable {s : State} {t : Txn}

theorem takeTxn_offline (offline : s.online t.agent = false) : s.takeTxn t = s.answerTxn t .agentOffline := by
  simp [State.takeTxn, offline]

theorem takeTxn_tagReuse (online : s.online t.agent = true) (used : s.entry t.agent t.tag ≠ none) :
    s.takeTxn t = s.refuse t .tagReuse none := by
  simp [State.takeTxn, online, Option.isSome_iff_ne_none.mpr used]

theorem takeTxn_shape (online : s.online t.agent = true) (vacant : s.entry t.agent t.tag = none) (bad : t.shapeOk = false) :
    s.takeTxn t = s.refuse t .shape none := by
  simp [State.takeTxn, online, vacant, bad]

/-- A well-shaped access to a buffer is refused by the first buffer check that fails, or passes. -/
theorem takeTxn_named {h : Handle} (online : s.online t.agent = true) (vacant : s.entry t.agent t.tag = none)
    (shape : t.shapeOk = true) (named : t.handle = some h) :
    s.takeTxn t =
      (bufferCheck (s.buf h) t).elim (s.passingAccess t h) fun k => s.refuse t k (some (s.buf h).state) := by
  simp only [State.takeTxn, online, vacant, shape, named, State.accessCheck]
  cases bufferCheck (s.buf h) t <;> rfl

/-- A refusal leaves a quiet part quiet, so nothing follows it. -/
theorem kick_granted_refuse (quiet : s.quiet) (a : Agent) (k : FaultKind) (b : Option BufState) :
    ((s.granted a).refuse t k b).kick = (s.granted a).refuse t k b := by
  have granted : (s.granted a).quiet := quiet_of_eq quiet rfl rfl rfl
  exact kick_of_quiet _ (quiet_of_eq granted (by simp) (by simp) (by simp))

end

/-- Settles O19: by the first check that fails; a response and a record of the refusal set nothing going. -/
theorem turnedAwayTransactionIsAnswered : Obligations.TurnedAwayTransactionIsAnswered := by
  refine ⟨fun t => ?_, fun s t k b => ?_, fun s a t quiet turn => ?_⟩
  · exact ⟨handleField_toNat t, offsetField_toNat t, offsetField_toNat t, rfl, txn_handle_none_iff t, txn_handle_some_iff t⟩
  · cases slot : (s.agent t.agent).slot with
    | some f => exact refuse_occupied slot k b
    | none => exact refuse_empty slot k b
  · intro shapely refused
    obtain rfl := agent_of_nextTxn turn
    have grant := exec_grant s _ t turn
    have refusal (online : s.online t.agent = true) (k : FaultKind) (b : Option BufState)
        (taken : (s.granted t.agent).takeTxn t = (s.granted t.agent).refuse t k b) :
        exec .inputArbiterGrant s = .next (refused k b) := by
      rw [grant, taken, kick_granted_refuse quiet]
      dsimp only [refused]
      cases slot : (s.agent t.agent).slot with
      | some f => exact congrArg _ (refuse_occupied (s := s.granted t.agent) slot k b)
      | none =>
        rw [← online]
        exact congrArg _ (refuse_empty (s := s.granted t.agent) slot k b)
    refine ⟨fun offline => ?_, fun online used => ?_, fun online vacant bad => ?_,
      fun h k online vacant shape named failed => ?_⟩
    · rw [grant, takeTxn_offline (s := s.granted t.agent) offline]
      exact congrArg _ (kick_granted_respond quiet _ _)
    · exact refusal online _ _ (takeTxn_tagReuse (s := s.granted t.agent) online used)
    · have bad : t.shapeOk = false := Bool.eq_false_iff.mpr (mt (shapeOk_iff t).mp bad)
      exact refusal online _ _ (takeTxn_shape (s := s.granted t.agent) online vacant bad)
    · have check : bufferCheck ((s.granted t.agent).buf h) t = some k := failed
      refine refusal online _ _ ?_
      rw [takeTxn_named (s := s.granted t.agent) online vacant ((shapeOk_iff t).mpr shape) named, check]
      rfl

/-! ### An access that passes (R111, R112) -/

section
variable {s : State} {t : Txn} {h : Handle}

theorem passingAccess_down (down : s.mem.link = .down) : s.passingAccess t h = s.answerTxn t .memDown := by
  simp only [State.passingAccess, down]

theorem passingAccess_forward {i : TagIndex} (up : s.mem.link = .up) (settled : s.mem.settling = none)
    (free : (s.tag i).use = none) (lowest : ∀ j, j < i → (s.tag j).use ≠ none) :
    s.passingAccess t h = { s.forward t h i with mem.preference := .scrub } := by
  obtain ⟨rest, tags⟩ := freeTags_lowest s.mem i free lowest
  simp only [State.passingAccess, up, settled, tags]

theorem passingAccess_hold (up : s.mem.link = .up) (shut : s.mem.settling ≠ none ∨ ∀ i, (s.tag i).use ≠ none) :
    s.passingAccess t h = { s.setEntry t.agent t.tag (some .tagWait) with checker.hold := some t } := by
  cases settling : s.mem.settling with
  | some n => simp only [State.passingAccess, up, settling]
  | none =>
    have busy := shut.resolve_left (by simp [settling])
    simp only [State.passingAccess, up, settling, (freeTags_eq_nil s.mem).mpr busy]

/-- Where the arbiter may not grant, a quiet part stays quiet with an access held. -/
theorem quiet_of_shut {u : State} (quiet : s.quiet) (shut : ¬s.mayGrant) (mem : u.mem = s.mem) (scrub : u.scrub = s.scrub) :
    u.quiet := by
  refine ⟨fun may => absurd ?_ shut, ?_⟩
  · simpa only [State.mayGrant, State.tag, mem] using may
  · rw [scrub, mem]
    exact quiet.2

/-- With no access held and no burst wanted, a quiet part stays quiet, whatever becomes of the tags. -/
theorem quiet_of_forward {u : State} (quiet : s.quiet) (hold : u.checker.hold = none) (unwanted : s.scrub.engine.wants = false)
    (link : u.mem.link = s.mem.link) (scrub : u.scrub = s.scrub) : u.quiet := by
  refine ⟨fun _ => ⟨hold, scrub ▸ unwanted⟩, ?_⟩
  rw [scrub, link]
  exact quiet.2

theorem not_mayGrant (shut : s.mem.settling ≠ none ∨ ∀ i, (s.tag i).use ≠ none) : ¬s.mayGrant := by
  rintro ⟨-, settled, i, free⟩
  exact shut.elim (fun settling => settling settled) fun busy => busy i free

end

/-- Settles O21: by the link and the free tags; after the grant no request stands that could be granted. -/
theorem passingAccessGoesToMemory : Obligations.PassingAccessGoesToMemory := by
  intro s a t h quiet turn online vacant shape named passes
  have empty := hold_of_nextTxn turn
  obtain rfl := agent_of_nextTxn turn
  have wellShaped : t.shapeOk = true := (shapeOk_iff t).mpr ⟨shape, by simp [named]⟩
  have check : bufferCheck ((s.granted t.agent).buf h) t = none := passes
  have grant : exec .inputArbiterGrant s = .next ((s.granted t.agent).passingAccess t h).kick := by
    rw [exec_grant s _ t turn, takeTxn_named (s := s.granted t.agent) online vacant wellShaped named, check]
    rfl
  refine ⟨fun down => ?_, fun i up settled free lowest => ?_, fun up shut => ?_⟩
  · rw [grant, passingAccess_down (s := s.granted t.agent) down]
    exact congrArg _ (kick_granted_respond quiet _ _)
  · have unwanted : s.scrub.engine.wants = false := (quiet.1 ⟨up, settled, i, free⟩).2
    rw [grant, passingAccess_forward (s := s.granted t.agent) up settled free lowest]
    exact congrArg _ (kick_of_quiet _ (quiet_of_forward quiet empty unwanted rfl rfl))
  · rw [grant, passingAccess_hold (s := s.granted t.agent) up shut]
    exact congrArg _ (kick_of_quiet _ (quiet_of_shut quiet (not_mayGrant shut) rfl rfl))

/-! ### The held access (R113, R126) -/

section
variable {s : State} {t : Txn} {h : Handle}

theorem exec_heldAccessRecheck_up (high : s.resetLow = false) (held : s.checker.hold = some t) (up : s.mem.link = .up) :
    exec .heldAccessRecheck s = .next s.arbitrate := by
  simp [exec, execHeldAccessRecheck, high, State.checkerReady, held, up]

theorem exec_heldAccessRecheck_down (high : s.resetLow = false) (held : s.checker.hold = some t) (down : s.mem.link = .down) :
    exec .heldAccessRecheck s = .next s.recheckDown := by
  simp [exec, execHeldAccessRecheck, high, State.checkerReady, held, down]

/-- The held access, alone in its request, is granted the lowest free tag. -/
theorem nextGrant_held {i : TagIndex} (held : s.checker.hold = some t) (unwanted : s.scrub.engine.wants = false)
    (up : s.mem.link = .up) (settled : s.mem.settling = none) (free : (s.tag i).use = none)
    (lowest : ∀ j, j < i → (s.tag j).use ≠ none) : s.nextGrant = some (.checker, i) := by
  obtain ⟨rest, tags⟩ := freeTags_lowest s.mem i free lowest
  simp [State.nextGrant, (grants_iff s.mem).mpr ⟨up, settled⟩, tags, held, unwanted]

/-- After the held access no request stands: its grant is the only one. -/
theorem arbitrate_held {i : TagIndex} (unwanted : s.scrub.engine.wants = false) (granted : s.nextGrant = some (.checker, i)) :
    s.arbitrate = s.recheckGranted i := by
  have once : s.grantOnce = s.recheckGranted i := by simp only [State.grantOnce, granted]
  rw [← arbitrate_grantOnce, once]
  exact arbitrate_of_none _ (nextGrant_none_of_idle _ (by simp) (by simpa using unwanted))

theorem recheckGranted_pass (held : s.checker.hold = some t) (named : t.handle = some h) (passes : bufferCheck (s.buf h) t = none)
    (i : TagIndex) : s.recheckGranted i = { s.dropHold with mem.preference := .scrub }.forward t h i := by
  simp only [State.recheckGranted, held, named, State.accessCheck, passes]

theorem recheckGranted_refuse {k : FaultKind} (held : s.checker.hold = some t) (named : t.handle = some h)
    (failed : bufferCheck (s.buf h) t = some k) (i : TagIndex) :
    s.recheckGranted i =
      ({ s.dropHold with mem.preference := .scrub }.setEntry t.agent t.tag none).refuse t k (some (s.buf h).state) := by
  simp only [State.recheckGranted, held, named, State.accessCheck, failed]

theorem recheckDown_pass (held : s.checker.hold = some t) (named : t.handle = some h) (passes : bufferCheck (s.buf h) t = none) :
    s.recheckDown = (s.dropHold.setEntry t.agent t.tag none).answerTxn t .memDown := by
  simp only [State.recheckDown, held, named, State.accessCheck, passes]

theorem recheckDown_refuse {k : FaultKind} (held : s.checker.hold = some t) (named : t.handle = some h)
    (failed : bufferCheck (s.buf h) t = some k) :
    s.recheckDown = (s.dropHold.setEntry t.agent t.tag none).refuse t k (some (s.buf h).state) := by
  simp only [State.recheckDown, held, named, State.accessCheck, failed]

end

/-- Settles O37: with a tag to grant the held access has the one grant; with the link DOWN it is answered; else
nothing is granted. -/
theorem heldAccessIsRechecked : Obligations.HeldAccessIsRechecked := by
  intro s t h high held named unwanted free
  refine ⟨fun i up settled unused lowest => ?_, fun down => ?_, fun up shut => ?_⟩
  · have grant : exec .heldAccessRecheck s = .next (s.recheckGranted i) := by
      rw [exec_heldAccessRecheck_up high held up, arbitrate_held unwanted (nextGrant_held held unwanted up settled unused lowest)]
    refine ⟨fun passes => ?_, fun k failed => ?_⟩
    · rw [grant, recheckGranted_pass held named passes]
      rfl
    · rw [grant, recheckGranted_refuse held named failed]
      rfl
  · rw [exec_heldAccessRecheck_down high held down]
    refine ⟨fun passes => ?_, fun k failed => ?_⟩
    · rw [recheckDown_pass held named passes]
      rfl
    · rw [recheckDown_refuse held named failed]
      rfl
  · have ungranted : s.nextGrant = none := (nextGrant_eq_none s).mpr fun may => absurd may (not_mayGrant shut)
    rw [exec_heldAccessRecheck_up high held up, arbitrate_of_none s ungranted]

end Sys2Proof.Machine
end

section
/-! SET_AGENT and CLEAR_FAULT: their ranges, and the whole next state (R117, R118). -/

namespace Sys2Proof.Machine

theorem exec_setAgent {s : State} (ready : s.ready) (x m : Byte) :
    exec (.setAgent x m) s = .next (cmdSetAgent x.toNat m.toNat s) := congrArg _ (runCommand_ready ready _)

theorem exec_clearFault {s : State} (ready : s.ready) (x : Byte) :
    exec (.clearFault x) s = .next (cmdClearFault x.toNat s) := congrArg _ (runCommand_ready ready _)

theorem cmdSetAgent_range {n mode : Nat} (out : 15 < n ∨ 1 < mode) (s : State) : cmdSetAgent n mode s = s.setAnswer .range := by
  unfold cmdSetAgent
  split
  · rfl
  · next a named =>
    have mode_out : ¬mode ≤ 1 := by
      rcases out with agent_out | mode_out
      · rw [agentOf_eq_none agent_out] at named
        cases named
      · omega
    rw [if_neg mode_out]

theorem cmdSetAgent_eq {mode : Nat} (within : mode ≤ 1) (a : Agent) (s : State) :
    cmdSetAgent a.val mode s =
      (s.setAgentRec a { s.agent a with online := decide (mode = 1) }).setAnswer .ok [if s.online a = true then 1 else 0] := by
  have payload : le 1 (s.online a).toNat = [if s.online a = true then 1 else 0] := by
    cases s.online a <;> rfl
  simp only [cmdSetAgent, agentOf_val, if_pos within, payload]
  rfl

theorem cmdClearFault_range {n : Nat} (out : 15 < n) (s : State) : cmdClearFault n s = s.setAnswer .range := by
  simp only [cmdClearFault, agentOf_eq_none out]

theorem cmdClearFault_eq (a : Agent) (s : State) :
    cmdClearFault a.val s =
      ((s.setAgentRec a { s.agent a with slot := none }).lower (.fault a)).setAnswer .ok
        [if (s.agent a).slot = none then 0 else 1] := by
  have payload : le 1 (s.agent a).slot.isSome.toNat = [if (s.agent a).slot = none then 0 else 1] := by
    cases (s.agent a).slot <;> rfl
  simp only [cmdClearFault, agentOf_val, payload]
  rfl

/-- Settles O53: the ranges, then the flag, then the slot. -/
theorem agentFlagAndFaultSlot : Obligations.AgentFlagAndFaultSlot := by
  intro s x m ready
  refine ⟨fun out => ?_, fun out => ?_, fun a named => ⟨fun within => ?_, ?_⟩⟩
  · rw [exec_setAgent ready, cmdSetAgent_range out]
  · rw [exec_clearFault ready, cmdClearFault_range out]
  · rw [exec_setAgent ready, named, cmdSetAgent_eq within]
  · rw [exec_clearFault ready, named, cmdClearFault_eq]

end Sys2Proof.Machine
end

section
/-! The timer: what each command does with its fields, and that every step keeps them in their ranges (R139, R142, R144, R146). -/

namespace Sys2Proof.Machine

/-! ### The timer's own updates -/

/-- The range law reads neither the divider count, nor the count of cycles, nor the pin. -/
theorem timerInRange_congr {t t' : Timer} (r : t.InRange) (divisor : t'.divisor = t.divisor) (pacing : t'.pacing = t.pacing)
    (running : t'.running = t.running) (pending : t'.pendingSet = t.pendingSet) (position : t'.position = t.position) :
    t'.InRange where
  divisor := divisor ▸ r.divisor
  running := running ▸ r.running
  pending := by rw [pending, pacing]; exact r.pending
  position := by rw [position, running]; exact r.position

/-- A running pair in range leaves room for position 0. -/
theorem CycleSet.InRange.length_pos {c : CycleSet} (r : c.InRange) : 0 < c.length := Nat.lt_of_lt_of_le (by decide) r.1

theorem timerReset_inRange : Timer.reset.InRange :=
  ⟨by decide, by unfold CycleSet.InRange; decide, nofun, by decide⟩

/-- R142: a mark takes a pending pair over, which is in range, and begins the cycle at position 0. -/
theorem timerAtMark_inRange {t : Timer} (r : t.InRange) : t.atMark.InRange := by
  unfold Timer.atMark Timer.takePending
  split
  · next c pending =>
    have within := (r.pending c pending).1
    exact { r with running := within, pending := nofun, position := within.length_pos }
  · exact { r with position := r.running.length_pos }

theorem markDue_iff (t : Timer) : t.markDue = true ↔ t.pacing = true ∧ t.position + 1 = t.running.length := by
  simp [Timer.markDue]

/-- R142: while pacing is ON, a tick that makes no mark raises the position to one that is still below the running length. -/
theorem advanced_inRange {t : Timer} (r : t.InRange) (paced : t.pacing = true) (early : t.markDue = false) :
    Timer.InRange { t with position := t.position + 1 } := by
  have other : t.position + 1 ≠ t.running.length := fun last => by simp [(markDue_iff t).2 ⟨paced, last⟩] at early
  exact { r with position := Nat.lt_of_le_of_ne r.position other }

/-! ### The tick -/

@[simp] theorem makeMark_timer (s : State) : s.makeMark.timer = s.timer.atMark := by
  simp [State.makeMark]

theorem advanceCycle_timer {s : State} (r : s.timer.InRange) : s.advanceCycle.timer.InRange := by
  unfold State.advanceCycle
  split
  · rw [makeMark_timer]
    exact timerAtMark_inRange r
  · next early =>
    split
    · next paced => exact advanced_inRange r paced (by simpa using early)
    · exact r

theorem scanAndCycle_timer {s : State} (r : s.timer.InRange) : s.scanAndCycle.timer.InRange := by
  have scanned {u : State} (r : u.timer.InRange) : u.scanStep.timer.InRange := by simpa using r
  have drawn : (State.timer { s with freeCount := s.freeCount + 1 }).InRange := r
  unfold State.scanAndCycle
  split
  · dsimp only
    split
    · exact advanceCycle_timer (scanned drawn)
    · exact scanned (advanceCycle_timer drawn)
  · exact advanceCycle_timer (scanned r)

/-- What an earlier tick left outstanding reaches the pin alone. -/
theorem settleOutstanding_timer (s : State) : s.settleOutstanding.timer = { s.timer with markPin := false } := by
  simp [State.settleOutstanding, State.endPulse]

theorem tick_timer {s : State} (r : s.timer.InRange) (low : Bool) : (s.tick low).timer.InRange := by
  refine scanAndCycle_timer ?_
  simp only [idleAgainstScan_keeps, countIdle_keeps, settleOutstanding_timer]
  exact timerInRange_congr r rfl rfl rfl rfl rfl

/-! ### Timing commands -/

/-- R141. -/
theorem cmdSetTimebase_timer (n : Nat) {s : State} (r : s.timer.InRange) : (cmdSetTimebase n s).timer.InRange := by
  unfold cmdSetTimebase
  split
  · next within => exact { r with divisor := within }
  · exact r

/-- R146: while pacing is OFF no pair is pending, so a running pair set then meets none. -/
theorem cmdSetCycle_timer (n g : Nat) {s : State} (r : s.timer.InRange) : (cmdSetCycle n g s).timer.InRange := by
  unfold cmdSetCycle
  split
  · exact r
  · next good =>
    have within : CycleSet.InRange ⟨n, g⟩ := by
      simp only [CycleSet.InRange]
      omega
    split
    · next paced => exact { r with pending := fun c set => Option.some.inj set ▸ ⟨within, paced⟩ }
    · exact { r with running := within, position := within.length_pos }

theorem cmdPacingOn_timer {s : State} (r : s.timer.InRange) : (cmdPacingOn s).timer.InRange := by
  unfold cmdPacingOn
  split
  · exact r
  · exact { r with pending := fun c set => ⟨(r.pending c set).1, rfl⟩, position := r.running.length_pos }

/-- R144: OFF takes a pending pair over, so that none is left while pacing is OFF. -/
theorem cmdPacingOff_timer {s : State} (r : s.timer.InRange) : (cmdPacingOff s).timer.InRange := by
  unfold cmdPacingOff
  split
  · exact r
  · split
    · exact r
    · split
      · next c pending =>
        have within := (r.pending c pending).1
        exact { r with running := within, pending := nofun, position := within.length_pos }
      · next empty => exact { r with pending := fun c set => absurd (set.symm.trans empty) (by simp) }

theorem cmdPacing_timer (mode : Nat) {s : State} (r : s.timer.InRange) : (cmdPacing mode s).timer.InRange := by
  unfold cmdPacing
  split
  · exact cmdPacingOff_timer r
  · exact cmdPacingOn_timer r
  · exact r

/-! ### The other management commands leave the timer -/

@[simp] theorem cmdAgentReset_timer (n : Nat) (s : State) : (cmdAgentReset n s).timer = s.timer := by
  unfold cmdAgentReset
  split <;> simp

@[simp] theorem cmdSetAgent_timer (n mode : Nat) (s : State) : (cmdSetAgent n mode s).timer = s.timer := by
  unfold cmdSetAgent
  split
  · simp
  · split <;> simp

@[simp] theorem cmdClearFault_timer (n : Nat) (s : State) : (cmdClearFault n s).timer = s.timer := by
  unfold cmdClearFault
  split <;> simp

@[simp] theorem cmdReadFault_timer (n : Nat) (s : State) : (cmdReadFault n s).timer = s.timer := by
  unfold cmdReadFault
  split <;> simp

@[simp] theorem cmdOpenGroup_timer (s : State) : (cmdOpenGroup s).timer = s.timer := by
  unfold cmdOpenGroup
  split <;> simp

@[simp] theorem stageEntry_timer (e : Option Edit) (s : State) : (stageEntry e s).timer = s.timer := by
  unfold stageEntry
  split
  · simp
  · simp
  · simp
  · split <;> simp

@[simp] theorem cmdCloseNow_timer (s : State) : (cmdCloseNow s).timer = s.timer := by
  unfold cmdCloseNow
  split <;> simp

@[simp] theorem cmdCloseMark_timer (s : State) : (cmdCloseMark s).timer = s.timer := by
  unfold cmdCloseMark
  split
  · simp
  · simp
  · split <;> simp

@[simp] theorem cmdCloseUnknown_timer (s : State) : (cmdCloseUnknown s).timer = s.timer := by
  unfold cmdCloseUnknown
  split <;> simp

@[simp] theorem cmdCloseGroup_timer (mode : Nat) (s : State) : (cmdCloseGroup mode s).timer = s.timer := by
  unfold cmdCloseGroup
  split <;> simp

@[simp] theorem cmdAbandonGroup_timer (s : State) : (cmdAbandonGroup s).timer = s.timer := by
  unfold cmdAbandonGroup
  split <;> simp

@[simp] theorem cmdForceRelease_timer (n : Nat) (s : State) : (cmdForceRelease n s).timer = s.timer := by
  unfold cmdForceRelease
  split
  · simp
  · split <;> simp

@[simp] theorem cmdForceReturn_timer (n b : Nat) (s : State) : (cmdForceReturn n b s).timer = s.timer := by
  unfold cmdForceReturn
  split
  · dsimp only
    split
    · split
      · simp
      · split <;> simp
    · simp
  · simp
  · simp

@[simp] theorem cmdAdmit_timer (n : Nat) (s : State) : (cmdAdmit n s).timer = s.timer := by
  unfold cmdAdmit
  split
  · simp
  · split <;> simp

@[simp] theorem cmdRescrub_timer (n : Nat) (s : State) : (cmdRescrub n s).timer = s.timer := by
  unfold cmdRescrub
  split
  · simp
  · split <;> simp

@[simp] theorem cmdReadBuffer_timer (n : Nat) (s : State) : (cmdReadBuffer n s).timer = s.timer := by
  unfold cmdReadBuffer
  split <;> simp

@[simp] theorem cmdReadPool_timer (n : Nat) (s : State) : (cmdReadPool n s).timer = s.timer := by
  unfold cmdReadPool
  split <;> simp

@[simp] theorem cmdReadQueue_timer (n : Nat) (s : State) : (cmdReadQueue n s).timer = s.timer := by
  unfold cmdReadQueue
  split <;> simp

@[simp] theorem cmdFind_timer (kind value start : Nat) (s : State) : (cmdFind kind value start s).timer = s.timer := by
  unfold cmdFind
  split <;> simp

@[simp] theorem cmdSetMemlimit_timer (n : Nat) (s : State) : (cmdSetMemlimit n s).timer = s.timer := by
  unfold cmdSetMemlimit
  split <;> simp

@[simp] theorem cmdAckNotices_timer (n : Nat) (s : State) : (cmdAckNotices n s).timer = s.timer := by
  unfold cmdAckNotices
  split <;> simp

@[simp] theorem cmdSetNoticeEnable_timer (n : Nat) (s : State) : (cmdSetNoticeEnable n s).timer = s.timer := by
  unfold cmdSetNoticeEnable
  split <;> simp

/-! These change the answer frame alone. -/

@[simp] theorem cmdReadGroup_timer (s : State) : (cmdReadGroup s).timer = s.timer := rfl

@[simp] theorem cmdReadCycle_timer (s : State) : (cmdReadCycle s).timer = s.timer := rfl

@[simp] theorem cmdReadNotices_timer (s : State) : (cmdReadNotices s).timer = s.timer := rfl

@[simp] theorem cmdIdentify_timer (s : State) : (cmdIdentify s).timer = s.timer := rfl

/-! ### Frames -/

/-- Whatever frame is taken, its command keeps the ranges: PART_RESET and the three timing commands by their own rules, the others
because they leave the timer. -/
theorem frameCommand_timer (pins : BitVec 2) (code : Nat) (args : List Byte) {s : State} (r : s.timer.InRange) :
    (frameCommand pins code args s).timer.InRange := by
  unfold frameCommand
  split
  case h_2 => exact timerReset_inRange
  case h_26 => exact cmdSetTimebase_timer _ r
  case h_27 => exact cmdSetCycle_timer _ _ r
  case h_28 => exact cmdPacing_timer _ r
  all_goals simpa using r

theorem runCommand_timer {s : State} {command : State → State} (r : s.timer.InRange)
    (run : ∀ u : State, u.timer.InRange → (command u).timer.InRange) : (s.runCommand command).timer.InRange := by
  have settled : s.settleIdle.timer.InRange := by simpa using r
  unfold State.runCommand
  split
  · exact r
  · dsimp only
    split
    · exact settled
    · exact run _ settled

theorem takeFrame_timer {s : State} (r : s.timer.InRange) (pins : BitVec 2) : (s.takeFrame pins).timer.InRange := by
  have judged {u : State} (r : u.timer.InRange) (frame : List Byte) : (u.judgeFrame pins frame).timer.InRange := by
    unfold State.judgeFrame
    split
    · exact r
    · split
      · exact r
      · split
        · exact r
        · split
          · exact r
          · exact frameCommand_timer _ _ _ r
  have emptied : (State.timer { s with mgmt.receiver := .idle, mgmt.frame := [], mgmt.idleCount := 0 }).InRange := r
  unfold State.takeFrame
  dsimp only
  split
  · exact r
  · split
    · exact r
    · exact judged emptied _

/-! ### Every command -/

theorem i2cAddress_timer {s : State} (r : s.timer.InRange) (x : BitVec 7) (read : Bool) (pins : BitVec 2) :
    ∃ t, exec (.i2cAddress x read pins) s = .next t ∧ t.timer.InRange := by
  have settled : s.settleIdle.timer.InRange := by simpa using r
  refine ⟨_, rfl, ?_⟩
  split
  · exact r
  · simp only [compareAddress_keeps]
    unfold State.endWrite
    split
    · exact takeFrame_timer settled pins
    · exact settled

theorem frameTaken_timer {s : State} (r : s.timer.InRange) (pins : BitVec 2) :
    ∃ t, exec (.frameTaken pins) s = .next t ∧ t.timer.InRange := by
  have settled : s.settleIdle.timer.InRange := by simpa using r
  refine ⟨_, rfl, ?_⟩
  split
  · exact r
  · split
    · exact takeFrame_timer settled pins
    · exact settled

theorem i2cDataByte_timer (s : State) (b : Byte) : ∃ t, exec (.i2cDataByte b) s = .next t ∧ t.timer = s.timer := by
  refine ⟨_, rfl, ?_⟩
  split
  · simp
  · dsimp only
    split <;> simp

theorem answerRead_timer (s : State) (acks : List Bool) (stop : Bool) :
    ∃ t, exec (.answerRead acks stop) s = .next t ∧ t.timer = s.timer := by
  refine ⟨_, rfl, ?_⟩
  split
  · rfl
  · dsimp only
    split
    · split <;> simp
    · simp
    · simp
    · simp

theorem memoryResponse_timer (s : State) (b : Byte) (good : Bool) (data : List Byte) :
    ∃ t, exec (.memoryResponse b good data) s = .next t ∧ t.timer = s.timer := by
  refine ⟨_, rfl, ?_⟩
  split
  · split
    · split <;> simp
    · rfl
  · rfl

theorem inputArbiterGrant_timer (s : State) : ∃ t, exec .inputArbiterGrant s = .next t ∧ t.timer = s.timer := by
  refine ⟨_, rfl, ?_⟩
  split
  · rfl
  · split
    · rfl
    · split <;> simp

theorem heldAccessRecheck_timer (s : State) : ∃ t, exec .heldAccessRecheck s = .next t ∧ t.timer = s.timer := by
  refine ⟨_, rfl, ?_⟩
  split
  · rfl
  · split <;> simp

theorem linkDown_timer (s : State) : ∃ t, exec .linkDown s = .next t ∧ t.timer = s.timer := by
  refine ⟨_, rfl, ?_⟩
  split
  · rfl
  · split <;> simp

theorem linkUp_timer (s : State) : ∃ t, exec .linkUp s = .next t ∧ t.timer = s.timer := by
  refine ⟨_, rfl, ?_⟩
  split
  · rfl
  · split <;> simp

/-- Where a condition decides between a state and the one before it, the timer is that of both. -/
theorem timer_if {c : Prop} [Decidable c] {s t : State} (same : t.timer = s.timer) : (if c then t else s).timer = s.timer := by
  split
  · exact same
  · rfl

theorem timer_unless {c : Prop} [Decidable c] {s t : State} (same : t.timer = s.timer) :
    (if c then s else t).timer = s.timer := by
  split
  · rfl
  · exact same

/-- Every command keeps the timer's fields in their ranges. -/
theorem exec_timer (c : Instr) {s : State} (r : s.timer.InRange) : ∃ t, exec c s = .next t ∧ t.timer.InRange := by
  have left {o : Host.Outcome State Fault Refusal} (h : ∃ t, o = .next t ∧ t.timer = s.timer) :
      ∃ t, o = .next t ∧ t.timer.InRange := by
    obtain ⟨t, next, same⟩ := h
    exact ⟨t, next, same.symm ▸ r⟩
  have command (f : State → State) (run : ∀ u : State, u.timer.InRange → (f u).timer.InRange) :
      ∃ t, (.next (s.runCommand f) : Host.Outcome State Fault Refusal) = .next t ∧ t.timer.InRange :=
    ⟨_, rfl, runCommand_timer r run⟩
  have other (f : State → State) (same : ∀ u : State, (f u).timer = u.timer) :
      ∃ t, (.next (s.runCommand f) : Host.Outcome State Fault Refusal) = .next t ∧ t.timer.InRange :=
    command f fun u within => (same u).symm ▸ within
  cases c with
  | tick low =>
    refine ⟨_, rfl, ?_⟩
    split
    · exact r
    · exact tick_timer r low
  | mark low =>
    refine ⟨_, rfl, ?_⟩
    split
    · exact tick_timer r low
    · exact r
  | markPulseEnd => exact ⟨_, rfl, timerInRange_congr r rfl rfl rfl rfl rfl⟩
  | resetAssert =>
    refine ⟨_, rfl, ?_⟩
    split
    · exact r
    · exact timerReset_inRange
  | resetRelease pins =>
    refine ⟨_, rfl, ?_⟩
    split
    · exact timerReset_inRange
    · exact r
  | partReset pins => exact command _ fun _ _ => timerReset_inRange
  | setTimebase => exact command _ fun _ => cmdSetTimebase_timer _
  | setCycle => exact command _ fun _ => cmdSetCycle_timer _ _
  | pacingOn => exact command _ fun _ => cmdPacingOn_timer
  | pacingOff => exact command _ fun _ => cmdPacingOff_timer
  | i2cAddress x read pins => exact i2cAddress_timer r x read pins
  | frameTaken pins => exact frameTaken_timer r pins
  | answerRead acks stop => exact left (answerRead_timer s acks stop)
  | i2cDataByte b => exact left (i2cDataByte_timer s b)
  | transactionIssue t => exact left ⟨_, rfl, timer_unless (by simp)⟩
  | inputArbiterGrant => exact left (inputArbiterGrant_timer s)
  | heldAccessRecheck => exact left (heldAccessRecheck_timer s)
  | memoryResponse b good data => exact left (memoryResponse_timer s b good data)
  | drainCompletion h => exact left ⟨_, rfl, timer_unless (by simp)⟩
  | scrubCompletion => exact left ⟨_, rfl, timer_unless (by simp)⟩
  | scrubFailure => exact left ⟨_, rfl, timer_unless (by simp)⟩
  | scrubTakeHead => exact left ⟨_, rfl, timer_unless (by simp)⟩
  | tagExpiry i => exact left ⟨_, rfl, timer_if (by simp)⟩
  | settlingIntervalEnd => exact left ⟨_, rfl, timer_unless (by simp)⟩
  | linkDown => exact left (linkDown_timer s)
  | linkUp => exact left (linkUp_timer s)
  | i2cIdleTimeout => exact left ⟨_, rfl, timer_unless (by simp)⟩
  | openGroup => exact other _ cmdOpenGroup_timer
  | stageDefine | stageMove | stageResize | stageRetire | stagePool | stageUnpool => exact other _ (stageEntry_timer _)
  | closeGroupNow => exact other _ cmdCloseNow_timer
  | closeGroupMark => exact other _ cmdCloseMark_timer
  | abandonGroup => exact other _ cmdAbandonGroup_timer
  | forceRelease => exact other _ (cmdForceRelease_timer _)
  | forceReturn => exact other _ (cmdForceReturn_timer _ _)
  | admitBuffer => exact other _ (cmdAdmit_timer _)
  | rescrub => exact other _ (cmdRescrub_timer _)
  | setAgent => exact other _ (cmdSetAgent_timer _ _)
  | agentReset => exact other _ (cmdAgentReset_timer _)
  | clearFault => exact other _ (cmdClearFault_timer _)
  | readFault => exact other _ (cmdReadFault_timer _)
  | readBuffer => exact other _ (cmdReadBuffer_timer _)
  | readPool => exact other _ (cmdReadPool_timer _)
  | readQueue => exact other _ (cmdReadQueue_timer _)
  | find => exact other _ (cmdFind_timer _ _ _)
  | setMemlimit => exact other _ (cmdSetMemlimit_timer _)
  | ackNotices => exact other _ (cmdAckNotices_timer _)
  | setNoticeEnable => exact other _ (cmdSetNoticeEnable_timer _)
  | readGroup => exact other _ cmdReadGroup_timer
  | readCycle => exact other _ cmdReadCycle_timer
  | readNotices => exact other _ cmdReadNotices_timer
  | identify => exact other _ cmdIdentify_timer

/-- Settles O13: by the command at the front of the queue; the queue is no part of the timer. -/
theorem timerStaysInRange : Obligations.TimerStaysInRange := by
  intro s t r taken
  unfold step at taken
  split at taken
  · cases taken
    exact r
  · next c rest _ =>
    have queue : (State.timer { s with pending := rest }).InRange := r
    obtain ⟨u, next, within⟩ := exec_timer c queue
    rw [next] at taken
    cases taken
    exact within

end Sys2Proof.Machine
end

section
/-! SET_TIMEBASE, SET_CYCLE and PACING: their ranges, and the whole next state (R141, R144, R146). -/

namespace Sys2Proof.Machine

theorem exec_setTimebase {s : State} (ready : s.ready) (d : Byte) : exec (.setTimebase d) s = .next (cmdSetTimebase d.toNat s) :=
  congrArg _ (runCommand_ready ready _)

theorem exec_setCycle {s : State} (ready : s.ready) (l g : BitVec 24) :
    exec (.setCycle l g) s = .next (cmdSetCycle l.toNat g.toNat s) :=
  congrArg _ (runCommand_ready ready _)

theorem exec_pacingOn {s : State} (ready : s.ready) : exec .pacingOn s = .next (cmdPacingOn s) :=
  congrArg _ (runCommand_ready ready _)

theorem exec_pacingOff {s : State} (ready : s.ready) : exec .pacingOff s = .next (cmdPacingOff s) :=
  congrArg _ (runCommand_ready ready _)

/-- R146: a length that is at least 64 exceeds its guard exactly where the length less 1 reaches it. -/
theorem cmdSetCycle_eq (n g : Nat) (s : State) :
    cmdSetCycle n g s =
      if n < 64 ∨ 1048575 < n ∨ n ≤ g then s.setAnswer .range
      else if s.timer.pacing = true then { s with timer.pendingSet := some ⟨n, g⟩ }.setAnswer .ok
      else { s with timer.running := ⟨n, g⟩, timer.position := 0 }.setAnswer .ok := by
  have out : (n < 64 ∨ 1048575 < n ∨ n - 1 < g) ↔ (n < 64 ∨ 1048575 < n ∨ n ≤ g) := by omega
  simp only [cmdSetCycle, out]

theorem cmdPacingOff_off {s : State} (off : s.timer.pacing = false) : cmdPacingOff s = s.setAnswer .ok := by
  simp only [cmdPacingOff, off, if_true]

theorem cmdPacingOff_armed {s : State} (on : s.timer.pacing = true) (armed : s.edit.group = .armed) :
    cmdPacingOff s = s.setAnswer .busy := by
  simp only [cmdPacingOff, on, armed, Bool.true_eq_false, if_false, if_true]

/-- R144: OFF with no group ARMED and no pair pending leaves the running pair and the position. -/
theorem cmdPacingOff_unpending {s : State} (on : s.timer.pacing = true) (unarmed : s.edit.group ≠ .armed)
    (empty : s.timer.pendingSet = none) : cmdPacingOff s = { s with timer.pacing := false }.setAnswer .ok := by
  simp only [cmdPacingOff, on, unarmed, empty, Bool.true_eq_false, if_false]

/-- R144: OFF with no group ARMED takes a pending pair over. -/
theorem cmdPacingOff_pending {s : State} {c : CycleSet} (on : s.timer.pacing = true) (unarmed : s.edit.group ≠ .armed)
    (pending : s.timer.pendingSet = some c) :
    cmdPacingOff s =
      { s with timer.pacing := false, timer.running := c, timer.pendingSet := none, timer.position := 0 }.setAnswer .ok := by
  simp only [cmdPacingOff, on, unarmed, pending, Bool.true_eq_false, if_false]

/-- Settles O45: each command's own conditions, in their order. -/
theorem timingCommands : Obligations.TimingCommands := by
  intro s ready
  rw [exec_pacingOn ready, exec_pacingOff ready]
  refine ⟨fun d => exec_setTimebase ready d, fun l g => ?_, rfl, fun off => ?_, fun on armed => ?_, fun on unarmed empty => ?_,
    fun c on unarmed pending => ?_⟩
  · rw [exec_setCycle ready, cmdSetCycle_eq]
  · rw [cmdPacingOff_off off]
  · rw [cmdPacingOff_armed on armed]
  · rw [cmdPacingOff_unpending on unarmed empty]
  · rw [cmdPacingOff_pending on unarmed pending]

end Sys2Proof.Machine
end

section
/-! The end of the MARK pulse, and the idle timeout: what it leaves, and that every command which may come before it is named takes
it first (R143, R168, R170; log 2). -/

namespace Sys2Proof.Machine

theorem settleIdle_of_due {s : State} (busy : s.mgmt.receiver ≠ .idle) (run : Config.idleTicks ≤ s.mgmt.idleCount) :
    s.settleIdle = s.idleTimeout := by
  simp [State.settleIdle, Mgmt.idleDue, busy, run]

/-- R168, R170: the answer of a timeout, by the frame buffer and the scan. -/
theorem idleTimeout_eq (s : State) :
    s.idleTimeout = { s with mgmt := { s.mgmt with
      receiver := .idle, frame := [], sendRest := [], idleCount := 0
      answer := if s.mgmt.frame = [] then s.mgmt.answer
        else if s.mgmt.scan = none then ⟨.short, []⟩ else ⟨.busy, []⟩ } } := by
  unfold State.idleTimeout
  dsimp only
  split
  · rfl
  · split
    · next scanning => simp only [scanning]; rfl
    · next ready => simp only [ready]; rfl

theorem exec_i2cIdleTimeout {s : State} (high : s.resetLow = false) : exec .i2cIdleTimeout s = .next s.settleIdle := by
  simp only [exec, execI2cIdleTimeout, high, Bool.false_eq_true, if_false]

/-- A management command runs under `runCommand`. -/
theorem exec_hostFrame {c : Instr} (management : hostFrame c ≠ none) :
    ∃ command, ∀ s, exec c s = .next (s.runCommand command) := by
  cases c with
  | identify | partReset | openGroup | closeGroupNow | closeGroupMark | abandonGroup | stageDefine | stageMove | stageResize
  | stageRetire | stagePool | stageUnpool | readGroup | forceRelease | forceReturn | admitBuffer | rescrub | setAgent
  | agentReset | clearFault | readFault | readBuffer | readPool | readQueue | readCycle | find | setTimebase | setCycle
  | pacingOn | pacingOff | setMemlimit | readNotices | ackNotices | setNoticeEnable => exact ⟨_, fun _ => rfl⟩
  | transactionIssue | inputArbiterGrant | heldAccessRecheck | memoryResponse | drainCompletion | scrubCompletion
  | scrubFailure | scrubTakeHead | tick | tagExpiry | mark | markPulseEnd | settlingIntervalEnd | linkDown | linkUp
  | resetAssert | resetRelease | i2cAddress | frameTaken | answerRead | i2cIdleTimeout | i2cDataByte =>
    exact absurd rfl management

theorem exec_hostFrame_settleIdle {c : Instr} (management : hostFrame c ≠ none) {s : State} (high : s.resetLow = false) :
    exec c s.settleIdle = exec c s := by
  obtain ⟨command, runs⟩ := exec_hostFrame management
  rw [runs, runs, runCommand_settleIdle s command high]

/-! Each row of the bus begins with the timeout. -/

theorem exec_i2cAddress_settleIdle {s : State} (high : s.resetLow = false) (x : BitVec 7) (read : Bool) (pins : BitVec 2) :
    exec (.i2cAddress x read pins) s.settleIdle = exec (.i2cAddress x read pins) s := by
  simp only [exec, execI2cAddress, settleIdle_keeps, settleIdle_settleIdle, high, Bool.false_eq_true, if_false]

theorem exec_i2cDataByte_settleIdle {s : State} (high : s.resetLow = false) (b : Byte) :
    exec (.i2cDataByte b) s.settleIdle = exec (.i2cDataByte b) s := by
  simp only [exec, execI2cDataByte, settleIdle_keeps, settleIdle_settleIdle, high, Bool.false_eq_true, if_false]

theorem exec_frameTaken_settleIdle {s : State} (high : s.resetLow = false) (pins : BitVec 2) :
    exec (.frameTaken pins) s.settleIdle = exec (.frameTaken pins) s := by
  simp only [exec, execFrameTaken, settleIdle_keeps, settleIdle_settleIdle, high, Bool.false_eq_true, if_false]

theorem exec_answerRead_settleIdle {s : State} (high : s.resetLow = false) (acks : List Bool) (stop : Bool) :
    exec (.answerRead acks stop) s.settleIdle = exec (.answerRead acks stop) s := by
  simp only [exec, execAnswerRead, settleIdle_keeps, settleIdle_settleIdle, high, Bool.false_eq_true, if_false]

/-- Settles O44: the state after the timeout is that of `settleIdle`, with which each of these commands begins. -/
theorem pulseAndIdleTimeoutEnd : Obligations.PulseAndIdleTimeoutEnd := by
  refine fun s => ⟨rfl, fun high => ⟨fun busy run => ?_, fun early => ?_⟩⟩
  · have settled := (settleIdle_of_due busy run).trans (idleTimeout_eq s)
    dsimp only
    rw [← settled]
    exact ⟨exec_i2cIdleTimeout high, fun _ management => (exec_hostFrame_settleIdle management high).symm,
      fun x read pins => (exec_i2cAddress_settleIdle high x read pins).symm,
      fun b => (exec_i2cDataByte_settleIdle high b).symm, fun pins => (exec_frameTaken_settleIdle high pins).symm,
      fun acks stop => (exec_answerRead_settleIdle high acks stop).symm⟩
  · rw [exec_i2cIdleTimeout high, settleIdle_eq s early]

end Sys2Proof.Machine
end

section
/-! The tick that makes a mark: its whole next state, and what an ARMED group adds to it (R76, R142, R155). -/

namespace Sys2Proof.Machine

/-! ### The mark at each block -/

/-- R142, steps 1 to 4, field by field. -/
theorem timerAtMark_eq (t : Timer) :
    t.atMark = { t with
      running := t.pendingSet.getD t.running, pendingSet := none, position := 0, cycleCount := t.cycleCount + 1
      markPin := true } := by
  unfold Timer.atMark Timer.takePending
  split
  · next pending => simp [pending]
  · next empty => simp [empty]

/-- R123, R128: the memory port's counts at a tick, tag by tag. -/
theorem memAtTick_eq (m : MemPort) :
    m.atTick = { m with
      tags := mapAll m.tags fun r =>
        match r.use with
        | some u => { r with use := some { u with timeLeft := u.timeLeft - 1 } }
        | none => r
      settling := match m.settling with | some n => some (n - 1) | none => none } := by
  rw [MemPort.atTick, MemPort.mk.injEq]
  refine ⟨congrArg (mapAll m.tags) (funext fun r => ?_), rfl, ?_, rfl⟩
  · obtain ⟨g, _ | u⟩ := r <;> rfl
  · cases m.settling <;> rfl

theorem any_bufs_iff (s : State) (p : BufRec → Bool) :
    s.custody.bufs.toList.any p = true ↔ ∃ h, p (s.buf h) = true := by
  simp only [List.any_eq_true, Vector.mem_toList_iff, Vector.mem_iff_getElem]
  constructor
  · rintro ⟨_, ⟨i, below, rfl⟩, holds⟩
    exact ⟨⟨i, below⟩, holds⟩
  · rintro ⟨h, holds⟩
    exact ⟨_, ⟨h.val, h.isLt, rfl⟩, holds⟩

/-- R76, R79: the mark at the custody unit, with the expiries named by handle. -/
theorem custodyMark_eq (s : State) :
    s.custodyMark =
      if ∃ h, (s.buf h).expiresAtMark = true then
        State.raise .lendExpired { s with custody.bufs := mapAll s.custody.bufs BufRec.atMark }
      else { s with custody.bufs := mapAll s.custody.bufs BufRec.atMark } := by
  simp only [State.custodyMark, any_bufs_iff]

/-! ### The tick -/

/-- The state in which a mark reaches the custody unit: the tick's counts taken, and the mark at the timer. -/
def State.tickedForMark (s : State) (low : Bool) : State :=
  { s with
    timer := { s.timer with
      divider := 0, running := s.timer.pendingSet.getD s.timer.running, pendingSet := none, position := 0
      cycleCount := s.timer.cycleCount + 1, markPin := true }
    mem := s.mem.atTick
    mgmt.idleCount := if low = true ∧ s.mgmt.receiver ≠ .idle then s.mgmt.idleCount + 1 else 0 }

theorem settleOutstanding_of_nothingDue {s : State} (calm : s.nothingDue) : s.settleOutstanding = s := by
  obtain ⟨pulse, settling, tags, idle⟩ := calm
  rw [settleOutstanding_of_idle s pulse settling ((dueTags_eq_nil s).2 tags), settleIdle_eq s idle]

theorem idleAgainstScan_of_unscanned {s : State} (unscanned : s.mgmt.scan = none) : s.idleAgainstScan = s := by
  simp [State.idleAgainstScan, unscanned]

theorem scanAndCycle_of_unscanned {s : State} (unscanned : s.mgmt.scan = none) : s.scanAndCycle = s.advanceCycle := by
  simp [State.scanAndCycle, State.scanStep, unscanned]

/-- With nothing outstanding and no scan, a tick takes its counts and advances the cycle. -/
theorem tick_of_nothingDue {s : State} (calm : s.nothingDue) (unscanned : s.mgmt.scan = none) (low : Bool) :
    s.tick low = (State.countIdle { s with timer.divider := 0, mem := s.mem.atTick } low).advanceCycle := by
  simp only [State.tick, settleOutstanding_of_nothingDue calm]
  rw [idleAgainstScan_of_unscanned, scanAndCycle_of_unscanned]
  · exact unscanned
  · exact unscanned

/-- R142: the tick of a mark is the mark at the custody unit and the edit stage, after the tick's counts and the mark at the
timer. -/
theorem tick_of_markDue {s : State} (due : s.timer.markDue = true) (calm : s.nothingDue) (unscanned : s.mgmt.scan = none)
    (low : Bool) :
    s.tick low = ((s.tickedForMark low).custodyMark.editMark (s.timer.cycleCount + 1)).kick := by
  have due' : (State.countIdle { s with timer.divider := 0, mem := s.mem.atTick } low).timer.markDue = true := due
  rw [tick_of_nothingDue calm unscanned, State.advanceCycle, if_pos due']
  simp only [State.makeMark, timerAtMark_eq, State.countIdle, State.tickedForMark, Bool.and_eq_true, decide_eq_true_eq]

theorem exec_tick {s : State} (high : s.resetLow = false) (low : Bool) : exec (.tick low) s = .next (s.tick low) := by
  simp only [exec, execTick, high, Bool.false_eq_true, if_false]

theorem exec_mark_of_due {s : State} (high : s.resetLow = false) (due : s.timer.markDue = true) (low : Bool) :
    exec (.mark low) s = .next (s.tick low) := by
  simp only [exec, execMark, high, due, Bool.not_false, Bool.and_self, if_true]

theorem exec_mark_of_early {s : State} (early : s.timer.markDue = false) (low : Bool) : exec (.mark low) s = .next s := by
  simp only [exec, execMark, early, Bool.and_false, Bool.false_eq_true, if_false]

/-- The mark leaves what the engine and the arbiter look at: no tag becomes free or busy, and the settling interval ends by a step
of its own (log 37). -/
theorem tickedForMark_quiet {s : State} (quiet : s.quiet) (low : Bool) : (s.tickedForMark low).custodyMark.quiet := by
  have settling : s.mem.atTick.settling.isSome = s.mem.settling.isSome := by simp [MemPort.atTick]
  have tags (i : TagIndex) : (nth s.mem.atTick.tags i).use = none ↔ (nth s.mem.tags i).use = none := by
    simp [MemPort.atTick, TagRec.atTick]
  refine (quiet_congr ?_ ?_ ?_ ?_ ?_).2 quiet
  · simp [State.tickedForMark]
  · simpa [State.tickedForMark] using settling
  · simpa [State.tickedForMark, State.tag] using tags
  · simp [State.tickedForMark]
  · simp [State.tickedForMark]

/-! ### What follows an apply -/

/-- R153, R155: the edit stage after a group was presented. -/
theorem presentGroup_edit (s : State) (count : Option (BitVec 32)) :
    (s.presentGroup count).edit =
      { group := .idle, staged := [], target := none
        outcome := some ⟨(s.applyGroup s.edit.staged).2, count, s.edit.staged.length⟩ } := rfl

theorem presentGroup_groupDone (s : State) (count : Option (BitVec 32)) : (s.presentGroup count).notice .groupDone = true := by
  simp only [State.presentGroup, notice_raise, decide_true, Bool.or_true]

theorem fillSlot_notice {s : State} {n : Notice} (pending : s.notice n = true) (a : Agent) (f : FaultRec) :
    (s.fillSlot a f).notice n = true := by
  unfold State.fillSlot
  split
  · rw [notice_raise, notice_setAgentRec, pending, Bool.true_or]
  · exact pending

/-- A notice stays pending where the notice set stays. -/
theorem notice_of_eq {s t : State} (same : t.mgmt.notices = s.mgmt.notices) (n : Notice) : t.notice n = s.notice n := by
  rw [State.notice, same]
  rfl

theorem refuse_notice {s : State} {n : Notice} (pending : s.notice n = true) (t : Txn) (k : FaultKind) (b : Option BufState) :
    (s.refuse t k b).notice n = true := by
  have answered : (s.respond ⟨t.agent, t.tag, .refused, some k, []⟩).notice n = true := pending
  exact fillSlot_notice answered _ _

/-- R175: a grant clears no notice; a held access that it refuses may set its agent's. -/
theorem grantOnce_notice {s : State} {n : Notice} (pending : s.notice n = true) : s.grantOnce.notice n = true := by
  have granted (i : TagIndex) : (s.recheckGranted i).notice n = true := by
    simp only [State.recheckGranted]
    split
    · exact pending
    · split
      · exact pending
      · split
        · refine refuse_notice ?_ _ _ _
          rw [notice_of_eq (s := s) (by simp), pending]
        · rw [notice_of_eq (s := s) (by simp), pending]
  unfold State.grantOnce
  split
  · exact pending
  · exact granted _
  · rw [notice_of_eq (s := s) (by simp), pending]

theorem kick_notice {s : State} {n : Notice} (pending : s.notice n = true) : s.kick.notice n = true := by
  refine arbitrate_keeps_law (law := fun u => u.notice n = true) (fun _ => grantOnce_notice) ?_
  rw [notice_of_eq (s := s) (by simp), pending]

/-- What grants to the engine alone leave: the custody tables, the stage port and the checker, and the responses sent. -/
structure State.Untouched (s t : State) : Prop where
  custody : t.custody = s.custody
  stage : t.stage = s.stage
  checker : t.checker = s.checker
  responses : t.sent.responses = s.sent.responses

theorem mayGrant_of_nextGrant {s : State} (granted : s.nextGrant ≠ none) : s.mayGrant := by
  refine Classical.byContradiction fun shut => granted ?_
  exact (nextGrant_eq_none s).2 fun may => absurd may shut

/-- R125: with no access held where the arbiter may grant, a grant goes to the engine, and leaves it so. -/
theorem grantOnce_untouched {s u : State} (unheld : u.mayGrant → u.checker.hold = none) (same : s.Untouched u) :
    (u.grantOnce.mayGrant → u.grantOnce.checker.hold = none) ∧ s.Untouched u.grantOnce := by
  cases granted : u.nextGrant with
  | none =>
    rw [grantOnce_of_none u granted]
    exact ⟨unheld, same⟩
  | some grant =>
    have empty : u.checker.hold = none := unheld (mayGrant_of_nextGrant (by simp [granted]))
    obtain ⟨_ | _, i⟩ := grant
    · have held := (standing_of_nextGrant u i).1 granted
      simp [empty] at held
    · have burst : u.grantOnce = u.issueBurst i := by simp only [State.grantOnce, granted]
      rw [burst]
      exact ⟨fun _ => by simpa using empty,
        { custody := by simpa using same.custody, stage := by simpa using same.stage
          checker := by simpa using same.checker, responses := by simpa using same.responses }⟩

theorem kick_untouched {s : State} (unheld : s.mayGrant → s.checker.hold = none) : s.Untouched s.kick := by
  have taken : s.Untouched s.takeHead := by constructor <;> simp
  have unheld' : s.takeHead.mayGrant → s.takeHead.checker.hold = none := by simpa [State.mayGrant, State.tag] using unheld
  exact (arbitrate_keeps_law (law := fun u => (u.mayGrant → u.checker.hold = none) ∧ s.Untouched u)
    (fun _ law => grantOnce_untouched law.1 law.2) ⟨unheld', taken⟩).2

/-- An apply frees no tag and holds no access. -/
theorem presentGroup_unheld {s : State} (quiet : s.quiet) (count : Option (BitVec 32)) :
    (s.presentGroup count).mayGrant → (s.presentGroup count).checker.hold = none := by
  intro may
  have may' : s.mayGrant := by simpa [State.mayGrant, State.tag] using may
  simpa using (quiet.1 may').1

/-- Settles O42: MARK is the tick; its counts and the mark at the timer, then the custody unit, then the edit stage. -/
theorem markEndsTheCycle : Obligations.MarkEndsTheCycle := by
  intro s low high
  refine ⟨markDue_iff s.timer, fun early => exec_mark_of_early early low, fun due => ?_, fun due calm unscanned => ?_⟩
  · rw [exec_mark_of_due high due, exec_tick high]
  · intro count v u
    have marked : (s.tickedForMark low).custodyMark = u := by
      simp only [custodyMark_eq, State.tickedForMark, memAtTick_eq]
      rfl
    have step : exec (.mark low) s = .next (u.editMark count).kick := by
      rw [exec_mark_of_due high due, tick_of_markDue due calm unscanned, marked]
    have edit : u.edit = s.edit := by simp [← marked, State.tickedForMark]
    have quiet_after (quiet : s.quiet) : u.quiet := marked ▸ tickedForMark_quiet quiet low
    clear_value u
    refine ⟨fun other quiet => ?_, fun armed target => ?_⟩
    · rw [step, State.editMark, edit, if_neg other, kick_of_quiet u (quiet_after quiet)]
    · rw [State.editMark, edit, if_pos ⟨armed, target⟩] at step
      refine ⟨step, _, ⟨(u.applyGroup u.edit.staged).2, some count, u.edit.staged.length⟩, step, ?_, rfl, ?_, ?_, ?_, ?_,
        fun quiet => ?_⟩
      · simp only [kick_keeps, presentGroup_edit]
      · rw [edit]
      · exact kick_notice (presentGroup_groupDone u _)
      · simp
      · simp [← marked, State.tickedForMark]
      · have same := kick_untouched (presentGroup_unheld (quiet_after quiet) (some count))
        refine ⟨same.custody, same.stage.trans ?_, same.checker.trans ?_, same.responses.trans ?_⟩
        · simp [← marked, State.tickedForMark]
        · simp [← marked, State.tickedForMark]
        · simp [← marked, State.tickedForMark]

end Sys2Proof.Machine
end

section
/-! The edit stage's laws (R149, R155, R144): what each command does with the staged set, the target and pacing, and that every
step keeps them. -/

namespace Sys2Proof.Machine

/-! ### What leaves the laws -/

/-- What a command beside the group commands does: the edit stage stays, and pacing stays ON while a group is ARMED. -/
structure State.SparesGroup (s t : State) : Prop where
  edit : t.edit = s.edit
  paced : s.edit.group = .armed → s.timer.pacing = true → t.timer.pacing = true

theorem spares_of_eq {s t : State} (edit : t.edit = s.edit) (timer : t.timer = s.timer) : s.SparesGroup t :=
  ⟨edit, fun _ on => timer ▸ on⟩

theorem State.SparesGroup.trans {s t u : State} (first : s.SparesGroup t) (next : t.SparesGroup u) : s.SparesGroup u where
  edit := next.edit.trans first.edit
  paced armed on := next.paced (first.edit ▸ armed) (first.paced armed on)

theorem State.SparesGroup.law {s t : State} (spared : s.SparesGroup t) (law : s.EditLaws) : t.EditLaws where
  capacity := spared.edit ▸ law.capacity
  idle := spared.edit ▸ law.idle
  target := spared.edit ▸ law.target
  paced armed := by
    rw [spared.edit] at armed
    exact spared.paced armed (law.paced armed)

theorem spares_if {c : Prop} [Decidable c] {s t : State} (spared : s.SparesGroup t) : s.SparesGroup (if c then t else s) := by
  split
  · exact spared
  · exact spares_of_eq rfl rfl

theorem spares_unless {c : Prop} [Decidable c] {s t : State} (spared : s.SparesGroup t) :
    s.SparesGroup (if c then s else t) := by
  split
  · exact spares_of_eq rfl rfl
  · exact spared

/-- R149: an IDLE group has no entry and no target. -/
theorem editLaws_of_idle {s : State} (idle : s.edit.group = .idle) (staged : s.edit.staged = []) (target : s.edit.target = none) :
    s.EditLaws where
  capacity := by simp [staged]
  idle _ := staged
  target := by simp [idle, target]
  paced armed := by simp [idle] at armed

theorem partReset_editLaws (s : State) (pins : BitVec 2) : (s.partReset pins).EditLaws := editLaws_of_idle rfl rfl rfl

/-! ### The tick -/

/-- R155: after it was presented a group is IDLE, with its set emptied. -/
theorem presentGroup_editLaws (s : State) (c : Option (BitVec 32)) : (s.presentGroup c).EditLaws :=
  editLaws_of_idle rfl rfl rfl

theorem kick_spares (s : State) : s.SparesGroup s.kick := spares_of_eq (by simp) (by simp)

/-- R142, R155: a mark leaves pacing as it is, and presents the group whose target it is. -/
theorem makeMark_editLaws {s : State} (law : s.EditLaws) : s.makeMark.EditLaws := by
  have marked : s.SparesGroup (State.custodyMark { s with timer := s.timer.atMark }) :=
    ⟨by simp, fun _ on => by simpa [timerAtMark_eq] using on⟩
  refine (kick_spares _).law ?_
  unfold State.editMark
  split
  · exact presentGroup_editLaws _ _
  · exact marked.law law

theorem advanceCycle_editLaws {s : State} (law : s.EditLaws) : s.advanceCycle.EditLaws := by
  unfold State.advanceCycle
  split
  · exact makeMark_editLaws law
  · split
    · exact { law with }
    · exact law

theorem scanAndCycle_editLaws {s : State} (law : s.EditLaws) : s.scanAndCycle.EditLaws := by
  have scanned {u : State} (l : u.EditLaws) : u.scanStep.EditLaws := (spares_of_eq (by simp) (by simp)).law l
  have drawn : State.EditLaws { s with freeCount := s.freeCount + 1 } := { law with }
  unfold State.scanAndCycle
  split
  · dsimp only
    split
    · exact advanceCycle_editLaws (scanned drawn)
    · exact scanned (advanceCycle_editLaws drawn)
  · exact advanceCycle_editLaws (scanned law)

theorem tick_editLaws {s : State} (law : s.EditLaws) (low : Bool) : (s.tick low).EditLaws := by
  refine scanAndCycle_editLaws (State.SparesGroup.law (s := s) ?_ law)
  exact ⟨by simp, fun _ on => by simpa [settleOutstanding_timer] using on⟩

/-! ### Group commands -/

theorem setAnswer_spares (s : State) (x : HostStatus) (d : List Byte) : s.SparesGroup (s.setAnswer x d) := spares_of_eq rfl rfl

/-- R150: a group is opened with an empty set. -/
theorem cmdOpenGroup_editLaws {s : State} (law : s.EditLaws) : (cmdOpenGroup s).EditLaws := by
  unfold cmdOpenGroup
  split
  · next idle =>
    have untargeted : s.edit.target.isSome = true ↔ False := by rw [law.target, idle]; simp
    exact { capacity := Nat.zero_le _, idle := fun _ => rfl, target := untargeted.trans (by simp [State.setAnswer])
            paced := nofun }
  · exact (setAnswer_spares s _ _).law law
  · exact (setAnswer_spares s _ _).law law

/-- R151: an entry joins an OPEN set that holds fewer than 32. -/
theorem stageEntry_editLaws (e : Option Edit) {s : State} (law : s.EditLaws) : (stageEntry e s).EditLaws := by
  unfold stageEntry
  split
  · exact (setAnswer_spares s _ _).law law
  · exact (setAnswer_spares s _ _).law law
  · exact (setAnswer_spares s _ _).law law
  · next opened =>
    split
    · exact (setAnswer_spares s _ _).law law
    · next room =>
      have still : s.edit.group ≠ .idle := by simp [opened]
      have grown (e : Edit) : (s.edit.staged ++ [e]).length ≤ Config.stagedCapacity := by
        rw [List.length_append, List.length_singleton]
        exact Nat.lt_of_not_le room
      exact { capacity := grown _, idle := fun idle => absurd idle still, target := law.target, paced := law.paced }

theorem cmdCloseNow_editLaws {s : State} (law : s.EditLaws) : (cmdCloseNow s).EditLaws := by
  unfold cmdCloseNow
  split
  · exact (setAnswer_spares s _ _).law law
  · exact (setAnswer_spares s _ _).law law
  · exact ((setAnswer_spares _ _ _).trans (kick_spares _)).law (presentGroup_editLaws s none)

/-- R153, R154: only while pacing is ON does a group become ARMED, with a target. -/
theorem cmdCloseMark_editLaws {s : State} (law : s.EditLaws) : (cmdCloseMark s).EditLaws := by
  unfold cmdCloseMark
  split
  · exact (setAnswer_spares s _ _).law law
  · exact (setAnswer_spares s _ _).law law
  · split
    · exact (setAnswer_spares s _ _).law law
    · next on =>
      exact { capacity := law.capacity, idle := nofun, target := ⟨fun _ => rfl, fun _ => rfl⟩
              paced := fun _ => by simpa using on }

theorem cmdCloseGroup_editLaws (mode : Nat) {s : State} (law : s.EditLaws) : (cmdCloseGroup mode s).EditLaws := by
  unfold cmdCloseGroup
  split
  · exact cmdCloseNow_editLaws law
  · exact cmdCloseMark_editLaws law
  · unfold cmdCloseUnknown
    split <;> exact (setAnswer_spares s _ _).law law

theorem cmdAbandonGroup_editLaws {s : State} (law : s.EditLaws) : (cmdAbandonGroup s).EditLaws := by
  unfold cmdAbandonGroup
  split
  · exact (setAnswer_spares s _ _).law law
  · exact editLaws_of_idle rfl rfl rfl
  · exact editLaws_of_idle rfl rfl rfl

/-! ### The other management commands -/

theorem cmdAgentReset_spares (n : Nat) (s : State) : s.SparesGroup (cmdAgentReset n s) := by
  refine spares_of_eq ?_ (by simp)
  unfold cmdAgentReset
  split <;> simp

theorem cmdSetAgent_spares (n mode : Nat) (s : State) : s.SparesGroup (cmdSetAgent n mode s) := by
  refine spares_of_eq ?_ (by simp)
  unfold cmdSetAgent
  split
  · simp
  · split <;> simp

theorem cmdClearFault_spares (n : Nat) (s : State) : s.SparesGroup (cmdClearFault n s) := by
  refine spares_of_eq ?_ (by simp)
  unfold cmdClearFault
  split <;> simp

theorem cmdReadFault_spares (n : Nat) (s : State) : s.SparesGroup (cmdReadFault n s) := by
  refine spares_of_eq ?_ (by simp)
  unfold cmdReadFault
  split <;> simp

theorem cmdForceRelease_spares (n : Nat) (s : State) : s.SparesGroup (cmdForceRelease n s) := by
  refine spares_of_eq ?_ (by simp)
  unfold cmdForceRelease
  split
  · simp
  · split <;> simp

theorem cmdForceReturn_spares (n b : Nat) (s : State) : s.SparesGroup (cmdForceReturn n b s) := by
  refine spares_of_eq ?_ (by simp)
  unfold cmdForceReturn
  split
  · dsimp only
    split
    · split
      · simp
      · split <;> simp
    · simp
  · simp
  · simp

theorem cmdAdmit_spares (n : Nat) (s : State) : s.SparesGroup (cmdAdmit n s) := by
  refine spares_of_eq ?_ (by simp)
  unfold cmdAdmit
  split
  · simp
  · split <;> simp

theorem cmdRescrub_spares (n : Nat) (s : State) : s.SparesGroup (cmdRescrub n s) := by
  refine spares_of_eq ?_ (by simp)
  unfold cmdRescrub
  split
  · simp
  · split <;> simp

theorem cmdReadBuffer_spares (n : Nat) (s : State) : s.SparesGroup (cmdReadBuffer n s) := by
  refine spares_of_eq ?_ (by simp)
  unfold cmdReadBuffer
  split <;> simp

theorem cmdReadPool_spares (n : Nat) (s : State) : s.SparesGroup (cmdReadPool n s) := by
  refine spares_of_eq ?_ (by simp)
  unfold cmdReadPool
  split <;> simp

theorem cmdReadQueue_spares (n : Nat) (s : State) : s.SparesGroup (cmdReadQueue n s) := by
  refine spares_of_eq ?_ (by simp)
  unfold cmdReadQueue
  split <;> simp

theorem cmdFind_spares (kind value start : Nat) (s : State) : s.SparesGroup (cmdFind kind value start s) := by
  refine spares_of_eq ?_ (by simp)
  unfold cmdFind
  split <;> simp

theorem cmdSetMemlimit_spares (n : Nat) (s : State) : s.SparesGroup (cmdSetMemlimit n s) := by
  refine spares_of_eq ?_ (by simp)
  unfold cmdSetMemlimit
  split <;> simp

theorem cmdAckNotices_spares (n : Nat) (s : State) : s.SparesGroup (cmdAckNotices n s) := by
  refine spares_of_eq ?_ (by simp)
  unfold cmdAckNotices
  split <;> simp

theorem cmdSetNoticeEnable_spares (n : Nat) (s : State) : s.SparesGroup (cmdSetNoticeEnable n s) := by
  refine spares_of_eq ?_ (by simp)
  unfold cmdSetNoticeEnable
  split <;> simp

/-! The timing commands leave pacing, but for PACING itself. -/

theorem cmdSetTimebase_spares (n : Nat) (s : State) : s.SparesGroup (cmdSetTimebase n s) := by
  unfold cmdSetTimebase
  split
  · exact ⟨rfl, fun _ on => on⟩
  · exact setAnswer_spares s _ _

theorem cmdSetCycle_spares (n g : Nat) (s : State) : s.SparesGroup (cmdSetCycle n g s) := by
  unfold cmdSetCycle
  split
  · exact setAnswer_spares s _ _
  · split <;> exact ⟨rfl, fun _ on => on⟩

theorem cmdPacingOn_spares (s : State) : s.SparesGroup (cmdPacingOn s) := by
  unfold cmdPacingOn
  split
  · exact setAnswer_spares s _ _
  · exact ⟨rfl, fun _ _ => rfl⟩

/-- R144: PACING(OFF) is answered BUSY while a group is ARMED. -/
theorem cmdPacingOff_spares (s : State) : s.SparesGroup (cmdPacingOff s) := by
  refine ⟨?_, fun armed on => by rw [cmdPacingOff_armed on armed]; exact on⟩
  unfold cmdPacingOff
  split
  · rfl
  · split
    · rfl
    · split <;> rfl

theorem cmdPacing_spares (mode : Nat) (s : State) : s.SparesGroup (cmdPacing mode s) := by
  unfold cmdPacing
  split
  · exact cmdPacingOff_spares s
  · exact cmdPacingOn_spares s
  · exact setAnswer_spares s _ _

/-! ### Frames -/

/-- Whatever frame is taken, its command keeps the laws. -/
theorem frameCommand_editLaws (pins : BitVec 2) (code : Nat) (args : List Byte) {s : State} (law : s.EditLaws) :
    (frameCommand pins code args s).EditLaws := by
  unfold frameCommand
  split
  · exact (setAnswer_spares s _ _).law law
  · exact partReset_editLaws s pins
  · exact cmdOpenGroup_editLaws law
  · exact cmdCloseGroup_editLaws _ law
  · exact cmdAbandonGroup_editLaws law
  · exact stageEntry_editLaws _ law
  · exact stageEntry_editLaws _ law
  · exact stageEntry_editLaws _ law
  · exact stageEntry_editLaws _ law
  · exact stageEntry_editLaws _ law
  · exact stageEntry_editLaws _ law
  · exact (setAnswer_spares s _ _).law law
  · exact (cmdForceRelease_spares _ s).law law
  · exact (cmdForceReturn_spares _ _ s).law law
  · exact (cmdAdmit_spares _ s).law law
  · exact (cmdRescrub_spares _ s).law law
  · exact (cmdSetAgent_spares _ _ s).law law
  · exact (cmdAgentReset_spares _ s).law law
  · exact (cmdClearFault_spares _ s).law law
  · exact (cmdReadFault_spares _ s).law law
  · exact (cmdReadBuffer_spares _ s).law law
  · exact (cmdReadPool_spares _ s).law law
  · exact (cmdReadQueue_spares _ s).law law
  · exact (setAnswer_spares s _ _).law law
  · exact (cmdFind_spares _ _ _ s).law law
  · exact (cmdSetTimebase_spares _ s).law law
  · exact (cmdSetCycle_spares _ _ s).law law
  · exact (cmdPacing_spares _ s).law law
  · exact (cmdSetMemlimit_spares _ s).law law
  · exact (setAnswer_spares s _ _).law law
  · exact (cmdAckNotices_spares _ s).law law
  · exact (cmdSetNoticeEnable_spares _ s).law law
  · exact (setAnswer_spares s _ _).law law

theorem settleIdle_spares (s : State) : s.SparesGroup s.settleIdle := spares_of_eq (by simp) (by simp)

theorem runCommand_editLaws {s : State} {command : State → State} (law : s.EditLaws)
    (run : ∀ u : State, u.EditLaws → (command u).EditLaws) : (s.runCommand command).EditLaws := by
  have settled : s.settleIdle.EditLaws := (settleIdle_spares s).law law
  unfold State.runCommand
  split
  · exact law
  · dsimp only
    split
    · exact (setAnswer_spares _ _ _).law settled
    · exact run _ settled

theorem judgeFrame_editLaws {s : State} (law : s.EditLaws) (pins : BitVec 2) (frame : List Byte) :
    (s.judgeFrame pins frame).EditLaws := by
  have answered (x : HostStatus) : (s.setAnswer x).EditLaws := (setAnswer_spares s x []).law law
  unfold State.judgeFrame
  split
  · exact law
  · split
    · exact answered _
    · split
      · exact answered _
      · split
        · exact answered _
        · exact frameCommand_editLaws _ _ _ law

theorem takeFrame_editLaws {s : State} (law : s.EditLaws) (pins : BitVec 2) : (s.takeFrame pins).EditLaws := by
  have emptied : State.EditLaws { s with mgmt.receiver := .idle, mgmt.frame := [], mgmt.idleCount := 0 } := { law with }
  unfold State.takeFrame
  dsimp only
  split
  · exact emptied
  · split
    · exact (setAnswer_spares _ _ _).law emptied
    · exact judgeFrame_editLaws emptied _ _

/-! ### Every command -/

theorem i2cAddress_editLaws {s : State} (law : s.EditLaws) (x : BitVec 7) (read : Bool) (pins : BitVec 2) :
    ∃ t, exec (.i2cAddress x read pins) s = .next t ∧ t.EditLaws := by
  have settled : s.settleIdle.EditLaws := (settleIdle_spares s).law law
  have compared {u : State} (l : u.EditLaws) : (u.compareAddress x read).EditLaws := (spares_of_eq (by simp) (by simp)).law l
  refine ⟨_, rfl, ?_⟩
  split
  · exact (spares_of_eq (by simp) (by simp)).law law
  · unfold State.endWrite
    split
    · exact compared (takeFrame_editLaws settled pins)
    · exact compared settled

theorem frameTaken_editLaws {s : State} (law : s.EditLaws) (pins : BitVec 2) :
    ∃ t, exec (.frameTaken pins) s = .next t ∧ t.EditLaws := by
  have settled : s.settleIdle.EditLaws := (settleIdle_spares s).law law
  refine ⟨_, rfl, ?_⟩
  split
  · exact law
  · split
    · exact takeFrame_editLaws settled pins
    · exact settled

theorem i2cDataByte_spares (s : State) (b : Byte) : ∃ t, exec (.i2cDataByte b) s = .next t ∧ s.SparesGroup t := by
  refine ⟨_, rfl, ?_⟩
  split
  · exact spares_of_eq (by simp) (by simp)
  · dsimp only
    split <;> exact spares_of_eq (by simp) (by simp)

theorem answerRead_spares (s : State) (acks : List Bool) (stop : Bool) :
    ∃ t, exec (.answerRead acks stop) s = .next t ∧ s.SparesGroup t := by
  refine ⟨_, rfl, spares_unless ?_⟩
  dsimp only
  split
  · split <;> exact spares_of_eq (by simp) (by simp)
  all_goals exact settleIdle_spares s

theorem memoryResponse_spares (s : State) (b : Byte) (good : Bool) (data : List Byte) :
    ∃ t, exec (.memoryResponse b good data) s = .next t ∧ s.SparesGroup t := by
  refine ⟨_, rfl, spares_if ?_⟩
  split
  · exact spares_if (spares_of_eq (by simp) (by simp))
  · exact spares_of_eq rfl rfl

theorem inputArbiterGrant_spares (s : State) : ∃ t, exec .inputArbiterGrant s = .next t ∧ s.SparesGroup t := by
  refine ⟨_, rfl, spares_unless ?_⟩
  split
  · exact spares_of_eq rfl rfl
  · split <;> exact spares_of_eq (by simp) (by simp)

theorem heldAccessRecheck_spares (s : State) : ∃ t, exec .heldAccessRecheck s = .next t ∧ s.SparesGroup t := by
  refine ⟨_, rfl, spares_unless ?_⟩
  split <;> exact spares_of_eq (by simp) (by simp)

theorem linkDown_spares (s : State) : ∃ t, exec .linkDown s = .next t ∧ s.SparesGroup t := by
  refine ⟨_, rfl, spares_unless ?_⟩
  split <;> exact spares_of_eq (by simp) (by simp)

theorem linkUp_spares (s : State) : ∃ t, exec .linkUp s = .next t ∧ s.SparesGroup t := by
  refine ⟨_, rfl, spares_unless ?_⟩
  split <;> exact spares_of_eq (by simp) (by simp)

/-- Every command keeps the edit stage's laws. -/
theorem exec_editLaws (c : Instr) {s : State} (law : s.EditLaws) : ∃ t, exec c s = .next t ∧ t.EditLaws := by
  have spared {o : Host.Outcome State Fault Refusal} (h : ∃ t, o = .next t ∧ s.SparesGroup t) :
      ∃ t, o = .next t ∧ t.EditLaws := by
    obtain ⟨t, next, same⟩ := h
    exact ⟨t, next, same.law law⟩
  have command (f : State → State) (run : ∀ u : State, u.EditLaws → (f u).EditLaws) :
      ∃ t, (.next (s.runCommand f) : Host.Outcome State Fault Refusal) = .next t ∧ t.EditLaws :=
    ⟨_, rfl, runCommand_editLaws law run⟩
  have other (f : State → State) (same : ∀ u : State, u.SparesGroup (f u)) :
      ∃ t, (.next (s.runCommand f) : Host.Outcome State Fault Refusal) = .next t ∧ t.EditLaws :=
    command f fun u => (same u).law
  cases c with
  | tick low =>
    refine ⟨_, rfl, ?_⟩
    split
    · exact law
    · exact tick_editLaws law low
  | mark low =>
    refine ⟨_, rfl, ?_⟩
    split
    · exact tick_editLaws law low
    · exact law
  | resetAssert =>
    refine ⟨_, rfl, ?_⟩
    split
    · exact law
    · exact editLaws_of_idle rfl rfl rfl
  | resetRelease pins =>
    refine ⟨_, rfl, ?_⟩
    split
    · exact partReset_editLaws s pins
    · exact law
  | partReset pins => exact command _ fun u _ => partReset_editLaws u pins
  | i2cAddress x read pins => exact i2cAddress_editLaws law x read pins
  | frameTaken pins => exact frameTaken_editLaws law pins
  | openGroup => exact command _ fun _ => cmdOpenGroup_editLaws
  | stageDefine | stageMove | stageResize | stageRetire | stagePool | stageUnpool =>
    exact command _ fun _ => stageEntry_editLaws _
  | closeGroupNow => exact command _ fun _ => cmdCloseNow_editLaws
  | closeGroupMark => exact command _ fun _ => cmdCloseMark_editLaws
  | abandonGroup => exact command _ fun _ => cmdAbandonGroup_editLaws
  | answerRead acks stop => exact spared (answerRead_spares s acks stop)
  | i2cDataByte b => exact spared (i2cDataByte_spares s b)
  | inputArbiterGrant => exact spared (inputArbiterGrant_spares s)
  | heldAccessRecheck => exact spared (heldAccessRecheck_spares s)
  | memoryResponse b good data => exact spared (memoryResponse_spares s b good data)
  | linkDown => exact spared (linkDown_spares s)
  | linkUp => exact spared (linkUp_spares s)
  | markPulseEnd => exact spared ⟨_, rfl, rfl, fun _ on => on⟩
  | tagExpiry i => exact spared ⟨_, rfl, spares_if (spares_of_eq (by simp) (by simp))⟩
  | transactionIssue | drainCompletion | scrubCompletion | scrubFailure | scrubTakeHead | settlingIntervalEnd | i2cIdleTimeout =>
    exact spared ⟨_, rfl, spares_unless (spares_of_eq (by simp) (by simp))⟩
  | forceRelease => exact other _ (cmdForceRelease_spares _)
  | forceReturn => exact other _ (cmdForceReturn_spares _ _)
  | admitBuffer => exact other _ (cmdAdmit_spares _)
  | rescrub => exact other _ (cmdRescrub_spares _)
  | setAgent => exact other _ (cmdSetAgent_spares _ _)
  | agentReset => exact other _ (cmdAgentReset_spares _)
  | clearFault => exact other _ (cmdClearFault_spares _)
  | readFault => exact other _ (cmdReadFault_spares _)
  | readBuffer => exact other _ (cmdReadBuffer_spares _)
  | readPool => exact other _ (cmdReadPool_spares _)
  | readQueue => exact other _ (cmdReadQueue_spares _)
  | find => exact other _ (cmdFind_spares _ _ _)
  | setTimebase => exact other _ (cmdSetTimebase_spares _)
  | setCycle => exact other _ (cmdSetCycle_spares _ _)
  | pacingOn => exact other _ cmdPacingOn_spares
  | pacingOff => exact other _ cmdPacingOff_spares
  | setMemlimit => exact other _ (cmdSetMemlimit_spares _)
  | ackNotices => exact other _ (cmdAckNotices_spares _)
  | setNoticeEnable => exact other _ (cmdSetNoticeEnable_spares _)
  | readGroup | readCycle | readNotices | identify => exact other _ fun u => setAnswer_spares u _ _

/-- Settles O12: by the command at the front of the queue; the queue is no part of the laws. -/
theorem editStageKeepsItsLaws : Obligations.EditStageKeepsItsLaws := by
  intro s t law taken
  unfold step at taken
  split at taken
  · cases taken
    exact law
  · next c rest _ =>
    have queue : State.EditLaws { s with pending := rest } := { law with }
    obtain ⟨u, next, kept⟩ := exec_editLaws c queue
    rw [next] at taken
    cases taken
    exact kept

end Sys2Proof.Machine
end

section
/-! The group commands (R150, R151, R154, R157): the checks in their order, and the whole next state. -/

namespace Sys2Proof.Machine

/-! ### What each row runs -/

section
variable {s : State} (ready : s.ready)
include ready

theorem exec_openGroup : exec .openGroup s = .next (cmdOpenGroup s) := congrArg _ (runCommand_ready ready _)

theorem exec_abandonGroup : exec .abandonGroup s = .next (cmdAbandonGroup s) := congrArg _ (runCommand_ready ready _)

theorem exec_closeGroupMark : exec .closeGroupMark s = .next (cmdCloseMark s) := congrArg _ (runCommand_ready ready _)

theorem exec_stageDefine (n : BitVec 16) (q : Byte) (b : BitVec 24) (l : BitVec 16) :
    exec (.stageDefine n q b l) s = .next (stageEntry (defineEntry n.toNat q.toNat b.toNat l.toNat) s) :=
  congrArg _ (runCommand_ready ready _)

theorem exec_stageMove (n : BitVec 16) (b : BitVec 24) :
    exec (.stageMove n b) s = .next (stageEntry (moveEntry n.toNat b.toNat) s) := congrArg _ (runCommand_ready ready _)

theorem exec_stageResize (n l : BitVec 16) :
    exec (.stageResize n l) s = .next (stageEntry (resizeEntry n.toNat l.toNat) s) := congrArg _ (runCommand_ready ready _)

theorem exec_stageRetire (n : BitVec 16) : exec (.stageRetire n) s = .next (stageEntry (retireEntry n.toNat) s) :=
  congrArg _ (runCommand_ready ready _)

theorem exec_stagePool (q : Byte) (c b : AgentSet) (sc ll : Byte) (lm : BitVec 16) :
    exec (.stagePool q c b sc ll lm) s =
      .next (stageEntry (poolEntry q.toNat c b sc.toNat ll.toNat lm.toNat) s) := congrArg _ (runCommand_ready ready _)

theorem exec_stageUnpool (q : Byte) : exec (.stageUnpool q) s = .next (stageEntry (unpoolEntry q.toNat) s) :=
  congrArg _ (runCommand_ready ready _)

end

/-! ### OPEN_GROUP and ABANDON_GROUP -/

theorem cmdOpenGroup_eq (s : State) :
    cmdOpenGroup s =
      if s.edit.group = .idle then { s with edit.group := .openForEdits, edit.staged := [] }.setAnswer .ok
      else s.setAnswer .busy := by
  unfold cmdOpenGroup
  split
  · next idle => rw [if_pos idle]
  · next opened => rw [if_neg (by simp [opened])]
  · next armed => rw [if_neg (by simp [armed])]

theorem cmdAbandonGroup_eq (s : State) :
    cmdAbandonGroup s =
      if s.edit.group = .idle then s.setAnswer .noGroup
      else { s with edit := { s.edit with group := .idle, staged := [], target := none } }.setAnswer .ok
        [BitVec.ofNat 8 s.edit.staged.length] := by
  unfold cmdAbandonGroup
  split
  · next idle => rw [if_pos idle]
  · next opened => rw [if_neg (by simp [opened]), le_one]
  · next armed => rw [if_neg (by simp [armed]), le_one]

/-- Settles O46: both commands by whether the group is IDLE. -/
theorem groupsOpenAndAreAbandoned : Obligations.GroupsOpenAndAreAbandoned := by
  intro s ready
  rw [exec_openGroup ready, exec_abandonGroup ready, cmdOpenGroup_eq, cmdAbandonGroup_eq]
  exact ⟨rfl, rfl⟩

/-! ### CLOSE_GROUP(MARK) -/

/-- R154: the next mark where the guard is kept, else the one after. -/
theorem closeTarget_eq (t : Timer) :
    t.closeTarget = t.cycleCount + if t.running.guard ≤ t.running.length - 1 - t.position then 1 else 2 := by
  unfold Timer.closeTarget Timer.timeToMark
  split <;> rfl

theorem cmdCloseMark_eq (s : State) :
    cmdCloseMark s =
      if s.edit.group = .idle then s.setAnswer .noGroup
      else if s.edit.group = .armed then s.setAnswer .groupArmed
      else if s.timer.pacing = false then s.setAnswer .noPacing
      else { s with edit.group := .armed, edit.target := some s.timer.closeTarget }.setAnswer .ok
        (le 4 s.timer.closeTarget.toNat) := by
  unfold cmdCloseMark
  split
  · next idle => rw [if_pos idle]
  · next armed => rw [if_neg (by simp [armed]), if_pos armed]
  · next opened =>
    have other : s.edit.group ≠ .idle ∧ s.edit.group ≠ .armed := by simp [opened]
    rw [if_neg other.1, if_neg other.2]

/-- Settles O48: the checks in their order, then the target. -/
theorem groupsCloseForAMark : Obligations.GroupsCloseForAMark := by
  intro s ready target
  rw [exec_closeGroupMark ready, cmdCloseMark_eq, closeTarget_eq]

/-! ### The staging commands -/

/-- R151: a staging command whose arguments make the entry exactly where they are valid, in the order of its checks. -/
theorem stageEntry_inOrder (s : State) {valid : Prop} {made : Option Edit} {e : Edit} (good : valid → made = some e)
    (bad : ¬ valid → made = none) :
    (s.edit.group = .idle → stageEntry made s = s.setAnswer .noGroup) ∧
      (s.edit.group = .armed → stageEntry made s = s.setAnswer .groupArmed) ∧
      (s.edit.group = .openForEdits → ¬ valid → stageEntry made s = s.setAnswer .range) ∧
      (s.edit.group = .openForEdits → valid → 32 ≤ s.edit.staged.length → stageEntry made s = s.setAnswer .groupFull) ∧
      (s.edit.group = .openForEdits → valid → s.edit.staged.length < 32 →
        stageEntry made s =
          { s with edit.staged := s.edit.staged ++ [e] }.setAnswer .ok [BitVec.ofNat 8 s.edit.staged.length]) := by
  refine ⟨fun idle => ?_, fun armed => ?_, fun opened out => ?_, fun opened within full => ?_, fun opened within room => ?_⟩
  · simp only [stageEntry, idle]
  · simp only [stageEntry, armed]
  · simp only [stageEntry, opened, bad out]
  · simp only [stageEntry, opened, good within, Config.stagedCapacity, if_pos full]
  · simp only [stageEntry, opened, good within, Config.stagedCapacity, if_neg (Nat.not_le_of_lt room), le_one]

/-! ### The entries

In range the arguments make the entry that the rule says, out of range none. -/

theorem handleOf_of_valid {n : Nat} {h : Handle} (num : 1 ≤ n ∧ n ≤ 511 → n = h.val + 1) (valid : 1 ≤ n ∧ n ≤ 511) :
    handleOf n = some h := handleOf_of_num (num valid)

theorem poolOf_of_valid {q : Nat} {p : PoolId} (num : q < 8 → q = p.val) (valid : q < 8) : poolOf q = some p := by
  rw [num valid, poolOf_val]

theorem baseOf_of_valid {b : Nat} (valid : b < 262144) : baseOf b = some b := if_pos valid

theorem lengthOf_of_valid {l : Nat} (valid : 1 ≤ l ∧ l ≤ 2048) : lengthOf l = some l := if_pos valid

theorem handle_valid {n : Nat} {h : Handle} (named : handleOf n = some h) : 1 ≤ n ∧ n ≤ 511 := by
  have num := (handleOf_eq_some_iff n h).1 named
  omega

theorem pool_valid {q : Nat} {p : PoolId} (named : poolOf q = some p) : q < 8 := by
  refine Decidable.byContradiction fun out => ?_
  rw [poolOf_eq_none (by omega)] at named
  cases named

theorem base_valid {b c : Nat} (named : baseOf b = some c) : b < 262144 := (Option.ite_none_right_eq_some.1 named).1

theorem length_valid {l m : Nat} (named : lengthOf l = some m) : 1 ≤ l ∧ l ≤ 2048 :=
  (Option.ite_none_right_eq_some.1 named).1

/-- An entry that valid arguments alone make is not made of others. -/
theorem made_none {valid : Prop} {made : Option Edit} (only : ∀ e, made = some e → valid) (out : ¬ valid) : made = none :=
  Option.eq_none_iff_forall_ne_some.2 fun e some_ => out (only e some_)

theorem defineEntry_only (n q b l : Nat) (e : Edit) (made : defineEntry n q b l = some e) :
    (1 ≤ n ∧ n ≤ 511) ∧ q < 8 ∧ b < 262144 ∧ 1 ≤ l ∧ l ≤ 2048 := by
  simp only [defineEntry, Option.bind_eq_bind, Option.bind_eq_some_iff] at made
  obtain ⟨h, handle, p, pool, c, base, m, length, -⟩ := made
  exact ⟨handle_valid handle, pool_valid pool, base_valid base, length_valid length⟩

theorem moveEntry_only (n b : Nat) (e : Edit) (made : moveEntry n b = some e) : (1 ≤ n ∧ n ≤ 511) ∧ b < 262144 := by
  simp only [moveEntry, Option.bind_eq_bind, Option.bind_eq_some_iff] at made
  obtain ⟨h, handle, c, base, -⟩ := made
  exact ⟨handle_valid handle, base_valid base⟩

theorem resizeEntry_only (n l : Nat) (e : Edit) (made : resizeEntry n l = some e) :
    (1 ≤ n ∧ n ≤ 511) ∧ 1 ≤ l ∧ l ≤ 2048 := by
  simp only [resizeEntry, Option.bind_eq_bind, Option.bind_eq_some_iff] at made
  obtain ⟨h, handle, m, length, -⟩ := made
  exact ⟨handle_valid handle, length_valid length⟩

theorem retireEntry_only (n : Nat) (e : Edit) (made : retireEntry n = some e) : 1 ≤ n ∧ n ≤ 511 := by
  obtain ⟨h, handle, -⟩ := Option.map_eq_some_iff.1 made
  exact handle_valid handle

theorem unpoolEntry_only (q : Nat) (e : Edit) (made : unpoolEntry q = some e) : q < 8 := by
  obtain ⟨p, pool, -⟩ := Option.map_eq_some_iff.1 made
  exact pool_valid pool

/-- A lend limit of one byte is in its range. -/
theorem poolEntry_only (q : Nat) (c b : AgentSet) (sc ll lm : Nat) (e : Edit) (made : poolEntry q c b sc ll lm = some e) :
    q < 8 ∧ sc ≤ 1 ∧ lm ≤ 511 := by
  obtain ⟨⟨scrub, -, low⟩, made⟩ := Option.ite_none_right_eq_some.1 made
  obtain ⟨p, pool, -⟩ := Option.map_eq_some_iff.1 made
  exact ⟨pool_valid pool, scrub, low⟩

/-- Settles O47: each command is `stageEntry` of the entry that its arguments make. -/
theorem stagingInOrder : Obligations.StagingInOrder := by
  intro s ready staged isHandle
  refine ⟨fun n q b l h p => ⟨_, exec_stageDefine ready n q b l, fun handle pool => ?_⟩,
    fun n b h => ⟨_, exec_stageMove ready n b, fun handle => ?_⟩,
    fun n l h => ⟨_, exec_stageResize ready n l, fun handle => ?_⟩,
    fun n h => ⟨_, exec_stageRetire ready n, fun handle => ?_⟩,
    fun q c b sc ll lm p => ⟨_, exec_stagePool ready q c b sc ll lm, fun pool => ?_⟩,
    fun q p => ⟨_, exec_stageUnpool ready q, fun pool => ?_⟩⟩
  · refine stageEntry_inOrder s (fun valid => ?_) (made_none (defineEntry_only _ _ _ _))
    obtain ⟨num, small, base, length⟩ := valid
    simp [defineEntry, handleOf_of_valid handle num, poolOf_of_valid pool small, baseOf_of_valid base, lengthOf_of_valid length]
  · refine stageEntry_inOrder s (fun valid => ?_) (made_none (moveEntry_only _ _))
    simp [moveEntry, handleOf_of_valid handle valid.1, baseOf_of_valid valid.2]
  · refine stageEntry_inOrder s (fun valid => ?_) (made_none (resizeEntry_only _ _))
    simp [resizeEntry, handleOf_of_valid handle valid.1, lengthOf_of_valid valid.2]
  · refine stageEntry_inOrder s (fun valid => ?_) (made_none (retireEntry_only _))
    simp [retireEntry, handleOf_of_valid handle valid]
  · refine stageEntry_inOrder s (fun valid => ?_) (made_none (poolEntry_only _ _ _ _ _ _))
    obtain ⟨small, scrub, low⟩ := valid
    have limit : ll.toNat ≤ 255 := by have := ll.isLt; omega
    rw [poolEntry, if_pos ⟨scrub, limit, low⟩, poolOf_of_valid pool small]
    rfl
  · refine stageEntry_inOrder s (fun valid => ?_) (made_none (unpoolEntry_only _))
    simp [unpoolEntry, poolOf_of_valid pool valid]

end Sys2Proof.Machine
end

section
/-! Edit entries against the working image (R158, R160): the image that each kind makes, and the walk entry by entry. -/

namespace Sys2Proof.Machine

/-! ### One entry -/

/-- R160: in a pool that scrubs, a buffer placed becomes SCRUBBING, and is no longer among the handles made FREE. -/
theorem place_of_scrubs {im : Image} (h : Handle) {r : BufRec} (scrubs : (nth im.pools r.pool).scrubs = true) :
    im.place h r =
      { im with
        bufs := put im.bufs h { r with state := .scrubbing }, freed := im.freed.filter (· ≠ h)
        scrubbed := im.scrubbed ++ [h] } := if_pos scrubs

/-- R160: in another pool it becomes FREE. -/
theorem place_of_plain {im : Image} (h : Handle) {r : BufRec} (plain : ¬ (nth im.pools r.pool).scrubs = true) :
    im.place h r = { im with bufs := put im.bufs h { r with state := .free } } := if_neg plain

/-- The image that a MOVE or RESIZE makes, by the setting of the buffer's pool. -/
theorem place_settles (im : Image) (h : Handle) (r : BufRec) :
    im.place h r =
      if (nth im.pools r.pool).scrubs = true then
        { im with
          bufs := put im.bufs h { r with state := .scrubbing }, freed := im.freed.filter (· ≠ h)
          scrubbed := im.scrubbed ++ [h] }
      else { im with bufs := put im.bufs h { r with state := .free }, freed := im.freed } := by
  split
  · next scrubs => exact place_of_scrubs h scrubs
  · next plain => exact place_of_plain h plain

/-- The image that a DEFINE makes: the member count leaves the pool's setting, and a handle noted FREE that becomes SCRUBBING is
noted no more. -/
theorem place_defined (im : Image) (h : Handle) (p : PoolId) (base length members : Nat) :
    (Image.noteFree { im with pools := put im.pools p { nth im.pools p with members := members } } h).place h
        (definedRec p base length) =
      if (nth im.pools p).scrubs = true then
        { im with
          bufs := put im.bufs h { definedRec p base length with state := .scrubbing }
          pools := put im.pools p { nth im.pools p with members := members }
          freed := im.freed.filter (· ≠ h), scrubbed := im.scrubbed ++ [h] }
      else
        { im with
          bufs := put im.bufs h { definedRec p base length with state := .free }
          pools := put im.pools p { nth im.pools p with members := members }
          freed := im.freed.filter (· ≠ h) ++ [h] } := by
  have setting : (nth (put im.pools p { nth im.pools p with members := members }) p).scrubs = (nth im.pools p).scrubs := by
    rw [nth_put_self]
  split
  · next scrubs =>
    rw [place_of_scrubs h (setting.trans scrubs)]
    simp [Image.noteFree]
  · next plain =>
    rw [place_of_plain h (setting ▸ plain)]
    rfl

/-- R25: an UNPOOL sets every field back, the member count among them, which it found at 0. -/
theorem applyEntry_unpool (im : Image) (p : PoolId) :
    applyEntry im (.unpool p) =
      if (nth im.pools p).members ≠ 0 then .error .hasMembers
      else .ok { im with
        pools := put im.pools p
          { defined := false, claimSet := 0, borrowSet := 0, scrubs := false, lendLimit := 0, lowMark := 0, tripped := false
            freeList := (nth im.pools p).freeList, members := 0 } } := by
  rw [applyEntry]
  split
  · rfl
  · next empty =>
    rw [PoolRec.undefine, Decidable.not_not.1 empty]
    rfl

/-! ### The walk -/

/-- R158: a walk goes on after entries that pass, at the index after theirs. -/
theorem walkEntries_append {im im' : Image} {front : List Edit} {k : Nat} (passes : walkEntries k im front = .ok im')
    (back : List Edit) : walkEntries k im (front ++ back) = walkEntries (k + front.length) im' back := by
  induction front generalizing k im with
  | nil =>
    cases passes
    rfl
  | cons e front ih =>
    unfold walkEntries at passes
    split at passes
    · cases passes
    · next im₁ good =>
      rw [List.cons_append, walkEntries]
      simp only [good]
      rw [ih passes, List.length_cons, Nat.add_right_comm, Nat.add_assoc]

theorem walkEntries_passes {im im' : Image} {e : Edit} (good : applyEntry im e = .ok im') (k : Nat) :
    walkEntries k im [e] = .ok im' := by
  simp only [walkEntries, good]

theorem walkEntries_fails {im : Image} {e : Edit} {why : Reason} (bad : applyEntry im e = .error why) (k : Nat)
    (back : List Edit) : walkEntries k im (e :: back) = .error { index := k, reason := why, pair := none } := by
  simp only [walkEntries, bad]

/-- Settles O50: each kind of entry by its checks and the image it makes, then the walk. -/
theorem editEntriesAreJudged : Obligations.EditEntriesAreJudged := by
  refine ⟨fun im h p base length c => ?_, fun _ => rfl,
    fun im im1 front back e passes => ⟨fun im2 good => ?_, fun why bad => ?_⟩⟩
  · intro r q settle
    refine ⟨?_, ?_, ?_, rfl, rfl, applyEntry_unpool im p⟩
    · rw [applyEntry]
      dsimp only
      rw [place_defined]
      rfl
    · rw [applyEntry, place_settles]
      rfl
    · rw [applyEntry, place_settles]
      rfl
  · rw [walkEntries_append passes, walkEntries_passes good]
  · rw [walkEntries_append passes, walkEntries_fails bad, Nat.zero_add]

end Sys2Proof.Machine
end

section
/-! A group presented to the custody unit (R153, R158, R159, R161, R163): the checks on its image, and that it takes effect in all
its entries or in none. -/

namespace Sys2Proof.Machine

/-! ### The last entry that placed a handle (R159) -/

/-- The entries that set a buffer's place. -/
def Edit.places (e : Edit) (h : Handle) : Prop :=
  (∃ p b l, e = .define h p b l) ∨ (∃ b, e = .move h b) ∨ ∃ l, e = .resize h l

theorem placed_iff (e : Edit) (h : Handle) : e.placed = some h ↔ e.places h := by
  cases e <;> simp [Edit.placed, Edit.places]

theorem lastPlacing_of_none {hs : List Handle} {es : List Edit} (unplaced : ∀ e ∈ es, ∀ h ∈ hs, e.placed ≠ some h)
    (k default : Nat) : lastPlacing hs k default es = default := by
  induction es generalizing k default with
  | nil => rfl
  | cons e es ih =>
    obtain ⟨here, later⟩ := List.forall_mem_cons.1 unplaced
    rw [lastPlacing, ih later]
    split
    · next h placed => exact if_neg fun named => here h named placed
    · rfl

/-- The index is that of the one entry that placed such a handle after which none did. -/
theorem lastPlacing_of_last {hs : List Handle} {es : List Edit} {n : Nat} {e : Edit} {h : Handle} (at_ : es[n]? = some e)
    (named : h ∈ hs) (placed : e.placed = some h)
    (last : ∀ m f, n < m → es[m]? = some f → ∀ j ∈ hs, f.placed ≠ some j) (k default : Nat) :
    lastPlacing hs k default es = k + n := by
  induction es generalizing n k default with
  | nil => simp at at_
  | cons f es ih =>
    cases n with
    | zero =>
      obtain rfl : f = e := by simpa using at_
      have later : ∀ f ∈ es, ∀ j ∈ hs, f.placed ≠ some j := by
        intro f mem
        obtain ⟨m, at_⟩ := List.mem_iff_getElem?.1 mem
        exact last (m + 1) f (Nat.succ_pos m) at_
      rw [lastPlacing, lastPlacing_of_none later]
      simp only [placed, if_pos named, Nat.add_zero]
    | succ n =>
      rw [lastPlacing, ih (n := n) at_ fun m g after at_ => last (m + 1) g (Nat.succ_lt_succ after) at_]
      omega

theorem lastPlacing_eq {es : List Edit} {hs : List Handle} {hit : Handle → Prop} {n : Nat} (names : ∀ h, h ∈ hs ↔ hit h)
    (last : (∃ e h, es[n]? = some e ∧ hit h ∧ e.places h) ∧
      ∀ m e h, n < m → es[m]? = some e → hit h → ¬ e.places h) :
    lastPlacing hs 0 0 es = n := by
  obtain ⟨⟨e, h, at_, named, placed⟩, later⟩ := last
  rw [lastPlacing_of_last at_ ((names h).2 named) ((placed_iff e h).2 placed) fun m f after at_ j mem =>
    mt (placed_iff f j).1 (later m f j after at_ ((names j).1 mem)), Nat.zero_add]

/-! ### The checks on the image (R159) -/

/-- In an ascending list the first that passes is the lowest that does. -/
theorem find?_of_lowest {n : Nat} {l : List (Fin n)} {p : Fin n → Bool} {i : Fin n} (ascending : l.Pairwise (· < ·))
    (mem : i ∈ l) (hit : p i = true) (low : ∀ j ∈ l, j < i → p j = false) : l.find? p = some i := by
  induction l with
  | nil => cases mem
  | cons j l ih =>
    obtain ⟨above, ascending⟩ := List.pairwise_cons.1 ascending
    rcases List.mem_cons.1 mem with rfl | mem
    · exact List.find?_cons_of_pos hit
    · rw [List.find?_cons_of_neg (by simp [low j List.mem_cons_self (above i mem)])]
      exact ih ascending mem fun k inside => low k (List.mem_cons_of_mem j inside)

theorem mem_definedHandles (bufs : Vector BufRec 511) (h : Handle) :
    h ∈ definedHandles bufs ↔ (nth bufs h).state ≠ .void := by
  simp [definedHandles]

theorem definedHandles_ascending (bufs : Vector BufRec 511) : (definedHandles bufs).Pairwise (· < ·) :=
  (List.pairwise_lt_finRange 511).filter _

/-- A non-VOID buffer that ends above 1 GiB. -/
def endsOutside (bufs : Vector BufRec 511) (h : Handle) : Prop :=
  (nth bufs h).state ≠ .void ∧ Config.memoryUnits < (nth bufs h).base + (nth bufs h).length

/-- A pair of non-VOID buffers, the lower handle first, that shares a unit. -/
def overlaps (bufs : Vector BufRec 511) (h k : Handle) : Prop :=
  h < k ∧ (nth bufs h).state ≠ .void ∧ (nth bufs k).state ≠ .void ∧
    (nth bufs k).base < (nth bufs h).base + (nth bufs h).length ∧ (nth bufs h).base < (nth bufs k).base + (nth bufs k).length

theorem sharesUnit_iff (a b : BufRec) :
    sharesUnit a b = true ↔ b.base < a.base + a.length ∧ a.base < b.base + b.length := by
  simp [sharesUnit]

theorem firstOutside_eq_none_iff (bufs : Vector BufRec 511) :
    firstOutside bufs (definedHandles bufs) = none ↔ ∀ h, ¬ endsOutside bufs h := by
  simp [firstOutside, List.find?_eq_none, mem_definedHandles, endsOutside]

theorem firstOutside_of_lowest {bufs : Vector BufRec 511} {h : Handle} (outside : endsOutside bufs h)
    (low : ∀ k, k < h → ¬ endsOutside bufs k) : firstOutside bufs (definedHandles bufs) = some h := by
  refine find?_of_lowest (definedHandles_ascending bufs) ((mem_definedHandles bufs h).2 outside.1) ?_ fun k mem below => ?_
  · simpa using outside.2
  · have inside := low k below
    rw [mem_definedHandles] at mem
    simpa [endsOutside, mem] using inside

theorem firstOverlap_cons_of_some {bufs : Vector BufRec 511} {h k : Handle} {l : List Handle}
    (found : l.find? (fun k => sharesUnit (nth bufs h) (nth bufs k)) = some k) : firstOverlap bufs (h :: l) = some (h, k) := by
  simp only [firstOverlap, found]

theorem firstOverlap_cons_of_none {bufs : Vector BufRec 511} {h : Handle} {l : List Handle}
    (alone : l.find? (fun k => sharesUnit (nth bufs h) (nth bufs k)) = none) :
    firstOverlap bufs (h :: l) = firstOverlap bufs l := by
  simp only [firstOverlap, alone]

theorem firstOverlap_eq_none_iff (bufs : Vector BufRec 511) (l : List Handle) :
    firstOverlap bufs l = none ↔ l.Pairwise fun h k => ¬ sharesUnit (nth bufs h) (nth bufs k) = true := by
  induction l with
  | nil => simp [firstOverlap]
  | cons h l ih =>
    rw [List.pairwise_cons, ← ih, ← List.find?_eq_none]
    cases found : l.find? fun k => sharesUnit (nth bufs h) (nth bufs k) with
    | none => simp [firstOverlap_cons_of_none found]
    | some k => simp [firstOverlap_cons_of_some found]

/-- The pair with the lowest lower handle, and for that handle the lowest partner. -/
theorem firstOverlap_of_lowest {bufs : Vector BufRec 511} {h k : Handle} {l : List Handle} (ascending : l.Pairwise (· < ·))
    (first : h ∈ l) (partner : k ∈ l) (order : h < k) (shares : sharesUnit (nth bufs h) (nth bufs k) = true)
    (low : ∀ i ∈ l, ∀ j ∈ l, i < j → sharesUnit (nth bufs i) (nth bufs j) = true → h < i ∨ h = i ∧ k ≤ j) :
    firstOverlap bufs l = some (h, k) := by
  induction l with
  | nil => cases first
  | cons i l ih =>
    obtain ⟨above, rest⟩ := List.pairwise_cons.1 ascending
    have in_rest {j : Handle} (mem : j ∈ i :: l) (after : i < j) : j ∈ l :=
      (List.mem_cons.1 mem).resolve_left (Fin.ne_of_gt after)
    rcases List.mem_cons.1 first with rfl | first
    · refine firstOverlap_cons_of_some (find?_of_lowest rest (in_rest partner order) shares fun j mem below => ?_)
      refine Bool.eq_false_iff.2 fun hit => ?_
      rcases low h List.mem_cons_self j (List.mem_cons_of_mem h mem) (above j mem) hit with lower | ⟨-, after⟩
      · exact Fin.lt_irrefl h lower
      · exact Fin.not_lt.2 after below
    · have before : i < h := above h first
      have alone : l.find? (fun j => sharesUnit (nth bufs i) (nth bufs j)) = none := by
        refine List.find?_eq_none.2 fun j mem hit => ?_
        rcases low i List.mem_cons_self j (List.mem_cons_of_mem i mem) (above j mem) hit with lower | ⟨same, -⟩
        · exact Fin.lt_asymm before lower
        · exact Fin.ne_of_gt before same
      rw [firstOverlap_cons_of_none alone]
      exact ih rest first (in_rest partner (Fin.lt_trans before order)) fun a memA b memB =>
        low a (List.mem_cons_of_mem i memA) b (List.mem_cons_of_mem i memB)

/-- A relation between all handles in their order. -/
theorem pairwise_finRange_iff {n : Nat} {R : Fin n → Fin n → Prop} :
    (List.finRange n).Pairwise R ↔ ∀ i j, i < j → R i j := by
  have at_ (i : Nat) (inside : i < (List.finRange n).length) :
      (List.finRange n)[i] = ⟨i, by rwa [List.length_finRange] at inside⟩ := List.getElem_finRange inside
  rw [List.pairwise_iff_getElem]
  constructor
  · intro each i j below
    have related := each i j (by rw [List.length_finRange]; exact i.isLt) (by rw [List.length_finRange]; exact j.isLt) below
    rwa [at_, at_] at related
  · intro each i j insideI insideJ below
    rw [at_, at_]
    exact each _ _ below

theorem firstOverlap_defined_eq_none_iff (bufs : Vector BufRec 511) :
    firstOverlap bufs (definedHandles bufs) = none ↔ ∀ h k, ¬ overlaps bufs h k := by
  rw [firstOverlap_eq_none_iff, definedHandles, List.pairwise_filter, pairwise_finRange_iff]
  simp only [sharesUnit_iff, overlaps, decide_eq_true_eq, not_and]

theorem firstOverlap_defined_of_lowest {bufs : Vector BufRec 511} {h k : Handle} (overlap : overlaps bufs h k)
    (low : ∀ i j, overlaps bufs i j → h < i ∨ h = i ∧ k ≤ j) :
    firstOverlap bufs (definedHandles bufs) = some (h, k) := by
  obtain ⟨order, aliveH, aliveK, shares⟩ := overlap
  refine firstOverlap_of_lowest (definedHandles_ascending bufs) ((mem_definedHandles bufs h).2 aliveH)
    ((mem_definedHandles bufs k).2 aliveK) order ((sharesUnit_iff _ _).2 shares) fun i memI j memJ below hit => ?_
  exact low i j ⟨below, (mem_definedHandles bufs i).1 memI, (mem_definedHandles bufs j).1 memJ, (sharesUnit_iff _ _).1 hit⟩

/-! ### What follows an event moves no buffer -/

/-- An access forwarded leaves the place of every buffer. -/
theorem forward_place (s : State) (t : Txn) (h k : Handle) (i : TagIndex) :
    ((s.forward t h i).buf k).base = (s.buf k).base ∧ ((s.forward t h i).buf k).length = (s.buf k).length := by
  show ((s.setBuf h _).buf k).base = _ ∧ ((s.setBuf h _).buf k).length = _
  rw [buf_setBuf]
  split
  · next e => exact e ▸ ⟨rfl, rfl⟩
  · exact ⟨rfl, rfl⟩

theorem recheckGranted_place (s : State) (i : TagIndex) (k : Handle) :
    ((s.recheckGranted i).buf k).base = (s.buf k).base ∧ ((s.recheckGranted i).buf k).length = (s.buf k).length := by
  unfold State.recheckGranted
  split
  · exact ⟨rfl, rfl⟩
  · dsimp only
    split
    · exact ⟨rfl, rfl⟩
    · split
      · simp [State.buf]
      · exact forward_place { s.dropHold with mem.preference := .scrub } _ _ k i

theorem grantOnce_place (s : State) (k : Handle) :
    (s.grantOnce.buf k).base = (s.buf k).base ∧ (s.grantOnce.buf k).length = (s.buf k).length := by
  unfold State.grantOnce
  split
  · exact ⟨rfl, rfl⟩
  · exact recheckGranted_place s _ k
  · simp [State.buf]

theorem kick_place (s : State) (k : Handle) :
    (s.kick.buf k).base = (s.buf k).base ∧ (s.kick.buf k).length = (s.buf k).length :=
  arbitrate_keeps_law (law := fun u => (u.buf k).base = (s.buf k).base ∧ (u.buf k).length = (s.buf k).length)
    (fun u same => ⟨(grantOnce_place u k).1.trans same.1, (grantOnce_place u k).2.trans same.2⟩) (by simp [State.buf])

/-! ### The group presented -/

/-- R153, R155, R163: what the edit stage does in the event of an apply, whatever the outcome. -/
def State.closeWith (s : State) (count : Option (BitVec 32)) (r : Option Rejection) (u : State) : State :=
  { u with edit := { group := .idle, staged := [], target := none
                     outcome := some { rejection := r, cycleCount := count, entries := s.edit.staged.length } }
  }.raise .groupDone

theorem presentGroup_of_rejected {s : State} {r : Rejection} (rejected : s.judge s.edit.staged = .error r)
    (count : Option (BitVec 32)) : s.presentGroup count = s.closeWith count (some r) s := by
  simp only [State.presentGroup, State.applyGroup, rejected]
  rfl

theorem presentGroup_of_applied {s : State} {im : Image} (applied : s.judge s.edit.staged = .ok im)
    (count : Option (BitVec 32)) : s.presentGroup count = s.closeWith count none (s.adopt im) := by
  simp only [State.presentGroup, State.applyGroup, applied]
  rfl

theorem judge_of_walk_error {s : State} {es : List Edit} {r : Rejection} (failed : walkEntries 0 s.image es = .error r) :
    s.judge es = .error r := by
  simp only [State.judge, failed]

section
variable {s : State} {es : List Edit} {im : Image} (walked : walkEntries 0 s.image es = .ok im)
include walked

theorem judge_of_check_some {r : Rejection} (rejects : checkImage es im = some r) : s.judge es = .error r := by
  simp only [State.judge, walked, rejects]

theorem judge_of_check_none (passes : checkImage es im = none) : s.judge es = .ok im := by
  simp only [State.judge, walked, passes]

end

theorem checkImage_of_outside {es : List Edit} {im : Image} {h : Handle}
    (outside : firstOutside im.bufs (definedHandles im.bufs) = some h) :
    checkImage es im = some ⟨lastPlacing [h] 0 0 es, .outsideMemory, none⟩ := by
  unfold checkImage
  dsimp only
  generalize firstOverlap im.bufs (definedHandles im.bufs) = overlap
  rw [outside]

theorem checkImage_of_overlap {es : List Edit} {im : Image} {h k : Handle}
    (inside : firstOutside im.bufs (definedHandles im.bufs) = none)
    (overlap : firstOverlap im.bufs (definedHandles im.bufs) = some (h, k)) :
    checkImage es im = some ⟨lastPlacing [h, k] 0 0 es, .overlap, some (h, k)⟩ := by
  unfold checkImage
  dsimp only
  rw [inside, overlap]

theorem checkImage_eq_none_iff (es : List Edit) (im : Image) :
    checkImage es im = none ↔ (∀ h, ¬ endsOutside im.bufs h) ∧ ∀ h k, ¬ overlaps im.bufs h k := by
  rw [← firstOutside_eq_none_iff, ← firstOverlap_defined_eq_none_iff]
  unfold checkImage
  dsimp only
  split
  · next outside => simp [outside]
  · next overlap => simp [overlap]
  · next inside apart => simp [inside, apart]

/-- R158, R159: an image that is applied lies in memory, and no two of its buffers share a unit. -/
theorem judge_ok_apart {s : State} {es : List Edit} {im : Image} (good : s.judge es = .ok im) :
    (∀ h, ¬ endsOutside im.bufs h) ∧ ∀ h k, ¬ overlaps im.bufs h k := by
  unfold State.judge at good
  split at good
  · cases good
  · split at good
    · cases good
    · next passes =>
      cases good
      exact (checkImage_eq_none_iff es im).1 passes

/-- R161: the records are the image's, each pool's free list is built anew and its flag follows, the scrub queue gains those made
SCRUBBING. -/
theorem adopt_eq (s : State) (im : Image) :
    ∃ pools : Vector PoolRec 8,
      s.adopt im = { s with custody.bufs := im.bufs, custody.pools := pools, scrub.queue := s.scrub.queue ++ im.scrubbed } ∧
        ∀ p, nth pools p =
          { nth im.pools p with
            freeList := freeListAfter s im p
            tripped := decide ((freeListAfter s im p).length < (nth im.pools p).lowMark) } :=
  ⟨_, rfl, fun p => adopt_pool s im p⟩

/-! ### The outcomes -/

section
variable {s : State} {im : Image} (walked : walkEntries 0 s.image s.edit.staged = .ok im)
include walked

/-- R159: the lowest buffer that ends above 1 GiB rejects the group. -/
theorem presentGroup_outside {h : Handle} {n : Nat} (count : Option (BitVec 32)) (outside : endsOutside im.bufs h)
    (low : ∀ k, k < h → ¬ endsOutside im.bufs k) (last : lastPlacing [h] 0 0 s.edit.staged = n) :
    s.presentGroup count = s.closeWith count (some ⟨n, .outsideMemory, none⟩) s := by
  have rejects := checkImage_of_outside (es := s.edit.staged) (firstOutside_of_lowest outside low)
  rw [last] at rejects
  exact presentGroup_of_rejected (judge_of_check_some walked rejects) count

/-- R159: else the lowest pair that shares a unit does. -/
theorem presentGroup_overlap {h k : Handle} {n : Nat} (count : Option (BitVec 32)) (inside : ∀ j, ¬ endsOutside im.bufs j)
    (overlap : overlaps im.bufs h k) (low : ∀ i j, overlaps im.bufs i j → h < i ∨ h = i ∧ k ≤ j)
    (last : lastPlacing [h, k] 0 0 s.edit.staged = n) :
    s.presentGroup count = s.closeWith count (some ⟨n, .overlap, some (h, k)⟩) s := by
  have rejects := checkImage_of_overlap (es := s.edit.staged) ((firstOutside_eq_none_iff im.bufs).2 inside)
    (firstOverlap_defined_of_lowest overlap low)
  rw [last] at rejects
  exact presentGroup_of_rejected (judge_of_check_some walked rejects) count

/-- R161: else the image becomes the table. -/
theorem presentGroup_applied (count : Option (BitVec 32)) (inside : ∀ j, ¬ endsOutside im.bufs j)
    (apart : ∀ i j, ¬ overlaps im.bufs i j) : s.presentGroup count = s.closeWith count none (s.adopt im) :=
  presentGroup_of_applied (judge_of_check_none walked ((checkImage_eq_none_iff _ im).2 ⟨inside, apart⟩)) count

end

/-! ### CLOSE_GROUP(NOW) -/

theorem exec_closeGroupNow {s : State} (ready : s.ready) : exec .closeGroupNow s = .next (cmdCloseNow s) :=
  congrArg _ (runCommand_ready ready _)

/-- The state that CLOSE_GROUP(NOW) answers in, before the engine and the arbiter have their turn. -/
def State.closedNow (s : State) : State :=
  (s.presentGroup none).setAnswer .ok ((s.presentGroup none).edit.image.drop 6)

/-- R153, R163: the payload is the group image after its first six bytes, which are those of the outcome. -/
theorem cmdCloseNow_opened {s : State} (opened : s.edit.group = .openForEdits) : cmdCloseNow s = s.closedNow.kick := by
  simp only [cmdCloseNow, opened]
  rfl

theorem closedNow_quiet {s : State} {r : Rejection} (quiet : s.quiet) (rejected : (s.applyGroup s.edit.staged).2 = some r) :
    s.closedNow.custody = s.custody ∧ s.closedNow.scrub = s.scrub ∧ s.closedNow.quiet := by
  cases judged : s.judge s.edit.staged with
  | ok im => simp [State.applyGroup, judged] at rejected
  | error why =>
    have presented := presentGroup_of_rejected judged none
    have custody : s.closedNow.custody = s.custody := by rw [State.closedNow, presented]; rfl
    have scrub : s.closedNow.scrub = s.scrub := by rw [State.closedNow, presented]; rfl
    exact ⟨custody, scrub, quiet_of_eq quiet (by simp [State.closedNow]) scrub (by simp [State.closedNow])⟩

/-- R159: the buffers of a group that was applied lie in memory, and apart from each other. -/
theorem closedNow_apart {s : State} (applied : (s.applyGroup s.edit.staged).2 = none) :
    (∀ h, ¬ endsOutside s.closedNow.custody.bufs h) ∧ ∀ h k, ¬ overlaps s.closedNow.custody.bufs h k := by
  cases judged : s.judge s.edit.staged with
  | error r => simp [State.applyGroup, judged] at applied
  | ok im =>
    have bufs : s.closedNow.custody.bufs = im.bufs := by rw [State.closedNow, presentGroup_of_applied judged none]; rfl
    rw [bufs]
    exact judge_ok_apart judged

/-- Where no pair overlaps, of two non-VOID buffers one ends at or before the base of the other. -/
theorem apart_of_ne {bufs : Vector BufRec 511} (apart : ∀ h k, ¬ overlaps bufs h k) {h k : Handle} (ne : h ≠ k)
    (aliveH : (nth bufs h).state ≠ .void) (aliveK : (nth bufs k).state ≠ .void) :
    (nth bufs h).base + (nth bufs h).length ≤ (nth bufs k).base ∨
      (nth bufs k).base + (nth bufs k).length ≤ (nth bufs h).base := by
  rcases Fin.lt_or_lt_of_ne ne with below | above
  · have free := Decidable.not_and_iff_not_or_not.1 fun hit => apart h k ⟨below, aliveH, aliveK, hit⟩
    exact free.imp Nat.le_of_not_lt Nat.le_of_not_lt
  · have free := Decidable.not_and_iff_not_or_not.1 fun hit => apart k h ⟨above, aliveK, aliveH, hit⟩
    exact free.symm.imp Nat.le_of_not_lt Nat.le_of_not_lt

/-- R159: what follows the apply moves no buffer, so the table stays in memory and apart. -/
theorem closeNow_layout {s : State} (applied : (s.applyGroup s.edit.staged).2 = none) (h : Handle)
    (alive : (s.closedNow.kick.buf h).state ≠ .void) :
    (s.closedNow.kick.buf h).base + (s.closedNow.kick.buf h).length ≤ 262144 ∧
      ∀ k, (s.closedNow.kick.buf k).state ≠ .void → h ≠ k →
        (s.closedNow.kick.buf h).base + (s.closedNow.kick.buf h).length ≤ (s.closedNow.kick.buf k).base ∨
          (s.closedNow.kick.buf k).base + (s.closedNow.kick.buf k).length ≤ (s.closedNow.kick.buf h).base := by
  obtain ⟨inside, apart⟩ := closedNow_apart applied
  simp only [kick_place, kick_record] at alive ⊢
  exact ⟨Nat.le_of_not_lt fun above => inside h ⟨alive, above⟩, fun k aliveK ne => apart_of_ne apart ne alive aliveK⟩

theorem closedNow_unheld {s : State} (quiet : s.quiet) : s.closedNow.mayGrant → s.closedNow.checker.hold = none :=
  presentGroup_unheld quiet none

/-- Settles O49: the outcome by the walk and the two checks of R159, then CLOSE_GROUP(NOW) by the group's state. -/
theorem groupsApplyAllOrNone : Obligations.GroupsApplyAllOrNone := by
  refine ⟨fun s count => ⟨rfl, fun r failed => ?_, fun im walked => ⟨fun h n outside low last => ?_,
    fun h k n inside overlap low last => ?_, fun inside apart => ?_⟩⟩, fun s ready => ⟨fun idle => ?_, fun armed => ?_,
    fun opened => ?_⟩⟩
  · exact presentGroup_of_rejected (judge_of_walk_error failed) count
  · exact presentGroup_outside walked count outside low (lastPlacing_eq (by simp) last)
  · exact presentGroup_overlap walked count inside overlap low (lastPlacing_eq (by simp) last)
  · obtain ⟨pools, adopted, each⟩ := adopt_eq s im
    exact ⟨pools, by rw [presentGroup_applied walked count inside apart, adopted]; rfl, each⟩
  · rw [exec_closeGroupNow ready, cmdCloseNow, idle]
  · rw [exec_closeGroupNow ready, cmdCloseNow, armed]
  · have closed : exec .closeGroupNow s = .next s.closedNow.kick := by
      rw [exec_closeGroupNow ready, cmdCloseNow_opened opened]
    have notice : s.closedNow.notice .groupDone = true := presentGroup_groupDone s none
    have edit : s.closedNow.kick.edit = (s.presentGroup none).edit := by simp [State.closedNow]
    refine ⟨closed, _, ⟨(s.applyGroup s.edit.staged).2, none, s.edit.staged.length⟩, closed, edit, rfl, rfl,
      kick_notice notice, ?_, ?_, ?_, fun quiet => ?_, fun quiet => ?_, fun quiet rejected => ?_, closeNow_layout⟩
    · rw [edit]
      simp [State.closedNow, State.setAnswer]
    · simp [State.closedNow]
    · simp [State.closedNow]
    · have same := kick_untouched (closedNow_unheld quiet)
      exact ⟨by rw [same.stage]; simp [State.closedNow], by rw [same.checker]; simp [State.closedNow],
        by rw [same.responses]; simp [State.closedNow]⟩
    · exact (kick_untouched (closedNow_unheld quiet)).custody
    · obtain ⟨r, rejected⟩ := Option.ne_none_iff_exists'.1 rejected
      obtain ⟨custody, scrub, still⟩ := closedNow_quiet quiet rejected
      rw [kick_of_quiet _ still]
      exact ⟨custody, scrub⟩

end Sys2Proof.Machine
end

section
/-! Part reset: the values of every block (R178, R181), and that every law of the state holds in them. -/

namespace Sys2Proof.Machine

/-! ### PART_RESET and the release of RESET -/

/-- R178: part reset puts every block at its part-reset values, with the own address from the pins. -/
theorem partReset_atPartReset (s : State) (pins : BitVec 2) : (s.partReset pins).AtPartReset pins where
  records h := by simp [State.partReset, State.buf, Custody.reset, BufRec.reset]
  pools p := by simp [State.partReset, State.pool, Custody.reset, PoolRec.reset]
  queues a := by simp [State.partReset, State.queue, Custody.reset]
  stagePort := by simp [State.partReset, State.waiting, State.entry, StagePort.reset]
  checker := by simp [State.partReset, State.agent, Checker.reset]
  memory := by simp [State.partReset, State.tag, MemPort.reset, Config.settlingTicks]
  scrub := ⟨rfl, rfl⟩
  timer := ⟨rfl, rfl, rfl, rfl, rfl, rfl, rfl, rfl⟩
  edit := ⟨rfl, rfl, rfl, rfl⟩
  port := ⟨rfl, rfl, rfl, rfl, rfl, rfl, rfl, rfl, rfl⟩

theorem exec_partReset {s : State} (ready : s.ready) (pins : BitVec 2) :
    exec (.partReset pins) s = .next (s.partReset pins) := congrArg _ (runCommand_ready ready _)

/-- Settles O3: both rows run `partReset`, which writes every block and leaves the logs of what was sent. -/
theorem partResetValues : Obligations.PartResetValues := by
  intro s pins
  have reset : (s.partReset pins).AtPartReset pins ∧ (s.partReset pins).resetLow = false ∧ (s.partReset pins).sent = s.sent :=
    ⟨partReset_atPartReset s pins, rfl, rfl⟩
  refine ⟨fun ready => ⟨_, exec_partReset ready pins, reset⟩, fun low => ⟨_, ?_, reset⟩, fun high => ?_⟩
  · simp only [exec, execResetRelease, low, if_true]
  · simp only [exec, execResetRelease, high, Bool.false_eq_true, if_false]

/-! ### The laws after part reset -/

@[simp] theorem partReset_buf (s : State) (pins : BitVec 2) (h : Handle) : (s.partReset pins).buf h = BufRec.reset := by
  simp [State.partReset, State.buf, Custody.reset]

@[simp] theorem partReset_pool (s : State) (pins : BitVec 2) (p : PoolId) : (s.partReset pins).pool p = PoolRec.reset := by
  simp [State.partReset, State.pool, Custody.reset]

theorem partReset_custodyLawful (s : State) (pins : BitVec 2) : (s.partReset pins).custodyLawful := by
  refine ⟨fun h => ?_, fun h => ?_, partReset_collected s pins⟩ <;> rw [partReset_buf] <;> constructor <;> simp [BufRec.reset]

/-- R26: no pool has a member. -/
theorem partReset_membersCounted (s : State) (pins : BitVec 2) : (s.partReset pins).membersCounted := by
  refine (membersCounted_iff _).2 fun p => ?_
  rw [partReset_pool]
  exact (memberCount_reset p).symm

/-- R120: no tag is held, by a burst or otherwise. -/
theorem partReset_burstsHoldTags (s : State) (pins : BitVec 2) : (s.partReset pins).burstsHoldTags := by
  refine burstsHoldTags_of_none (fun i h n => ?_) rfl
  simp [(owner_eq_none _).2 ((partReset_atPartReset s pins).memory.1 i).1]

/-- R34: a pool without a low mark is not low. -/
theorem partReset_lowFlags (s : State) (pins : BitVec 2) : (s.partReset pins).lowFlagsFollow := by
  intro p
  simp [PoolRec.reset]

theorem partReset_queuesBounded (s : State) (pins : BitVec 2) : (s.partReset pins).queuesBounded := by
  intro a
  simp [(partReset_atPartReset s pins).queues a]

theorem reset_port_inRange : State.reset.mgmt.InRange where
  ownAddress := by decide
  memLimit := by decide
  payload := by decide
  idleCount := by decide
  frame := rfl

/-- Settles O5: the state after reset is by definition what part reset with the pins low leaves (log 9), where each law holds. -/
theorem lawsHoldAtReset : Obligations.LawsHoldAtReset := by
  have idle : State.reset.scrubLaws := scrubLaws_of_idle rfl
  have bursts := partReset_burstsHoldTags State.reset 0
  have counted := partReset_counted State.reset 0
  exact ⟨partReset_atPartReset State.reset 0, partReset_custodyLawful State.reset 0, partReset_membersCounted State.reset 0,
    counted, tagsAccounted_of_laws counted idle bursts, bursts, partReset_entries State.reset 0, partReset_lowFlags State.reset 0,
    partReset_faults State.reset 0, partReset_editLaws State.reset 0, timerReset_inRange,
    fun _ i => ((partReset_atPartReset State.reset 0).memory.1 i).1, idle, quiet_of_down rfl, partReset_queuesBounded State.reset 0,
    reset_port_inRange⟩

end Sys2Proof.Machine
end

section
/-! The notices and the memory limit: the positions of 11.2, IRQ, and the whole next state of ACK_NOTICES, SET_NOTICE_ENABLE and
SET_MEMLIMIT (R172, R175, R176). -/

namespace Sys2Proof.Machine

/-- R176: IRQ is asserted exactly while a notice is both pending and enabled. -/
theorem irq_iff (s : State) :
    s.irq = true ↔ ∃ k, k < 29 ∧ s.mgmt.notices.getLsbD k = true ∧ s.mgmt.enable.getLsbD k = true := by
  have zero : s.mgmt.notices &&& s.mgmt.enable = 0 ↔
      ∀ k, k < 29 → ¬(s.mgmt.notices.getLsbD k = true ∧ s.mgmt.enable.getLsbD k = true) := by
    rw [BitVec.eq_of_getLsbD_eq_iff]
    simp [BitVec.getLsbD_and]
  rw [State.irq, bne_iff_ne, Ne, zero]
  simp only [not_forall, not_not, exists_prop]

theorem positionsOf_eq_none {n : Nat} (out : 2 ^ 29 ≤ n) : positionsOf n = none := if_neg (Nat.not_lt.2 out)

theorem positionsOf_toNat {n : BitVec 32} (within : n.toNat < 2 ^ 29) : positionsOf n.toNat = some (n.setWidth 29) := by
  rw [positionsOf, if_pos within, BitVec.ofNat_toNat]

/-- R175: the notices left by an acknowledgement are those not named, and the FAULT bits. -/
theorem acked_at (set named : NoticeSet) {k : Nat} (within : k < 29) :
    (set &&& ~~~ (named &&& ~~~ faultPositions)).getLsbD k = (set.getLsbD k && (decide (k < 16) || !named.getLsbD k)) := by
  have fault : faultPositions.getLsbD k = decide (k < 16) :=
    (by decide : ∀ k, k < 29 → faultPositions.getLsbD k = decide (k < 16)) k within
  simp only [BitVec.getLsbD_and, BitVec.getLsbD_not, fault, within, decide_true, Bool.true_and, Bool.not_and, Bool.not_not,
    Bool.or_comm]

section Ready
variable {s : State} (ready : s.ready)
include ready

theorem exec_ackNotices (n : BitVec 32) : exec (.ackNotices n) s = .next (cmdAckNotices n.toNat s) :=
  congrArg _ (runCommand_ready ready _)

theorem exec_setNoticeEnable (n : BitVec 32) : exec (.setNoticeEnable n) s = .next (cmdSetNoticeEnable n.toNat s) :=
  congrArg _ (runCommand_ready ready _)

theorem exec_setMemlimit (l : BitVec 16) : exec (.setMemlimit l) s = .next (cmdSetMemlimit l.toNat s) :=
  congrArg _ (runCommand_ready ready _)

end Ready

/-- R175, R180: ACK_NOTICES of 29 positions. -/
theorem cmdAckNotices_eq {n : BitVec 32} (within : n.toNat < 2 ^ 29) (s : State) :
    ∃ left : NoticeSet, cmdAckNotices n.toNat s = { s with mgmt.notices := left }.setAnswer .ok (le 4 left.toNat) ∧
      ∀ k, k < 29 → left.getLsbD k = (s.mgmt.notices.getLsbD k && (decide (k < 16) || !n.getLsbD k)) := by
  refine ⟨_, by rw [cmdAckNotices, positionsOf_toNat within]; rfl, fun k lt => ?_⟩
  rw [acked_at _ _ lt, BitVec.getLsbD_setWidth]
  simp only [lt, decide_true, Bool.true_and]

/-- Settles O56: the positions by the notice, then each command by its range. -/
theorem noticesAndLimit : Obligations.NoticesAndLimit := by
  refine ⟨fun n => ?_, fun s => ⟨irq_iff s, fun ready n => ⟨fun out => ?_, fun within => ?_⟩, fun ready l => ?_⟩⟩
  · intro here s
    have place : here = n.position := by cases n <;> rfl
    clear_value here
    subst place
    exact ⟨rfl, ⟨_, rfl, fun k _ => raise_at s n k⟩, ⟨_, rfl, fun k _ => lower_at s n k⟩⟩
  · rw [exec_ackNotices ready, exec_setNoticeEnable ready, cmdAckNotices, cmdSetNoticeEnable, positionsOf_eq_none out]
    exact ⟨rfl, rfl⟩
  · obtain ⟨left, acked, bits⟩ := cmdAckNotices_eq within s
    refine ⟨?_, left, by rw [exec_ackNotices ready, acked], bits⟩
    rw [exec_setNoticeEnable ready, cmdSetNoticeEnable, positionsOf_toNat within]
    rfl
  · rw [exec_setMemlimit ready, cmdSetMemlimit]

end Sys2Proof.Machine
end

section
/-! Reads of the answer: the frame of an answer and its check byte, and the bytes that a read sends (R169, 11.2). -/

namespace Sys2Proof.Machine

/-! ### The answer frame -/

/-- The check byte brings the sum of the bytes before it to 0. -/
theorem sum_checkByte (body : List Byte) : (body ++ [checkByte body]).foldl (· + ·) 0 = 0 := by
  rw [List.foldl_append, checkByte, List.foldl_cons, List.foldl_nil]
  exact (BitVec.add_comm _ _).trans (BitVec.sub_add_cancel 0 _)

theorem answer_frame (a : HostAnswer) :
    let body : List Byte := [BitVec.ofNat 8 a.status.code, BitVec.ofNat 8 a.payload.length] ++ a.payload
    a.frame = body ++ [checkByte body] := rfl

theorem answer_frame_length (a : HostAnswer) : a.frame.length = a.payload.length + 3 := by
  simp only [answer_frame, List.length_append, List.length_cons, List.length_nil]
  omega

/-! ### The bytes of a read -/

/-- R169: what the `k`th byte of a read is: the next of the bytes left, 0xFF after the last and after a byte not acknowledged. -/
def readByte (rest : List Byte) (acks : List Bool) (k : Nat) : BusOut :=
  .byte (if (acks.take k).all id then rest.getD k 0xFF else 0xFF)

theorem readByte_zero (rest : List Byte) (acks : List Bool) : readByte rest acks 0 = .byte (rest.headD 0xFF) := by
  cases rest <;> rfl

/-- After the first byte a read goes on with the bytes that its acknowledge leaves. -/
theorem readByte_succ (rest : List Byte) (acknowledged : Bool) (acks : List Bool) (k : Nat) :
    readByte rest (acknowledged :: acks) (k + 1) = readByte (if acknowledged then rest.tail else []) acks k := by
  cases acknowledged with
  | false => simp [readByte]
  | true => cases rest <;> simp [readByte]

/-- The whole effect of the bytes sent, by induction on the acknowledges. -/
theorem sendBytes_eq (s : State) (acks : List Bool) :
    s.sendBytes acks =
      { s with
        sent.bus := s.sent.bus ++ (List.range acks.length).map (readByte s.mgmt.sendRest acks)
        mgmt.sendRest := if acks.all id then s.mgmt.sendRest.drop acks.length else [] } := by
  induction acks generalizing s with
  | nil => simp [State.sendBytes]
  | cons acknowledged acks ih =>
    simp only [State.sendBytes, ih, State.sendBus, List.length_cons, List.range_succ_eq_map, List.map_cons, List.map_map,
      readByte_zero, Function.comp_def, Nat.succ_eq_add_one, readByte_succ, List.append_assoc, List.singleton_append]
    cases acknowledged <;> simp [List.drop_tail]

theorem exec_answerRead {s : State} (high : s.resetLow = false)
    (early : s.mgmt.receiver = .idle ∨ s.mgmt.idleCount < Config.idleTicks) (acks : List Bool) (stop : Bool) :
    exec (.answerRead acks stop) s = .next
      (if s.mgmt.receiver = .sending then
        let u := { s with mgmt.idleCount := 0 }.sendBytes acks
        if stop then { u with mgmt.receiver := .idle, mgmt.sendRest := [] } else u
      else s) := by
  simp only [exec, execAnswerRead, high, settleIdle_eq s early, Bool.false_eq_true, if_false]
  cases receiver : s.mgmt.receiver <;> simp

/-- Settles O60: the frame, the codes, and the bytes of a read by `sendBytes_eq`. -/
theorem answersAreRead : Obligations.AnswersAreRead := by
  refine ⟨fun a => ⟨rfl, sum_checkByte _, answer_frame_length a⟩, by decide, fun s acks stop high => ⟨fun other early => ?_,
    fun sending early => ?_⟩⟩
  · rw [exec_answerRead high early, if_neg other]
  · rw [exec_answerRead high (.inr early), if_pos sending, sendBytes_eq]
    cases stop
    · cases all : acks.all id <;> simp [readByte, sending]
    · simp [readByte]

end Sys2Proof.Machine
end

section
/-! The bus: addresses, data bytes and the end of a write, by the receiver's state, and how its frame is judged (R165 to R167,
R170). -/

namespace Sys2Proof.Machine

/-! ### Codes and frames -/

/-- The argument bytes of each code of 11.2; no other number is a code. -/
theorem argumentBytes_eq_lookup (code : Nat) :
    argumentBytes code =
      ([(0x01, 0), (0x02, 0), (0x10, 0), (0x11, 1), (0x12, 0), (0x13, 8), (0x14, 5), (0x15, 4), (0x16, 2), (0x17, 9), (0x18, 1),
        (0x19, 0), (0x20, 2), (0x21, 3), (0x22, 2), (0x23, 2), (0x30, 2), (0x31, 1), (0x32, 1), (0x33, 1), (0x40, 2), (0x41, 1),
        (0x42, 1), (0x43, 0), (0x44, 4), (0x50, 1), (0x51, 6), (0x52, 1), (0x53, 2), (0x60, 0), (0x61, 4), (0x62, 4)] :
        List (Nat × Nat)).lookup code := by
  unfold argumentBytes
  split
  case h_33 => exact (List.lookup_eq_none_iff.2 (by simp_all)).symm
  all_goals rfl

section Judged
variable {s : State} {pins : BitVec 2} {code : Byte} {rest : List Byte} {n : Nat}

theorem judgeFrame_unknown (unlisted : argumentBytes code.toNat = none) :
    s.judgeFrame pins (code :: rest) = s.setAnswer .unknown := by
  simp only [State.judgeFrame, unlisted]

theorem judgeFrame_short (listed : argumentBytes code.toNat = some n) (short : rest.length < n + 1) :
    s.judgeFrame pins (code :: rest) = s.setAnswer .short := by
  simp only [State.judgeFrame, listed, if_pos short]

theorem judgeFrame_check (listed : argumentBytes code.toNat = some n) (whole : n + 1 ≤ rest.length)
    (sum : (code :: rest).foldl (· + ·) 0 ≠ 0) : s.judgeFrame pins (code :: rest) = s.setAnswer .check := by
  simp only [State.judgeFrame, listed, if_neg (Nat.not_lt.2 whole), if_pos sum]

theorem judgeFrame_good (listed : argumentBytes code.toNat = some n) (whole : n + 1 ≤ rest.length)
    (sum : (code :: rest).foldl (· + ·) 0 = 0) :
    s.judgeFrame pins (code :: rest) = frameCommand pins code.toNat (rest.take n) s := by
  simp only [State.judgeFrame, listed, if_neg (Nat.not_lt.2 whole), sum, ne_eq, not_true_eq_false, if_false]

end Judged

/-! ### The end of a write -/

/-- The port after a write transaction, before its frame is judged (R167). -/
def State.writeEnded (s : State) : State :=
  { s with mgmt.receiver := .idle, mgmt.frame := [], mgmt.idleCount := 0 }

section Taken
variable {s : State} (pins : BitVec 2)

theorem takeFrame_empty (empty : s.mgmt.frame = []) : s.takeFrame pins = s.writeEnded := by
  simp only [State.takeFrame, empty, if_true, State.writeEnded]

/-- R170: while a scan is under way a frame is answered BUSY. -/
theorem takeFrame_busy (frame : s.mgmt.frame ≠ []) (scan : s.mgmt.scan ≠ none) :
    s.takeFrame pins = s.writeEnded.setAnswer .busy := by
  obtain ⟨c, scan⟩ := Option.ne_none_iff_exists'.1 scan
  simp only [State.takeFrame, frame, if_false, scan, State.writeEnded]

theorem takeFrame_judged (frame : s.mgmt.frame ≠ []) (scan : s.mgmt.scan = none) :
    s.takeFrame pins = s.writeEnded.judgeFrame pins s.mgmt.frame := by
  simp only [State.takeFrame, frame, if_false, scan, State.writeEnded]

end Taken

/-- A management command writes the answer or the records of other blocks: whatever a frame runs, RESET stays high. -/
theorem frameCommand_resetLow {s : State} (high : s.resetLow = false) (pins : BitVec 2) (code : Nat) (args : List Byte) :
    (frameCommand pins code args s).resetLow = false := by
  unfold frameCommand
  split
  case h_2 => rfl
  all_goals
    simp only [cmdIdentify, cmdReadGroup, cmdReadCycle, cmdReadNotices, cmdOpenGroup, cmdCloseGroup, cmdCloseNow, cmdCloseMark,
      cmdCloseUnknown, cmdAbandonGroup, stageEntry, cmdForceRelease, cmdForceReturn, cmdAdmit, cmdRescrub, cmdSetAgent,
      cmdAgentReset, cmdClearFault, cmdReadFault, cmdReadBuffer, cmdReadPool, cmdReadQueue, cmdFind, cmdSetTimebase, cmdSetCycle,
      cmdPacing, cmdPacingOn, cmdPacingOff, cmdSetMemlimit, cmdAckNotices, cmdSetNoticeEnable]
    repeat' split
    all_goals simp [high]

theorem takeFrame_resetLow {s : State} (high : s.resetLow = false) (pins : BitVec 2) :
    (s.takeFrame pins).resetLow = false := by
  have ended : s.writeEnded.resetLow = false := high
  by_cases empty : s.mgmt.frame = []
  · rw [takeFrame_empty pins empty, ended]
  by_cases scan : s.mgmt.scan = none
  · rw [takeFrame_judged pins empty scan]
    unfold State.judgeFrame
    repeat' split
    case isFalse.isFalse => exact frameCommand_resetLow ended _ _ _
    all_goals exact ended
  · rw [takeFrame_busy pins empty scan, (setAnswer_keeps _ _ _).2.2.2.2.2.2.2.2.2.2.2.2.2.2.2.2.1, ended]

/-! ### The rows of the bus -/

theorem Mgmt.writing_iff (m : Mgmt) : m.writing = true ↔ m.receiver = .receiving ∨ m.receiver = .discarding := by
  simp [Mgmt.writing]

theorem Mgmt.not_writing {m : Mgmt} (closed : m.receiver = .idle ∨ m.receiver = .sending) : m.writing = false := by
  rcases closed with closed | closed <;> simp [Mgmt.writing, closed]

section Rows
variable {s : State} (high : s.resetLow = false)
include high

/-- R166: a repeated START takes the frame of an open write first, as a STOP would. -/
theorem exec_i2cAddress_of_frame (x : BitVec 7) (read : Bool) (pins : BitVec 2) :
    exec (.i2cAddress x read pins) (s.takeFrame pins) = .next ((s.takeFrame pins).compareAddress x read) := by
  have receiver := takeFrame_receiver s pins
  simp only [exec, execI2cAddress, takeFrame_resetLow high, settleIdle_eq _ (.inl receiver), State.endWrite,
    Mgmt.not_writing (.inl receiver), Bool.false_eq_true, if_false]

variable (early : s.mgmt.receiver = .idle ∨ s.mgmt.idleCount < Config.idleTicks)
include early

theorem exec_frameTaken (pins : BitVec 2) :
    exec (.frameTaken pins) s = .next (if s.mgmt.writing then s.takeFrame pins else s) := by
  simp only [exec, execFrameTaken, high, settleIdle_eq s early, Bool.false_eq_true, if_false]

theorem exec_i2cAddress (x : BitVec 7) (read : Bool) (pins : BitVec 2) :
    exec (.i2cAddress x read pins) s = .next ((s.endWrite pins).compareAddress x read) := by
  simp only [exec, execI2cAddress, high, settleIdle_eq s early, Bool.false_eq_true, if_false]

theorem exec_i2cDataByte_receiving (receiving : s.mgmt.receiver = .receiving) (b : Byte) :
    exec (.i2cDataByte b) s = .next (s.receiveByte b) := by
  simp only [exec, execI2cDataByte, high, settleIdle_eq s early, Bool.false_eq_true, if_false, receiving]

theorem exec_i2cDataByte_idle (idle : s.mgmt.receiver = .idle) (b : Byte) :
    exec (.i2cDataByte b) s = .next (s.sendBus (.ack false)) := by
  simp only [exec, execI2cDataByte, high, settleIdle_eq s early, Bool.false_eq_true, if_false, idle]

theorem exec_i2cDataByte_refused (refused : s.mgmt.receiver = .discarding ∨ s.mgmt.receiver = .sending) (b : Byte) :
    exec (.i2cDataByte b) s = .next ({ s with mgmt.idleCount := 0 }.sendBus (.ack false)) := by
  rcases refused with receiver | receiver <;>
    simp only [exec, execI2cDataByte, high, settleIdle_eq s early, Bool.false_eq_true, if_false, receiver]

end Rows

/-- R166: the address byte, with no write open. -/
theorem compareAddress_eq (s : State) (x : BitVec 7) (read : Bool) :
    s.compareAddress x read =
      if x ≠ s.mgmt.ownAddress then
        { s with mgmt.receiver := .idle, mgmt.sendRest := [], mgmt.idleCount := 0 }.sendBus (.ack false)
      else if read = true then
        { s with
          mgmt.receiver := .sending, mgmt.sendRest := s.mgmt.answer.frame, mgmt.idleCount := 0 }.sendBus (.ack true)
      else { s with mgmt.receiver := .receiving, mgmt.sendRest := [], mgmt.idleCount := 0 }.sendBus (.ack true) := by
  unfold State.compareAddress
  rw [ite_not]

/-- Settles O59: each row by the receiver's state, and the frame of a write by its length and its sum. -/
theorem busBytesAndFrames : Obligations.BusBytesAndFrames := by
  refine ⟨fun code => argumentBytes_eq_lookup code.toNat, fun s high early => ?_⟩
  replace early : s.mgmt.receiver = .idle ∨ s.mgmt.idleCount < Config.idleTicks := .inr early
  refine ⟨fun x read pins closed => ?_, fun x read pins writing => ?_, fun b receiving => ⟨fun unlisted => ?_,
      fun n listed => ?_⟩,
    fun b idle => ?_, fun b closed => ?_, fun pins closed => ?_, fun pins writing => ?_⟩
  · rw [exec_i2cAddress high early, State.endWrite, Mgmt.not_writing closed, ← compareAddress_eq]
    rfl
  · refine ⟨s.takeFrame pins, ?_, ?_⟩
    · rw [exec_frameTaken high early, if_pos ((Mgmt.writing_iff _).2 writing)]
    · rw [exec_i2cAddress_of_frame high, exec_i2cAddress high early, State.endWrite, if_pos ((Mgmt.writing_iff _).2 writing)]
  · simp only [exec_i2cDataByte_receiving high early receiving, State.receiveByte, unlisted]
  · simp only [exec_i2cDataByte_receiving high early receiving, State.receiveByte, listed]
    by_cases whole : n + 2 ≤ (s.mgmt.frame ++ [b]).length
    · rw [if_pos whole, if_neg (Nat.not_lt.2 whole)]
    · rw [if_neg whole, if_pos (Nat.not_le.1 whole), ← receiving]
  · exact exec_i2cDataByte_idle high early idle b
  · exact exec_i2cDataByte_refused high early closed b
  · rw [exec_frameTaken high early, Mgmt.not_writing closed]
    rfl
  · have taken : exec (.frameTaken pins) s = .next (s.takeFrame pins) := by
      rw [exec_frameTaken high early, if_pos ((Mgmt.writing_iff _).2 writing)]
    rw [taken]
    refine ⟨fun empty => ?_, fun frame scan => ?_, fun code rest frame scan => ?_⟩
    · rw [takeFrame_empty pins empty]
      rfl
    · rw [takeFrame_busy pins frame scan]
      rfl
    · rw [takeFrame_judged pins (by simp [frame]) scan, frame]
      refine ⟨fun unlisted => ?_, fun n listed => ⟨fun short => ?_, fun whole sum => ?_⟩⟩
      · rw [judgeFrame_unknown unlisted]
        rfl
      · rw [judgeFrame_short listed short]
        rfl
      · rw [judgeFrame_check listed whole sum]
        rfl

end Sys2Proof.Machine
end

section
/-! Frames: what the frame of a management command spells, and that its STOP runs that command (R167, R171, R180, 11.2). -/

namespace Sys2Proof.Machine

/-! ### The arguments of a frame -/

/-- R180: an argument whose bytes are those of an operand is that operand, whole. -/
theorem argument_eq {k n w : Nat} {args : List Byte} (v : BitVec w) (fits : 2 ^ w ≤ 256 ^ n)
    (field : (args.drop k).take n = le n v.toNat) : argument k n args = v.toNat := by
  rw [argument, field, unle_le n (Nat.lt_of_lt_of_le v.isLt fits)]

theorem argument_byte (b : Byte) : argument 0 1 [b] = b.toNat := Nat.add_zero _

/-- R144: PACING with a mode that is neither OFF nor ON. -/
theorem cmdPacing_unlisted {mode : Nat} (unlisted : 1 < mode) (s : State) : cmdPacing mode s = s.setAnswer .range := by
  unfold cmdPacing
  split
  · omega
  · omega
  · rfl

/-- R153: CLOSE_GROUP with a mode that is neither NOW nor MARK. -/
theorem cmdCloseGroup_unlisted {mode : Nat} (unlisted : 1 < mode) (s : State) : cmdCloseGroup mode s = cmdCloseUnknown s := by
  unfold cmdCloseGroup
  split
  · omega
  · omega
  · rfl

theorem cmdCloseUnknown_eq (s : State) :
    cmdCloseUnknown s = s.setAnswer
      (match s.edit.group with
      | .idle => .noGroup
      | .armed => .groupArmed
      | .openForEdits => .range) := by
  unfold cmdCloseUnknown
  cases s.edit.group <;> rfl

/-! ### What a frame spells -/

/-- 11.2: a frame of a code, its arguments and the check byte spells a command where the code with these arguments runs it. -/
def Spells (pins : BitVec 2) (frame : List Byte) (c : Instr) : Prop :=
  ∃ (code : Byte) (args : List Byte), frame = code :: args ++ [checkByte (code :: args)] ∧
    argumentBytes code.toNat = some args.length ∧
    ∀ u : State, exec c u = .next (u.runCommand (frameCommand pins code.toNat args))

theorem spells {pins : BitVec 2} {code : Byte} {args : List Byte} {c : Instr} {command : State → State}
    (listed : argumentBytes code.toNat = some args.length) (runs : ∀ u : State, exec c u = .next (u.runCommand command))
    (same : command = frameCommand pins code.toNat args) : Spells pins (code :: args ++ [checkByte (code :: args)]) c :=
  ⟨code, args, rfl, listed, fun u => by rw [runs, ← same]⟩

/-- R180: the frame of each management command has a field for each operand, as wide as the operand. -/
theorem hostFrame_spells {c : Instr} {frame : List Byte} (sent : hostFrame c = some frame) {pins : BitVec 2}
    (sampled : ∀ p, c = .partReset p → p = pins) : Spells pins frame c := by
  cases c with
  | partReset p =>
    obtain rfl := Option.some.inj sent
    obtain rfl := sampled p rfl
    exact spells rfl (fun _ => rfl) rfl
  | identify | openGroup | closeGroupNow | closeGroupMark | abandonGroup | readGroup | readCycle | pacingOff | pacingOn
  | readNotices =>
    obtain rfl := Option.some.inj sent
    exact spells rfl (fun _ => rfl) rfl
  | stageRetire n | stageUnpool n =>
    obtain rfl := Option.some.inj sent
    exact spells rfl (fun _ => rfl) (congrArg stageEntry (congrArg _ (argument_eq n (by decide) rfl).symm))
  | forceRelease n | admitBuffer n | rescrub n | agentReset n | clearFault n | readFault n | readBuffer n | readPool n
  | readQueue n | setTimebase n | setMemlimit n | ackNotices n | setNoticeEnable n =>
    obtain rfl := Option.some.inj sent
    exact spells rfl (fun _ => rfl) (congrArg _ (argument_eq n (by decide) rfl).symm)
  | stageMove n m | stageResize n m =>
    obtain rfl := Option.some.inj sent
    exact spells rfl (fun _ => rfl)
      (congrArg stageEntry (congrArg₂ _ (argument_eq n (by decide) rfl).symm (argument_eq m (by decide) rfl).symm))
  | forceReturn n m | setAgent n m | setCycle n m =>
    obtain rfl := Option.some.inj sent
    exact spells rfl (fun _ => rfl)
      (congrArg₂ _ (argument_eq n (by decide) rfl).symm (argument_eq m (by decide) rfl).symm)
  | find k v st =>
    obtain rfl := Option.some.inj sent
    refine spells rfl (fun _ => rfl) ?_
    show _ = cmdFind _ _ _
    rw [argument_eq k (by decide) rfl, argument_eq v (by decide) rfl, argument_eq st (by decide) rfl]
  | stageDefine h p b l =>
    obtain rfl := Option.some.inj sent
    refine spells rfl (fun _ => rfl) (congrArg stageEntry ?_)
    rw [argument_eq h (by decide) rfl, argument_eq p (by decide) rfl, argument_eq b (by decide) rfl,
      argument_eq l (by decide) rfl]
  | stagePool p c b sc ll lm =>
    obtain rfl := Option.some.inj sent
    refine spells rfl (fun _ => rfl) (congrArg stageEntry ?_)
    rw [argument_eq p (by decide) rfl, argument_eq c (by decide) rfl, argument_eq b (by decide) rfl,
      argument_eq sc (by decide) rfl, argument_eq ll (by decide) rfl, argument_eq lm (by decide) rfl, BitVec.ofNat_toNat,
      BitVec.ofNat_toNat, BitVec.setWidth_eq, BitVec.setWidth_eq]
  | transactionIssue | inputArbiterGrant | heldAccessRecheck | memoryResponse | drainCompletion | scrubCompletion
  | scrubFailure | scrubTakeHead | tick | tagExpiry | mark | markPulseEnd | settlingIntervalEnd | linkDown | linkUp
  | resetAssert | resetRelease | i2cAddress | frameTaken | answerRead | i2cIdleTimeout | i2cDataByte =>
    exact nomatch sent

/-! ### The end of a frame -/

/-- R167: a STOP after a good frame, where the port is READY, runs what the code and the arguments spell. -/
theorem exec_frameTaken_good {s : State} (ready : s.ready)
    (writing : s.mgmt.receiver = .receiving ∨ s.mgmt.receiver = .discarding) {code check : Byte} {args : List Byte}
    (frame : s.mgmt.frame = code :: args ++ [check]) (listed : argumentBytes code.toNat = some args.length)
    (sum : (code :: args ++ [check]).foldl (· + ·) 0 = 0)
    (pins : BitVec 2) : exec (.frameTaken pins) s = .next (frameCommand pins code.toNat args s.writeEnded) := by
  obtain ⟨high, scan, early⟩ := ready
  rw [exec_frameTaken high early, if_pos ((Mgmt.writing_iff _).2 writing), takeFrame_judged pins (by simp [frame]) scan, frame,
    List.cons_append, judgeFrame_good (rest := args ++ [check]) listed (by simp) sum, List.take_left]

theorem writeEnded_ready {s : State} (ready : s.ready) : s.writeEnded.ready := ⟨ready.1, ready.2.1, .inl rfl⟩

/-- Settles O58: the good frame runs the command that it spells; a mode byte above 1 spells the commands without a mode. -/
theorem frameRunsItsCommand : Obligations.FrameRunsItsCommand := by
  refine ⟨fun s c frame pins ready _ sent taken writing sampled => ?_, fun s mode check pins ready _ unlisted writing =>
    ⟨fun frame sum => ?_, fun frame sum => ?_⟩⟩
  · obtain ⟨code, args, rfl, listed, runs⟩ := hostFrame_spells sent sampled
    rw [exec_frameTaken_good ready writing taken listed (sum_checkByte _),
      ← runCommand_ready (writeEnded_ready ready) (frameCommand pins code.toNat args), ← runs]
    rfl
  · have judged : ([0x52, mode] ++ [check]).foldl (· + ·) 0 = 0 := by simpa using sum
    rw [exec_frameTaken_good ready writing (args := [mode]) frame rfl judged]
    show Host.Outcome.next (cmdPacing (argument 0 1 [mode]) s.writeEnded) = _
    rw [argument_byte, cmdPacing_unlisted unlisted]
    rfl
  · have judged : ([0x11, mode] ++ [check]).foldl (· + ·) 0 = 0 := by simpa using sum
    rw [exec_frameTaken_good ready writing (args := [mode]) frame rfl judged]
    show Host.Outcome.next (cmdCloseGroup (argument 0 1 [mode]) s.writeEnded) = _
    rw [argument_byte, cmdCloseGroup_unlisted unlisted, cmdCloseUnknown_eq]
    rfl

end Sys2Proof.Machine
end

section
/-! FIND: what its kind and value name, what one examination does, and the tick of a scan (R170, R173, R174). -/

namespace Sys2Proof.Machine

/-! ### The key -/

theorem bufStateOf_eq (n : Nat) :
    bufStateOf n = ([.void, .free, .held, .inTransit, .draining, .scrubbing, .withheld] : List BufState)[n]? := by
  match n with
  | 0 | 1 | 2 | 3 | 4 | 5 | 6 => rfl
  | n + 7 => exact (List.getElem?_eq_none (Nat.le_add_left 7 n)).symm

theorem findKeyOf_byState {value : Nat} {st : BufState} (coded : bufStateOf value = some st) :
    findKeyOf 0 value = some (.byState st) := by
  simp only [findKeyOf, coded, Option.map_some]

theorem findKeyOf_byCustodian (a : Agent) : findKeyOf 1 a.val = some (.byCustodian a) := by
  simp only [findKeyOf, agentOf_val, Option.map_some]

/-- R173: a FIND names a key exactly where its kind is listed, and its value is one of that kind. -/
theorem findKeyOf_eq_none {kind value : Nat}
    (unlisted : ¬(kind = 0 ∧ value ≤ 6 ∨ kind = 1 ∧ value ≤ 15 ∨ kind = 2 ∧ value = 0)) :
    findKeyOf kind value = none := by
  unfold findKeyOf
  split
  · rw [bufStateOf_eq, List.getElem?_eq_none (by simp; omega), Option.map_none]
  · rw [agentOf_eq_none (by omega), Option.map_none]
  · rw [if_neg (by omega)]
  · rfl

theorem exec_find {s : State} (ready : s.ready) (k v : Byte) (n : BitVec 16) :
    exec (.find k v n) s = .next (cmdFind k.toNat v.toNat n.toNat s) := congrArg _ (runCommand_ready ready _)

theorem cmdFind_range {kind value start : Nat} (out : findKeyOf kind value = none ∨ handleOf start = none) (s : State) :
    cmdFind kind value start s = s.setAnswer .range := by
  unfold cmdFind
  split
  · next key handle => simp [key, handle] at out
  · rfl
  · rfl

/-! ### One examination -/

/-- R173: what a record has to be for a key. -/
def FindKey.Names (k : FindKey) (r : BufRec) : Prop :=
  match k with
  | .byState st => r.state = st
  | .byCustodian a => r.custodian = some a
  | .expiredLends => r.expired ≠ 0

theorem holds_iff (k : FindKey) (r : BufRec) : k.holds r = true ↔ k.Names r := by
  cases k <;> exact decide_eq_true_iff

theorem not_holds {k : FindKey} {r : BufRec} (missed : ¬ k.Names r) : k.holds r = false :=
  Bool.eq_false_iff.2 (mt (holds_iff k r).1 missed)

theorem foundImage_eq (h : Handle) (r : BufRec) :
    foundImage h r = le 2 (h.val + 1) ++ [BitVec.ofNat 8 r.state.code, r.generation,
      match r.custodian with | some a => BitVec.ofNat 8 a.val | none => 0xFF] := by
  cases custodian : r.custodian <;> simp only [foundImage, custodian] <;> rfl

section Examined
variable {s : State} {c : Scan} (scan : s.mgmt.scan = some c)
include scan

theorem scanStep_found (found : c.key.holds (s.buf c.next) = true) :
    s.scanStep = { s with mgmt.scan := none }.setAnswer .ok (foundImage c.next (s.buf c.next)) := by
  simp only [State.scanStep, scan, State.examine, found, if_true]

theorem scanStep_last (missed : c.key.holds (s.buf c.next) = false) (last : c.next.val = 510) :
    s.scanStep = { s with mgmt.scan := none }.setAnswer .none (le 2 (handleNum c.start)) := by
  have ended : handleOf (handleNum c.next + 1) = none := handleOf_eq_none (.inr (by simp [handleNum, last]))
  simp only [State.scanStep, scan, State.examine, missed, Bool.false_eq_true, if_false, ended]

theorem scanStep_next (missed : c.key.holds (s.buf c.next) = false) {h : Handle} (next : h.val = c.next.val + 1) :
    s.scanStep = { s with mgmt.scan := some { c with next := h } } := by
  have further : handleOf (handleNum c.next + 1) = some h := by rw [handleNum, ← next, handleOf_num]
  simp only [State.scanStep, scan, State.examine, missed, Bool.false_eq_true, if_false, further]

end Examined

/-! ### What an examination reads and writes -/

/-- A state with the scan, the answer frame and the number of free values drawn as given: the fields that the examination of a
tick writes, and that no mark reads. -/
def State.withScan (s : State) (scan : Option Scan) (answer : HostAnswer) (drawn : Nat) : State :=
  { s with mgmt.scan := scan, mgmt.answer := answer, freeCount := drawn }

theorem scanStep_eq (s : State) : s.scanStep = s.withScan s.scanStep.mgmt.scan s.scanStep.mgmt.answer s.freeCount := by
  unfold State.scanStep State.examine
  split
  · dsimp only
    split
    · rfl
    · split <;> rfl
  · rfl

/-- An examination depends on the scan, the buffer records, and the answer frame, which it may leave. -/
theorem scanStep_congr {s t : State} (scan : t.mgmt.scan = s.mgmt.scan) (answer : t.mgmt.answer = s.mgmt.answer)
    (custody : t.custody = s.custody) :
    t.scanStep.mgmt.scan = s.scanStep.mgmt.scan ∧ t.scanStep.mgmt.answer = s.scanStep.mgmt.answer := by
  have record (h : Handle) : t.buf h = s.buf h := by simp only [State.buf, custody]
  unfold State.scanStep State.examine
  rw [scan]
  split
  · next c _ =>
    simp only [record]
    split
    · exact ⟨rfl, rfl⟩
    · split
      · exact ⟨rfl, rfl⟩
      · exact ⟨rfl, answer⟩
  · exact ⟨scan, answer⟩

/-! ### A mark leaves the scan alone, and does not read it -/

section Commutes
variable (s : State) (scan : Option Scan) (answer : HostAnswer) (drawn : Nat)

theorem takeHead_withScan : (s.withScan scan answer drawn).takeHead = s.takeHead.withScan scan answer drawn := by
  simp only [State.takeHead, State.withScan]
  split <;> rfl

theorem issueBurst_withScan (i : TagIndex) :
    (s.withScan scan answer drawn).issueBurst i = (s.issueBurst i).withScan scan answer drawn := by
  simp only [State.issueBurst, State.withScan]
  split <;> rfl

theorem fillSlot_withScan (a : Agent) (f : FaultRec) :
    (s.withScan scan answer drawn).fillSlot a f = (s.fillSlot a f).withScan scan answer drawn := by
  have same : ((s.withScan scan answer drawn).agent a).slot = (s.agent a).slot := rfl
  simp only [State.fillSlot, same]
  split <;> rfl

theorem refuse_withScan (t : Txn) (k : FaultKind) (b : Option BufState) :
    (s.withScan scan answer drawn).refuse t k b = (s.refuse t k b).withScan scan answer drawn :=
  fillSlot_withScan (s.respond ⟨t.agent, t.tag, .refused, some k, []⟩) scan answer drawn _ _

theorem recheckGranted_withScan (i : TagIndex) :
    (s.withScan scan answer drawn).recheckGranted i = (s.recheckGranted i).withScan scan answer drawn := by
  have held : (s.withScan scan answer drawn).checker.hold = s.checker.hold := rfl
  have checked (t : Txn) (h : Handle) : (s.withScan scan answer drawn).accessCheck t h = s.accessCheck t h := rfl
  simp only [State.recheckGranted, held, checked]
  split
  · rfl
  · next t _ =>
    split
    · rfl
    · split
      · let u : State := { s.dropHold with mem.preference := .scrub }
        exact refuse_withScan (u.setEntry t.agent t.tag none) scan answer drawn _ _ _
      · rfl

theorem grantOnce_withScan : (s.withScan scan answer drawn).grantOnce = s.grantOnce.withScan scan answer drawn := by
  have same : (s.withScan scan answer drawn).nextGrant = s.nextGrant := rfl
  simp only [State.grantOnce, same]
  split
  · rfl
  · exact recheckGranted_withScan s scan answer drawn _
  · exact issueBurst_withScan s scan answer drawn _

theorem kick_withScan : (s.withScan scan answer drawn).kick = s.kick.withScan scan answer drawn := by
  simp only [State.kick, State.arbitrate, takeHead_withScan, grantOnce_withScan]

theorem custodyMark_withScan : (s.withScan scan answer drawn).custodyMark = s.custodyMark.withScan scan answer drawn := by
  dsimp only [State.custodyMark]
  rw [apply_ite (fun u : State => u.withScan scan answer drawn)]
  rfl

theorem presentGroup_withScan (count : Option (BitVec 32)) :
    (s.withScan scan answer drawn).presentGroup count = (s.presentGroup count).withScan scan answer drawn := by
  have staged : (s.withScan scan answer drawn).edit = s.edit := rfl
  have judged : (s.withScan scan answer drawn).judge s.edit.staged = s.judge s.edit.staged := rfl
  simp only [State.presentGroup, State.applyGroup, staged, judged]
  split <;> rfl

theorem editMark_withScan (count : BitVec 32) :
    (s.withScan scan answer drawn).editMark count = (s.editMark count).withScan scan answer drawn := by
  rw [State.editMark, State.editMark, apply_ite (fun u : State => u.withScan scan answer drawn), presentGroup_withScan]
  rfl

/-- A mark makes of the scan, the answer and the free values what it finds. -/
theorem makeMark_withScan : (s.withScan scan answer drawn).makeMark = s.makeMark.withScan scan answer drawn := by
  have timed : { s.withScan scan answer drawn with timer := s.timer.atMark } =
    State.withScan { s with timer := s.timer.atMark } scan answer drawn := rfl
  show (State.editMark (State.custodyMark { s.withScan scan answer drawn with timer := s.timer.atMark }) _).kick = _
  rw [timed, custodyMark_withScan, editMark_withScan, kick_withScan]
  rfl

end Commutes

/-! ### The tick of a scan -/

/-- The state in which the tick of a scan meets the idle timeout, the examination and the cycle: the tick's counts taken. -/
def State.ticked (s : State) (low : Bool) : State := State.countIdle { s with timer.divider := 0, mem := s.mem.atTick } low

/-- R142: the cycle at a tick that makes no mark. -/
def State.cycleOn (s : State) : State :=
  { s with timer.position := if s.timer.pacing then s.timer.position + 1 else s.timer.position }

theorem tick_eq {s : State} (calm : s.nothingDue) (low : Bool) :
    s.tick low = (s.ticked low).idleAgainstScan.scanAndCycle := by
  simp only [State.tick, settleOutstanding_of_nothingDue calm, State.ticked]

theorem ticked_eq (s : State) (low : Bool) :
    s.ticked low = { s with
      timer.divider := 0
      mem := { s.mem with
        tags := mapAll s.mem.tags fun r =>
          match r.use with
          | some x => { r with use := some { x with timeLeft := x.timeLeft - 1 } }
          | none => r
        settling := match s.mem.settling with | some n => some (n - 1) | none => none }
      mgmt.idleCount := if low = true ∧ s.mgmt.receiver ≠ .idle then s.mgmt.idleCount + 1 else 0 } := by
  simp only [State.ticked, State.countIdle, memAtTick_eq, Bool.and_eq_true, decide_eq_true_eq] <;> rfl

theorem ticked_idleDue {s : State} {low : Bool} (due : Config.idleTicks ≤ (s.ticked low).mgmt.idleCount) :
    (s.ticked low).mgmt.idleDue = true := by
  have busy : s.mgmt.receiver ≠ .idle := by
    intro idle
    simp [State.ticked, State.countIdle, idle, Config.idleTicks] at due
  simp only [Mgmt.idleDue, due, decide_true, Bool.and_true, decide_eq_true_eq]
  exact busy

theorem advanceCycle_early {s : State} (early : s.timer.markDue = false) : s.advanceCycle = s.cycleOn := by
  rw [State.advanceCycle, early, if_neg Bool.false_ne_true, State.cycleOn]
  by_cases pacing : s.timer.pacing = true
  · simp only [if_pos pacing]
  · simp only [if_neg pacing]

theorem scanAndCycle_early {s : State} (early : s.timer.markDue = false) : s.scanAndCycle = s.scanStep.cycleOn := by
  have early' : s.scanStep.timer.markDue = false := by simp [early]
  simp only [State.scanAndCycle, early, Bool.and_false, Bool.false_eq_true, if_false, advanceCycle_early early']

theorem idleAgainstScan_undue {s : State} (undue : s.mgmt.idleCount < Config.idleTicks) : s.idleAgainstScan = s := by
  simp [State.idleAgainstScan, Mgmt.idleDue, Nat.not_le.2 undue]

/-- R170: at a tick of a scan a timeout that is due is taken before the examination, or stays due: a free value (log 4). -/
theorem idleAgainstScan_due {s : State} (due : s.mgmt.idleDue = true) (scan : s.mgmt.scan ≠ none) :
    s.idleAgainstScan = { s with freeCount := s.freeCount + 1 } ∨
      s.idleAgainstScan = State.idleTimeout { s with freeCount := s.freeCount + 1 } := by
  have running : s.mgmt.scan.isSome = true := Option.isSome_iff_ne_none.2 scan
  simp only [State.idleAgainstScan, due, running, Bool.and_self, if_true]
  split
  · exact .inl rfl
  · exact .inr rfl

/-- R174: whatever else the tick does, it examines one record, with the custody table as it stands before the mark or after. -/
theorem scanAndCycle_examines (s : State) :
    ∃ r : State, r.mgmt.scan = s.mgmt.scan ∧ (r.custody = s.custody ∨ r.custody = s.scanAndCycle.custody) ∧
      s.scanAndCycle.mgmt.scan = r.scanStep.mgmt.scan ∧ s.scanAndCycle.mgmt.answer = r.scanStep.mgmt.answer := by
  simp only [State.scanAndCycle]
  split
  · split
    · exact ⟨{ s with freeCount := s.freeCount + 1 }, rfl, .inl rfl, by simp, by simp⟩
    · exact ⟨State.advanceCycle { s with freeCount := s.freeCount + 1 }, by simp, .inr (by simp), rfl, rfl⟩
  · exact ⟨s, rfl, .inl rfl, by simp, by simp⟩

theorem scanStep_drawn (s : State) (n : Nat) :
    (s.withScan s.mgmt.scan s.mgmt.answer n).scanStep = s.withScan s.scanStep.mgmt.scan s.scanStep.mgmt.answer n := by
  obtain ⟨scan, answer⟩ := scanStep_congr (s := s) (t := s.withScan s.mgmt.scan s.mgmt.answer n) rfl rfl rfl
  rw [scanStep_eq, scan, answer]
  rfl

/-- R174: where the mark falls on the tick of a scan, the tick is that of the mark, with one examination before it or after. -/
theorem scanAndCycle_marked {s : State} (due : s.timer.markDue = true) (scan : s.mgmt.scan ≠ none) :
    ∃ r : State, (r = s ∨ r = s.makeMark) ∧
      s.scanAndCycle = s.makeMark.withScan r.scanStep.mgmt.scan r.scanStep.mgmt.answer (s.freeCount + 1) := by
  have running : s.mgmt.scan.isSome = true := Option.isSome_iff_ne_none.2 scan
  have drawn : { s with freeCount := s.freeCount + 1 } = s.withScan s.mgmt.scan s.mgmt.answer (s.freeCount + 1) := rfl
  have marks (c : Option Scan) (a : HostAnswer) (n : Nat) : (s.withScan c a n).advanceCycle = s.makeMark.withScan c a n := by
    rw [← makeMark_withScan]
    exact if_pos due
  simp only [State.scanAndCycle, due, running, Bool.and_self, if_true, drawn]
  split
  · exact ⟨s, .inl rfl, by rw [scanStep_drawn, marks]⟩
  · refine ⟨s.makeMark, .inr rfl, ?_⟩
    rw [marks, ← scanStep_drawn]
    simp

section Tick
variable {s : State} (calm : s.nothingDue) (low : Bool)
include calm

theorem tick_examined (early : s.timer.markDue = false) (undue : (s.ticked low).mgmt.idleCount < Config.idleTicks) :
    s.tick low = (s.ticked low).scanStep.cycleOn := by
  rw [tick_eq calm, idleAgainstScan_undue undue]
  exact scanAndCycle_early early

theorem tick_timedOut (scan : s.mgmt.scan ≠ none) (high : s.resetLow = false) (early : s.timer.markDue = false)
    (due : Config.idleTicks ≤ (s.ticked low).mgmt.idleCount) :
    let u : State := { s.ticked low with freeCount := s.freeCount + 1 }
    s.tick low = u.scanStep.cycleOn ∨ ∃ x, exec .i2cIdleTimeout u = .next x ∧ s.tick low = x.scanStep.cycleOn := by
  intro u
  have due' : u.mgmt.idleDue = true := ticked_idleDue due
  rw [tick_eq calm]
  rcases idleAgainstScan_due (s := s.ticked low) due' scan with kept | taken
  · rw [kept]
    exact .inl (scanAndCycle_early early)
  · have timedOut : exec .i2cIdleTimeout u = .next u.idleTimeout := by
      rw [exec_i2cIdleTimeout (s := u) high, State.settleIdle, if_pos due']
    have timer : u.idleTimeout.timer = u.timer := by simp
    rw [taken]
    exact .inr ⟨_, timedOut, scanAndCycle_early (s := u.idleTimeout) (by rw [timer]; exact early)⟩

/-- R174: the mark of the tick is that of the same tick with no scan. -/
theorem tick_marked (scan : s.mgmt.scan ≠ none) (high : s.resetLow = false) (marked : s.timer.markDue = true)
    (undue : (s.ticked low).mgmt.idleCount < Config.idleTicks) :
    ∃ x r : State, exec (.tick low) { s with mgmt.scan := none } = .next x ∧
      (r = s ∨ r = { x with mgmt.scan := s.mgmt.scan }) ∧
      s.tick low = x.withScan r.scanStep.mgmt.scan r.scanStep.mgmt.answer (s.freeCount + 1) := by
  have unscanned : State.tick { s with mgmt.scan := none } low =
      (s.ticked low).makeMark.withScan none s.mgmt.answer s.freeCount := by
    rw [tick_of_nothingDue (s := { s with mgmt.scan := none }) calm rfl, ← makeMark_withScan]
    exact if_pos marked
  obtain ⟨r, before, whole⟩ := scanAndCycle_marked (s := s.ticked low) marked scan
  have scanned : (s.ticked low).makeMark.mgmt.scan = s.mgmt.scan := by simp [State.ticked]
  have answered : (s.ticked low).makeMark.mgmt.answer = s.mgmt.answer := by simp [State.ticked]
  rw [exec_tick (s := { s with mgmt.scan := none }) high low, unscanned, tick_eq calm, idleAgainstScan_undue undue, whole]
  generalize (s.ticked low).makeMark = m at before scanned answered
  rcases before with rfl | rfl
  · obtain ⟨same, answer⟩ := scanStep_congr (s := s) (t := s.ticked low) rfl rfl rfl
    exact ⟨_, s, rfl, .inl rfl, by rw [same, answer]; rfl⟩
  · let u : State := r.withScan s.mgmt.scan s.mgmt.answer s.freeCount
    obtain ⟨same, answer⟩ := scanStep_congr (s := u) (t := r) scanned answered rfl
    exact ⟨_, u, rfl, .inr rfl, by rw [same, answer]; rfl⟩

end Tick

/-- Settles O57: the key and the first examination; an examination by its cases; the tick by the mark and the timeout that fall
on it; and BUSY. -/
theorem findScans : Obligations.FindScans := by
  intro s
  refine ⟨fun k v n ready => ⟨fun out => ?_, fun key h names num => ?_⟩, fun c scan => ⟨fun found => ?_, fun missed last => ?_,
    fun h missed next => ?_⟩, fun low high calm scan => ⟨?_, ?_⟩, fun high scan idle c management => ?_⟩
  · rw [exec_find ready, cmdFind_range]
    rcases out with unlisted | out
    · exact .inl (findKeyOf_eq_none unlisted)
    · exact .inr (handleOf_eq_none out)
  · have named : findKeyOf k.toNat v.toNat = some key := by
      rcases names with ⟨kind, st, coded, rfl⟩ | ⟨kind, a, value, rfl⟩ | ⟨kind, value, rfl⟩
      · rw [kind, findKeyOf_byState ((bufStateOf_eq _).trans coded)]
      · rw [kind, ← value, findKeyOf_byCustodian]
      · rw [kind, value]
        rfl
    simp only [exec_find ready, cmdFind, named, handleOf_of_num num]
    rfl
  · rw [scanStep_found scan ((holds_iff _ _).2 found)]
    exact congrArg (State.setAnswer _ .ok ·) (foundImage_eq c.next (s.buf c.next))
  · rw [scanStep_last scan (not_holds missed) last]
    rfl
  · exact scanStep_next scan (not_holds missed) next
  · obtain ⟨r, rscan, custody, after⟩ := scanAndCycle_examines (s.ticked low).idleAgainstScan
    refine ⟨s.tick low, r, exec_tick high low, ?_, ?_, ?_⟩
    · simpa [State.ticked] using rscan
    · rw [tick_eq calm]
      simpa [State.ticked] using custody
    · rw [tick_eq calm]
      exact after
  · intro idle u ahead
    have counted : u = s.ticked low := (ticked_eq s low).symm
    have count : (s.ticked low).mgmt.idleCount = idle := by rw [← counted]
    clear_value u
    subst counted
    rw [exec_tick high]
    refine ⟨fun early undue => ?_, ?_⟩
    · rw [tick_examined calm low early (count ▸ undue)]
      rfl
    intro drawn
    refine ⟨fun early due => ?_, fun marked undue => ?_⟩
    · rcases tick_timedOut calm low scan high early (count ▸ due) with kept | ⟨x, taken, whole⟩
      · exact .inl (congrArg _ kept)
      · exact .inr ⟨x, taken, congrArg _ whole⟩
    · obtain ⟨x, r, unscanned, before, whole⟩ := tick_marked calm low scan high marked (count ▸ undue)
      exact ⟨x, r, unscanned, before, congrArg _ whole⟩
  · obtain ⟨command, runs⟩ := exec_hostFrame management
    rw [runs, runCommand_busy s command high scan idle]

end Sys2Proof.Machine
end

section
/-! The stage port's and the checker's parts of an agent reset (R96, R116): what the cancellation answers, and that nothing
granted afterwards ties anything to the agent again. -/

namespace Sys2Proof.Machine

/-! ### The cancellation -/

/-- R96: the answer to a cancelled transaction. -/
def cancelled (a : Agent) (g : StageTag) : Response := ⟨a, g, .cancelled, none, []⟩

/-- The hold place holds the agent's transaction with this stage tag. -/
def State.holds (s : State) (a : Agent) (g : StageTag) : Prop := ∃ y, s.checker.hold = some y ∧ y.agent = a ∧ y.tag = g

/-- R96: the answers to what the agent has waiting and held. -/
def State.placesCancelled (s : State) (a : Agent) : List Response :=
  ((s.waiting a).map fun x => cancelled x.agent x.tag).toList ++
    ((s.checker.hold.filter fun y => decide (y.agent = a)).map fun y => cancelled a y.tag).toList

theorem cancelWaiting_waiting (s : State) (a b : Agent) :
    (s.cancelWaiting a).waiting b = if b = a then none else s.waiting b := by
  unfold State.cancelWaiting
  split
  · next empty =>
    split
    · next same => rw [same, empty]
    · rfl
  · exact waiting_setWaiting s a b none

theorem cancelWaiting_responses (s : State) (a : Agent) :
    (s.cancelWaiting a).sent.responses =
      s.sent.responses ++ ((s.waiting a).map fun x => cancelled x.agent x.tag).toList := by
  cases waits : s.waiting a with
  | none => simp [State.cancelWaiting, waits]
  | some x =>
    simp only [State.cancelWaiting, waits]
    rfl

theorem cancelHeld_responses (s : State) (a : Agent) :
    (s.cancelHeld a).sent.responses =
      s.sent.responses ++ ((s.checker.hold.filter fun y => decide (y.agent = a)).map fun y => cancelled a y.tag).toList := by
  cases held : s.checker.hold with
  | none => simp [State.cancelHeld, held]
  | some y =>
    by_cases own : y.agent = a
    · subst own
      simp only [State.cancelHeld, held, if_true, Option.filter, decide_true]
      rfl
    · simp [State.cancelHeld, held, own, Option.filter]

/-- R96, step 2: the entry of the held access goes with it. -/
theorem cancelHeld_entry_held {s : State} {a : Agent} {g : StageTag} (held : s.holds a g) :
    (s.cancelHeld a).entry a g = none := by
  obtain ⟨y, held, rfl, rfl⟩ := held
  simp only [State.cancelHeld, held, if_true]
  show ((s.dropHold).setEntry y.agent y.tag none).entry y.agent y.tag = none
  rw [entry_setEntry, if_pos ⟨rfl, rfl⟩]

theorem cancelHeld_entry {s : State} {a : Agent} {g : StageTag} (unheld : ¬s.holds a g) :
    (s.cancelHeld a).entry a g = s.entry a g := by
  unfold State.cancelHeld
  split
  · rfl
  · next y held =>
    split
    · next own =>
      show ((s.dropHold).setEntry a y.tag none).entry a g = _
      rw [entry_setEntry, if_neg fun same => unheld ⟨y, held, own, same.2.symm⟩]
      rfl
    · rfl

theorem cancelHeld_hold_of {s : State} {a : Agent} {y : Txn} (held : (s.cancelHeld a).checker.hold = some y) :
    s.checker.hold = some y := by
  unfold State.cancelHeld at held
  split at held
  · exact held
  · split at held
    · simp [State.dropHold] at held
    · exact held

theorem cancelEntry_entry (s : State) (a : Agent) (g k : StageTag) :
    (State.cancelEntry a s g).entry a k = if k = g then none else s.entry a k := by
  unfold State.cancelEntry
  split
  · next vacant =>
    split
    · next same => rw [same, vacant]
    · rfl
  · show (s.setEntry a g none).entry a k = _
    rw [entry_setEntry]
    simp only [true_and]

theorem cancelEntry_responses (s : State) (a : Agent) (g : StageTag) :
    (State.cancelEntry a s g).sent.responses =
      s.sent.responses ++ ((s.entry a g).map fun _ => cancelled a g).toList := by
  cases stands : s.entry a g with
  | none => simp [State.cancelEntry, stands]
  | some e =>
    simp only [State.cancelEntry, stands]
    rfl

theorem cancelEntries_entry (a : Agent) (k : StageTag) (l : List StageTag) (s : State) :
    (l.foldl (State.cancelEntry a) s).entry a k = if k ∈ l then none else s.entry a k := by
  induction l generalizing s with
  | nil => simp
  | cons g l ih =>
    rw [List.foldl_cons, ih, cancelEntry_entry]
    grind

/-- R96, step 3: the entries are answered in the order of their stage tags. -/
theorem cancelEntries_responses (a : Agent) (l : List StageTag) (s : State) (once : l.Nodup) :
    (l.foldl (State.cancelEntry a) s).sent.responses =
      s.sent.responses ++ l.filterMap fun g => (s.entry a g).map fun _ => cancelled a g := by
  induction l generalizing s with
  | nil => simp
  | cons g l ih =>
    obtain ⟨new, once⟩ := List.nodup_cons.1 once
    have rest : (l.filterMap fun k => ((State.cancelEntry a s g).entry a k).map fun _ => cancelled a k) =
        l.filterMap fun k => (s.entry a k).map fun _ => cancelled a k := by
      refine List.filterMap_congr fun k mem => ?_
      rw [cancelEntry_entry, if_neg (ne_of_mem_of_not_mem mem new)]
    rw [List.foldl_cons, ih _ once, cancelEntry_responses, rest, List.append_assoc, List.filterMap_cons]
    cases s.entry a g <;> rfl

theorem cancelAgent_entry (s : State) (a : Agent) (g : StageTag) : (s.cancelAgent a).entry a g = none := by
  rw [State.cancelAgent, cancelEntries_entry, if_pos (List.mem_finRange g)]

theorem cancelAgent_waiting (s : State) (a b : Agent) :
    (s.cancelAgent a).waiting b = if b = a then none else s.waiting b := by
  have kept := foldl_keeps (State.cancelEntry a) (fun u => u.stage.waiting) (by simp)
  rw [← cancelWaiting_waiting]
  simp only [State.waiting, State.cancelAgent, kept, cancelHeld_keeps]

theorem cancelAgent_hold {s : State} {a : Agent} {y : Txn} (held : (s.cancelAgent a).checker.hold = some y) :
    s.checker.hold = some y ∧ y.agent ≠ a := by
  have kept := foldl_keeps (State.cancelEntry a) (fun u => u.checker) (by simp)
  rw [State.cancelAgent, kept] at held
  exact ⟨by simpa using cancelHeld_hold_of held, cancelHeld_hold _ a y held⟩

/-- R96: the answers of the cancellation event. -/
theorem cancelAgent_responses (s : State) (a : Agent) [∀ g, Decidable (s.holds a g)] :
    (s.cancelAgent a).sent.responses =
      s.sent.responses ++ (s.placesCancelled a ++ (List.finRange 8).filterMap fun g =>
        if s.holds a g then none else (s.entry a g).map fun _ => cancelled a g) := by
  have entry (g : StageTag) : ((s.cancelWaiting a).cancelHeld a).entry a g = if s.holds a g then none else s.entry a g := by
    have unheld : (s.cancelWaiting a).holds a g ↔ s.holds a g := by simp [State.holds]
    split
    · next held => exact cancelHeld_entry_held (unheld.2 held)
    · next other =>
      rw [cancelHeld_entry (mt unheld.1 other)]
      simp [State.entry]
  have left : (fun g => (((s.cancelWaiting a).cancelHeld a).entry a g).map fun _ => cancelled a g) =
      fun g => if s.holds a g then none else (s.entry a g).map fun _ => cancelled a g := by
    funext g
    rw [entry]
    split <;> rfl
  rw [State.cancelAgent, cancelEntries_responses a _ _ (List.nodup_finRange 8), left, cancelHeld_responses,
    cancelWaiting_responses]
  simp only [State.placesCancelled, cancelWaiting_keeps, List.append_assoc]

/-! ### The fault slot -/

theorem emptySlot_slot (s : State) (a : Agent) : ((s.emptySlot a).agent a).slot = none := by
  show ((s.setAgentRec a _).agent a).slot = none
  rw [slot_setAgentRec, if_pos rfl]

theorem emptySlot_online (s : State) (a b : Agent) : (s.emptySlot a).online b = s.online b := by
  show ((s.setAgentRec a _).agent b).online = _
  rw [agent_setAgentRec]
  split
  · next same => rw [same]; rfl
  · rfl

theorem emptySlot_notice (s : State) (a : Agent) : (s.emptySlot a).notice (.fault a) = false := by
  rw [State.emptySlot, notice_lower, decide_eq_true rfl, Bool.not_true, Bool.and_false]

/-! ### Nothing granted ties the agent again -/

/-- A buffer record in which the agent has no role (R2). -/
structure BufRec.Rid (r : BufRec) (a : Agent) : Prop where
  custodian : r.custodian ≠ some a
  lends : ∀ l, l ∈ r.lends → l.borrower ≠ a
  expired : memAgent a r.expired = false

/-- What a reset agent is left with: no outstanding transaction, no held one, no fault, no role in a buffer. -/
structure State.Severed (s : State) (a : Agent) : Prop where
  entries : ∀ g, s.entry a g = none
  hold : ∀ y, s.checker.hold = some y → y.agent ≠ a
  slot : (s.agent a).slot = none
  notice : s.notice (.fault a) = false
  records : ∀ h, (s.buf h).Rid a

section Severed
variable {s t : State} {a : Agent} (severed : s.Severed a)
include severed

theorem State.Severed.of_eq (bufs : t.custody.bufs = s.custody.bufs) (entries : t.stage.outstanding = s.stage.outstanding)
    (checker : t.checker = s.checker) (notices : t.mgmt.notices = s.mgmt.notices) : t.Severed a where
  entries g := by simpa only [State.entry, entries] using severed.entries g
  hold y held := severed.hold y (by rw [← checker, held])
  slot := by simpa only [State.agent, checker] using severed.slot
  notice := by rw [notice_of_eq notices, severed.notice]
  records h := by simpa only [State.buf, bufs] using severed.records h

theorem State.Severed.dropHold (x : Requester) : State.Severed { s.dropHold with mem.preference := x } a :=
  { severed with hold := fun _ held => by cases held }

theorem State.Severed.setEntry {b : Agent} (other : b ≠ a) (g : StageTag) (e : Option Phase) :
    (s.setEntry b g e).Severed a :=
  { severed with
    entries := fun k => by rw [entry_setEntry, if_neg fun same => other same.1.symm, severed.entries] }

theorem State.Severed.setBuf (h : Handle) {r : BufRec} (rid : r.Rid a) : (s.setBuf h r).Severed a where
  entries := severed.entries
  hold := severed.hold
  slot := severed.slot
  notice := severed.notice
  records k := by
    rw [buf_setBuf]
    split
    · exact rid
    · exact severed.records k

/-- R115: the fault of another agent fills that agent's slot. -/
theorem State.Severed.fillSlot {b : Agent} (other : b ≠ a) (f : FaultRec) : (s.fillSlot b f).Severed a := by
  unfold State.fillSlot
  split
  · exact
      { entries := severed.entries
        hold := severed.hold
        slot := by
          show ((s.setAgentRec b _).agent a).slot = none
          rw [slot_setAgentRec, if_neg other.symm, severed.slot]
        notice := by
          rw [notice_raise, notice_setAgentRec, severed.notice, Bool.false_or, decide_eq_false]
          rintro ⟨rfl⟩
          exact other rfl
        records := severed.records }
  · exact severed

theorem State.Severed.refuse {t : Txn} (other : t.agent ≠ a) (k : FaultKind) (b : Option BufState) :
    (s.refuse t k b).Severed a :=
  State.Severed.fillSlot (s := s.respond _) (severed.of_eq rfl rfl rfl rfl) other _

/-- R111: an access forwarded for another agent leaves the roles in its buffer as they are. -/
theorem State.Severed.forward {t : Txn} (other : t.agent ≠ a) (h : Handle) (i : TagIndex) : (s.forward t h i).Severed a := by
  have roles := severed.records h
  let tagged := s.setTag i ⟨(s.tag i).generation, some ⟨.access t.agent t.tag h, s.mgmt.memLimit⟩⟩
  have tagged_ : tagged.Severed a := severed.of_eq rfl rfl rfl rfl
  have counted := tagged_.setBuf h (r := { s.buf h with
    inFlight := (s.buf h).inFlight + 1, written := (s.buf h).written || decide (t.kind = .write) })
    ⟨roles.custodian, roles.lends, roles.expired⟩
  exact (counted.setEntry other t.tag (some (.inMemory i (s.tag i).generation))).of_eq rfl rfl rfl rfl

theorem State.Severed.recheckGranted (i : TagIndex) : (s.recheckGranted i).Severed a := by
  unfold State.recheckGranted
  split
  · exact severed
  · next t held =>
    have other := severed.hold t held
    have dropped := severed.dropHold .scrub
    dsimp only
    split
    · exact dropped
    · split
      · exact (dropped.setEntry other _ none).refuse other _ _
      · exact dropped.forward other _ i

theorem State.Severed.grantOnce : s.grantOnce.Severed a := by
  unfold State.grantOnce
  split
  · exact severed
  · exact severed.recheckGranted _
  · exact severed.of_eq (by simp) (by simp) (by simp) (by simp)

theorem State.Severed.kick : s.kick.Severed a :=
  arbitrate_keeps_law (law := fun u => u.Severed a) (fun _ severed => severed.grantOnce)
    (severed.of_eq (by simp) (by simp) (by simp) (by simp))

end Severed

theorem fillSlot_online (s : State) (a b : Agent) (f : FaultRec) : (s.fillSlot a f).online b = s.online b := by
  unfold State.fillSlot
  split
  · show ((s.setAgentRec a _).agent b).online = _
    rw [agent_setAgentRec]
    split
    · next same => rw [same]; rfl
    · rfl
  · rfl

theorem online_of_eq {s t : State} (agents : t.checker.agents = s.checker.agents) (a : Agent) : t.online a = s.online a := by
  simp only [State.online, State.agent, agents]

/-- R116: no grant changes an agent's flag. -/
theorem grantOnce_online (s : State) (a : Agent) : s.grantOnce.online a = s.online a := by
  have granted (i : TagIndex) : (s.recheckGranted i).online a = s.online a := by
    unfold State.recheckGranted
    split
    · rfl
    · dsimp only
      split
      · rfl
      · split
        · exact fillSlot_online _ _ a _
        · exact online_of_eq (by simp [State.dropHold]) a
  unfold State.grantOnce
  split
  · rfl
  · exact granted _
  · exact online_of_eq (by simp) a

theorem kick_online (s : State) (a : Agent) : s.kick.online a = s.online a :=
  arbitrate_keeps_law (law := fun u => u.online a = s.online a) (fun u same => (grantOnce_online u a).trans same)
    (online_of_eq (by simp) a)

end Sys2Proof.Machine
end

section
/-! The custody unit's part of an agent reset, the sweep (R42): where the release path leaves each buffer of the agent, what the
buffers brought back to their senders are, and what the sweep leaves of every other record. -/

namespace Sys2Proof.Machine

/-! ### The release path as a write of one record -/

/-- R13: the state in which the release path leaves a record; `scrubs` is its pool's. -/
def BufRec.exit (r : BufRec) (scrubs : Bool) : BufState :=
  if 0 < r.inFlight then .draining else if scrubs && r.written then .scrubbing else .free

/-- R13: a record after the release path. -/
def BufRec.released (r : BufRec) (scrubs : Bool) : BufRec :=
  { r with
    state := r.exit scrubs, custodian := none, target := none, sealed := false, lends := []
    generation := if r.exit scrubs = .free then r.generation + 1 else r.generation
    written := r.written && decide (r.exit scrubs ≠ .free)
    expired := if r.exit scrubs = .draining then r.expired else 0 }

/-- R22: whether the pool of a buffer scrubs on release. -/
def State.scrubbed (s : State) (h : Handle) : Bool := (s.pool (s.buf h).pool).scrubs

/-- R13: where the release path would leave a buffer. -/
def State.exit (s : State) (h : Handle) : BufState := (s.buf h).exit (s.scrubbed h)

/-- R13: the release path by its three ends. -/
theorem releasePath_cases (s : State) (h : Handle) :
    let written := s.setBuf h ((s.buf h).released (s.scrubbed h))
    let p := (s.buf h).pool
    (s.exit h = .draining ∧ s.releasePath h = written) ∨
      (s.exit h = .scrubbing ∧ s.releasePath h = { written with scrub.queue := s.scrub.queue ++ [h] }) ∨
      (s.exit h = .free ∧ s.releasePath h =
        written.setPool p { s.pool p with freeList := (s.pool p).freeList ++ [h] }.rearm) := by
  let bare : BufRec := { s.buf h with custodian := none, target := none, sealed := false, lends := [] }
  have self : (s.setBuf h bare).buf h = bare := buf_setBuf_self s h bare
  by_cases busy : 0 < (s.buf h).inFlight
  · refine .inl ⟨by simp [State.exit, BufRec.exit, busy], ?_⟩
    rw [releasePath_busy busy]
    simp [BufRec.released, BufRec.exit, busy]
  · have idle : (s.buf h).inFlight = 0 := by omega
    rw [releasePath_idle idle]
    cases scrub : s.scrubbed h && (s.buf h).written with
    | true =>
      have exit : (s.buf h).exit (s.scrubbed h) = .scrubbing := by simp [BufRec.exit, idle, scrub]
      obtain ⟨scrubs, written⟩ := Bool.and_eq_true_iff.1 scrub
      refine .inr (.inl ⟨exit, ?_⟩)
      rw [settleRelease_scrub (by rw [self]; exact scrubs) (by rw [self]; exact written), enterScrubbing_eq, self,
        setBuf_setBuf]
      simp [BufRec.released, exit, written, idle, bare, State.setBuf]
    | false =>
      have exit : (s.buf h).exit (s.scrubbed h) = .free := by simp [BufRec.exit, idle, scrub]
      refine .inr (.inr ⟨exit, ?_⟩)
      rw [settleRelease_free (by rw [self]; exact Bool.and_eq_false_iff.1 scrub), State.becomeFree, self, setBuf_setBuf]
      simp [BufRec.released, exit, idle, bare]

theorem buf_releasePath (s : State) (h k : Handle) :
    (s.releasePath h).buf k = if k = h then (s.buf h).released (s.scrubbed h) else s.buf k := by
  obtain ⟨-, path⟩ | ⟨-, path⟩ | ⟨-, path⟩ := releasePath_cases s h <;> rw [path] <;> exact buf_setBuf s h k _

/-- R13, R18: a buffer that becomes FREE joins the tail of its pool's free list; a pool's other fields do not matter here. -/
theorem pool_releasePath (s : State) (h : Handle) (p : PoolId) :
    ((s.releasePath h).pool p).scrubs = (s.pool p).scrubs ∧
      ((s.releasePath h).pool p).freeList =
        (s.pool p).freeList ++ [h].filter fun k => decide ((s.buf k).pool = p ∧ s.exit k = .free) := by
  obtain ⟨exit, path⟩ | ⟨exit, path⟩ | ⟨exit, path⟩ := releasePath_cases s h
  · rw [path]
    simp [exit, State.pool]
  · rw [path]
    simp [exit, State.pool]
  · rw [path, pool_setPool]
    by_cases same : p = (s.buf h).pool
    · subst same
      simp [exit, PoolRec.rearm]
    · simp [same, Ne.symm same, State.pool]

theorem scrubQueue_releasePath (s : State) (h : Handle) :
    (s.releasePath h).scrub.queue = s.scrub.queue ++ [h].filter fun k => decide (s.exit k = .scrubbing) := by
  obtain ⟨exit, path⟩ | ⟨exit, path⟩ | ⟨exit, path⟩ := releasePath_cases s h <;> rw [path] <;> simp [exit]

/-! ### The buffers that take the release path (R42, step 2) -/

/-- R13, R38, R42: the buffers of a list have left by the release path, in the order of the list. -/
structure State.Released (s : State) (l : List Handle) (t : State) : Prop where
  buf : ∀ k, t.buf k = if k ∈ l then (s.buf k).released (s.scrubbed k) else s.buf k
  queue : ∀ b, t.queue b = (s.queue b).filter (· ∉ l)
  scrubs : ∀ p, (t.pool p).scrubs = (s.pool p).scrubs
  freeList : ∀ p, (t.pool p).freeList =
    (s.pool p).freeList ++ l.filter fun k => decide ((s.buf k).pool = p ∧ s.exit k = .free)
  scrubQueue : t.scrub.queue = s.scrub.queue ++ l.filter fun k => decide (s.exit k = .scrubbing)

/-- R5: a buffer of the list stands in an inbound queue only where it is in transit to that agent. -/
def State.Placed (s : State) (l : List Handle) : Prop :=
  ∀ h, h ∈ l → ∀ b, h ∈ s.queue b → (s.buf h).state = .inTransit ∧ (s.buf h).target = some b

theorem State.Released.nil (s : State) : s.Released [] s := by
  constructor <;> simp

/-- R13: the release path alone, with the handle already out of the inbound queues. -/
theorem releasePath_released {s : State} {h : Handle} {queues : Vector (List Handle) 16}
    (gone : ∀ b, nth queues b = (s.queue b).filter (· ∉ [h])) :
    s.Released [h] (State.releasePath { s with custody.queues := queues } h) := by
  let left : State := { s with custody.queues := queues }
  have pool := pool_releasePath left h
  refine
    { buf := fun k => ?_, queue := fun b => ?_, scrubs := fun p => (pool p).1, freeList := fun p => (pool p).2
      scrubQueue := scrubQueue_releasePath left h }
  · rw [buf_releasePath]
    simp only [List.mem_singleton]
    split
    · next same => rw [same]; rfl
    · rfl
  · rw [← gone]
    simp only [State.queue, releasePath_keeps]

theorem forceOut_released {s : State} {h : Handle} (placed : s.Placed [h]) : s.Released [h] (s.forceOut h) := by
  have queued (b : Agent) (mem : h ∈ s.queue b) := placed h List.mem_cons_self b mem
  have stays (b : Agent) (away : h ∉ s.queue b) : s.queue b = (s.queue b).filter (· ∉ [h]) := by
    refine (List.filter_eq_self.2 fun k mem => ?_).symm
    simpa using ne_of_mem_of_not_mem mem away
  by_cases transit : (s.buf h).state = .inTransit ∧ ∃ b, (s.buf h).target = some b
  · obtain ⟨transit, b, target⟩ := transit
    rw [forceOut_of_transit transit target]
    refine releasePath_released fun c => ?_
    rw [nth_put]
    split
    · next same =>
      subst same
      simp
    · next other => exact stays c fun mem => other (Option.some.inj ((queued c mem).2.symm.trans target))
  · have apart : s.forceOut h = s.releasePath h := by
      unfold State.forceOut
      grind
    rw [apart]
    exact releasePath_released fun c => stays c fun mem => transit ⟨(queued c mem).1, c, (queued c mem).2⟩

theorem State.Released.cons {s t u : State} {h : Handle} {l : List Handle} (new : h ∉ l) (first : s.Released [h] t)
    (rest : t.Released l u) : s.Released (h :: l) u := by
  have same (k : Handle) (mem : k ∈ l) : t.buf k = s.buf k := by
    rw [first.buf, if_neg (by grind)]
  have scrubbed (k : Handle) (mem : k ∈ l) : t.scrubbed k = s.scrubbed k := by
    rw [State.scrubbed, same k mem, first.scrubs, State.scrubbed]
  have exit (k : Handle) (mem : k ∈ l) : t.exit k = s.exit k := by
    rw [State.exit, same k mem, scrubbed k mem, State.exit]
  refine { buf := fun k => ?_, queue := fun b => ?_, scrubs := fun p => ?_, freeList := fun p => ?_, scrubQueue := ?_ }
  · rw [rest.buf]
    split
    · next mem => rw [same k mem, scrubbed k mem, if_pos (List.mem_cons_of_mem h mem)]
    · next away =>
      rw [first.buf]
      grind
  · rw [rest.queue, first.queue, List.filter_filter]
    grind
  · rw [rest.scrubs, first.scrubs]
  · have left : (l.filter fun k => decide ((t.buf k).pool = p ∧ t.exit k = .free)) =
        l.filter fun k => decide ((s.buf k).pool = p ∧ s.exit k = .free) :=
      List.filter_congr fun k mem => by rw [same k mem, exit k mem]
    rw [rest.freeList, first.freeList, left, List.append_assoc, ← List.filter_append, List.singleton_append]
  · have left : (l.filter fun k => decide (t.exit k = .scrubbing)) = l.filter fun k => decide (s.exit k = .scrubbing) :=
      List.filter_congr fun k mem => by rw [exit k mem]
    rw [rest.scrubQueue, first.scrubQueue, left, List.append_assoc, ← List.filter_append, List.singleton_append]

theorem forceOut_all {s : State} {l : List Handle} (once : l.Nodup) (placed : s.Placed l) :
    s.Released l (l.foldl State.forceOut s) := by
  induction l generalizing s with
  | nil => exact .nil s
  | cons h l ih =>
    obtain ⟨new, once⟩ := List.nodup_cons.1 once
    have first : s.Released [h] (s.forceOut h) := forceOut_released fun k mem => placed k (by grind)
    have still : (s.forceOut h).Placed l := by
      intro k mem b queued
      rw [first.queue] at queued
      rw [first.buf, if_neg (by grind)]
      exact placed k (List.mem_cons_of_mem h mem) b (List.mem_of_mem_filter queued)
    exact first.cons new (ih once still)

/-- R42: a buffer that leaves makes no other buffer the agent's. -/
theorem foldl_sweepRelease (a : Agent) (l : List Handle) (s : State) (once : l.Nodup) :
    l.foldl (State.sweepRelease a) s =
      (l.filter fun h => decide ((s.buf h).custodian = some a)).foldl State.forceOut s := by
  induction l generalizing s with
  | nil => rfl
  | cons h l ih =>
    obtain ⟨new, once⟩ := List.nodup_cons.1 once
    rw [List.foldl_cons, ih _ once, List.filter_cons, State.sweepRelease]
    by_cases own : (s.buf h).custodian = some a
    · have others : (l.filter fun k => decide (((s.forceOut h).buf k).custodian = some a)) =
          l.filter fun k => decide ((s.buf k).custodian = some a) :=
        List.filter_congr fun k mem => by rw [buf_forceOut_ne s (ne_of_mem_of_not_mem mem new)]
      rw [if_pos own, others, if_pos (decide_eq_true own)]
      rfl
    · rw [if_neg own, if_neg (by simpa using own)]

/-! ### The buffers brought back (R42, step 3) -/

/-- R59, R62: a buffer HELD again by its sender. -/
def BufRec.returned (r : BufRec) : BufRec := { r with state := .held, target := none }

theorem buf_returnAll (l : List Handle) (s : State) (k : Handle) :
    (l.foldl State.bringBack s).buf k = if k ∈ l then (s.buf k).returned else s.buf k := by
  induction l generalizing s with
  | nil => simp
  | cons h l ih =>
    rw [List.foldl_cons, ih, buf_bringBack]
    by_cases same : k = h
    · subst same
      simp [BufRec.returned]
    · simp [same]

theorem queue_bringBack {s : State} {h : Handle} {a : Agent} (target : (s.buf h).target = some a) (b : Agent) :
    (s.bringBack h).queue b = if b = a then (s.queue a).filter (· ≠ h) else s.queue b := by
  rw [bringBack_of_target target]
  exact queue_setQueue s a b _

theorem queue_returnAll {a : Agent} {l : List Handle} {s : State} (once : l.Nodup)
    (targets : ∀ h, h ∈ l → (s.buf h).target = some a) (b : Agent) :
    (l.foldl State.bringBack s).queue b = if b = a then (s.queue a).filter (· ∉ l) else s.queue b := by
  induction l generalizing s with
  | nil =>
    split
    · next same => simp [same]
    · rfl
  | cons h l ih =>
    obtain ⟨new, once⟩ := List.nodup_cons.1 once
    have queue := queue_bringBack (targets h List.mem_cons_self)
    have still (k : Handle) (mem : k ∈ l) : ((s.bringBack h).buf k).target = some a := by
      rw [buf_bringBack, if_neg (ne_of_mem_of_not_mem mem new)]
      exact targets k (List.mem_cons_of_mem h mem)
    rw [List.foldl_cons, ih once still, queue, queue, if_pos rfl, List.filter_filter]
    grind

/-! ### The sweep, whole -/

/-- R42: what the sweep makes of a record; `scrubs` is its pool's. -/
def BufRec.swept (a : Agent) (scrubs : Bool) (r : BufRec) : BufRec :=
  (if r.custodian = some a then r.released scrubs else if r.target = some a then r.returned else r).dropTaken a

/-- R42: the custody unit after the sweep. -/
structure State.Swept (s : State) (a : Agent) (t : State) : Prop where
  buf : ∀ h, t.buf h = (s.buf h).swept a (s.scrubbed h)
  own : t.queue a = []
  queue : ∀ b, b ≠ a → t.queue b = (s.queue b).filter fun h => (s.buf h).custodian ≠ some a
  freeList : ∀ p, (t.pool p).freeList = (s.pool p).freeList ++ (List.finRange 511).filter fun h =>
    decide ((s.buf h).custodian = some a ∧ (s.buf h).pool = p ∧ s.exit h = .free)
  scrubQueue : t.scrub.queue = s.scrub.queue ++ (List.finRange 511).filter fun h =>
    decide ((s.buf h).custodian = some a ∧ s.exit h = .scrubbing)

/-- R82: the lends that the agent gave are all that the first step drops. -/
theorem dropGiven_eq (a : Agent) (r : BufRec) : r.dropGiven a = { r with lends := (r.dropGiven a).lends } := by
  unfold BufRec.dropGiven
  split <;> rfl

theorem dropGiven_of_stranger {a : Agent} {r : BufRec} (stranger : r.custodian ≠ some a) : r.dropGiven a = r :=
  if_neg fun own => stranger own.2

theorem dropGiven_released (a : Agent) (r : BufRec) (scrubs : Bool) :
    (r.dropGiven a).released scrubs = r.released scrubs := by
  rw [dropGiven_eq]
  rfl

theorem buf_mapBufs (s : State) (f : BufRec → BufRec) (h : Handle) : (s.mapBufs f).buf h = f (s.buf h) :=
  nth_mapAll s.custody.bufs f h

section Sweep
variable {s : State} (a : Agent)

/-- R13: the drop of given lends changes neither where a buffer goes nor whose it is. -/
theorem exit_dropGiven (h : Handle) :
    let given := s.mapBufs (BufRec.dropGiven a)
    (given.buf h).custodian = (s.buf h).custodian ∧ (given.buf h).target = (s.buf h).target ∧
      (given.buf h).state = (s.buf h).state ∧ (given.buf h).pool = (s.buf h).pool ∧ given.scrubbed h = s.scrubbed h ∧
      given.exit h = s.exit h := by
  have rest := dropGiven_eq a (s.buf h)
  have scrubbed : (s.mapBufs (BufRec.dropGiven a)).scrubbed h = s.scrubbed h := by
    rw [State.scrubbed, buf_mapBufs, rest]
    rfl
  refine ⟨?_, ?_, ?_, ?_, scrubbed, ?_⟩
  · rw [buf_mapBufs, rest]
  · rw [buf_mapBufs, rest]
  · rw [buf_mapBufs, rest]
  · rw [buf_mapBufs, rest]
  · rw [State.exit, scrubbed, buf_mapBufs, rest]
    rfl

/-- R3, R5: the agent's inbound queue holds what is in transit to it. -/
theorem mem_queue_iff (law : s.custodyLawful) (h : Handle) : h ∈ s.queue a ↔ (s.buf h).target = some a := by
  obtain ⟨fits, -, placed⟩ := law
  refine (placed.transit a h).trans ⟨fun transit => transit.2, fun target => ⟨?_, target⟩⟩
  exact ((fits h).target (by simp [target])).1

theorem stranger_of_target (law : s.custodyLawful) {h : Handle} (target : (s.buf h).target = some a) :
    (s.buf h).custodian ≠ some a := by
  have other := ((law.1 h).target (by simp [target])).2
  exact fun own => other (target.trans own.symm)

/-- R42: the sweep by its four steps. -/
theorem sweep_swept (law : s.custodyLawful) : s.Swept a (s.sweep a) := by
  let given := s.mapBufs (BufRec.dropGiven a)
  let own := (List.finRange 511).filter fun h => decide ((s.buf h).custodian = some a)
  let gone := own.foldl State.forceOut given
  have mem_own (h : Handle) : h ∈ own ↔ (s.buf h).custodian = some a := by simp [own]
  have placed : given.Placed own := by
    intro h _ b queued
    obtain ⟨-, target, state, -⟩ := exit_dropGiven (s := s) a h
    rw [state, target]
    exact (law.2.2.transit b h).1 queued
  have released : given.Released own gone := forceOut_all ((List.nodup_finRange 511).filter _) placed
  have queue (b : Agent) : gone.queue b = (s.queue b).filter fun h => (s.buf h).custodian ≠ some a := by
    rw [released.queue]
    exact List.filter_congr fun h _ => by simp [mem_own]
  have mine : gone.queue a = s.queue a := by
    rw [queue]
    exact List.filter_eq_self.2 fun h mem => by simpa using stranger_of_target a law ((mem_queue_iff a law h).1 mem)
  have bufs (h : Handle) : gone.buf h =
      if (s.buf h).custodian = some a then (s.buf h).released (s.scrubbed h) else s.buf h := by
    obtain ⟨-, -, -, -, scrubbed, -⟩ := exit_dropGiven (s := s) a h
    rw [released.buf, scrubbed, buf_mapBufs, dropGiven_released]
    simp only [mem_own]
    split
    · rfl
    · next stranger => exact dropGiven_of_stranger stranger
  have sweep : s.sweep a = ((s.queue a).foldl State.bringBack gone).mapBufs (BufRec.dropTaken a) := by
    have first : (List.finRange 511).foldl (State.sweepRelease a) given = gone := by
      have same : ((List.finRange 511).filter fun h => decide ((given.buf h).custodian = some a)) = own :=
        List.filter_congr fun h _ => by rw [(exit_dropGiven (s := s) a h).1]
      rw [foldl_sweepRelease a _ _ (List.nodup_finRange 511), same]
    rw [← mine]
    simp only [State.sweep]
    rw [first]
  have targets (h : Handle) (mem : h ∈ s.queue a) : (gone.buf h).target = some a := by
    have target := (mem_queue_iff a law h).1 mem
    rw [bufs, if_neg (stranger_of_target a law target), target]
  have queues (b : Agent) : (s.sweep a).queue b = if b = a then (gone.queue a).filter (· ∉ s.queue a) else gone.queue b := by
    rw [← queue_returnAll (law.2.2.transitOnce a) targets, sweep]
    simp only [State.queue, mapBufs_keeps]
  refine { buf := fun h => ?_, own := ?_, queue := fun b other => ?_, freeList := fun p => ?_, scrubQueue := ?_ }
  · rw [sweep, buf_mapBufs, buf_returnAll, bufs, BufRec.swept]
    simp only [mem_queue_iff a law]
    by_cases target : (s.buf h).target = some a
    · simp only [target, stranger_of_target a law target, if_true, if_false]
    · simp only [target, if_false]
  · rw [queues, if_pos rfl, mine]
    simp
  · rw [queues, if_neg other, queue]
  · have kept : (s.sweep a).pool p = gone.pool p := by
      rw [sweep]
      simp only [State.pool, mapBufs_keeps, returnAll_pools]
    rw [kept, released.freeList, List.filter_filter]
    refine congrArg (_ ++ ·) (List.filter_congr fun h _ => ?_)
    obtain ⟨-, -, -, pool, -, exit⟩ := exit_dropGiven (s := s) a h
    rw [pool, exit]
    grind
  · have kept : (s.sweep a).scrub = gone.scrub := by
      rw [sweep]
      simp only [mapBufs_keeps, foldl_keeps State.bringBack (fun u => u.scrub) (by simp)]
    rw [kept, released.scrubQueue, List.filter_filter]
    refine congrArg (_ ++ ·) (List.filter_congr fun h _ => ?_)
    obtain ⟨-, -, -, -, -, exit⟩ := exit_dropGiven (s := s) a h
    rw [exit]
    grind

end Sweep

/-! ### The records of the sweep -/

theorem memAgent_dropAgent (a : Agent) (set : AgentSet) : memAgent a (dropAgent a set) = false := by
  simp [memAgent, dropAgent]

theorem dropAgent_of_absent {a : Agent} {set : AgentSet} (absent : memAgent a set = false) : dropAgent a set = set := by
  refine BitVec.eq_of_getLsbD_eq fun i below => ?_
  rw [memAgent] at absent
  simp only [dropAgent, BitVec.getLsbD_and, BitVec.getLsbD_not, BitVec.getLsbD_twoPow, below]
  by_cases same : a.val = i
  · subst same
    simp only [absent, Bool.false_and]
  · simp [same]

theorem dropTaken_rid {a : Agent} {r : BufRec} (stranger : r.custodian ≠ some a) : (r.dropTaken a).Rid a where
  custodian := stranger
  lends l mem := by simpa using (List.mem_filter.1 mem).2
  expired := memAgent_dropAgent a r.expired

theorem swept_rid (a : Agent) (scrubs : Bool) (r : BufRec) : (r.swept a scrubs).Rid a := by
  unfold BufRec.swept
  refine dropTaken_rid ?_
  split
  · simp [BufRec.released]
  · next stranger =>
    split
    · exact stranger
    · exact stranger

/-- R2: a record in which the agent has no role is the same without its role. -/
theorem dropTaken_of_rid {a : Agent} {r : BufRec} (lends : ∀ l, l ∈ r.lends → l.borrower ≠ a)
    (absent : memAgent a r.expired = false) : r.dropTaken a = r := by
  have kept : r.lends.filter (fun l => decide (l.borrower ≠ a)) = r.lends :=
    List.filter_eq_self.2 fun l mem => by simpa using lends l mem
  simp only [BufRec.dropTaken, BufRec.endLend, BufRec.endExpiry, kept, dropAgent_of_absent absent]

end Sys2Proof.Machine
end

section
/-! AGENT_RESET (R172): its three parts in one step, and what the arbiter grants after it. -/

namespace Sys2Proof.Machine

/-! ### A swept record -/

/-- R13, R61, R82: a buffer of the agent is where the release path leaves it, without the agent among the expired. -/
theorem swept_own {a : Agent} {r : BufRec} (own : r.custodian = some a) (scrubs : Bool) :
    r.swept a scrubs = { r.released scrubs with
      expired := if r.exit scrubs = .draining then dropAgent a r.expired else 0 } := by
  have left : dropAgent a (r.released scrubs).expired = if r.exit scrubs = .draining then dropAgent a r.expired else 0 := by
    simp only [BufRec.released]
    split
    · rfl
    · simp [dropAgent]
  rw [BufRec.swept, if_pos own, ← left]
  rfl

/-- R62: a buffer in transit to the agent is its sender's again; it was lent to nobody. -/
theorem swept_target {a : Agent} {r : BufRec} (fits : r.Fits) (target : r.target = some a) (scrubs : Bool) :
    r.swept a scrubs = { r with state := .held, target := none, expired := dropAgent a r.expired } := by
  obtain ⟨transit, other⟩ := fits.target (by simp [target])
  have stranger : r.custodian ≠ some a := fun own => other (target.trans own.symm)
  have unlent : r.lends = [] := by
    refine Classical.byContradiction fun lent => ?_
    cases transit.symm.trans (fits.lends lent).1
  rw [BufRec.swept, if_neg stranger, if_pos target]
  simp only [BufRec.dropTaken, BufRec.endLend, BufRec.endExpiry, BufRec.returned, unlent, List.filter_nil]

theorem swept_stranger {a : Agent} {r : BufRec} (stranger : r.custodian ≠ some a) (other : r.target ≠ some a)
    (scrubs : Bool) : r.swept a scrubs = r.dropTaken a := by
  rw [BufRec.swept, if_neg stranger, if_neg other]

/-! ### The command before the grants -/

/-- R172: the three parts of the command, and its answer. -/
def State.agentReset (s : State) (a : Agent) : State := (((s.cancelAgent a).emptySlot a).sweep a).setAnswer .ok

theorem exec_agentReset {s : State} (ready : s.ready) (x : Byte) :
    exec (.agentReset x) s = .next (cmdAgentReset x.toNat s) := congrArg _ (runCommand_ready ready _)

theorem cmdAgentReset_val (s : State) (a : Agent) : cmdAgentReset a.val s = (s.agentReset a).kick := by
  rw [cmdAgentReset, agentOf_val]
  rfl

section Reset
variable {s : State} (a : Agent)

/-- The law of the custody tables speaks of them and of the scrub engine alone. -/
theorem custodyLawful_of_eq {t : State} (custody : t.custody = s.custody) (scrub : t.scrub = s.scrub)
    (law : s.custodyLawful) : t.custodyLawful := by
  obtain ⟨fits, roles, placed⟩ := law
  refine ⟨recordsFit_of_eq (by rw [custody]) fits, fun h => ?_, placed.of_eq custody (by rw [scrub]) (by rw [scrub])⟩
  simpa only [State.buf, custody] using roles h

theorem State.Swept.of_eq {t u : State} (custody : u.custody = s.custody) (scrub : u.scrub = s.scrub)
    (swept : u.Swept a t) : s.Swept a t := by
  have buf (h : Handle) : u.buf h = s.buf h := by rw [State.buf, custody, State.buf]
  have pool (p : PoolId) : u.pool p = s.pool p := by rw [State.pool, custody, State.pool]
  have queue (b : Agent) : u.queue b = s.queue b := by rw [State.queue, custody, State.queue]
  have scrubbed (h : Handle) : u.scrubbed h = s.scrubbed h := by rw [State.scrubbed, buf, pool, State.scrubbed]
  have exit (h : Handle) : u.exit h = s.exit h := by rw [State.exit, buf, scrubbed, State.exit]
  obtain ⟨bufs, own, queues, freeList, scrubQueue⟩ := swept
  simp only [buf, pool, queue, scrubbed, exit, scrub] at bufs queues freeList scrubQueue
  exact ⟨bufs, own, queues, freeList, scrubQueue⟩

theorem State.Swept.congr {t v : State} (swept : s.Swept a t) (custody : v.custody = t.custody) (scrub : v.scrub = t.scrub) :
    s.Swept a v := by
  obtain ⟨buf, own, queue, freeList, scrubQueue⟩ := swept
  constructor
  · simpa only [State.buf, custody] using buf
  · simpa only [State.queue, custody] using own
  · simpa only [State.queue, custody] using queue
  · simpa only [State.pool, custody] using freeList
  · simpa only [scrub] using scrubQueue

theorem agentReset_swept (law : s.custodyLawful) : s.Swept a (s.agentReset a) := by
  let u := (s.cancelAgent a).emptySlot a
  have custody : u.custody = s.custody := by simp [u]
  have scrub : u.scrub = s.scrub := by simp [u]
  have swept := (sweep_swept a (custodyLawful_of_eq custody scrub law)).of_eq a custody scrub
  exact swept.congr a (by simp only [State.agentReset, setAnswer_keeps, u])
    (by simp only [State.agentReset, setAnswer_keeps, u])

theorem agentReset_hold {y : Txn} (held : (s.agentReset a).checker.hold = some y) :
    s.checker.hold = some y ∧ y.agent ≠ a :=
  cancelAgent_hold (by simpa [State.agentReset] using held)

theorem agentReset_severed (law : s.custodyLawful) : (s.agentReset a).Severed a where
  entries g := by
    rw [← cancelAgent_entry s a g]
    simp [State.agentReset, State.entry]
  hold _ held := (agentReset_hold a held).2
  slot := by
    rw [← emptySlot_slot (s.cancelAgent a) a]
    simp [State.agentReset, State.agent]
  notice := by
    rw [← emptySlot_notice (s.cancelAgent a) a]
    exact notice_of_eq (by simp [State.agentReset]) _
  records h := by
    rw [(agentReset_swept a law).buf]
    exact swept_rid a _ _

theorem agentReset_waiting (b : Agent) : (s.agentReset a).waiting b = if b = a then none else s.waiting b := by
  rw [← cancelAgent_waiting]
  simp [State.agentReset, State.waiting]

theorem agentReset_online : (s.agentReset a).online a = s.online a := by
  have cleared : (s.agentReset a).online a = ((s.cancelAgent a).emptySlot a).online a :=
    online_of_eq (by simp [State.agentReset]) a
  rw [cleared, emptySlot_online]
  exact online_of_eq (by simp) a

/-- R125: in a quiet state the command leaves nothing that the arbiter could grant to the checker. -/
theorem agentReset_untouched (quiet : s.quiet) : (s.agentReset a).Untouched (s.agentReset a).kick := by
  refine kick_untouched fun may => ?_
  have may' : s.mayGrant := by simpa [State.agentReset, State.mayGrant, State.tag] using may
  refine Option.eq_none_iff_forall_ne_some.2 fun y held => ?_
  cases (quiet.1 may').1.symm.trans (agentReset_hold a held).1

theorem kick_answer (u : State) : u.kick.mgmt.answer = u.mgmt.answer := by simp

/-- R132: an engine at work, or a link that is DOWN, takes no head. -/
theorem kick_scrubQueue {u : State} (busy : u.scrub.engine ≠ .idle ∨ u.mem.link = .down) :
    u.kick.scrub.queue = u.scrub.queue := by
  rw [State.kick, takeHead_eq u fun idle up => ?_]
  · simp only [arbitrate_keeps]
  · rcases busy with busy | down
    · exact absurd idle busy
    · cases up.symm.trans down

end Reset

/-- Settles O54: the answer outside the range; the parts of the reset, each left as it is by what the arbiter grants; and the
records by the agent's role in them. -/
theorem agentResetClearsEveryTie : Obligations.AgentResetClearsEveryTie := by
  intro s x ready
  refine ⟨fun out => ?_, fun a num law => ?_⟩
  · rw [exec_agentReset ready, cmdAgentReset, agentOf_eq_none out]
  have severed := (agentReset_severed a law).kick
  have swept := agentReset_swept a law
  have waiting (b : Agent) : (s.agentReset a).kick.waiting b = if b = a then none else s.waiting b := by
    rw [← agentReset_waiting]
    simp only [State.waiting, kick_keeps]
  have queue (b : Agent) : (s.agentReset a).kick.queue b = (s.agentReset a).queue b := by
    simp only [State.queue, kick_keeps]
  have buf (quiet : s.quiet) (h : Handle) : (s.agentReset a).kick.buf h = (s.buf h).swept a (s.scrubbed h) := by
    rw [← swept.buf, State.buf, (agentReset_untouched a quiet).custody]
    rfl
  refine ⟨(s.agentReset a).kick, by rw [exec_agentReset ready, num, cmdAgentReset_val], by rw [kick_answer]; rfl,
    by rw [waiting, if_pos rfl], severed.entries, severed.hold, severed.slot, severed.notice,
    by rw [kick_online, agentReset_online], by rw [queue, swept.own], by simp [State.agentReset], by simp [State.agentReset],
    by simp [State.agentReset], fun b other => by rw [waiting, if_neg other], fun quiet => ?_, fun quiet => ?_,
    fun quiet h stranger other lends absent => ?_, fun h => ?_⟩
  · classical
    have sent : (s.agentReset a).sent.responses = (s.cancelAgent a).sent.responses := by simp [State.agentReset]
    rw [(agentReset_untouched a quiet).responses, sent, cancelAgent_responses]
    refine congrArg (_ ++ ·) (congrArg₂ (· ++ ·) (congrArg₂ (· ++ ·) ?_ ?_) (congrArg (List.filterMap · _) ?_))
    · cases s.waiting a <;> rfl
    · cases s.checker.hold with
      | none => rfl
      | some y =>
        by_cases own : y.agent = a
        · simp [own, Option.filter, cancelled]
        · simp [own, Option.filter]
    · funext g
      by_cases held : s.holds a g
      · exact (if_pos held).trans (if_pos held).symm
      · refine (if_neg held).trans (Eq.trans ?_ (if_neg held).symm)
        cases s.entry a g <;> rfl
  · refine ⟨fun h own => ?_, fun h target => ?_, fun h stranger other => ?_, fun b other => ?_, fun p => ?_, fun busy => ?_⟩
    · rw [buf quiet, swept_own own]
      rfl
    · rw [buf quiet, swept_target (law.1 h) target]
      rfl
    · rw [buf quiet, swept_stranger stranger other]
      rfl
    · rw [queue, swept.queue b other]
    · have pool : (s.agentReset a).kick.pool p = (s.agentReset a).pool p := by simp only [State.pool, kick_keeps]
      rw [pool]
      exact swept.freeList p
    · rw [kick_scrubQueue (by simpa [State.agentReset] using busy)]
      exact swept.scrubQueue
  · rw [buf quiet, swept_stranger stranger other, dropTaken_of_rid lends absent]
  · obtain ⟨custodian, lends, expired⟩ := severed.records h
    exact ⟨custodian, lends, expired⟩

end Sys2Proof.Machine
end

section
/-! RESET low (R181): what its assertion writes, and the rows that find the part held there. -/

namespace Sys2Proof.Machine

/-! ### The assertion -/

/-- The assertion of RESET is a part reset that samples no pins (log 11). -/
theorem exec_resetAssert {s : State} (high : s.resetLow = false) :
    exec .resetAssert s =
      .next { s.partReset 0 with mgmt.ownAddress := s.mgmt.ownAddress, resetLow := true } := by
  simp only [exec, execResetAssert, high, Bool.false_eq_true, if_false]

/-- R175: with no notice pending, IRQ is released whatever is enabled. -/
theorem irq_of_noNotices {s : State} (cleared : s.mgmt.notices = 0) : s.irq = false := by
  simp [State.irq, cleared]

/-! ### The rows while RESET is low -/

/-- The rows that a low RESET leaves without effect: all but its release, the end of a MARK pulse, and the two that put a byte on
the bus, which goes without acknowledgement (R165, R181). -/
def IdlesInReset : Instr → Prop
  | .resetRelease _ | .markPulseEnd | .i2cAddress _ _ _ | .i2cDataByte _ => False
  | _ => True

theorem idlesInReset_of_hostFrame {c : Instr} (management : hostFrame c ≠ none) : IdlesInReset c := by
  cases c with
  | resetRelease | markPulseEnd | i2cAddress | i2cDataByte => exact management rfl
  | _ => trivial

section Low
variable {s : State} (low : s.resetLow = true)
include low

/-- Each of these rows looks at RESET first: a low RESET is the one reason to do nothing, or one of two reasons, or else a high
RESET is one of two conditions for doing something. A management command looks at it in `runCommand`. -/
theorem exec_of_resetLow {c : Instr} (idles : IdlesInReset c) : exec c s = .next s := by
  cases c with
  | resetRelease | markPulseEnd | i2cAddress | i2cDataByte => exact idles.elim
  | transactionIssue | heldAccessRecheck => exact congrArg Host.Outcome.next (if_pos (by simp [low]))
  | memoryResponse | tagExpiry | mark => exact congrArg Host.Outcome.next (if_neg (by simp [low]))
  | _ => exact congrArg Host.Outcome.next (if_pos low)

theorem exec_i2cDataByte_of_resetLow (b : Byte) : exec (.i2cDataByte b) s = .next (s.sendBus (.ack false)) := by
  simp only [exec, execI2cDataByte, low, if_true]

theorem exec_i2cAddress_of_resetLow (x : BitVec 7) (read : Bool) (pins : BitVec 2) :
    exec (.i2cAddress x read pins) s = .next (s.sendBus (.ack false)) := by
  simp only [exec, execI2cAddress, low, if_true]

end Low

/-- Settles O4: the assertion's fields are those of part reset but for the own address and RESET itself; the rows after it are
those that idle, and the two that put a byte on the bus. -/
theorem resetLowHoldsThePart : Obligations.ResetLowHoldsThePart := by
  refine ⟨fun s high => ?_, fun s low => ?_⟩
  · have reset := partReset_atPartReset s 0
    obtain ⟨_, divider, _, _, _, _, _, markPin⟩ := reset.timer
    obtain ⟨_, receiver, _, _, _, notices, _, _, _⟩ := reset.port
    exact ⟨_, exec_resetAssert high, rfl, markPin, divider, notices, irq_of_noNotices notices, receiver, rfl, rfl⟩
  · have idle {c : Instr} (idles : IdlesInReset c) : exec c s = .next s := exec_of_resetLow low idles
    exact ⟨fun _ management => idle (idlesInReset_of_hostFrame management), fun _ => idle trivial, idle trivial,
      fun _ _ _ => idle trivial, idle trivial, idle trivial, fun _ => ⟨idle trivial, idle trivial⟩, fun _ => idle trivial,
      idle trivial, idle trivial, idle trivial, fun _ => idle trivial, idle trivial, idle trivial, idle trivial, idle trivial,
      fun _ => idle trivial, fun _ _ => idle trivial, exec_i2cDataByte_of_resetLow low, exec_i2cAddress_of_resetLow low⟩

end Sys2Proof.Machine
end

section
/-! The queue of waiting commands: a step takes its front command, and no command touches the rest. -/

namespace Sys2Proof.Machine

/-! ### The step -/

theorem step_front (c : Instr) (s : State) : step { s with pending := c :: s.pending } = exec c s := rfl

theorem step_empty {s : State} (empty : s.pending = []) : step s = .next s := by
  simp only [step, empty]

/-- Settles O1: by the two forms of the queue. -/
theorem stepRunsTheFrontCommand : Obligations.StepRunsTheFrontCommand := ⟨step_front, fun _ => step_empty⟩

/-! ### Management commands leave the queue -/

@[simp] theorem cmdOpenGroup_pending (s : State) : (cmdOpenGroup s).pending = s.pending := by
  unfold cmdOpenGroup
  split <;> simp

@[simp] theorem stageEntry_pending (e : Option Edit) (s : State) : (stageEntry e s).pending = s.pending := by
  unfold stageEntry
  split
  · simp
  · simp
  · simp
  · split <;> simp

@[simp] theorem cmdCloseNow_pending (s : State) : (cmdCloseNow s).pending = s.pending := by
  unfold cmdCloseNow
  split <;> simp

@[simp] theorem cmdCloseMark_pending (s : State) : (cmdCloseMark s).pending = s.pending := by
  unfold cmdCloseMark
  split
  · simp
  · simp
  · split <;> simp

@[simp] theorem cmdCloseGroup_pending (mode : Nat) (s : State) : (cmdCloseGroup mode s).pending = s.pending := by
  unfold cmdCloseGroup
  split
  · simp
  · simp
  · simp [cmdCloseUnknown_eq]

@[simp] theorem cmdAbandonGroup_pending (s : State) : (cmdAbandonGroup s).pending = s.pending := by
  unfold cmdAbandonGroup
  split <;> simp

@[simp] theorem cmdForceRelease_pending (n : Nat) (s : State) : (cmdForceRelease n s).pending = s.pending := by
  unfold cmdForceRelease
  split
  · simp
  · split <;> simp

@[simp] theorem cmdForceReturn_pending (n b : Nat) (s : State) : (cmdForceReturn n b s).pending = s.pending := by
  unfold cmdForceReturn
  split
  · dsimp only
    split
    · split
      · simp
      · split <;> simp
    · simp
  · simp
  · simp

@[simp] theorem cmdAdmit_pending (n : Nat) (s : State) : (cmdAdmit n s).pending = s.pending := by
  unfold cmdAdmit
  split
  · simp
  · split <;> simp

@[simp] theorem cmdRescrub_pending (n : Nat) (s : State) : (cmdRescrub n s).pending = s.pending := by
  unfold cmdRescrub
  split
  · simp
  · split <;> simp

@[simp] theorem cmdSetAgent_pending (n mode : Nat) (s : State) : (cmdSetAgent n mode s).pending = s.pending := by
  unfold cmdSetAgent
  split
  · simp
  · split <;> simp

@[simp] theorem cmdAgentReset_pending (n : Nat) (s : State) : (cmdAgentReset n s).pending = s.pending := by
  unfold cmdAgentReset
  split <;> simp

@[simp] theorem cmdClearFault_pending (n : Nat) (s : State) : (cmdClearFault n s).pending = s.pending := by
  unfold cmdClearFault
  split <;> simp

@[simp] theorem cmdReadFault_pending (n : Nat) (s : State) : (cmdReadFault n s).pending = s.pending := by
  unfold cmdReadFault
  split <;> simp

@[simp] theorem cmdReadBuffer_pending (n : Nat) (s : State) : (cmdReadBuffer n s).pending = s.pending := by
  unfold cmdReadBuffer
  split <;> simp

@[simp] theorem cmdReadPool_pending (n : Nat) (s : State) : (cmdReadPool n s).pending = s.pending := by
  unfold cmdReadPool
  split <;> simp

@[simp] theorem cmdReadQueue_pending (n : Nat) (s : State) : (cmdReadQueue n s).pending = s.pending := by
  unfold cmdReadQueue
  split <;> simp

@[simp] theorem cmdFind_pending (kind value start : Nat) (s : State) : (cmdFind kind value start s).pending = s.pending := by
  unfold cmdFind
  split <;> simp

@[simp] theorem cmdSetTimebase_pending (n : Nat) (s : State) : (cmdSetTimebase n s).pending = s.pending := by
  unfold cmdSetTimebase
  split <;> simp

@[simp] theorem cmdSetCycle_pending (n g : Nat) (s : State) : (cmdSetCycle n g s).pending = s.pending := by
  unfold cmdSetCycle
  split
  · simp
  · split <;> simp

@[simp] theorem cmdPacing_pending (mode : Nat) (s : State) : (cmdPacing mode s).pending = s.pending := by
  unfold cmdPacing
  split
  · unfold cmdPacingOff
    (repeat' split) <;> simp
  · unfold cmdPacingOn
    split <;> simp
  · simp

@[simp] theorem cmdSetMemlimit_pending (n : Nat) (s : State) : (cmdSetMemlimit n s).pending = s.pending := by
  unfold cmdSetMemlimit
  split <;> simp

@[simp] theorem cmdAckNotices_pending (n : Nat) (s : State) : (cmdAckNotices n s).pending = s.pending := by
  unfold cmdAckNotices
  split <;> simp

@[simp] theorem cmdSetNoticeEnable_pending (n : Nat) (s : State) : (cmdSetNoticeEnable n s).pending = s.pending := by
  unfold cmdSetNoticeEnable
  split <;> simp

/-! These change the answer frame alone. -/

@[simp] theorem cmdReadGroup_pending (s : State) : (cmdReadGroup s).pending = s.pending := rfl

@[simp] theorem cmdReadCycle_pending (s : State) : (cmdReadCycle s).pending = s.pending := rfl

@[simp] theorem cmdReadNotices_pending (s : State) : (cmdReadNotices s).pending = s.pending := rfl

@[simp] theorem cmdIdentify_pending (s : State) : (cmdIdentify s).pending = s.pending := rfl

/-- Part reset does not reach the queue (log 26). -/
@[simp] theorem cmdPartReset_pending (pins : BitVec 2) (s : State) : (cmdPartReset pins s).pending = s.pending := rfl

/-- Whatever frame is taken, its command is one of those above, or an unknown one, which replaces the answer frame alone. -/
@[simp] theorem frameCommand_pending (pins : BitVec 2) (code : Nat) (args : List Byte) (s : State) :
    (frameCommand pins code args s).pending = s.pending := by
  unfold frameCommand
  split <;> simp

@[simp] theorem runCommand_pending {command : State → State} (leaves : ∀ u : State, (command u).pending = u.pending)
    (s : State) : (s.runCommand command).pending = s.pending := by
  unfold State.runCommand
  split
  · rfl
  · dsimp only
    split
    · simp
    · simp [leaves]

/-! ### The bus leaves the queue -/

@[simp] theorem takeFrame_pending (s : State) (pins : BitVec 2) : (s.takeFrame pins).pending = s.pending := by
  by_cases empty : s.mgmt.frame = []
  · rw [takeFrame_empty pins empty]
    rfl
  by_cases scan : s.mgmt.scan = none
  · rw [takeFrame_judged pins empty scan]
    unfold State.judgeFrame
    (repeat' split) <;> simp [State.writeEnded]
  · rw [takeFrame_busy pins empty scan]
    rfl

@[simp] theorem endWrite_pending (s : State) (pins : BitVec 2) : (s.endWrite pins).pending = s.pending := by
  unfold State.endWrite
  split <;> simp

/-! ### Every command -/

/-- The outcome is a next state, with the queue as it stands. -/
def QueueStays (s : State) (o : Host.Outcome State Fault Refusal) : Prop := ∃ t, o = .next t ∧ t.pending = s.pending

theorem queueStays_if {c : Prop} [Decidable c] {s t : State} (stays : t.pending = s.pending) :
    QueueStays s (.next (if c then t else s)) := by
  refine ⟨_, rfl, ?_⟩
  split
  · exact stays
  · rfl

theorem queueStays_unless {c : Prop} [Decidable c] {s t : State} (stays : t.pending = s.pending) :
    QueueStays s (.next (if c then s else t)) := by
  refine ⟨_, rfl, ?_⟩
  split
  · rfl
  · exact stays

/-- A management command runs what its frame spells. -/
theorem hostFrame_queueStays {c : Instr} (management : hostFrame c ≠ none) (s : State) : QueueStays s (exec c s) := by
  obtain ⟨frame, sent⟩ := Option.ne_none_iff_exists'.1 management
  obtain ⟨pins, sampled⟩ : ∃ pins, ∀ p, c = .partReset p → p = pins := by
    cases c with
    | partReset p => exact ⟨p, fun _ same => (Instr.partReset.inj same).symm⟩
    | _ => exact ⟨0, nofun⟩
  obtain ⟨code, args, -, -, runs⟩ := hostFrame_spells sent sampled
  exact ⟨_, runs s, runCommand_pending (frameCommand_pending pins code.toNat args) s⟩

theorem inputArbiterGrant_queueStays (s : State) : QueueStays s (exec .inputArbiterGrant s) := by
  refine queueStays_unless ?_
  split
  · rfl
  · split <;> simp

theorem heldAccessRecheck_queueStays (s : State) : QueueStays s (exec .heldAccessRecheck s) := by
  refine queueStays_unless ?_
  split <;> simp

theorem memoryResponse_queueStays (s : State) (b : Byte) (good : Bool) (data : List Byte) :
    QueueStays s (exec (.memoryResponse b good data) s) := by
  refine queueStays_if ?_
  split
  · split <;> simp
  · rfl

theorem linkDown_queueStays (s : State) : QueueStays s (exec .linkDown s) := by
  refine queueStays_unless ?_
  split <;> simp

theorem linkUp_queueStays (s : State) : QueueStays s (exec .linkUp s) := by
  refine queueStays_unless ?_
  split <;> simp

theorem i2cAddress_queueStays (s : State) (x : BitVec 7) (read : Bool) (pins : BitVec 2) :
    QueueStays s (exec (.i2cAddress x read pins) s) := by
  refine ⟨_, rfl, ?_⟩
  split <;> simp

theorem frameTaken_queueStays (s : State) (pins : BitVec 2) : QueueStays s (exec (.frameTaken pins) s) := by
  refine queueStays_unless ?_
  split <;> simp

theorem i2cDataByte_queueStays (s : State) (b : Byte) : QueueStays s (exec (.i2cDataByte b) s) := by
  refine ⟨_, rfl, ?_⟩
  split
  · simp
  · dsimp only
    split <;> simp

theorem answerRead_queueStays (s : State) (acks : List Bool) (stop : Bool) :
    QueueStays s (exec (.answerRead acks stop) s) := by
  refine queueStays_unless ?_
  dsimp only
  split
  · split <;> simp
  · simp
  · simp
  · simp

/-- A management command by its frame; any other row by what it does where its condition stands, and where it does not, the row
leaves the state (log 8). -/
theorem exec_queueStays (c : Instr) (s : State) : QueueStays s (exec c s) := by
  cases c with
  | transactionIssue t => exact queueStays_unless (by simp)
  | inputArbiterGrant => exact inputArbiterGrant_queueStays s
  | heldAccessRecheck => exact heldAccessRecheck_queueStays s
  | memoryResponse b good data => exact memoryResponse_queueStays s b good data
  | drainCompletion | scrubCompletion | scrubFailure | scrubTakeHead | tick | settlingIntervalEnd | i2cIdleTimeout =>
    exact queueStays_unless (by simp)
  | tagExpiry | mark | resetRelease => exact queueStays_if (by simp)
  | markPulseEnd => exact ⟨_, rfl, rfl⟩
  | resetAssert => exact queueStays_unless rfl
  | linkDown => exact linkDown_queueStays s
  | linkUp => exact linkUp_queueStays s
  | i2cAddress x read pins => exact i2cAddress_queueStays s x read pins
  | frameTaken pins => exact frameTaken_queueStays s pins
  | answerRead acks stop => exact answerRead_queueStays s acks stop
  | i2cDataByte b => exact i2cDataByte_queueStays s b
  | identify | partReset | openGroup | closeGroupNow | closeGroupMark | abandonGroup | stageDefine | stageMove | stageResize
  | stageRetire | stagePool | stageUnpool | readGroup | forceRelease | forceReturn | admitBuffer | rescrub | setAgent
  | agentReset | clearFault | readFault | readBuffer | readPool | readQueue | readCycle | find | setTimebase | setCycle
  | pacingOn | pacingOff | setMemlimit | readNotices | ackNotices | setNoticeEnable =>
    exact hostFrame_queueStays (by nofun) s

/-- Settles O2, by the kind of command. -/
theorem everyCommandHasANextState : Obligations.EveryCommandHasANextState := exec_queueStays

end Sys2Proof.Machine
end

section
/-! The link and the tags (R127, R128), and the laws of the memory port and the scrub engine at every step. -/

namespace Sys2Proof.Machine

/-! ### No tag is busy while the link is DOWN -/

theorem downIsFree_of_up {s : State} (up : s.mem.link = .up) : s.downIsFree :=
  fun down => absurd (up.symm.trans down) (by simp)

/-- R128 speaks of the link and of which tags are busy alone. -/
theorem downIsFree_of_free {s t : State} (law : s.downIsFree) (link : t.mem.link = s.mem.link)
    (freed : ∀ i, (s.tag i).use = none → (t.tag i).use = none) : t.downIsFree :=
  fun down i => freed i (law (link ▸ down) i)

theorem downIsFree_of_eq {s t : State} (law : s.downIsFree) (mem : t.mem = s.mem) : t.downIsFree :=
  downIsFree_of_free law (by rw [mem]) fun i free => by rwa [State.tag, mem]

theorem setTag_free_downIsFree {s : State} (i : TagIndex) (gen : BitVec 2) (law : s.downIsFree) :
    (s.setTag i ⟨gen, none⟩).downIsFree := by
  refine downIsFree_of_free law rfl fun j free => ?_
  rw [tag_setTag]
  split
  · rfl
  · exact free

/-- The loss of every tag leaves each free. -/
theorem loseTags_free (s : State) (i : TagIndex) : (((List.finRange 64).foldl State.loseTag s).tag i).use = none := by
  rw [loseTags_use, if_pos (List.mem_finRange i)]

/-- R127, R128: a tag is taken with the link UP alone, and the link goes DOWN with every tag freed. -/
theorem downIsFree_of_event (s t : State) (e : Event s t) (law : s.downIsFree) : t.downIsFree := by
  cases e with
  | aside same =>
    refine downIsFree_of_free law same.link fun i free => ?_
    rw [← owner_eq_none, TagRec.owner, (same.tags i).2, free]
    rfl
  | reset => exact fun _ i => by simp [State.tag, State.partReset, MemPort.reset]
  | returnAll a => exact downIsFree_of_eq law (returnAll_keeps _ s).2.1
  | forward up => exact downIsFree_of_up (by simpa using up)
  | issueBurst up => exact downIsFree_of_up (by simpa using up)
  | @endAccess i _ _ _ _ _ gen => exact downIsFree_of_eq (setTag_free_downIsFree i gen law) (by simp)
  | @endBurst i _ _ _ _ gen => exact downIsFree_of_eq (setTag_free_downIsFree i gen law) (by simp)
  | linkDown => exact fun _ i => by simpa [State.tag] using loseTags_free { s with mem.link := .down } i
  | linkUp => exact downIsFree_of_up (by simp)
  | _ => exact downIsFree_of_eq law (by simp)

/-- Settles O14: the law is kept by each event that a step is made of. -/
theorem downLinkHasNoBusyTag : Obligations.DownLinkHasNoBusyTag :=
  fun _ _ law taken => step_keeps downIsFree_of_event taken law

/-- Settles O15: the engine's laws, and with them the tags of its bursts, are kept by each event that a step is made of. -/
theorem scrubEngineKeepsItsLaws : Obligations.ScrubEngineKeepsItsLaws := by
  intro s t laws taken
  refine ⟨step_keeps scrubLaws_of_event taken laws, fun bursts => ?_⟩
  exact (step_keeps (law := fun s => s.scrubLaws ∧ s.burstsHoldTags) burstsHoldTags_of_event taken ⟨laws, bursts⟩).2

end Sys2Proof.Machine
end

section
/-! Nothing waits that could be served (R125, R132): a command beside the memory port, the engine and the hold place leaves a quiet
part quiet; after any other the engine and the arbiter have their turn. -/

namespace Sys2Proof.Machine

/-! ### What leaves a quiet part quiet -/

/-- From a quiet state a quiet one is reached. -/
def State.CalmTo (s t : State) : Prop := s.quiet → t.quiet

theorem calm_refl (s : State) : s.CalmTo s := id

theorem State.CalmTo.trans {s t u : State} (first : s.CalmTo t) (next : t.CalmTo u) : s.CalmTo u := next ∘ first

/-- What the arbiter and the engine look at stays. -/
theorem calm_of_eq {s t : State} (mem : t.mem = s.mem) (scrub : t.scrub = s.scrub) (hold : t.checker.hold = s.checker.hold) :
    s.CalmTo t := fun quiet => quiet_of_eq quiet mem scrub hold

/-- The engine and the arbiter have had their turn. -/
theorem calm_kick (s t : State) : s.CalmTo t.kick := fun _ => kick_quiet t

/-- The link is DOWN. -/
theorem calm_of_down {s t : State} (down : t.mem.link = .down) : s.CalmTo t := fun _ => quiet_of_down down

theorem calm_if {c : Prop} [Decidable c] {s t : State} (calm : s.CalmTo t) : s.CalmTo (if c then t else s) := by
  split
  · exact calm
  · exact calm_refl s

theorem calm_unless {c : Prop} [Decidable c] {s t : State} (calm : s.CalmTo t) : s.CalmTo (if c then s else t) := by
  split
  · exact calm_refl s
  · exact calm

theorem setAnswer_calm (s : State) (x : HostStatus) (d : List Byte) : s.CalmTo (s.setAnswer x d) := calm_of_eq rfl rfl rfl

theorem settleIdle_calm (s : State) : s.CalmTo s.settleIdle := calm_of_eq (by simp) (by simp) (by simp)

theorem partReset_calm (s : State) (pins : BitVec 2) : s.CalmTo (s.partReset pins) := calm_of_down rfl

/-! ### The tick -/

/-- R123: the expiry of a busy tag gives the arbiter its turn. -/
theorem expireTag_calm (s : State) (i : TagIndex) : s.CalmTo (s.expireTag i) := by
  unfold State.expireTag
  split
  · exact calm_refl s
  · exact calm_kick s _

theorem endSettling_calm (s : State) : s.CalmTo s.endSettling := by
  unfold State.endSettling
  split
  · exact calm_kick s _
  · exact calm_refl s

theorem takeExpiries_calm (n : Nat) (s : State) : s.CalmTo (s.takeExpiries n) := by
  induction n generalizing s with
  | zero => exact calm_refl s
  | succ n ih =>
    unfold State.takeExpiries
    split
    · exact calm_refl s
    · exact expireTag_calm s _
    · have drawn : s.CalmTo { s with freeCount := s.freeCount + 1 } := calm_of_eq rfl rfl rfl
      exact drawn.trans ((expireTag_calm _ _).trans (ih _))

theorem settleOutstanding_calm (s : State) : s.CalmTo s.settleOutstanding := by
  have pulse : s.CalmTo s.endPulse := calm_of_eq rfl rfl rfl
  exact pulse.trans ((endSettling_calm _).trans ((takeExpiries_calm 64 _).trans (settleIdle_calm _)))

/-- A tick frees no tag and ends no settling interval: it only counts them down (R123, R128). -/
theorem atTick_calm (s : State) : s.CalmTo { s with timer.divider := 0, mem := s.mem.atTick } := by
  have tags (i : TagIndex) : (nth s.mem.atTick.tags i).use = none ↔ (nth s.mem.tags i).use = none := by
    simp [MemPort.atTick, TagRec.atTick]
  have settling : s.mem.atTick.settling.isSome = s.mem.settling.isSome := by simp [MemPort.atTick]
  exact (quiet_congr (s := s) (t := { s with timer.divider := 0, mem := s.mem.atTick }) rfl settling tags rfl rfl).2

theorem advanceCycle_calm (s : State) : s.CalmTo s.advanceCycle := by
  unfold State.advanceCycle
  split
  · exact calm_kick s _
  · split
    · exact calm_of_eq rfl rfl rfl
    · exact calm_refl s

theorem scanAndCycle_calm (s : State) : s.CalmTo s.scanAndCycle := by
  have scanned (u : State) : u.CalmTo u.scanStep := calm_of_eq (by simp) (by simp) (by simp)
  have drawn : s.CalmTo { s with freeCount := s.freeCount + 1 } := calm_of_eq rfl rfl rfl
  unfold State.scanAndCycle
  split
  · dsimp only
    split
    · exact drawn.trans ((scanned _).trans (advanceCycle_calm _))
    · exact drawn.trans ((advanceCycle_calm _).trans (scanned _))
  · exact (scanned s).trans (advanceCycle_calm _)

theorem tick_calm (s : State) (low : Bool) : s.CalmTo (s.tick low) := by
  have idle (u : State) : u.CalmTo (u.countIdle low).idleAgainstScan := calm_of_eq (by simp) (by simp) (by simp)
  exact (settleOutstanding_calm s).trans ((atTick_calm _).trans ((idle _).trans (scanAndCycle_calm _)))

/-! ### Management commands -/

theorem cmdOpenGroup_calm (s : State) : s.CalmTo (cmdOpenGroup s) := by
  unfold cmdOpenGroup
  split <;> exact calm_of_eq rfl rfl rfl

theorem stageEntry_calm (e : Option Edit) (s : State) : s.CalmTo (stageEntry e s) := by
  unfold stageEntry
  split
  · exact setAnswer_calm s _ _
  · exact setAnswer_calm s _ _
  · exact setAnswer_calm s _ _
  · split <;> exact calm_of_eq rfl rfl rfl

theorem cmdCloseNow_calm (s : State) : s.CalmTo (cmdCloseNow s) := by
  unfold cmdCloseNow
  split
  · exact setAnswer_calm s _ _
  · exact setAnswer_calm s _ _
  · exact calm_kick s _

theorem cmdCloseMark_calm (s : State) : s.CalmTo (cmdCloseMark s) := by
  unfold cmdCloseMark
  split
  · exact setAnswer_calm s _ _
  · exact setAnswer_calm s _ _
  · split <;> exact calm_of_eq rfl rfl rfl

theorem cmdCloseGroup_calm (mode : Nat) (s : State) : s.CalmTo (cmdCloseGroup mode s) := by
  unfold cmdCloseGroup
  split
  · exact cmdCloseNow_calm s
  · exact cmdCloseMark_calm s
  · unfold cmdCloseUnknown
    split <;> exact setAnswer_calm s _ _

theorem cmdAbandonGroup_calm (s : State) : s.CalmTo (cmdAbandonGroup s) := by
  unfold cmdAbandonGroup
  split <;> exact calm_of_eq rfl rfl rfl

theorem cmdForceRelease_calm (n : Nat) (s : State) : s.CalmTo (cmdForceRelease n s) := by
  unfold cmdForceRelease
  split
  · exact setAnswer_calm s _ _
  · split
    · exact calm_kick s _
    · exact setAnswer_calm s _ _

theorem cmdForceReturn_calm (n b : Nat) (s : State) : s.CalmTo (cmdForceReturn n b s) := by
  unfold cmdForceReturn
  split
  · dsimp only
    split
    · split
      · exact calm_of_eq rfl rfl rfl
      · split <;> exact calm_of_eq rfl rfl rfl
    · exact setAnswer_calm s _ _
  · exact setAnswer_calm s _ _
  · exact setAnswer_calm s _ _

/-- R40: an admitted buffer joins a free list, for which nothing waits. -/
theorem cmdAdmit_calm (n : Nat) (s : State) : s.CalmTo (cmdAdmit n s) := by
  unfold cmdAdmit
  split
  · exact setAnswer_calm s _ _
  · split <;> exact calm_of_eq rfl rfl rfl

theorem cmdRescrub_calm (n : Nat) (s : State) : s.CalmTo (cmdRescrub n s) := by
  unfold cmdRescrub
  split
  · exact setAnswer_calm s _ _
  · split
    · exact calm_kick s _
    · exact setAnswer_calm s _ _

theorem cmdSetAgent_calm (n mode : Nat) (s : State) : s.CalmTo (cmdSetAgent n mode s) := by
  unfold cmdSetAgent
  split
  · exact setAnswer_calm s _ _
  · split <;> exact calm_of_eq rfl rfl rfl

theorem cmdAgentReset_calm (n : Nat) (s : State) : s.CalmTo (cmdAgentReset n s) := by
  unfold cmdAgentReset
  split
  · exact setAnswer_calm s _ _
  · exact calm_kick s _

theorem cmdClearFault_calm (n : Nat) (s : State) : s.CalmTo (cmdClearFault n s) := by
  unfold cmdClearFault
  split <;> exact calm_of_eq rfl rfl rfl

theorem cmdReadFault_calm (n : Nat) (s : State) : s.CalmTo (cmdReadFault n s) := by
  unfold cmdReadFault
  split <;> exact setAnswer_calm s _ _

theorem cmdReadBuffer_calm (n : Nat) (s : State) : s.CalmTo (cmdReadBuffer n s) := by
  unfold cmdReadBuffer
  split <;> exact setAnswer_calm s _ _

theorem cmdReadPool_calm (n : Nat) (s : State) : s.CalmTo (cmdReadPool n s) := by
  unfold cmdReadPool
  split <;> exact setAnswer_calm s _ _

theorem cmdReadQueue_calm (n : Nat) (s : State) : s.CalmTo (cmdReadQueue n s) := by
  unfold cmdReadQueue
  split <;> exact setAnswer_calm s _ _

theorem cmdFind_calm (kind value start : Nat) (s : State) : s.CalmTo (cmdFind kind value start s) := by
  unfold cmdFind
  split <;> exact calm_of_eq (by simp) (by simp) (by simp)

theorem cmdSetTimebase_calm (n : Nat) (s : State) : s.CalmTo (cmdSetTimebase n s) := by
  unfold cmdSetTimebase
  split <;> exact calm_of_eq rfl rfl rfl

theorem cmdSetCycle_calm (n g : Nat) (s : State) : s.CalmTo (cmdSetCycle n g s) := by
  unfold cmdSetCycle
  split
  · exact setAnswer_calm s _ _
  · split <;> exact calm_of_eq rfl rfl rfl

theorem cmdPacing_calm (mode : Nat) (s : State) : s.CalmTo (cmdPacing mode s) := by
  unfold cmdPacing
  split
  · unfold cmdPacingOff
    split
    · exact setAnswer_calm s _ _
    · split
      · exact setAnswer_calm s _ _
      · split <;> exact calm_of_eq rfl rfl rfl
  · unfold cmdPacingOn
    split <;> exact calm_of_eq rfl rfl rfl
  · exact setAnswer_calm s _ _

theorem cmdSetMemlimit_calm (n : Nat) (s : State) : s.CalmTo (cmdSetMemlimit n s) := by
  unfold cmdSetMemlimit
  split <;> exact calm_of_eq rfl rfl rfl

theorem cmdAckNotices_calm (n : Nat) (s : State) : s.CalmTo (cmdAckNotices n s) := by
  unfold cmdAckNotices
  split <;> exact calm_of_eq rfl rfl rfl

theorem cmdSetNoticeEnable_calm (n : Nat) (s : State) : s.CalmTo (cmdSetNoticeEnable n s) := by
  unfold cmdSetNoticeEnable
  split <;> exact calm_of_eq rfl rfl rfl

/-- Whatever frame is taken, its command leaves nothing waiting. -/
theorem frameCommand_calm (pins : BitVec 2) (code : Nat) (args : List Byte) (s : State) :
    s.CalmTo (frameCommand pins code args s) := by
  unfold frameCommand
  split
  · exact setAnswer_calm s _ _
  · exact partReset_calm s pins
  · exact cmdOpenGroup_calm s
  · exact cmdCloseGroup_calm _ s
  · exact cmdAbandonGroup_calm s
  · exact stageEntry_calm _ s
  · exact stageEntry_calm _ s
  · exact stageEntry_calm _ s
  · exact stageEntry_calm _ s
  · exact stageEntry_calm _ s
  · exact stageEntry_calm _ s
  · exact setAnswer_calm s _ _
  · exact cmdForceRelease_calm _ s
  · exact cmdForceReturn_calm _ _ s
  · exact cmdAdmit_calm _ s
  · exact cmdRescrub_calm _ s
  · exact cmdSetAgent_calm _ _ s
  · exact cmdAgentReset_calm _ s
  · exact cmdClearFault_calm _ s
  · exact cmdReadFault_calm _ s
  · exact cmdReadBuffer_calm _ s
  · exact cmdReadPool_calm _ s
  · exact cmdReadQueue_calm _ s
  · exact setAnswer_calm s _ _
  · exact cmdFind_calm _ _ _ s
  · exact cmdSetTimebase_calm _ s
  · exact cmdSetCycle_calm _ _ s
  · exact cmdPacing_calm _ s
  · exact cmdSetMemlimit_calm _ s
  · exact setAnswer_calm s _ _
  · exact cmdAckNotices_calm _ s
  · exact cmdSetNoticeEnable_calm _ s
  · exact setAnswer_calm s _ _

theorem runCommand_calm {command : State → State} (run : ∀ u : State, u.CalmTo (command u)) (s : State) :
    s.CalmTo (s.runCommand command) := by
  unfold State.runCommand
  split
  · exact calm_refl s
  · refine (settleIdle_calm s).trans ?_
    dsimp only
    split
    · exact setAnswer_calm _ _ _
    · exact run _

/-! ### The bus -/

theorem judgeFrame_calm (s : State) (pins : BitVec 2) (frame : List Byte) : s.CalmTo (s.judgeFrame pins frame) := by
  unfold State.judgeFrame
  split
  · exact calm_refl s
  · split
    · exact setAnswer_calm s _ _
    · split
      · exact setAnswer_calm s _ _
      · split
        · exact setAnswer_calm s _ _
        · exact frameCommand_calm _ _ _ s

theorem takeFrame_calm (s : State) (pins : BitVec 2) : s.CalmTo (s.takeFrame pins) := by
  have emptied : s.CalmTo { s with mgmt.receiver := .idle, mgmt.frame := [], mgmt.idleCount := 0 } := calm_of_eq rfl rfl rfl
  unfold State.takeFrame
  refine emptied.trans ?_
  dsimp only
  split
  · exact calm_refl _
  · split
    · exact setAnswer_calm _ _ _
    · exact judgeFrame_calm _ _ _

/-! ### Every command -/

/-- The outcome is a next state, quiet where the state before was. -/
def StaysQuiet (s : State) (o : Host.Outcome State Fault Refusal) : Prop := ∃ t, o = .next t ∧ s.CalmTo t

theorem staysQuiet_if {c : Prop} [Decidable c] {s t : State} (calm : s.CalmTo t) : StaysQuiet s (.next (if c then t else s)) :=
  ⟨_, rfl, calm_if calm⟩

theorem staysQuiet_unless {c : Prop} [Decidable c] {s t : State} (calm : s.CalmTo t) :
    StaysQuiet s (.next (if c then s else t)) := ⟨_, rfl, calm_unless calm⟩

/-- A management command runs what its frame spells. -/
theorem hostFrame_staysQuiet {c : Instr} (management : hostFrame c ≠ none) (s : State) : StaysQuiet s (exec c s) := by
  obtain ⟨frame, sent⟩ := Option.ne_none_iff_exists'.1 management
  obtain ⟨pins, sampled⟩ : ∃ pins, ∀ p, c = .partReset p → p = pins := by
    cases c with
    | partReset p => exact ⟨p, fun _ same => (Instr.partReset.inj same).symm⟩
    | _ => exact ⟨0, nofun⟩
  obtain ⟨code, args, -, -, runs⟩ := hostFrame_spells sent sampled
  exact ⟨_, runs s, runCommand_calm (frameCommand_calm pins code.toNat args) s⟩

theorem inputArbiterGrant_staysQuiet (s : State) : StaysQuiet s (exec .inputArbiterGrant s) := by
  refine staysQuiet_unless ?_
  split
  · exact calm_refl s
  · split
    · exact calm_refl s
    · exact calm_kick s _

/-- R113: with the link UP a quiet part has no grant to make for the held access. -/
theorem heldAccessRecheck_staysQuiet (s : State) : StaysQuiet s (exec .heldAccessRecheck s) := by
  refine staysQuiet_unless ?_
  split
  · intro quiet
    rwa [arbitrate_of_none s ((nextGrant_eq_none s).mpr quiet.1)]
  · next down => exact calm_of_down (by simpa using down)

theorem memoryResponse_staysQuiet (s : State) (b : Byte) (good : Bool) (data : List Byte) :
    StaysQuiet s (exec (.memoryResponse b good data) s) := by
  refine staysQuiet_if ?_
  split
  · exact calm_if (calm_kick s _)
  · exact calm_refl s

theorem linkDown_staysQuiet (s : State) : StaysQuiet s (exec .linkDown s) := by
  refine staysQuiet_unless ?_
  split
  · refine calm_of_down ?_
    simp [State.goDown, (loseTags_keeps (List.finRange 64) { s with mem.link := .down }).2.1]
  · exact calm_refl s

theorem linkUp_staysQuiet (s : State) : StaysQuiet s (exec .linkUp s) := by
  refine staysQuiet_unless ?_
  split
  · exact calm_refl s
  · exact calm_kick s _

theorem i2cAddress_staysQuiet (s : State) (x : BitVec 7) (read : Bool) (pins : BitVec 2) :
    StaysQuiet s (exec (.i2cAddress x read pins) s) := by
  have compared (u : State) : u.CalmTo (u.compareAddress x read) := calm_of_eq (by simp) (by simp) (by simp)
  refine ⟨_, rfl, ?_⟩
  split
  · exact calm_of_eq rfl rfl rfl
  · exact (settleIdle_calm s).trans (State.CalmTo.trans (calm_if (takeFrame_calm _ pins)) (compared _))

theorem frameTaken_staysQuiet (s : State) (pins : BitVec 2) : StaysQuiet s (exec (.frameTaken pins) s) :=
  staysQuiet_unless ((settleIdle_calm s).trans (calm_if (takeFrame_calm _ pins)))

theorem i2cDataByte_staysQuiet (s : State) (b : Byte) : StaysQuiet s (exec (.i2cDataByte b) s) := by
  refine ⟨_, rfl, ?_⟩
  split
  · exact calm_of_eq rfl rfl rfl
  · dsimp only
    split <;> exact calm_of_eq (by simp) (by simp) (by simp)

theorem answerRead_staysQuiet (s : State) (acks : List Bool) (stop : Bool) : StaysQuiet s (exec (.answerRead acks stop) s) := by
  refine staysQuiet_unless ?_
  dsimp only
  split
  · split <;> exact calm_of_eq (by simp) (by simp) (by simp)
  all_goals exact settleIdle_calm s

/-- A management command by its frame; any other row by what it does where its condition stands, and where it does not, the row
leaves the state (log 8). -/
theorem exec_staysQuiet (c : Instr) (s : State) : StaysQuiet s (exec c s) := by
  cases c with
  | transactionIssue t => exact staysQuiet_unless (calm_of_eq rfl rfl rfl)
  | inputArbiterGrant => exact inputArbiterGrant_staysQuiet s
  | heldAccessRecheck => exact heldAccessRecheck_staysQuiet s
  | memoryResponse b good data => exact memoryResponse_staysQuiet s b good data
  | drainCompletion | scrubCompletion | scrubFailure | scrubTakeHead => exact staysQuiet_unless (calm_kick s _)
  | tick low => exact staysQuiet_unless (tick_calm s low)
  | mark low => exact staysQuiet_if (tick_calm s low)
  | markPulseEnd => exact ⟨_, rfl, calm_of_eq rfl rfl rfl⟩
  | tagExpiry i => exact staysQuiet_if (expireTag_calm s i)
  | settlingIntervalEnd => exact staysQuiet_unless (endSettling_calm s)
  | linkDown => exact linkDown_staysQuiet s
  | linkUp => exact linkUp_staysQuiet s
  | resetAssert => exact staysQuiet_unless (calm_of_down rfl)
  | resetRelease pins => exact staysQuiet_if (partReset_calm s pins)
  | i2cIdleTimeout => exact staysQuiet_unless (settleIdle_calm s)
  | i2cAddress x read pins => exact i2cAddress_staysQuiet s x read pins
  | frameTaken pins => exact frameTaken_staysQuiet s pins
  | answerRead acks stop => exact answerRead_staysQuiet s acks stop
  | i2cDataByte b => exact i2cDataByte_staysQuiet s b
  | identify | partReset | openGroup | closeGroupNow | closeGroupMark | abandonGroup | stageDefine | stageMove | stageResize
  | stageRetire | stagePool | stageUnpool | readGroup | forceRelease | forceReturn | admitBuffer | rescrub | setAgent
  | agentReset | clearFault | readFault | readBuffer | readPool | readQueue | readCycle | find | setTimebase | setCycle
  | pacingOn | pacingOff | setMemlimit | readNotices | ackNotices | setNoticeEnable =>
    exact hostFrame_staysQuiet (by nofun) s

/-- Settles O16: by the command at the front of the queue; the arbiter and the engine do not look at the queue. -/
theorem arbiterLeavesNothingWaiting : Obligations.ArbiterLeavesNothingWaiting := by
  intro s t quiet taken
  unfold step at taken
  split at taken
  · cases taken
    exact quiet
  · next c rest _ =>
    obtain ⟨u, next, calm⟩ := exec_staysQuiet c { s with pending := rest }
    rw [next] at taken
    cases taken
    exact calm (quiet_of_eq quiet rfl rfl rfl)

end Sys2Proof.Machine
end

section
/-! The end of a memory request: a response or an expiry of the tag of an access or of a scrub burst, with the whole next state
(R11, R88, R122, R123, R134, R135). -/

namespace Sys2Proof.Machine

/-! ### The rows -/

/-- The index stands in the low six bits of a tag byte. -/
theorem tagByteIndex_eq {b : Byte} {i : TagIndex} (index : i.val = b.toNat % 64) : tagByteIndex b = i := by
  apply Fin.ext
  simp [tagByteIndex, index]

/-- The generation stands in the high two bits of a tag byte. -/
theorem eq_tagByteGeneration_iff (g : BitVec 2) (b : Byte) : g = tagByteGeneration b ↔ g.toNat = b.toNat / 64 := by
  have high : (tagByteGeneration b).toNat = b.toNat / 64 := by
    simp only [tagByteGeneration, BitVec.extractLsb'_toNat, Nat.shiftRight_eq_div_pow]
    omega
  rw [← BitVec.toNat_inj, high]

/-- R122: a response that matches a busy tag ends its request, and then the engine and the arbiter have their turn. -/
theorem exec_memoryResponse_matching {s : State} {b : Byte} {i : TagIndex} {u : TagUse} (high : s.resetLow = false)
    (up : s.mem.link = .up) (settled : s.mem.settling = none) (index : i.val = b.toNat % 64)
    (gen : (s.tag i).generation.toNat = b.toNat / 64) (busy : (s.tag i).use = some u) (good : Bool) (data : List Byte) :
    exec (.memoryResponse b good data) s = .next (s.takeResponse i u good data).kick := by
  have grants : s.mem.grants = true := (grants_iff _).mpr ⟨up, settled⟩
  simp only [exec, execMemoryResponse, tagByteIndex_eq index, high, grants, busy,
    if_pos ((eq_tagByteGeneration_iff _ b).mpr gen), Bool.not_false, Bool.and_self, if_true]

/-- R122, R128: any other response is discarded. -/
theorem exec_memoryResponse_discarded {s : State} {b : Byte} {i : TagIndex} (index : i.val = b.toNat % 64)
    (other : s.mem.link = .down ∨ s.mem.settling ≠ none ∨ (s.tag i).use = none ∨ (s.tag i).generation.toNat ≠ b.toNat / 64)
    (good : Bool) (data : List Byte) : exec (.memoryResponse b good data) s = .next s := by
  simp only [exec, execMemoryResponse, tagByteIndex_eq index]
  split
  · next open_ =>
    have ⟨up, settled⟩ := (grants_iff s.mem).mp (Bool.and_eq_true_iff.mp open_).2
    split
    · next busy =>
      have old : (s.tag i).generation.toNat ≠ b.toNat / 64 := by simpa [up, settled, busy] using other
      rw [if_neg (mt (eq_tagByteGeneration_iff _ b).mp old)]
    · rfl
  · rfl

/-- R123: a busy tag with no time left expires. -/
theorem exec_tagExpiry_due {s : State} {i : TagIndex} {o : Owner} (high : s.resetLow = false)
    (due : (s.tag i).use = some ⟨o, 0⟩) : exec (.tagExpiry i) s = .next (s.expireTag i) := by
  simp [exec, execTagExpiry, high, State.expiryDue, due]

/-- R124: a free tag, or one with time left, does not. -/
theorem exec_tagExpiry_early {s : State} {i : TagIndex} (early : (s.tag i).use = none ∨ ∃ o n, (s.tag i).use = some ⟨o, n + 1⟩) :
    exec (.tagExpiry i) s = .next s := by
  have undue : s.expiryDue i = false := by
    rcases early with free | ⟨o, n, busy⟩
    · simp [State.expiryDue, free]
    · simp [State.expiryDue, busy]
  simp [exec, execTagExpiry, undue]

/-! ### The end of an access -/

/-- R3: a DRAINING record is bare already, so the release path finds the record that the drain's end does. -/
theorem releasePath_of_draining {s : State} {h : Handle} (fit : (s.buf h).Fits) (draining : (s.buf h).state = .draining)
    {r : BufRec} (lowered : r = { s.buf h with inFlight := 0 }) :
    (s.setBuf h r).releasePath h = (s.setBuf h r).settleRelease h := by
  have custodian : (s.buf h).custodian = none := by
    by_contra present
    simpa [draining] using fit.custodian present
  have target : (s.buf h).target = none := by
    by_contra present
    simpa [draining] using (fit.target present).1
  have unsealed : (s.buf h).sealed = false := by
    by_contra shut
    simpa [draining] using fit.sealed (by simpa using shut)
  have unlent : (s.buf h).lends = [] := by
    by_contra lent
    simpa [draining] using (fit.lends lent).1
  have bare : { r with custodian := none, target := none, sealed := false, lends := [] } = r := by
    simp only [lowered, custodian, target, unsealed, unlent]
  rw [releasePath_idle (by rw [buf_setBuf_self, lowered]), buf_setBuf_self, bare, setBuf_setBuf]

/-- R11, R16: the end of an access lowers the count, and takes a buffer whose drain it ends along the release path. -/
theorem endInFlight_eq {s : State} {h : Handle} (fit : (s.buf h).Fits) :
    s.endInFlight h =
      if (s.buf h).state = .draining ∧ (s.buf h).inFlight = 1 then
        (s.setBuf h { s.buf h with inFlight := (s.buf h).inFlight - 1 }).releasePath h
      else s.setBuf h { s.buf h with inFlight := (s.buf h).inFlight - 1 } := by
  unfold State.endInFlight
  split
  · next last =>
    have zero : (s.buf h).inFlight - 1 = 0 := by rw [last.2]
    rw [completeDrain_eq (by rw [buf_setBuf_self]; exact last.1) (by rw [buf_setBuf_self]; exact zero),
      releasePath_of_draining fit last.1 (by rw [zero])]
  · next more =>
    refine completeDrain_none ?_
    rw [buf_setBuf_self]
    by_cases draining : (s.buf h).state = .draining
    · have counted := fit.draining draining
      have several : (s.buf h).inFlight ≠ 1 := fun one => more ⟨draining, one⟩
      exact .inr (show (s.buf h).inFlight - 1 ≠ 0 by omega)
    · exact .inl draining

theorem endInFlight_of_undrained {s : State} {h : Handle} (other : (s.buf h).state ≠ .draining) :
    s.endInFlight h = s.setBuf h { s.buf h with inFlight := (s.buf h).inFlight - 1 } := by
  refine completeDrain_none (.inl ?_)
  rwa [buf_setBuf_self]

/-- R88: what the stage port controller makes of the report, by the entry as it stood before the access ended. -/
theorem report_of_entry {s v : State} (stage : v.stage = s.stage) (a : Agent) (g : StageTag) (i : TagIndex) (gen : BitVec 2)
    (status : RespStatus) (data : List Byte) :
    v.report a g i gen status data =
      if s.entry a g = some (.inMemory i gen) then (v.respond ⟨a, g, status, none, data⟩).setEntry a g none else v := by
  simp only [State.report, State.entry, stage]
  rfl

theorem takeResponse_access (s : State) (i : TagIndex) (a : Agent) (g : StageTag) (h : Handle) (n : Nat) (good : Bool)
    (data : List Byte) :
    s.takeResponse i ⟨.access a g h, n⟩ good data =
      ((s.setTag i ⟨(s.tag i).generation, none⟩).endInFlight h).report a g i (s.tag i).generation (responseStatus good)
        (if good then data else []) := rfl

theorem expireTag_access {s : State} {i : TagIndex} {a : Agent} {g : StageTag} {h : Handle} {n : Nat}
    (busy : (s.tag i).use = some ⟨.access a g h, n⟩) :
    s.expireTag i =
      ((((s.setTag i ⟨(s.tag i).generation + 1, none⟩).endInFlight h).report a g i (s.tag i).generation .memTimeout []).raise
        .memoryLate).kick := by
  simp only [State.expireTag, busy]

/-- Settles O32: the row by its conditions, the end of the access by its buffer's drain; with nothing waiting the kick moves
nothing. -/
theorem matchingResponseEndsAccess : Obligations.MatchingResponseEndsAccess := by
  intro s b good data i index high g
  refine ⟨?_, ?_, fun other => exec_memoryResponse_discarded index other good data⟩
  · intro a st h n up settled busy gen fits u v
    have ended : (s.setTag i ⟨g, none⟩).endInFlight h = v := endInFlight_eq (s := s.setTag i ⟨g, none⟩) (fits h)
    rw [exec_memoryResponse_matching high up settled index gen busy, takeResponse_access, ended,
      report_of_entry (s := s) (by rw [← ended]; simp)]
    rfl
  · intro a st h n up settled busy gen empty idle undrained u
    have ended : (s.setTag i ⟨g, none⟩).endInFlight h = u := endInFlight_of_undrained (s := s.setTag i ⟨g, none⟩) undrained
    rw [exec_memoryResponse_matching high up settled index gen busy, takeResponse_access, ended, report_of_entry (s := s) (v := u) rfl,
      kick_of_scrubIdle]
    · rfl
    · split <;> exact idle
    · split <;> exact empty

/-- Settles O33: as for a response, with the generation stepped and the notice set. -/
theorem expiryEndsAccess : Obligations.ExpiryEndsAccess := by
  intro s i high g
  refine ⟨?_, ?_, exec_tagExpiry_early⟩
  · intro a st h due fits u v
    have ended : (s.setTag i ⟨g + 1, none⟩).endInFlight h = v := endInFlight_eq (s := s.setTag i ⟨g + 1, none⟩) (fits h)
    rw [exec_tagExpiry_due high due, expireTag_access due, ended, report_of_entry (s := s) (by rw [← ended]; simp)]
  · intro a st h due empty idle undrained u
    have ended : (s.setTag i ⟨g + 1, none⟩).endInFlight h = u :=
      endInFlight_of_undrained (s := s.setTag i ⟨g + 1, none⟩) undrained
    rw [exec_tagExpiry_due high due, expireTag_access due, ended, report_of_entry (s := s) (v := u) rfl,
      kick_of_scrubIdle]
    · split <;> exact idle
    · split <;> exact empty

/-! ### The end of a burst -/

theorem exec_scrubCompletion_eq {s : State} (high : s.resetLow = false) : exec .scrubCompletion s = .next s.finishScrub.kick := by
  simp only [exec, execScrubCompletion, high, Bool.false_eq_true, if_false]

theorem exec_scrubFailure_eq {s : State} (high : s.resetLow = false) : exec .scrubFailure s = .next s.failScrub.kick := by
  simp only [exec, execScrubFailure, high, Bool.false_eq_true, if_false]

/-- The context without one burst. -/
def ScrubCtx.without (c : ScrubCtx) (n : Nat) : ScrubCtx := { c with inFlight := c.inFlight.filter fun b => b.1 ≠ n }

/-- The state with another engine. -/
def State.withEngine (s : State) (e : Engine) : State := { s with scrub.engine := e }

@[simp] theorem withEngine_engine (s : State) (e : Engine) : (s.withEngine e).scrub.engine = e := rfl
@[simp] theorem withEngine_resetLow (s : State) (e : Engine) : (s.withEngine e).resetLow = s.resetLow := rfl
@[simp] theorem withEngine_hold (s : State) (e : Engine) : (s.withEngine e).checker.hold = s.checker.hold := rfl

/-- R134: a good burst leaves the set of an ISSUING engine, which then has its completion to report. -/
theorem burstEnd_good {s : State} {c : ScrubCtx} (issuing : s.scrub.engine = .issuing c) (n : Nat) :
    s.burstEnd n true = (s.withEngine (.issuing (c.without n))).finishScrub := by
  simp only [State.burstEnd, issuing, if_true]
  rfl

/-- R135: a failed burst leaves the set and puts the engine in FAILING, which then has its failure to report. -/
theorem burstEnd_bad {s : State} {c : ScrubCtx} (issuing : s.scrub.engine = .issuing c) (n : Nat) :
    s.burstEnd n false = (s.withEngine (.failing (c.without n))).failScrub := by
  simp only [State.burstEnd, issuing, Bool.false_eq_true, if_false]
  rfl

/-- R135: in FAILING every burst's end is the same. -/
theorem burstEnd_failing {s : State} {c : ScrubCtx} (failing : s.scrub.engine = .failing c) (n : Nat) (good : Bool) :
    s.burstEnd n good = (s.withEngine (.failing (c.without n))).failScrub := by
  simp only [State.burstEnd, failing]
  rfl

/-- The order in which two notices are set does not show. -/
theorem raise_raise_comm (s : State) (n m : Notice) : (s.raise n).raise m = (s.raise m).raise n := by
  simp only [State.raise, BitVec.or_assoc, BitVec.or_comm n.bit]

/-- The engine's failure reads no notice and sets one. -/
theorem failScrub_raise (s : State) (n : Notice) : (s.raise n).failScrub = s.failScrub.raise n := by
  have engine : (s.raise n).scrub.engine = s.scrub.engine := rfl
  cases e : s.scrub.engine with
  | failing c =>
    simp only [State.failScrub, engine, e]
    split
    · exact raise_raise_comm (State.setBuf { s with scrub.engine := .idle } c.handle _) n .scrubFailed
    · rfl
  | idle => simp only [State.failScrub, engine, e]
  | issuing c => simp only [State.failScrub, engine, e]
  | paused c => simp only [State.failScrub, engine, e]

theorem takeResponse_burst (s : State) (i : TagIndex) (h : Handle) (n m : Nat) (good : Bool) (data : List Byte) :
    s.takeResponse i ⟨.burst h n, m⟩ good data = (s.setTag i ⟨(s.tag i).generation, none⟩).burstEnd n good := rfl

theorem expireTag_burst {s : State} {i : TagIndex} {h : Handle} {n m : Nat} (busy : (s.tag i).use = some ⟨.burst h n, m⟩) :
    s.expireTag i = (((s.setTag i ⟨(s.tag i).generation + 1, none⟩).burstEnd n false).raise .memoryLate).kick := by
  simp only [State.expireTag, busy]

/-- R123, R135: an expired burst fails, whichever of the two states the engine is in. -/
theorem expireTag_burst_eq {s : State} {c : ScrubCtx} {i : TagIndex} {h : Handle} {n m : Nat}
    (busy : (s.tag i).use = some ⟨.burst h n, m⟩) (working : s.scrub.engine = .issuing c ∨ s.scrub.engine = .failing c) :
    s.expireTag i =
      (((s.setTag i ⟨(s.tag i).generation + 1, none⟩).withEngine (.failing (c.without n))).raise .memoryLate).failScrub.kick := by
  let freed := s.setTag i ⟨(s.tag i).generation + 1, none⟩
  have ended : freed.burstEnd n false = (freed.withEngine (.failing (c.without n))).failScrub := by
    rcases working with issuing | failing
    · exact burstEnd_bad (s := freed) issuing n
    · exact burstEnd_failing (s := freed) failing n false
  rw [expireTag_burst busy, ended, failScrub_raise]

/-- R134: with another burst in flight there is no completion to report. -/
theorem finishScrub_of_left {s : State} {c : ScrubCtx} (issuing : s.scrub.engine = .issuing c) (left : c.inFlight ≠ []) :
    s.finishScrub = s := by
  simp [State.finishScrub, issuing, left]

/-- R135: with another burst in flight there is no failure to report. -/
theorem failScrub_of_left {s : State} {c : ScrubCtx} (failing : s.scrub.engine = .failing c) (left : c.inFlight ≠ []) :
    s.failScrub = s := by
  simp [State.failScrub, failing, left]

/-- With no access held and an engine that is at work but has no burst to issue, nothing can be granted. -/
theorem quiet_of_unwanted {s : State} (empty : s.checker.hold = none) (unwanted : s.scrub.engine.wants = false)
    (working : s.scrub.engine ≠ .idle) : s.quiet :=
  ⟨fun _ => ⟨empty, unwanted⟩, fun idle => absurd idle working⟩

/-- R134: with every burst issued and one still in flight, an ISSUING engine reports nothing, and nothing follows. -/
theorem kick_finishScrub_of_left {s : State} {c : ScrubCtx} (issuing : s.scrub.engine = .issuing c) (left : c.inFlight ≠ [])
    (all : c.issue = c.count) (empty : s.checker.hold = none) : s.finishScrub.kick = s := by
  rw [finishScrub_of_left issuing left]
  exact kick_of_quiet s (quiet_of_unwanted empty (by simp [issuing, Engine.wants, all]) (by simp [issuing]))

/-- R135: with a burst still in flight a FAILING engine reports nothing, and nothing follows. -/
theorem kick_failScrub_of_left {s : State} {c : ScrubCtx} (failing : s.scrub.engine = .failing c) (left : c.inFlight ≠ [])
    (empty : s.checker.hold = none) : s.failScrub.kick = s := by
  rw [failScrub_of_left failing left]
  exact kick_of_quiet s (quiet_of_unwanted empty (by simp [failing, Engine.wants]) (by simp [failing]))

/-- Settles O34: the burst leaves the set as its end says, and the step goes on as the engine's report does; with others in flight
there is no report, and nothing to grant. -/
theorem burstResultReachesTheEngine : Obligations.BurstResultReachesTheEngine := by
  constructor
  · intro s c i n m high busy left g u
    have out (e : Engine) (gen : BitVec 2) : u e gen = (s.setTag i ⟨gen, none⟩).withEngine e := rfl
    have without : left = c.without n := rfl
    refine ⟨fun b d up settled index gen => ⟨fun issuing => ⟨?_, ?_⟩, fun failing good => ?_⟩, fun due working => ?_⟩
    · rw [exec_memoryResponse_matching high up settled index gen busy, takeResponse_burst,
        burstEnd_good (s := s.setTag i _) issuing, out, without, exec_scrubCompletion_eq (by simpa using high)]
    · rw [exec_memoryResponse_matching high up settled index gen busy, takeResponse_burst,
        burstEnd_bad (s := s.setTag i _) issuing, out, without, exec_scrubFailure_eq (by simpa using high)]
    · rw [exec_memoryResponse_matching high up settled index gen busy, takeResponse_burst,
        burstEnd_failing (s := s.setTag i _) failing, out, without, exec_scrubFailure_eq (by simpa using high)]
    · subst due
      rw [exec_tagExpiry_due high busy, expireTag_burst_eq busy working, out, without,
        exec_scrubFailure_eq (by simpa using high)]
  · intro s c i n m high issuing all empty busy left u g others
    have out (e : Engine) (gen : BitVec 2) : u e gen = (s.setTag i ⟨gen, none⟩).withEngine e := rfl
    have without : { c with inFlight := left } = c.without n := rfl
    refine ⟨fun b d up settled index gen => ⟨?_, ?_⟩, fun due => ?_⟩
    · rw [exec_memoryResponse_matching high up settled index gen busy, takeResponse_burst,
        burstEnd_good (s := s.setTag i _) issuing, out, without, kick_finishScrub_of_left (c := c.without n) rfl others all (by simpa using empty)]
    · rw [exec_memoryResponse_matching high up settled index gen busy, takeResponse_burst,
        burstEnd_bad (s := s.setTag i _) issuing, out, without, kick_failScrub_of_left rfl others (by simpa using empty)]
    · subst due
      rw [exec_tagExpiry_due high busy, expireTag_burst_eq busy (.inl issuing), out, without,
        kick_failScrub_of_left rfl others (by simpa using empty)]

end Sys2Proof.Machine
end

section
/-! A tick that makes no mark: its counts; and that what an earlier tick left outstanding comes before them (R123, R128, R140, R142,
R168). -/

namespace Sys2Proof.Machine

theorem exec_settlingIntervalEnd {s : State} (high : s.resetLow = false) : exec .settlingIntervalEnd s = .next s.endSettling := by
  simp only [exec, execSettlingIntervalEnd, high, Bool.false_eq_true, if_false]

/-- R140: a tick that makes no mark and meets no scan takes its counts, and the position moves on. -/
theorem tick_of_early {s : State} (early : s.timer.markDue = false) (calm : s.nothingDue) (unscanned : s.mgmt.scan = none)
    (low : Bool) : s.tick low = (s.ticked low).cycleOn := by
  have early' : (s.ticked low).timer.markDue = false := early
  rw [tick_of_nothingDue calm unscanned]
  exact advanceCycle_early early'

/-- A tick does what it does in the state that settling a part of what is outstanding leaves. -/
theorem exec_tick_congr {s u : State} (high : s.resetLow = false) (low' : u.resetLow = s.resetLow)
    (settled : u.settleOutstanding = s.settleOutstanding) (low : Bool) : exec (.tick low) s = exec (.tick low) u := by
  rw [exec_tick high, exec_tick (low'.trans high), tick_congr s u low settled]

/-- Settles O41: the counts with nothing outstanding; and each outstanding event's own row settles a part of what the tick would. -/
theorem tickCounts : Obligations.TickCounts := by
  intro s low high
  refine ⟨fun calm unscanned early => ?_, ?_, fun pulse ended => ?_, fun i o pulse settling limit due only => ?_,
    fun pulse settling undue => ?_⟩
  · rw [exec_tick high, tick_of_early early calm unscanned, ticked_eq]
    rfl
  · exact ⟨s.endPulse, rfl, exec_tick_congr (u := s.endPulse) high rfl (settleOutstanding_endPulse s) low⟩
  · exact ⟨_, exec_settlingIntervalEnd high, exec_tick_congr high (by simp) (settleOutstanding_endSettling s pulse) low⟩
  · have one := dueTags_eq_one s i o due only
    exact ⟨_, exec_tagExpiry_due high due,
      exec_tick_congr high (by simp) (settleOutstanding_expireTag s i pulse settling limit one) low⟩
  · have none_due := (dueTags_eq_nil s).2 undue
    exact ⟨_, exec_i2cIdleTimeout high,
      exec_tick_congr high (by simp) (settleOutstanding_settleIdle s pulse settling none_due) low⟩

end Sys2Proof.Machine
end

section
/-! The arbiter's moves one at a time (R125, R132, R133): the engine takes a head, and each free tag goes to the requester whose turn
it is. -/

namespace Sys2Proof.Machine

/-! ### The head of the queue -/

/-- The context of a buffer whose scrub begins (R132). -/
def State.freshCtx (s : State) (h : Handle) : ScrubCtx :=
  { handle := h, base := (s.buf h).base, count := (s.buf h).length * 16, issue := 0, inFlight := [] }

/-- The state in which the engine has taken a handle (R132). -/
def State.headTaken (s : State) (h : Handle) (rest : List Handle) : State :=
  { s with scrub := ⟨rest, .issuing (s.freshCtx h)⟩ }

theorem takeHead_taken {s : State} {h : Handle} {rest : List Handle} (idle : s.scrub.engine = .idle) (up : s.mem.link = .up)
    (head : s.scrub.queue = h :: rest) : s.takeHead = s.headTaken h rest := by
  simp only [State.takeHead, idle, up, head]
  rfl

/-- R132: an engine at work takes no head. -/
theorem takeHead_working {s : State} (working : s.scrub.engine ≠ .idle) : s.takeHead = s :=
  takeHead_eq s fun idle => absurd idle working

theorem kick_taken {s : State} {h : Handle} {rest : List Handle} (idle : s.scrub.engine = .idle) (up : s.mem.link = .up)
    (head : s.scrub.queue = h :: rest) : s.kick = (s.headTaken h rest).arbitrate := by
  rw [State.kick, takeHead_taken idle up head]

theorem exec_scrubTakeHead {s : State} (high : s.resetLow = false) : exec .scrubTakeHead s = .next s.kick := by
  simp only [exec, execScrubTakeHead, high, Bool.false_eq_true, if_false]

/-! ### One grant -/

/-- R125: the held access is granted the first free tag, where it alone asks or the preference names it. -/
theorem nextGrant_checker {s : State} {t : Txn} {i : TagIndex} {more : List TagIndex} (grants : s.mem.grants = true)
    (held : s.checker.hold = some t) (turn : s.scrub.engine.wants = false ∨ s.mem.preference = .checker)
    (tags : freeTags s.mem = i :: more) : s.nextGrant = some (.checker, i) := by
  cases wants : s.scrub.engine.wants with
  | false => simp [State.nextGrant, grants, tags, held, wants]
  | true => simp [State.nextGrant, grants, tags, held, wants, turn.resolve_left (by simp [wants])]

/-- R125: the standing burst is granted the first free tag, where the engine alone asks or the preference names it. -/
theorem nextGrant_scrub {s : State} {i : TagIndex} {more : List TagIndex} (grants : s.mem.grants = true)
    (wants : s.scrub.engine.wants = true) (turn : s.checker.hold = none ∨ s.mem.preference = .scrub)
    (tags : freeTags s.mem = i :: more) : s.nextGrant = some (.scrub, i) := by
  cases held : s.checker.hold with
  | none => simp [State.nextGrant, grants, tags, held, wants]
  | some t => simp [State.nextGrant, grants, tags, held, wants, turn.resolve_left (by simp [held])]

theorem grantOnce_checker {s : State} {i : TagIndex} (granted : s.nextGrant = some (.checker, i)) :
    s.grantOnce = s.recheckGranted i := by
  simp only [State.grantOnce, granted]

theorem grantOnce_scrub {s : State} {i : TagIndex} (granted : s.nextGrant = some (.scrub, i)) :
    s.grantOnce = s.issueBurst i := by
  simp only [State.grantOnce, granted]

/-- Settles O39: each move of `kick` is the engine's or one grant, and the rest of `kick` follows from the state after it. -/
theorem arbiterGrantsInTurn : Obligations.ArbiterGrantsInTurn := by
  refine ⟨wants_iff, fun s => ⟨exec_scrubTakeHead, fun h rest idle up head => ?_, fun none_waits => ⟨fun high up held => ?_,
    fun ungranted => ?_, fun i up settled free lowest => ⟨fun t h held named turn => ?_, fun c issuing more room turn => ?_⟩⟩⟩⟩
  · have working : (s.headTaken h rest).takeHead = s.headTaken h rest := takeHead_working (by simp [State.headTaken])
    rw [kick_taken idle up head, ← working]
    rfl
  · obtain ⟨t, held⟩ := Option.ne_none_iff_exists'.mp held
    rw [exec_heldAccessRecheck_up high held up, State.kick, takeHead_eq s none_waits]
  · refine kick_of_quiet s ⟨fun may => ?_, none_waits⟩
    exact ungranted.resolve_left (not_not_intro may)
  · obtain ⟨rest, tags⟩ := freeTags_lowest s.mem i free lowest
    have granted := nextGrant_checker ((grants_iff _).mpr ⟨up, settled⟩) held turn tags
    refine ⟨fun k failed => ?_, fun passes => ?_⟩
    · rw [← kick_grantOnce s none_waits, grantOnce_checker granted, recheckGranted_refuse held named failed]
      rfl
    · rw [← kick_grantOnce s none_waits, grantOnce_checker granted, recheckGranted_pass held named passes]
      rfl
  · obtain ⟨rest, tags⟩ := freeTags_lowest s.mem i free lowest
    have wants := (wants_iff _).mpr ⟨c, issuing, more, room⟩
    have granted := nextGrant_scrub ((grants_iff _).mpr ⟨up, settled⟩) wants turn tags
    rw [← kick_grantOnce s none_waits, grantOnce_scrub granted, State.issueBurst, issuing]
    rfl

/-! ### Bursts in a row -/

/-- The request of a burst under a tag (R121, R133). -/
def State.burstRequest (s : State) (c : ScrubCtx) (i : TagIndex) (n : Nat) : MemRequest :=
  { tagByte := tagByteOf i (s.tag i).generation, kind := .write, address := c.base * 4096 + n * 256, size := 256
    data := List.replicate 256 0 }

/-- The engine issues a burst under each of some tags. -/
def State.issueBursts (s : State) (l : List TagIndex) : State := l.foldl State.issueBurst s

theorem issueBursts_cons (s : State) (i : TagIndex) (l : List TagIndex) :
    s.issueBursts (i :: l) = (s.issueBurst i).issueBursts l := rfl

section
variable {s : State} {c : ScrubCtx} (issuing : s.scrub.engine = .issuing c) (i : TagIndex)
include issuing

theorem issueBurst_requests :
    (s.issueBurst i).sent.requests = s.sent.requests ++ [s.burstRequest c i c.issue] := by
  unfold State.issueBurst
  rw [issuing]
  rfl

theorem issueBurst_preference : (s.issueBurst i).mem.preference = .checker := by
  unfold State.issueBurst
  rw [issuing]
  rfl

theorem issueBurst_generation (j : TagIndex) : ((s.issueBurst i).tag j).generation = (s.tag j).generation := by
  rw [issueBurst_tag s i issuing]
  split
  · next same => rw [same]
  · rfl

/-- The first free tag is busy after the burst under it; the others stay free. -/
theorem freeTags_issueBurst {more : List TagIndex} (tags : freeTags s.mem = i :: more) :
    freeTags (s.issueBurst i).mem = more := by
  have once : i ∉ more := (List.nodup_cons.mp (tags ▸ freeTags_nodup s.mem)).1
  have busy (j : TagIndex) : (nth (s.issueBurst i).mem.tags j).use.isNone =
      (decide (j ≠ i) && (nth s.mem.tags j).use.isNone) := by
    have tag := congrArg (fun r => r.use.isNone) (issueBurst_tag s i issuing j)
    by_cases same : j = i
    · simpa [same, State.tag] using tag
    · simpa [same, State.tag] using tag
  have others : more.filter (fun j => decide (j ≠ i)) = more := by
    refine List.filter_eq_self.mpr fun j mem => ?_
    have : j ≠ i := fun same => once (same ▸ mem)
    simpa using this
  calc freeTags (s.issueBurst i).mem
      = (freeTags s.mem).filter fun j => decide (j ≠ i) := by simp only [freeTags, List.filter_filter, busy]
    _ = more := by rw [tags, List.filter_cons_of_neg (by simp), others]

end

/-- What bursts leave: all but the tags, the preference, the engine and the requests sent. -/
theorem issueBursts_keeps (s : State) (l : List TagIndex) :
    (s.issueBursts l).custody = s.custody ∧ (s.issueBursts l).stage = s.stage ∧ (s.issueBursts l).checker = s.checker ∧
      (s.issueBursts l).mem.link = s.mem.link ∧ (s.issueBursts l).mem.settling = s.mem.settling ∧
      (s.issueBursts l).scrub.queue = s.scrub.queue ∧ (s.issueBursts l).timer = s.timer ∧ (s.issueBursts l).edit = s.edit ∧
      (s.issueBursts l).mgmt = s.mgmt ∧ (s.issueBursts l).sent.responses = s.sent.responses ∧
      (s.issueBursts l).sent.bus = s.sent.bus := by
  have e := foldl_keeps State.issueBurst (fun s => (s.custody, s.stage, s.checker, s.mem.link, s.mem.settling, s.scrub.queue,
    s.timer, s.edit, s.mgmt, s.sent.responses, s.sent.bus)) (by simp) l s
  simpa only [State.issueBursts, Prod.mk.injEq] using e

/-- Bursts go out in ascending order, each under its own tag. -/
theorem issueBursts_engine (l : List TagIndex) {s : State} {c : ScrubCtx} (issuing : s.scrub.engine = .issuing c) :
    (s.issueBursts l).scrub.engine = .issuing
      { c with issue := c.issue + l.length, inFlight := c.inFlight ++ (l.zipIdx c.issue).map Prod.swap } := by
  induction l generalizing s c with
  | nil => simpa [State.issueBursts] using issuing
  | cons i l ih =>
    rw [issueBursts_cons, ih (issueBurst_engine s i c issuing)]
    simp only [List.length_cons, List.zipIdx_cons, List.map_cons, List.append_assoc, List.singleton_append, Prod.swap_prod_mk,
      Nat.add_assoc, Nat.add_comm 1]

theorem issueBursts_requests (l : List TagIndex) {s : State} {c : ScrubCtx} (issuing : s.scrub.engine = .issuing c) :
    (s.issueBursts l).sent.requests =
      s.sent.requests ++ (l.zipIdx c.issue).map fun b => s.burstRequest c b.1 b.2 := by
  induction l generalizing s c with
  | nil => simp [State.issueBursts]
  | cons i l ih =>
    rw [issueBursts_cons, ih (issueBurst_engine s i c issuing), issueBurst_requests issuing]
    simp only [State.burstRequest, issueBurst_generation issuing, List.zipIdx_cons, List.map_cons, List.append_assoc,
      List.singleton_append]

theorem issueBursts_preference (l : List TagIndex) {s : State} {c : ScrubCtx} (issuing : s.scrub.engine = .issuing c) :
    (s.issueBursts l).mem.preference = if l = [] then s.mem.preference else .checker := by
  induction l generalizing s c with
  | nil => rfl
  | cons i l ih =>
    rw [issueBursts_cons, ih (issueBurst_engine s i c issuing), issueBurst_preference issuing]
    simp

/-- A tag that no burst is issued under stays as it is. -/
theorem issueBursts_tag_other (l : List TagIndex) {s : State} {c : ScrubCtx} (issuing : s.scrub.engine = .issuing c)
    {j : TagIndex} (other : j ∉ l) : (s.issueBursts l).tag j = s.tag j := by
  induction l generalizing s c with
  | nil => rfl
  | cons i l ih =>
    obtain ⟨ne, other⟩ := not_or.mp (mt List.mem_cons.mpr other)
    rw [issueBursts_cons, ih (issueBurst_engine s i c issuing) other, issueBurst_tag s i issuing, if_neg ne]

/-- A tag that a burst is issued under is busy with it, its generation kept and the response limit as it stands. -/
theorem issueBursts_tag (l : List TagIndex) {s : State} {c : ScrubCtx} (issuing : s.scrub.engine = .issuing c) (once : l.Nodup)
    {j : TagIndex} {n : Nat} (mem : (j, n) ∈ l.zipIdx c.issue) :
    (s.issueBursts l).tag j = ⟨(s.tag j).generation, some ⟨.burst c.handle n, s.mgmt.memLimit⟩⟩ := by
  induction l generalizing s c with
  | nil => simp at mem
  | cons i l ih =>
    obtain ⟨new, once⟩ := List.nodup_cons.mp once
    have engine := issueBurst_engine s i c issuing
    rw [issueBursts_cons]
    rcases List.mem_cons.mp (List.zipIdx_cons ▸ mem) with here | later
    · cases here
      rw [issueBursts_tag_other l engine new, issueBurst_tag s _ issuing, if_pos rfl]
    · rw [ih engine once later, issueBurst_generation issuing]
      simp

/-- The bursts that the engine has to issue, with no access held: under the first tags of the free ones, as many as it has left or has
room for. -/
structure State.Offers (s : State) (c : ScrubCtx) (l more : List TagIndex) : Prop where
  grants : s.mem.grants = true
  empty : s.checker.hold = none
  issuing : s.scrub.engine = .issuing c
  tags : freeTags s.mem = l ++ more
  left : l.length ≤ c.count - c.issue
  room : c.inFlight.length + l.length ≤ Config.burstCapacity
  last : l.length = c.count - c.issue ∨ c.inFlight.length + l.length = Config.burstCapacity

/-- After one burst the rest is on offer. -/
theorem State.Offers.next {s : State} {c : ScrubCtx} {i : TagIndex} {l more : List TagIndex} (offers : s.Offers c (i :: l) more) :
    (s.issueBurst i).Offers { c with issue := c.issue + 1, inFlight := c.inFlight ++ [(c.issue, i)] } l more := by
  obtain ⟨grants, empty, issuing, tags, left, room, last⟩ := offers
  simp only [List.length_cons] at left room last
  constructor
  · rw [grants_iff] at grants ⊢
    simpa using grants
  · simpa using empty
  · exact issueBurst_engine s i c issuing
  · exact freeTags_issueBurst issuing i tags
  · simp only
    omega
  · simp only [List.length_append, List.length_singleton]
    omega
  · simp only [List.length_append, List.length_singleton]
    omega

/-- R133: with no access held the arbiter grants the engine's bursts one after the other, and then nothing more. -/
theorem arbitrate_offers {l more : List TagIndex} {s : State} {c : ScrubCtx} (offers : s.Offers c l more) :
    s.arbitrate = s.issueBursts l := by
  induction l generalizing s c with
  | nil =>
    have last := offers.last
    have unwanted : s.scrub.engine.wants = false := by
      simp only [offers.issuing, Engine.wants, Bool.and_eq_false_iff, decide_eq_false_iff_not]
      simp only [List.length_nil] at last
      omega
    exact arbitrate_of_none s (nextGrant_none_of_idle s offers.empty unwanted)
  | cons i l ih =>
    have left := offers.left
    have room := offers.room
    simp only [List.length_cons] at left room
    have wants := (wants_iff _).mpr ⟨c, offers.issuing, by omega, by omega⟩
    have granted := nextGrant_scrub offers.grants wants (.inl offers.empty) offers.tags
    rw [← arbitrate_grantOnce, grantOnce_scrub granted, ih offers.next, issueBursts_cons]

theorem freeTags_offers {l more : List TagIndex} {s : State} {c : ScrubCtx} (offers : s.Offers c l more) :
    freeTags (s.issueBursts l).mem = more := by
  induction l generalizing s c with
  | nil => exact offers.tags
  | cons i l ih => exact ih offers.next

/-! ### A head taken -/

theorem freeTags_pairwise (m : MemPort) : (freeTags m).Pairwise (· < ·) := (List.pairwise_lt_finRange 64).filter _

/-- Settles O38: while the interval runs the arbiter is shut; else the four bursts are on offer under the four lowest free tags. -/
theorem engineTakesTheHead : Obligations.EngineTakesTheHead := by
  refine ⟨fun m => ⟨freeTags_pairwise m, mem_freeTags m⟩, fun s h rest high idle up head => ?_⟩
  intro c
  rw [exec_scrubTakeHead high, kick_taken idle up head]
  refine ⟨fun running => ?_, fun settled empty long i j k l more tags => ?_⟩
  · have shut : (s.headTaken h rest).mem.grants = false :=
      Bool.eq_false_iff.mpr fun grants => running ((grants_iff _).mp grants).2
    rw [arbitrate_of_none _ (nextGrant_none_of_shut _ shut)]
    rfl
  · intro burst
    have offers : (s.headTaken h rest).Offers (s.freshCtx h) [i, j, k, l] more :=
      { grants := (grants_iff _).mpr ⟨up, settled⟩, empty := empty, issuing := rfl, tags := tags
        left := by simp only [State.freshCtx, List.length_cons, List.length_nil]; omega
        room := Nat.le_refl 4, last := .inr rfl }
    have once : ([i, j, k, l] ++ more).Nodup := by
      rw [← offers.tags]
      exact freeTags_nodup _
    have request (x : TagIndex) (n : Nat) : (s.headTaken h rest).burstRequest (s.freshCtx h) x n = burst x n := rfl
    have engine := issueBursts_engine [i, j, k, l] offers.issuing
    have requests := issueBursts_requests [i, j, k, l] offers.issuing
    simp only [List.zipIdx_cons, List.zipIdx_nil, List.map_cons, List.map_nil, request] at requests
    obtain ⟨custody, -, -, -, -, queue, -⟩ := issueBursts_keeps (s.headTaken h rest) [i, j, k, l]
    refine ⟨_, rfl, ?_⟩
    rw [arbitrate_offers offers]
    refine ⟨?_, requests, ?_, freeTags_offers offers, custody⟩
    · exact congrArg₂ ScrubUnit.mk queue engine
    · rw [issueBursts_tag _ offers.issuing (List.nodup_append.mp once).1 (n := 0) (by simp [State.freshCtx])]
      rfl

end Sys2Proof.Machine
end

section
/-! The link goes UP and the settling interval ends (R128, R132, R136): what the engine and the arbiter then do. -/

namespace Sys2Proof.Machine

/-! ### The rows -/

/-- The state in which the link has gone UP (R128). -/
def State.linkedUp (s : State) : State := { s with mem.link := .up }

/-- The state in which the settling interval has ended (R128). -/
def State.opened (s : State) : State := { s with mem.settling := none }

theorem exec_linkUp_up {s : State} (up : s.mem.link = .up) : exec .linkUp s = .next s := by
  simp only [exec, execLinkUp, up, ite_self]

theorem exec_linkUp_down {s : State} (high : s.resetLow = false) (down : s.mem.link = .down) :
    exec .linkUp s = .next s.linkedUp.resumeScrub.kick := by
  simp only [exec, execLinkUp, high, down, Bool.false_eq_true, if_false, State.linkedUp]

theorem exec_settlingIntervalEnd_over {s : State} (high : s.resetLow = false) (over_ : s.mem.settling = some 0) :
    exec .settlingIntervalEnd s = .next s.opened.kick := by
  rw [exec_settlingIntervalEnd high, State.endSettling, over_]
  rfl

/-! ### What grants leave of the tags and the requests -/

theorem forward_tag (s : State) (t : Txn) (h : Handle) (i j : TagIndex) :
    (s.forward t h i).tag j =
      if j = i then ⟨(s.tag i).generation, some ⟨.access t.agent t.tag h, s.mgmt.memLimit⟩⟩ else s.tag j :=
  tag_setTag s i j _

/-- What may become of a tag by a grant: it stays as it is, or it was free and keeps its generation. -/
def TagRec.Granted (r r' : TagRec) : Prop := r' = r ∨ r.use = none ∧ r'.generation = r.generation

theorem TagRec.Granted.trans {r r' r'' : TagRec} (first : r.Granted r') (next : r'.Granted r'') : r.Granted r'' := by
  rcases first with same | ⟨free, kept⟩
  · exact same ▸ next
  · rcases next with same | ⟨-, kept'⟩
    · exact .inr ⟨free, same ▸ kept⟩
    · exact .inr ⟨free, kept'.trans kept⟩

theorem TagRec.Granted.generation {r r' : TagRec} (granted : r.Granted r') : r'.generation = r.generation := by
  rcases granted with same | ⟨-, kept⟩
  · rw [same]
  · exact kept

theorem recheckGranted_granted {s : State} {i : TagIndex} (free : (s.tag i).use = none) (j : TagIndex) :
    (s.tag j).Granted ((s.recheckGranted i).tag j) := by
  simp only [State.recheckGranted]
  split
  · exact .inl rfl
  · split
    · exact .inl rfl
    · split
      · exact .inl (by simp [State.tag])
      · rw [forward_tag]
        split
        · next same => exact .inr ⟨same ▸ free, same ▸ rfl⟩
        · exact .inl rfl

theorem grantOnce_granted (s : State) (j : TagIndex) : (s.tag j).Granted (s.grantOnce.tag j) := by
  unfold State.grantOnce
  split
  · exact .inl rfl
  · next i granted => exact recheckGranted_granted (nextGrant_free s _ i granted).2 j
  · next i granted =>
    obtain ⟨c, issuing, -⟩ := (wants_iff _).mp ((standing_of_nextGrant s i).2 granted)
    rw [issueBurst_tag s i issuing]
    split
    · next same => exact .inr ⟨same ▸ (nextGrant_free s _ i granted).2, same ▸ rfl⟩
    · exact .inl rfl

theorem kick_granted (s : State) (j : TagIndex) : (s.tag j).Granted (s.kick.tag j) := by
  refine arbitrate_keeps_law (law := fun u => (s.tag j).Granted (u.tag j)) (fun u law => law.trans (grantOnce_granted u j)) ?_
  exact .inl (by simp [State.tag])

/-- A busy tag stays with its request, whatever else is granted. -/
theorem kick_busy {s : State} {j : TagIndex} {u : TagUse} (busy : (s.tag j).use = some u) : s.kick.tag j = s.tag j :=
  (kick_granted s j).resolve_right fun granted => by simp [busy] at granted

/-- A request that was sent stays sent. -/
theorem grantOnce_requests {s : State} {q : MemRequest} (sent : q ∈ s.sent.requests) : q ∈ s.grantOnce.sent.requests := by
  have granted (i : TagIndex) : q ∈ (s.recheckGranted i).sent.requests := by
    simp only [State.recheckGranted]
    split
    · exact sent
    · split
      · exact sent
      · split
        · simpa using sent
        · exact List.mem_append_left _ sent
  unfold State.grantOnce
  split
  · exact sent
  · exact granted _
  · next i granted =>
    obtain ⟨c, issuing, -⟩ := (wants_iff _).mp ((standing_of_nextGrant s i).2 granted)
    rw [issueBurst_requests issuing]
    exact List.mem_append_left _ sent

theorem kick_requests {s : State} {q : MemRequest} (sent : q ∈ s.sent.requests) : q ∈ s.kick.sent.requests :=
  arbitrate_keeps_law (law := fun u => q ∈ u.sent.requests) (fun _ => grantOnce_requests) (by simpa using sent)

/-! ### The held access gets its turn -/

/-- What has become of a held access to a buffer, once it was granted a tag (R113, R125): forwarded under it, or refused. -/
structure State.HeldServed (s : State) (x : Txn) (h : Handle) (i : TagIndex) (t : State) : Prop where
  unheld : t.checker.hold = none
  passed : bufferCheck (s.buf h) x = none →
    t.entry x.agent x.tag = some (.inMemory i (s.tag i).generation) ∧
    (t.tag i).use = some ⟨.access x.agent x.tag h, s.mgmt.memLimit⟩ ∧
    t.buf h = { s.buf h with
      inFlight := (s.buf h).inFlight + 1, written := (s.buf h).written || decide (x.kind = .write) } ∧
    ({ tagByte := tagByteOf i (s.tag i).generation, kind := x.kind, address := (s.buf h).base * 4096 + x.offset, size := x.size
       data := if x.kind = .write then x.data else [] } : MemRequest) ∈ t.sent.requests ∧
    t.sent.responses = s.sent.responses
  refused : ∀ k, bufferCheck (s.buf h) x = some k →
    t.entry x.agent x.tag = none ∧ t.custody = s.custody ∧
    t.sent.responses = s.sent.responses ++ [⟨x.agent, x.tag, .refused, some k, []⟩]

theorem refuse_responses (s : State) (t : Txn) (k : FaultKind) (b : Option BufState) :
    (s.refuse t k b).sent.responses = s.sent.responses ++ [⟨t.agent, t.tag, .refused, some k, []⟩] := by
  simp [State.refuse, State.respond]

/-- R113, R125: where the held access alone asks, or has its turn, it is granted the lowest free tag. -/
theorem kick_serves_held {s : State} {x : Txn} {h : Handle} {i : TagIndex} {more : List TagIndex}
    (none_waits : s.scrub.engine = .idle → s.mem.link = .up → s.scrub.queue = []) (grants : s.mem.grants = true)
    (held : s.checker.hold = some x) (named : x.handle = some h)
    (turn : s.scrub.engine.wants = false ∨ s.mem.preference = .checker) (tags : freeTags s.mem = i :: more) :
    s.HeldServed x h i s.kick := by
  have first : s.kick = (s.recheckGranted i).kick := by
    rw [← kick_grantOnce s none_waits, grantOnce_checker (nextGrant_checker grants held turn tags)]
  have same : (s.recheckGranted i).Untouched s.kick := first ▸ kick_untouched fun _ => recheckGranted_hold s i
  have entry (a : Agent) (g : StageTag) : s.kick.entry a g = (s.recheckGranted i).entry a g := by
    simp only [State.entry, same.stage]
  refine ⟨?_, fun passes => ?_, fun k failed => ?_⟩
  · rw [same.checker, recheckGranted_hold]
  · let v := { s.dropHold with mem.preference := .scrub }.forward x h i
    have granted : s.recheckGranted i = v := recheckGranted_pass held named passes i
    have tag : v.tag i = ⟨(s.tag i).generation, some ⟨.access x.agent x.tag h, s.mgmt.memLimit⟩⟩ := by
      rw [forward_tag, if_pos rfl]
      rfl
    have kept : v.kick.tag i = v.tag i := kick_busy (congrArg TagRec.use tag)
    rw [granted] at first same entry
    refine ⟨?_, ?_, ?_, ?_, same.responses⟩
    · rw [entry]
      exact (entry_setEntry _ _ _ _ _ _).trans (if_pos ⟨rfl, rfl⟩)
    · rw [first, kept, tag]
    · rw [State.buf, same.custody]
      exact buf_setBuf_self _ _ _
    · rw [first]
      exact kick_requests (List.mem_append_right _ List.mem_cons_self)
  · have granted := recheckGranted_refuse held named failed i
    rw [granted] at same entry
    refine ⟨?_, same.custody.trans (by simp), same.responses.trans ((refuse_responses _ _ _ _).trans (by simp))⟩
    rw [entry]
    simp only [State.entry, refuse_keeps]
    exact (entry_setEntry _ _ _ _ _ _).trans (if_pos ⟨rfl, rfl⟩)

/-- R125: a burst that has its turn before the held access leaves it what it is served with, but for the tag. -/
theorem heldServed_after_burst {s t : State} {c : ScrubCtx} {x : Txn} {h : Handle} {i j : TagIndex}
    (issuing : s.scrub.engine = .issuing c) (served : (s.issueBurst j).HeldServed x h i t) : s.HeldServed x h i t := by
  have custody : (s.issueBurst j).custody = s.custody := by simp
  have buf : (s.issueBurst j).buf h = s.buf h := by rw [State.buf, custody]; rfl
  have gen := issueBurst_generation issuing j i
  have mgmt : (s.issueBurst j).mgmt = s.mgmt := by simp
  have responses : (s.issueBurst j).sent.responses = s.sent.responses := by simp
  obtain ⟨unheld, passed, refused⟩ := served
  rw [buf, gen, mgmt, responses] at passed
  rw [buf, custody, responses] at refused
  exact ⟨unheld, passed, refused⟩

/-- The tags with the lowest indices. -/
theorem finRange_two : List.finRange 64 = 0 :: 1 :: (List.finRange 64).drop 2 := by decide

theorem freeTags_of_free {m : MemPort} (free : ∀ i, (nth m.tags i).use = none) : freeTags m = List.finRange 64 :=
  List.filter_eq_self.mpr fun i _ => by simp [free]

/-- R128, R125: with every tag free the held access gets tag 0, or tag 1 after a burst that the preference names. -/
theorem kick_serves_held_of_free {s : State} {x : Txn} {h : Handle}
    (none_waits : s.scrub.engine = .idle → s.mem.link = .up → s.scrub.queue = []) (grants : s.mem.grants = true)
    (free : ∀ i, (s.tag i).use = none) (held : s.checker.hold = some x) (named : x.handle = some h) :
    s.HeldServed x h (if s.scrub.engine.wants = true ∧ s.mem.preference = .scrub then 1 else 0) s.kick := by
  have tags : freeTags s.mem = 0 :: 1 :: (List.finRange 64).drop 2 := (freeTags_of_free free).trans finRange_two
  split
  · next burst =>
    obtain ⟨wants, preferred⟩ := burst
    obtain ⟨c, issuing, -⟩ := (wants_iff _).mp wants
    have first : s.kick = (s.issueBurst 0).kick := by
      rw [← kick_grantOnce s none_waits, grantOnce_scrub (nextGrant_scrub grants wants (.inr preferred) tags)]
    rw [first]
    refine heldServed_after_burst issuing (kick_serves_held (fun idle => ?_) ?_ ?_ named
      (.inr (issueBurst_preference issuing 0)) (freeTags_issueBurst issuing 0 tags))
    · rw [issueBurst_engine s 0 c issuing] at idle
      cases idle
    · rw [grants_iff] at grants ⊢
      simpa using grants
    · simpa using held
  · next alone =>
    refine kick_serves_held none_waits grants held named ?_ tags
    cases wants : s.scrub.engine.wants with
    | false => exact .inl rfl
    | true =>
      cases preferred : s.mem.preference with
      | checker => exact .inr rfl
      | scrub => exact absurd ⟨wants, preferred⟩ alone

/-! ### The engine alone, with every tag free -/

/-- Up to four bursts have gone out under tags 0 to 3, and nothing else has changed (R133). -/
def State.BurstsOut (s : State) (c : ScrubCtx) (q : List Handle) (t : State) : Prop :=
  let n := min 4 (c.count - c.issue)
  let first : List TagIndex := (List.finRange 64).take n
  t.scrub = ⟨q, .issuing { c with issue := c.issue + n, inFlight := first.map fun i => (c.issue + i.val, i) }⟩ ∧
    t.sent = { s.sent with requests := s.sent.requests ++ first.map fun i => s.burstRequest c i (c.issue + i.val) } ∧
    (∀ i, t.tag i = if i.val < n then
        ⟨(s.tag i).generation, some ⟨.burst c.handle (c.issue + i.val), s.mgmt.memLimit⟩⟩
      else s.tag i) ∧
    t.mem.preference = (if n = 0 then s.mem.preference else .checker) ∧ t.mem.link = .up ∧ t.mem.settling = none ∧
    t.custody = s.custody ∧ t.stage = s.stage ∧ t.checker = s.checker ∧ t.timer = s.timer ∧ t.edit = s.edit ∧
    t.mgmt = s.mgmt

/-- The first tags, numbered from some burst on: each stands for the burst that its index is above. -/
theorem zipIdx_take_finRange (n k : Nat) :
    ((List.finRange 64).take n).zipIdx k = ((List.finRange 64).take n).map fun i => (i, k + i.val) := by
  apply List.ext_getElem
  · simp
  · intro j _ _
    simp

theorem mem_take_finRange (n : Nat) (i : TagIndex) : i ∈ (List.finRange 64).take n ↔ i.val < n := by
  simp only [List.mem_take_iff_getElem, List.getElem_finRange, List.length_finRange]
  constructor
  · rintro ⟨j, below, rfl⟩
    simp only [Fin.cast_mk]
    omega
  · intro below
    exact ⟨i.val, by omega, rfl⟩

/-- R133: with every tag free and no access held, an ISSUING engine with no burst in flight has its first bursts granted at once. -/
theorem arbitrate_burstsOut {s : State} {c : ScrubCtx} (up : s.mem.link = .up) (settled : s.mem.settling = none)
    (empty : s.checker.hold = none) (free : ∀ i, (s.tag i).use = none) (issuing : s.scrub.engine = .issuing c)
    (unlisted : c.inFlight = []) : s.BurstsOut c s.scrub.queue s.arbitrate := by
  unfold State.BurstsOut
  extract_lets n first
  have few : n ≤ 4 := Nat.min_le_left _ _
  have length : first.length = n := by
    simp only [first, List.length_take, List.length_finRange]
    omega
  have offers : s.Offers c first ((List.finRange 64).drop n) :=
    { grants := (grants_iff _).mpr ⟨up, settled⟩, empty := empty, issuing := issuing
      tags := (freeTags_of_free free).trans (List.take_append_drop n _).symm
      left := length ▸ Nat.min_le_right _ _
      room := by simpa [unlisted, length, Config.burstCapacity] using few
      last := by simp only [unlisted, length, List.length_nil, Config.burstCapacity]; omega }
  have numbered := zipIdx_take_finRange n c.issue
  have once : first.Nodup := (List.nodup_finRange 64).sublist (List.take_sublist n _)
  obtain ⟨custody, stage, checker, link, settling, queue, timer, edit, mgmt, responses, bus⟩ := issueBursts_keeps s first
  rw [arbitrate_offers offers]
  refine ⟨?_, ?_, fun i => ?_, ?_, link.trans up, settling.trans settled, custody, stage, checker, timer, edit, mgmt⟩
  · have engine := issueBursts_engine first issuing
    rw [length, numbered, unlisted, List.map_map, List.nil_append] at engine
    exact congrArg₂ ScrubUnit.mk queue engine
  · have requests := issueBursts_requests first issuing
    rw [numbered, List.map_map] at requests
    rw [Sent.mk.injEq]
    exact ⟨responses, requests, bus⟩
  · split
    · next below =>
      refine issueBursts_tag first issuing once ?_
      rw [numbered]
      exact List.mem_map_of_mem ((mem_take_finRange n i).mpr below)
    · next above => exact issueBursts_tag_other first issuing (mt (mem_take_finRange n i).mp above)
  · rw [issueBursts_preference first issuing]
    exact if_congr (by rw [← List.length_eq_zero_iff, length]) rfl rfl

/-! ### O36 -/

theorem takeHead_settling (s : State) : s.takeHead.mem.settling = s.mem.settling := by simp

/-- R128: in the settling interval nothing is granted; an IDLE engine still takes its head. -/
theorem kick_of_settling {s : State} (settling : s.mem.settling ≠ none) : s.kick = s.takeHead := by
  refine arbitrate_of_none _ (nextGrant_none_of_shut _ ?_)
  rw [Bool.eq_false_iff, Ne, grants_iff, takeHead_settling]
  exact fun may => settling may.2

theorem resumeScrub_paused {s : State} {c : ScrubCtx} (paused : s.scrub.engine = .paused c) :
    s.resumeScrub = { s with scrub.engine := .issuing c } := by
  simp only [State.resumeScrub, paused]

theorem resumeScrub_idle {s : State} (idle : s.scrub.engine = .idle) : s.resumeScrub = s := by
  simp only [State.resumeScrub, idle]

theorem resumeScrub_settling (s : State) : s.resumeScrub.mem.settling = s.mem.settling := by simp

theorem resumeScrub_tag (s : State) (i : TagIndex) : s.resumeScrub.tag i = s.tag i := by
  unfold State.resumeScrub
  split <;> rfl

/-- R128, R132: the link goes UP in the settling interval: a PAUSED engine issues again, an IDLE one takes its head. -/
theorem takeHead_resumeScrub_linkedUp (s : State) :
    s.linkedUp.resumeScrub.takeHead =
      { s with
        mem.link := .up
        scrub :=
          match s.scrub.engine, s.scrub.queue with
          | .paused c, q => ⟨q, .issuing c⟩
          | .idle, h :: rest => ⟨rest, .issuing (s.freshCtx h)⟩
          | .idle, [] => ⟨[], .idle⟩
          | .issuing c, q => ⟨q, .issuing c⟩
          | .failing c, q => ⟨q, .failing c⟩ } := by
  rcases s with ⟨custody, stage, checker, mem, ⟨queue, engine⟩⟩
  cases engine with
  | idle => cases queue <;> rfl
  | issuing c => rfl
  | paused c => rfl
  | failing c => rfl

/-- Settles O36: each event is its own change, then `kick`; with every tag free the grants that follow are counted out. -/
theorem linkUpAndSettlingOpenTheArbiter : Obligations.LinkUpAndSettlingOpenTheArbiter := by
  intro s high free context issues
  refine ⟨exec_linkUp_up, fun down => ⟨?_, ?_, ?_⟩, fun early => ?_, fun ended => ⟨?_, ?_, ?_, ?_⟩⟩
  · refine ⟨_, exec_linkUp_down high down, ?_, ?_, fun i => ?_⟩
    · simp [State.linkedUp]
    · simp [State.linkedUp]
    · rw [(kick_granted _ i).generation, resumeScrub_tag]
      rfl
  · intro settling
    rw [exec_linkUp_down high down, kick_of_settling (by rwa [resumeScrub_settling]), takeHead_resumeScrub_linkedUp]
    rfl
  · intro settled empty allFree
    rw [exec_linkUp_down high down]
    refine ⟨fun c paused unlisted => ⟨_, rfl, ?_⟩, fun h rest idle head => ⟨_, rfl, ?_⟩, fun idle => ?_⟩
    · rw [resumeScrub_paused (s := s.linkedUp) paused, State.kick, takeHead_working (by simp)]
      exact arbitrate_burstsOut (s := { s.linkedUp with scrub.engine := .issuing c }) rfl settled empty allFree rfl unlisted
    · rw [resumeScrub_idle (s := s.linkedUp) idle, kick_taken (s := s.linkedUp) idle rfl head]
      exact arbitrate_burstsOut (s := s.linkedUp.headTaken h rest) rfl settled empty allFree rfl rfl
    · rw [resumeScrub_idle (s := s.linkedUp) idle.1, kick_of_scrubIdle (s := s.linkedUp) idle empty]
      rfl
  · rw [exec_settlingIntervalEnd high, endSettling_of_none s early]
  · exact exec_settlingIntervalEnd_over high ended
  · intro closed
    rw [exec_settlingIntervalEnd_over high ended]
    rcases closed with down | ⟨empty, idle⟩
    · rw [kick_of_quiet _ (quiet_of_down (s := s.opened) down)]
      rfl
    · rw [kick_of_scrubIdle (s := s.opened) idle empty]
      rfl
  · intro c up empty allFree issuing unlisted
    refine ⟨_, exec_settlingIntervalEnd_over high ended, ?_⟩
    rw [State.kick, takeHead_working (s := s.opened) (by simp [State.opened, issuing])]
    exact arbitrate_burstsOut (s := s.opened) up rfl empty allFree issuing unlisted
  · intro x h up allFree held named none_waits
    obtain ⟨unheld, passed, refused⟩ :=
      kick_serves_held_of_free (s := s.opened) (fun idle _ => none_waits idle) ((grants_iff _).mpr ⟨up, rfl⟩) allFree held named
    exact ⟨_, exec_settlingIntervalEnd_over high ended, by simp [State.opened], unheld, passed, refused⟩

end Sys2Proof.Machine
end

section
/-! The link goes DOWN (R127, R136): every tag is lost, the engine answers, and the held access is judged. -/

namespace Sys2Proof.Machine

/-! ### The event, in its steps -/

/-- The tags are lost, lowest index first (R127, step 1). -/
def State.tagsLost (s : State) (l : List TagIndex) : State := l.foldl State.loseTag { s with mem.link := .down }

/-- The engine has answered after that (R127, step 2). Irreducible, so that no proof looks at the 64 tags one by one. -/
@[irreducible] def State.engineStopped (s : State) : State := (s.tagsLost (List.finRange 64)).scrubLinkDown

theorem engineStopped_eq (s : State) : s.engineStopped = (s.tagsLost (List.finRange 64)).scrubLinkDown := by
  unfold State.engineStopped
  rfl

theorem goDown_eq (s : State) : s.goDown = s.engineStopped.recheckDown.raise .memoryDown := by
  unfold State.goDown State.engineStopped State.tagsLost
  rfl

theorem exec_linkDown_up {s : State} (high : s.resetLow = false) (up : s.mem.link = .up) : exec .linkDown s = .next s.goDown := by
  simp only [exec, execLinkDown, high, up, Bool.false_eq_true, if_false]

theorem exec_linkDown_down {s : State} (down : s.mem.link = .down) : exec .linkDown s = .next s := by
  simp only [exec, execLinkDown, down, ite_self]

@[simp] theorem tagsLost_nil (s : State) : s.tagsLost [] = { s with mem.link := .down } := rfl

theorem tagsLost_concat (s : State) (l : List TagIndex) (i : TagIndex) : s.tagsLost (l ++ [i]) = (s.tagsLost l).loseTag i := by
  simp [State.tagsLost]

@[simp] theorem tagsLost_keeps (s : State) (l : List TagIndex) :
    (s.tagsLost l).custody.queues = s.custody.queues ∧ (s.tagsLost l).stage.waiting = s.stage.waiting ∧
      (s.tagsLost l).stage.pointer = s.stage.pointer ∧ (s.tagsLost l).checker = s.checker ∧
      (s.tagsLost l).mem.link = .down ∧ (s.tagsLost l).mem.settling = s.mem.settling ∧
      (s.tagsLost l).mem.preference = s.mem.preference ∧ (s.tagsLost l).scrub.engine = s.scrub.engine ∧
      (s.tagsLost l).timer = s.timer ∧ (s.tagsLost l).edit = s.edit ∧ (s.tagsLost l).mgmt = s.mgmt ∧
      (s.tagsLost l).resetLow = s.resetLow ∧ (s.tagsLost l).sent.requests = s.sent.requests ∧
      (s.tagsLost l).sent.bus = s.sent.bus := by
  induction l using List.reverseRecOn with
  | nil => simp
  | append_singleton l i ih => simpa [tagsLost_concat] using ih

/-! ### The tags -/

theorem nodup_concat_iff {α : Type} {l : List α} {a : α} : (l ++ [a]).Nodup ↔ l.Nodup ∧ a ∉ l := by
  rw [← List.concat_eq_append, List.nodup_concat, and_comm]

/-- The record of a lost tag: free, with its generation stepped where it was busy. -/
def TagRec.lost (r : TagRec) : TagRec := ⟨r.generation + if r.use = none then 0 else 1, none⟩

theorem loseTag_tag (s : State) (i j : TagIndex) : (s.loseTag i).tag j = if j = i then (s.tag i).lost else s.tag j := by
  have stepped {u : TagUse} (busy : (s.tag i).use = some u) : (⟨(s.tag i).generation + 1, none⟩ : TagRec) = (s.tag i).lost := by
    simp [TagRec.lost, busy]
  rcases loseTag_cases s i with ⟨free, e⟩ | ⟨a, g, h, m, busy, e⟩ | ⟨h, n, m, busy, e⟩
  · rw [e]
    split
    · next same =>
      simp only [same, TagRec.lost, free, if_true]
      rw [← free]
      exact (congrArg (TagRec.mk · (s.tag i).use) (BitVec.add_zero _)).symm
    · rfl
  · rw [e, ← stepped busy, ← tag_setTag]
    simp only [State.tag, report_keeps, endInFlight_keeps]
  · rw [e, ← stepped busy, ← tag_setTag]

/-- A tag not yet lost stands as it did. -/
theorem tagsLost_tag_later (s : State) {l : List TagIndex} {i : TagIndex} (later : i ∉ l) : (s.tagsLost l).tag i = s.tag i := by
  induction l using List.reverseRecOn with
  | nil => rfl
  | append_singleton l j ih =>
    simp only [List.mem_append, List.mem_singleton, not_or] at later
    rw [tagsLost_concat, loseTag_tag, if_neg later.2, ih later.1]

theorem tagsLost_tag (s : State) {l : List TagIndex} (once : l.Nodup) {i : TagIndex} (mem : i ∈ l) :
    (s.tagsLost l).tag i = (s.tag i).lost := by
  induction l using List.reverseRecOn with
  | nil => cases mem
  | append_singleton l j ih =>
    obtain ⟨before, later⟩ := nodup_concat_iff.mp once
    rw [tagsLost_concat, loseTag_tag]
    split
    · next same => rw [same, tagsLost_tag_later s later]
    · next other => exact ih before (by simpa [other] using mem)

/-! ### The outstanding table and the responses -/

/-- The access that holds a tag is listed in the outstanding table under that tag, as it stands (R88). -/
def State.Reports (s : State) (i : TagIndex) (a : Agent) (g : StageTag) : Prop :=
  ∃ h n, (s.tag i).use = some ⟨.access a g h, n⟩ ∧ s.entry a g = some (.inMemory i (s.tag i).generation)

/-- What the loss of a tag answers (R127). -/
def State.lostResponse (s : State) (i : TagIndex) : Option Response :=
  match (s.tag i).use with
  | some ⟨.access a st _, _⟩ =>
    if s.entry a st = some (.inMemory i (s.tag i).generation) then some ⟨a, st, .memDown, none, []⟩ else none
  | some ⟨.burst _ _, _⟩ => none
  | none => none

theorem lostResponse_access {s : State} {i : TagIndex} {a : Agent} {g : StageTag} {h : Handle} {n : Nat}
    (busy : (s.tag i).use = some ⟨.access a g h, n⟩) :
    s.lostResponse i =
      if s.entry a g = some (.inMemory i (s.tag i).generation) then some ⟨a, g, .memDown, none, []⟩ else none := by
  simp only [State.lostResponse, busy]

theorem lostResponse_burst {s : State} {i : TagIndex} {h : Handle} {n m : Nat}
    (busy : (s.tag i).use = some ⟨.burst h n, m⟩) : s.lostResponse i = none := by
  simp only [State.lostResponse, busy]

theorem lostResponse_free {s : State} {i : TagIndex} (free : (s.tag i).use = none) : s.lostResponse i = none := by
  simp only [State.lostResponse, free]

theorem loseTag_entry (s : State) (i : TagIndex) (b : Agent) (k : StageTag) [Decidable (s.Reports i b k)] :
    (s.loseTag i).entry b k = if s.Reports i b k then none else s.entry b k := by
  rcases loseTag_cases s i with ⟨free, e⟩ | ⟨a, g, h, m, busy, e⟩ | ⟨h, n, m, busy, e⟩ <;> rw [e]
  · rw [if_neg (by simp [State.Reports, free])]
  · have before : ((s.setTag i ⟨(s.tag i).generation + 1, none⟩).endInFlight h).entry = s.entry := by
      funext b k
      simp only [State.entry, endInFlight_keeps]
      rfl
    rw [entry_report, before]
    refine if_congr ⟨?_, ?_⟩ rfl rfl
    · rintro ⟨listed, rfl, rfl⟩
      exact ⟨h, m, busy, listed⟩
    · rintro ⟨h', m', busy', listed⟩
      rw [busy] at busy'
      cases busy'
      exact ⟨listed, rfl, rfl⟩
  · rw [if_neg (by simp [State.Reports, busy])]
    rfl

theorem loseTag_responses (s : State) (i : TagIndex) :
    (s.loseTag i).sent.responses = s.sent.responses ++ (s.lostResponse i).toList := by
  rcases loseTag_cases s i with ⟨free, e⟩ | ⟨a, g, h, m, busy, e⟩ | ⟨h, n, m, busy, e⟩ <;> rw [e]
  · simp [lostResponse_free free]
  · rw [report_of_entry (s := s) (by simp), lostResponse_access busy]
    split <;> simp [State.respond]
  · simp [lostResponse_burst busy]

/-- R88: the loss of another tag leaves an entry IN_MEMORY under this one. -/
theorem tagsLost_entry_inMemory (s : State) {l : List TagIndex} {i : TagIndex} (later : i ∉ l) (a : Agent) (g : StageTag)
    (gen : BitVec 2) : (s.tagsLost l).entry a g = some (.inMemory i gen) ↔ s.entry a g = some (.inMemory i gen) := by
  induction l using List.reverseRecOn with
  | nil => rfl
  | append_singleton l j ih =>
    simp only [List.mem_append, List.mem_singleton, not_or] at later
    classical
    rw [tagsLost_concat, loseTag_entry, ← ih later.1]
    split
    · next reports =>
      obtain ⟨-, -, -, listed⟩ := reports
      simp [listed, Ne.symm later.2]
    · rfl

theorem tagsLost_reports (s : State) {l : List TagIndex} {i : TagIndex} (later : i ∉ l) (a : Agent) (g : StageTag) :
    (s.tagsLost l).Reports i a g ↔ s.Reports i a g := by
  simp only [State.Reports, tagsLost_tag_later s later, tagsLost_entry_inMemory s later]

theorem tagsLost_lostResponse (s : State) {l : List TagIndex} {i : TagIndex} (later : i ∉ l) :
    (s.tagsLost l).lostResponse i = s.lostResponse i := by
  simp only [State.lostResponse, tagsLost_tag_later s later, tagsLost_entry_inMemory s later]

theorem tagsLost_entry (s : State) {l : List TagIndex} (once : l.Nodup) (a : Agent) (g : StageTag) :
    ((∃ i ∈ l, s.Reports i a g) → (s.tagsLost l).entry a g = none) ∧
      ((∀ i ∈ l, ¬s.Reports i a g) → (s.tagsLost l).entry a g = s.entry a g) := by
  induction l using List.reverseRecOn with
  | nil => exact ⟨fun ⟨_, mem, _⟩ => absurd mem List.not_mem_nil, fun _ => rfl⟩
  | append_singleton l j ih =>
    obtain ⟨before, later⟩ := nodup_concat_iff.mp once
    obtain ⟨cleared, kept⟩ := ih before
    classical
    rw [tagsLost_concat, loseTag_entry]
    simp only [tagsLost_reports s later, List.mem_append, List.mem_singleton]
    refine ⟨?_, fun none_reports => ?_⟩
    · rintro ⟨i, mem | rfl, reports⟩
      · rw [cleared ⟨i, mem, reports⟩, ite_self]
      · rw [if_pos reports]
    · rw [if_neg (none_reports j (.inr rfl)), kept fun i mem => none_reports i (.inl mem)]

/-- R127: the responses reach the agents in the order of the tags. -/
theorem tagsLost_responses (s : State) {l : List TagIndex} (once : l.Nodup) :
    (s.tagsLost l).sent.responses = s.sent.responses ++ l.filterMap s.lostResponse := by
  induction l using List.reverseRecOn with
  | nil => simp
  | append_singleton l j ih =>
    obtain ⟨before, later⟩ := nodup_concat_iff.mp once
    rw [tagsLost_concat, loseTag_responses, ih before, tagsLost_lostResponse s later, List.append_assoc, List.filterMap_append]
    congr 2

end Sys2Proof.Machine
end

section
/-! The link goes DOWN (R11, R16, R127): what the lost tags leave of the buffer records, the scrub queue and the free lists. -/

namespace Sys2Proof.Machine

/-! ### The end of one access -/

/-- A buffer record with the fields that R3 wants of a bare one; its state is still to be written. -/
def BufRec.bare (r : BufRec) : BufRec :=
  { r with custodian := none, target := none, sealed := false, lends := [], expired := 0, inFlight := 0 }

/-- A buffer at the end of its drain (R14, R18). -/
def BufRec.drained (r : BufRec) (scrubs : Bool) : BufRec :=
  if scrubs = true then { r.bare with state := .scrubbing }
  else { r.bare with state := .free, generation := r.generation + 1, written := false }

/-- A buffer record after the end of some accesses to it (R11, R16). -/
def BufRec.ended (r : BufRec) (scrubs : Bool) (n : Nat) : BufRec :=
  if r.state = .draining ∧ r.inFlight ≤ n then r.drained scrubs else { r with inFlight := r.inFlight - n }

/-- A pool record after some handles joined its free list (R18, R34). -/
def PoolRec.joined (r : PoolRec) (l : List Handle) : PoolRec :=
  { r with
    freeList := r.freeList ++ l
    tripped := r.tripped && (l.isEmpty || decide ((r.freeList ++ l).length < r.lowMark)) }

/-- Whether the release path takes a buffer to the scrub queue (R13). -/
def State.scrubsOn (s : State) (h : Handle) : Bool := (s.pool (s.buf h).pool).scrubs && (s.buf h).written

theorem drained_state (r : BufRec) (scrubs : Bool) : (r.drained scrubs).state ≠ .draining := by
  unfold BufRec.drained
  split <;> simp

theorem drained_inFlight (r : BufRec) (scrubs : Bool) : (r.drained scrubs).inFlight = 0 := by
  unfold BufRec.drained
  split <;> rfl

/-- A record that counts no access is left as it is where an access ends. -/
theorem lowered_of_idle {r : BufRec} (idle : r.inFlight = 0) : { r with inFlight := r.inFlight - 1 } = r := by
  cases r
  simp_all

@[simp] theorem joined_nil (r : PoolRec) : r.joined [] = r := by
  simp [PoolRec.joined]

/-- Handles join in turn. -/
theorem joined_append (r : PoolRec) (l l' : List Handle) : (r.joined l).joined l' = r.joined (l ++ l') := by
  have shorter : (r.freeList ++ l ++ l').length < r.lowMark → (r.freeList ++ l).length < r.lowMark := by
    simp only [List.length_append]
    omega
  simp only [PoolRec.joined, List.append_assoc, PoolRec.mk.injEq, true_and] at shorter ⊢
  grind

theorem endInFlight_more {w : State} {h : Handle} (more : ¬((w.buf h).state = .draining ∧ (w.buf h).inFlight ≤ 1)) :
    w.endInFlight h = w.setBuf h { w.buf h with inFlight := (w.buf h).inFlight - 1 } := by
  refine completeDrain_none ?_
  rw [buf_setBuf_self, ← not_and_or]
  exact fun ⟨draining, zero⟩ => more ⟨draining, Nat.le_of_sub_eq_zero zero⟩

/-- R16: the last access to a DRAINING buffer takes it along the release path. -/
theorem endInFlight_last {w : State} {h : Handle} (draining : (w.buf h).state = .draining) (last : (w.buf h).inFlight ≤ 1) :
    w.endInFlight h = (w.setBuf h { w.buf h with inFlight := 0 }).settleRelease h := by
  have zero : (w.buf h).inFlight - 1 = 0 := Nat.sub_eq_zero_of_le last
  rw [State.endInFlight, completeDrain_eq (by rw [buf_setBuf_self]; exact draining) (by rw [buf_setBuf_self]; exact zero), zero]

theorem endInFlight_scrubs {w : State} {h : Handle} (draining : (w.buf h).state = .draining) (last : (w.buf h).inFlight ≤ 1)
    (scrubs : w.scrubsOn h = true) :
    w.endInFlight h =
      { w.setBuf h ((w.buf h).drained true) with scrub.queue := w.scrub.queue ++ [h] } := by
  obtain ⟨pool, written⟩ := Bool.and_eq_true_iff.mp scrubs
  rw [endInFlight_last draining last, settleRelease_scrub (by rw [buf_setBuf_self]; exact pool) (by rw [buf_setBuf_self]; exact written),
    enterScrubbing_eq, buf_setBuf_self, setBuf_setBuf]
  rfl

theorem endInFlight_frees {w : State} {h : Handle} (draining : (w.buf h).state = .draining) (last : (w.buf h).inFlight ≤ 1)
    (frees : w.scrubsOn h = false) :
    w.endInFlight h =
      (w.setBuf h ((w.buf h).drained false)).setPool (w.buf h).pool ((w.pool (w.buf h).pool).joined [h]) := by
  rw [endInFlight_last draining last,
    settleRelease_free (by rw [buf_setBuf_self]; exact Bool.and_eq_false_iff.mp frees), becomeFree_eq, buf_setBuf_self,
    setBuf_setBuf]
  simp only [PoolRec.joined, List.isEmpty_cons, Bool.false_or, List.length_append, List.length_singleton]
  rfl

theorem buf_endInFlight (w : State) (h k : Handle) :
    (w.endInFlight h).buf k = if k = h then (w.buf h).ended (w.scrubsOn h) 1 else w.buf k := by
  unfold BufRec.ended
  split
  · next same =>
    subst same
    split
    · next last =>
      cases scrubs : w.scrubsOn k with
      | true =>
        rw [endInFlight_scrubs last.1 last.2 scrubs]
        exact buf_setBuf_self _ _ _
      | false =>
        rw [endInFlight_frees last.1 last.2 scrubs]
        exact buf_setBuf_self _ _ _
    · next more => rw [endInFlight_more more, buf_setBuf_self]
  · next other => exact buf_endInFlight_ne w other

/-- The accesses that ended and the one that ends now. -/
theorem ended_ended {r : BufRec} (scrubs scrubs' : Bool) (n : Nat)
    (same : r.state = .draining → ¬r.inFlight ≤ n → scrubs' = scrubs) : (r.ended scrubs n).ended scrubs' 1 = r.ended scrubs (n + 1) := by
  by_cases draining : r.state = .draining
  · by_cases gone : r.inFlight ≤ n
    · have done := drained_state r scrubs
      have bare := drained_inFlight r scrubs
      simp only [BufRec.ended, draining, gone, Nat.le_succ_of_le gone, and_self, if_true, done, false_and, if_false]
      exact lowered_of_idle bare
    · by_cases last : r.inFlight ≤ n + 1
      · have one : r.inFlight - n ≤ 1 := by omega
        simp [BufRec.ended, draining, gone, last, one, same draining gone, BufRec.drained, BufRec.bare]
      · have several : ¬r.inFlight - n ≤ 1 := by omega
        simp [BufRec.ended, draining, gone, last, several, Nat.sub_sub]
  · simp [BufRec.ended, draining, Nat.sub_sub]

/-- An end is the last of a drain where it is the one that the count leaves. -/
theorem ended_last_iff (r : BufRec) (scrubs : Bool) (n : Nat) :
    (r.ended scrubs n).state = .draining ∧ (r.ended scrubs n).inFlight ≤ 1 ↔ r.state = .draining ∧ n + 1 = r.inFlight := by
  unfold BufRec.ended
  split
  · next gone =>
    have done := drained_state r scrubs
    simp only [done, false_and, false_iff, not_and]
    omega
  · next left =>
    show r.state = .draining ∧ r.inFlight - n ≤ 1 ↔ _
    refine and_congr_right fun draining => ?_
    have more : ¬r.inFlight ≤ n := fun le => left ⟨draining, le⟩
    omega

/-- The buffer whose drain the end of one access to it ends. -/
def State.drainedBy (w : State) (h : Handle) : List Handle :=
  if (w.buf h).state = .draining ∧ (w.buf h).inFlight ≤ 1 then [h] else []

theorem queue_endInFlight (w : State) (h : Handle) :
    (w.endInFlight h).scrub.queue = w.scrub.queue ++ (w.drainedBy h).filter w.scrubsOn := by
  unfold State.drainedBy
  split
  · next last =>
    cases scrubs : w.scrubsOn h with
    | true => rw [endInFlight_scrubs last.1 last.2 scrubs, List.filter_cons_of_pos scrubs, List.filter_nil]
    | false =>
      rw [endInFlight_frees last.1 last.2 scrubs, List.filter_cons_of_neg (by simp [scrubs]), List.filter_nil, List.append_nil]
      rfl
  · next more =>
    rw [endInFlight_more more, List.filter_nil, List.append_nil]
    rfl

theorem pool_endInFlight (w : State) (h : Handle) (p : PoolId) :
    (w.endInFlight h).pool p =
      (w.pool p).joined ((w.drainedBy h).filter fun k => !w.scrubsOn k && decide ((w.buf k).pool = p)) := by
  unfold State.drainedBy
  split
  · next last =>
    cases scrubs : w.scrubsOn h with
    | true =>
      rw [endInFlight_scrubs last.1 last.2 scrubs, List.filter_cons_of_neg (by simp [scrubs]), List.filter_nil, joined_nil]
      rfl
    | false =>
      rw [endInFlight_frees last.1 last.2 scrubs, pool_setPool]
      split
      · next same => rw [same, List.filter_cons_of_pos (by simp [scrubs]), List.filter_nil]
      · next other =>
        rw [List.filter_cons_of_neg (by simp [Ne.symm other]), List.filter_nil, joined_nil]
        rfl
  · next more =>
    rw [endInFlight_more more, List.filter_nil, joined_nil]
    rfl

/-! ### The loss of one tag -/

/-- The custody unit and the scrub queue read nothing of the tags and the outstanding table. -/
theorem loseTag_access {s : State} {i : TagIndex} {a : Agent} {g : StageTag} {h : Handle} {n : Nat}
    (busy : (s.tag i).use = some ⟨.access a g h, n⟩) :
    (∀ k, (s.loseTag i).buf k = if k = h then (s.buf h).ended (s.scrubsOn h) 1 else s.buf k) ∧
      (s.loseTag i).scrub.queue = s.scrub.queue ++ (s.drainedBy h).filter s.scrubsOn ∧
      ∀ p, (s.loseTag i).pool p =
        (s.pool p).joined ((s.drainedBy h).filter fun k => !s.scrubsOn k && decide ((s.buf k).pool = p)) := by
  let freed := s.setTag i ⟨(s.tag i).generation + 1, none⟩
  have lost : s.loseTag i = (freed.endInFlight h).report a g i (s.tag i).generation .memDown [] := by
    simp only [State.loseTag, busy, freed]
  have custody : (s.loseTag i).custody = (freed.endInFlight h).custody := by rw [lost]; simp
  have scrub : (s.loseTag i).scrub = (freed.endInFlight h).scrub := by rw [lost]; simp
  refine ⟨fun k => ?_, ?_, fun p => ?_⟩
  · rw [State.buf, custody]
    exact buf_endInFlight freed h k
  · rw [scrub]
    exact queue_endInFlight freed h
  · rw [State.pool, custody]
    exact pool_endInFlight freed h p

theorem loseTag_unheld {s : State} {i : TagIndex} (unheld : ∀ a g h n, (s.tag i).use ≠ some ⟨.access a g h, n⟩) :
    (s.loseTag i).custody = s.custody ∧ (s.loseTag i).scrub = s.scrub := by
  rcases loseTag_cases s i with ⟨-, e⟩ | ⟨a, g, h, m, busy, -⟩ | ⟨h, n, m, -, e⟩
  · rw [e]
    exact ⟨rfl, rfl⟩
  · exact absurd busy (unheld a g h m)
  · rw [e]
    exact ⟨rfl, rfl⟩

/-! ### The loss of all -/

/-- How many accesses to a buffer end with the loss of some tags. -/
def State.accessesEnded (s : State) (h : Handle) (p : TagIndex → Bool) : Nat :=
  ((List.finRange 64).filter fun i => p i && (s.tag i).heldFor h).length

/-- The buffer whose drain the loss of a tag ends, after the loss of those with lower indices (R16, log 16). -/
def State.drainEnd (s : State) (i : TagIndex) : Option Handle :=
  match (s.tag i).use with
  | some ⟨.access _ _ h, _⟩ =>
    if (s.buf h).state = .draining ∧ s.accessesEnded h (fun j => decide (j ≤ i)) = (s.buf h).inFlight then some h else none
  | some ⟨.burst _ _, _⟩ => none
  | none => none

/-- The buffers whose drain the loss of the first `m` tags ends, in order. -/
def State.drainEnds (s : State) (m : Nat) : List Handle := ((List.finRange 64).take m).filterMap s.drainEnd

/-- What the loss of the first `m` tags has left of the custody unit and the scrub queue. -/
structure State.EndedUpTo (s : State) (m : Nat) (v : State) : Prop where
  bufs : ∀ h, v.buf h = (s.buf h).ended (s.scrubsOn h) (s.accessesEnded h fun j => decide (j.val < m))
  queue : v.scrub.queue = s.scrub.queue ++ (s.drainEnds m).filter s.scrubsOn
  pools : ∀ p, v.pool p = (s.pool p).joined ((s.drainEnds m).filter fun h => !s.scrubsOn h && decide ((s.buf h).pool = p))

theorem take_succ_finRange (i : TagIndex) : (List.finRange 64).take (i.val + 1) = (List.finRange 64).take i.val ++ [i] := by
  rw [List.take_succ_eq_append_getElem (by simp)]
  simp

theorem accessesEnded_succ (s : State) (h : Handle) (i : TagIndex) :
    (s.accessesEnded h fun j => decide (j.val < i.val + 1)) =
      (s.accessesEnded h fun j => decide (j.val < i.val)) + ((s.tag i).heldFor h).toNat := by
  have := length_filter_update (fun j => decide (j.val < i.val) && (s.tag j).heldFor h)
    (fun j => decide (j.val < i.val + 1) && (s.tag j).heldFor h) i fun j other => by
      have : (j.val < i.val + 1) = (j.val < i.val) := by
        rw [eq_iff_iff]
        have := Fin.val_ne_of_ne other
        omega
      simp only [this]
  simpa [State.accessesEnded] using this

theorem heldFor_access {r : TagRec} {a : Agent} {g : StageTag} {h : Handle} {n : Nat} (busy : r.use = some ⟨.access a g h, n⟩)
    (k : Handle) : r.heldFor k = decide (h = k) := by
  simp only [TagRec.heldFor, busy]

theorem endedUpTo_zero {s : State} (fits : s.recordsFit) : s.EndedUpTo 0 (s.tagsLost []) := by
  refine ⟨fun h => ?_, by simp [State.drainEnds], fun p => by simp [State.drainEnds, State.pool]⟩
  have counted := (fits h).draining
  simp only [State.accessesEnded, Nat.not_lt_zero, decide_false, Bool.false_and, List.filter_false, List.length_nil]
  rw [BufRec.ended, if_neg fun gone => absurd (counted gone.1) (Nat.not_lt.mpr gone.2)]
  rfl

/-- The buffer of an access whose loss comes next: the order of the tags decides whether this loss ends its drain. -/
theorem drainEnd_access {s v : State} {i : TagIndex} {a : Agent} {g : StageTag} {h : Handle} {n : Nat}
    (busy : (s.tag i).use = some ⟨.access a g h, n⟩) (before : s.EndedUpTo i.val v) :
    (s.drainEnd i).toList = v.drainedBy h := by
  have upTo : (fun j : TagIndex => decide (j ≤ i)) = fun j => decide (j.val < i.val + 1) := by
    funext j
    simp only [Fin.le_def, Nat.lt_succ_iff]
  have more := accessesEnded_succ s h i
  rw [heldFor_access busy h, decide_eq_true rfl, Bool.toNat_true] at more
  simp only [State.drainEnd, busy, State.drainedBy, upTo, more, before.bufs h, ended_last_iff]
  split <;> rfl

theorem drainEnd_unheld {s : State} {i : TagIndex} (unheld : ∀ a g h n, (s.tag i).use ≠ some ⟨.access a g h, n⟩) :
    s.drainEnd i = none := by
  unfold State.drainEnd
  split
  · next busy => exact absurd busy (unheld _ _ _ _)
  · rfl
  · rfl

theorem heldFor_unheld {r : TagRec} (unheld : ∀ a g h n, r.use ≠ some ⟨.access a g h, n⟩) (k : Handle) : r.heldFor k = false := by
  unfold TagRec.heldFor
  split
  · next busy => exact absurd busy (unheld _ _ _ _)
  · rfl
  · rfl

theorem drainEnds_succ (s : State) (i : TagIndex) : s.drainEnds (i.val + 1) = s.drainEnds i.val ++ (s.drainEnd i).toList := by
  rw [State.drainEnds, take_succ_finRange, List.filterMap_append]
  rfl

/-- Until its drain ends, a buffer keeps its pool and whether it is to be scrubbed. -/
theorem State.EndedUpTo.undrained {s v : State} {m : Nat} (before : s.EndedUpTo m v) {h : Handle}
    (left : ¬((s.buf h).state = .draining ∧ (s.buf h).inFlight ≤ s.accessesEnded h fun j => decide (j.val < m))) :
    (v.buf h).pool = (s.buf h).pool ∧ v.scrubsOn h = s.scrubsOn h := by
  have buf := before.bufs h
  rw [BufRec.ended, if_neg left] at buf
  refine ⟨by rw [buf], ?_⟩
  rw [State.scrubsOn, buf, before.pools]
  rfl

/-- The buffer that drains now reads as it did before any tag was lost. -/
theorem State.EndedUpTo.drainedBy {s v : State} {m : Nat} (before : s.EndedUpTo m v) {h k : Handle} (now : k ∈ v.drainedBy h) :
    (v.buf k).pool = (s.buf k).pool ∧ v.scrubsOn k = s.scrubsOn k := by
  rw [State.drainedBy] at now
  split at now
  · next last =>
    rw [List.mem_singleton] at now
    subst now
    rw [before.bufs k, ended_last_iff] at last
    exact before.undrained fun gone => by have := gone.2; omega
  · cases now

theorem State.EndedUpTo.succ {s v : State} {i : TagIndex} (same : v.tag i = s.tag i) (before : s.EndedUpTo i.val v) :
    s.EndedUpTo (i.val + 1) (v.loseTag i) := by
  by_cases held : ∃ a g h n, (s.tag i).use = some ⟨.access a g h, n⟩
  · obtain ⟨a, g, h, n, busy⟩ := held
    obtain ⟨bufs, queue, pools⟩ := loseTag_access (same ▸ busy)
    have ends : s.drainEnds (i.val + 1) = s.drainEnds i.val ++ v.drainedBy h := by
      rw [drainEnds_succ, drainEnd_access busy before]
    refine ⟨fun k => ?_, ?_, fun p => ?_⟩
    · rw [bufs, accessesEnded_succ, heldFor_access busy]
      split
      · next this =>
        rw [this, before.bufs h, decide_eq_true rfl]
        exact ended_ended _ _ _ fun _ left => (before.undrained fun gone => left gone.2).2
      · next other =>
        rw [before.bufs k, decide_eq_false (Ne.symm other)]
        rfl
    · rw [queue, before.queue, ends, List.filter_append, List.append_assoc,
        List.filter_congr fun k now => (before.drainedBy now).2]
    · have frees : ((v.drainedBy h).filter fun k => !v.scrubsOn k && decide ((v.buf k).pool = p)) =
          (v.drainedBy h).filter fun k => !s.scrubsOn k && decide ((s.buf k).pool = p) :=
        List.filter_congr fun k now => by rw [(before.drainedBy now).2, (before.drainedBy now).1]
      rw [pools, before.pools, ends, List.filter_append, joined_append, frees]
  · have unheld (a : Agent) (g : StageTag) (h : Handle) (n : Nat) : (s.tag i).use ≠ some ⟨.access a g h, n⟩ :=
      fun busy => held ⟨a, g, h, n, busy⟩
    obtain ⟨custody, scrub⟩ := loseTag_unheld (same ▸ unheld)
    have ends : s.drainEnds (i.val + 1) = s.drainEnds i.val := by
      rw [drainEnds_succ, drainEnd_unheld unheld, Option.toList_none, List.append_nil]
    refine ⟨fun k => ?_, ?_, fun p => ?_⟩
    · rw [accessesEnded_succ, heldFor_unheld unheld, State.buf, custody]
      exact before.bufs k
    · rw [scrub, ends]
      exact before.queue
    · rw [State.pool, custody, ends]
      exact before.pools p

/-- R11, R16, R127: the loss of the tags ends each access in its turn. -/
theorem tagsLost_ended {s : State} (fits : s.recordsFit) {m : Nat} (bound : m ≤ 64) :
    s.EndedUpTo m (s.tagsLost ((List.finRange 64).take m)) := by
  induction m with
  | zero => exact endedUpTo_zero fits
  | succ m ih =>
    let i : TagIndex := ⟨m, bound⟩
    have next : (List.finRange 64).take (m + 1) = (List.finRange 64).take m ++ [i] := take_succ_finRange i
    rw [next, tagsLost_concat]
    exact State.EndedUpTo.succ (i := i) (tagsLost_tag_later s (by simp [mem_take_finRange, i])) (ih (Nat.le_of_lt bound))

/-- R11, R16, R127: what the loss of all tags leaves of the custody unit and the scrub queue. -/
theorem tagsLost_custody {s : State} (fits : s.recordsFit) :
    (∀ h, (s.tagsLost (List.finRange 64)).buf h = (s.buf h).ended (s.scrubsOn h) (s.accessesEnded h fun _ => true)) ∧
      (s.tagsLost (List.finRange 64)).scrub.queue =
        s.scrub.queue ++ ((List.finRange 64).filterMap s.drainEnd).filter s.scrubsOn ∧
      ∀ p, (s.tagsLost (List.finRange 64)).pool p =
        (s.pool p).joined (((List.finRange 64).filterMap s.drainEnd).filter fun h =>
          !s.scrubsOn h && decide ((s.buf h).pool = p)) := by
  have every (h : Handle) : (s.accessesEnded h fun j => decide (j.val < 64)) = s.accessesEnded h fun _ => true :=
    congrArg (s.accessesEnded h) (funext fun j => decide_eq_true j.isLt)
  have all : (List.finRange 64).take 64 = List.finRange 64 := List.take_of_length_le (by simp)
  have ended := tagsLost_ended fits (Nat.le_refl 64)
  rw [all] at ended
  obtain ⟨bufs, queue, pools⟩ := ended
  have ends : s.drainEnds 64 = (List.finRange 64).filterMap s.drainEnd := by rw [State.drainEnds, all]
  exact ⟨fun h => (bufs h).trans (congrArg _ (every h)), ends ▸ queue, fun p => ends ▸ pools p⟩

end Sys2Proof.Machine
end

section
/-! The link goes DOWN (R113, R127, R136): the engine's answer, the judgement of the held access, and the whole event. -/

namespace Sys2Proof.Machine

/-! ### The engine's answer -/

theorem scrubLinkDown_issuing {s : State} {c : ScrubCtx} (issuing : s.scrub.engine = .issuing c) :
    s.scrubLinkDown = s.withEngine (.paused { c with issue := rewindPoint c.issue c.inFlight, inFlight := [] }) := by
  simp only [State.scrubLinkDown, issuing]
  rfl

theorem scrubLinkDown_failing {s : State} {c : ScrubCtx} (failing : s.scrub.engine = .failing c) :
    s.scrubLinkDown = (s.withEngine .idle).withhold c.handle := by
  simp only [State.scrubLinkDown, failing, State.failScrub, if_true]
  rfl

theorem scrubLinkDown_idle {s : State} (idle : s.scrub.engine = .idle) : s.scrubLinkDown = s := by
  simp only [State.scrubLinkDown, idle]

theorem scrubLinkDown_paused {s : State} {c : ScrubCtx} (paused : s.scrub.engine = .paused c) : s.scrubLinkDown = s := by
  simp only [State.scrubLinkDown, paused]

theorem rewindPoint_cons (issue : Nat) (b : Nat × TagIndex) (lost : List (Nat × TagIndex)) :
    rewindPoint issue (b :: lost) = rewindPoint (min issue b.1) lost := rfl

/-- The rewind point is the issue point or a lost burst, and no burst is below it. -/
theorem rewindPoint_least (issue : Nat) (lost : List (Nat × TagIndex)) :
    (rewindPoint issue lost = issue ∨ rewindPoint issue lost ∈ lost.map Prod.fst) ∧
      ∀ n ∈ lost.map Prod.fst, rewindPoint issue lost ≤ n := by
  induction lost generalizing issue with
  | nil => exact ⟨.inl rfl, by simp⟩
  | cons b lost ih =>
    obtain ⟨among, least⟩ := ih (min issue b.1)
    have start := rewindPoint_le (min issue b.1) lost
    simp only [rewindPoint_cons, List.map_cons, List.mem_cons]
    grind

/-- R136: with bursts lost, all below the issue point, the engine rewinds to the lowest of them. -/
theorem rewindPoint_mem {issue : Nat} {lost : List (Nat × TagIndex)} (some_lost : lost ≠ [])
    (below : ∀ b ∈ lost, b.1 < issue) : rewindPoint issue lost ∈ lost.map Prod.fst := by
  obtain ⟨among, least⟩ := rewindPoint_least issue lost
  obtain ⟨b, mem⟩ := List.exists_mem_of_ne_nil lost some_lost
  have lower : rewindPoint issue lost < issue := Nat.lt_of_le_of_lt (least b.1 (List.mem_map_of_mem mem)) (below b mem)
  exact among.resolve_left (Nat.ne_of_lt lower)

/-- The engine's answer writes one record, that of the buffer whose scrub has failed. -/
theorem scrubLinkDown_buf {s : State} {k : Handle} (other : ∀ c, s.scrub.engine = .failing c → c.handle ≠ k) :
    s.scrubLinkDown.buf k = s.buf k := by
  cases e : s.scrub.engine with
  | failing c =>
    rw [scrubLinkDown_failing e, buf_withhold, if_neg (other c e).symm]
    rfl
  | issuing c => rw [scrubLinkDown_issuing e]; rfl
  | idle => rw [scrubLinkDown_idle e]
  | paused c => rw [scrubLinkDown_paused e]

/-- The buffer of a failed scrub is WITHHELD (R135). -/
theorem scrubLinkDown_buf_failing {s : State} {c : ScrubCtx} (failing : s.scrub.engine = .failing c) :
    s.scrubLinkDown.buf c.handle = { (s.buf c.handle).bare with state := .withheld } := by
  rw [scrubLinkDown_failing failing, buf_withhold, if_pos rfl]
  rfl

theorem scrubLinkDown_notice (s : State) (n : Notice) :
    s.scrubLinkDown.notice n = true ↔ s.notice n = true ∨ n = .scrubFailed ∧ ∃ c, s.scrub.engine = .failing c := by
  cases e : s.scrub.engine with
  | failing c =>
    rw [scrubLinkDown_failing e, State.withhold, notice_raise, Bool.or_eq_true, decide_eq_true_iff]
    simp
    rfl
  | issuing c => rw [scrubLinkDown_issuing e]; simp; rfl
  | idle => rw [scrubLinkDown_idle e]; simp
  | paused c => rw [scrubLinkDown_paused e]; simp

/-! ### The held access -/

/-- The held access has left the hold place and the outstanding table. -/
def State.holdLeft (s : State) (x : Txn) : State := s.dropHold.setEntry x.agent x.tag none

theorem holdLeft_entry (s : State) (x : Txn) (a : Agent) (g : StageTag) :
    (s.holdLeft x).entry a g = if a = x.agent ∧ g = x.tag then none else s.entry a g :=
  entry_setEntry s.dropHold x.agent a x.tag g none

/-- What link DOWN makes of the hold place (R113). -/
theorem recheckDown_cases (s : State) :
    s.checker.hold = none ∧ s.recheckDown = s ∨
      ∃ x, s.checker.hold = some x ∧
        (x.handle = none ∧ s.recheckDown = s.holdLeft x ∨
          ∃ h, x.handle = some h ∧
            (bufferCheck (s.buf h) x = none ∧ s.recheckDown = (s.holdLeft x).answerTxn x .memDown ∨
              ∃ k, bufferCheck (s.buf h) x = some k ∧
                s.recheckDown = (s.holdLeft x).refuse x k (some (s.buf h).state))) := by
  cases held : s.checker.hold with
  | none => exact .inl ⟨rfl, by simp only [State.recheckDown, held]⟩
  | some x =>
    refine .inr ⟨x, rfl, ?_⟩
    cases named : x.handle with
    | none => exact .inl ⟨rfl, by simp only [State.recheckDown, held, named]; rfl⟩
    | some h =>
      refine .inr ⟨h, rfl, ?_⟩
      cases check : bufferCheck (s.buf h) x with
      | none => exact .inl ⟨rfl, recheckDown_pass held named check⟩
      | some k => exact .inr ⟨k, rfl, recheckDown_refuse held named check⟩

theorem recheckDown_hold (s : State) : s.recheckDown.checker.hold = none := by
  rcases recheckDown_cases s with ⟨empty, e⟩ | ⟨x, -, ⟨-, e⟩ | ⟨h, -, ⟨-, e⟩ | ⟨k, -, e⟩⟩⟩ <;> rw [e]
  · exact empty
  · rfl
  · rfl
  · rw [(refuse_keeps _ _ _ _).2.2.1]
    rfl

theorem recheckDown_entry_held {s : State} {x : Txn} (held : s.checker.hold = some x) :
    s.recheckDown.entry = (s.holdLeft x).entry := by
  rcases recheckDown_cases s with ⟨empty, -⟩ | ⟨y, held', cases_⟩
  · rw [held] at empty
    cases empty
  · rw [held] at held'
    cases held'
    rcases cases_ with ⟨-, e⟩ | ⟨h, -, ⟨-, e⟩ | ⟨k, -, e⟩⟩ <;> rw [e]
    · rfl
    · funext a g
      simp only [State.entry, refuse_keeps]

theorem recheckDown_unheld {s : State} (empty : s.checker.hold = none) : s.recheckDown = s := by
  simp only [State.recheckDown, empty]

theorem refuse_agent_other (s : State) (x : Txn) (k : FaultKind) (b : Option BufState) {a : Agent} (other : x.agent ≠ a) :
    (s.refuse x k b).agent a = s.agent a := by
  cases slot : (s.agent x.agent).slot with
  | some f => rw [refuse_occupied slot]; rfl
  | none =>
    rw [refuse_empty slot]
    exact (agent_setAgentRec _ _ _ _).trans (if_neg other.symm)

theorem refuse_online (s : State) (x : Txn) (k : FaultKind) (b : Option BufState) (a : Agent) :
    (s.refuse x k b).online a = s.online a :=
  fillSlot_online (s.respond ⟨x.agent, x.tag, .refused, some k, []⟩) x.agent a _

theorem refuse_notice_iff (s : State) (x : Txn) (k : FaultKind) (b : Option BufState) (n : Notice) :
    (s.refuse x k b).notice n = true ↔ s.notice n = true ∨ (s.agent x.agent).slot = none ∧ n = .fault x.agent := by
  cases slot : (s.agent x.agent).slot with
  | some f =>
    rw [refuse_occupied slot]
    simp
    rfl
  | none =>
    rw [refuse_empty slot, notice_raise, Bool.or_eq_true, decide_eq_true_iff]
    simp
    rfl

theorem recheckDown_online (s : State) (a : Agent) : s.recheckDown.online a = s.online a := by
  rcases recheckDown_cases s with ⟨-, e⟩ | ⟨x, -, ⟨-, e⟩ | ⟨h, -, ⟨-, e⟩ | ⟨k, -, e⟩⟩⟩ <;> rw [e]
  · rfl
  · rfl
  · exact refuse_online _ _ _ _ a

theorem recheckDown_agent_other {s : State} {a : Agent} (other : ∀ x, s.checker.hold = some x → x.agent ≠ a) :
    s.recheckDown.agent a = s.agent a := by
  rcases recheckDown_cases s with ⟨-, e⟩ | ⟨x, held, ⟨-, e⟩ | ⟨h, -, ⟨-, e⟩ | ⟨k, -, e⟩⟩⟩ <;> rw [e]
  · rfl
  · rfl
  · exact refuse_agent_other _ _ _ _ (other x held)

theorem recheckDown_notice (s : State) (n : Notice) :
    s.recheckDown.notice n = true ↔ s.notice n = true ∨
      ∃ x h k, s.checker.hold = some x ∧ x.handle = some h ∧ bufferCheck (s.buf h) x = some k ∧
        (s.agent x.agent).slot = none ∧ n = .fault x.agent := by
  rcases recheckDown_cases s with ⟨empty, e⟩ | ⟨x, held, ⟨unnamed, e⟩ | ⟨h, named, ⟨passes, e⟩ | ⟨k, failed, e⟩⟩⟩ <;> rw [e]
  · simp [empty]
  · simp [held, unnamed]
    rfl
  · simp [held, named, passes]
    rfl
  · rw [refuse_notice_iff]
    simp [held, named, failed]
    rfl

end Sys2Proof.Machine
end

section
/-! The link-DOWN event as a whole (R127), and O35. -/

namespace Sys2Proof.Machine

/-! ### What the event leaves of each part of the state -/

theorem engineStopped_checker (s : State) : s.engineStopped.checker = s.checker := by
  simp [engineStopped_eq]

theorem engineStopped_hold (s : State) : s.engineStopped.checker.hold = s.checker.hold :=
  congrArg Checker.hold (engineStopped_checker s)

theorem engineStopped_agent (s : State) (a : Agent) : s.engineStopped.agent a = s.agent a := by
  simp only [State.agent, engineStopped_checker]

theorem engineStopped_entry (s : State) : s.engineStopped.entry = (s.tagsLost (List.finRange 64)).entry := by
  funext a g
  simp only [State.entry, engineStopped_eq, scrubLinkDown_keeps]

theorem engineStopped_responses (s : State) :
    s.engineStopped.sent.responses = s.sent.responses ++ (List.finRange 64).filterMap s.lostResponse := by
  simp only [engineStopped_eq, scrubLinkDown_keeps]
  exact tagsLost_responses s (List.nodup_finRange 64)

theorem engineStopped_notice (s : State) (n : Notice) :
    s.engineStopped.notice n = true ↔ s.notice n = true ∨ n = .scrubFailed ∧ ∃ c, s.scrub.engine = .failing c := by
  have mgmt : (s.tagsLost (List.finRange 64)).mgmt = s.mgmt := by simp
  have notice : (s.tagsLost (List.finRange 64)).notice n = s.notice n := by rw [State.notice, mgmt]; rfl
  have engine : (s.tagsLost (List.finRange 64)).scrub.engine = s.scrub.engine := by simp
  rw [engineStopped_eq, scrubLinkDown_notice, notice, engine]

theorem entry_raise (s : State) (n : Notice) (a : Agent) (g : StageTag) : (s.raise n).entry a g = s.entry a g := rfl
theorem agent_raise (s : State) (n : Notice) (a : Agent) : (s.raise n).agent a = s.agent a := rfl
theorem online_raise (s : State) (n : Notice) (a : Agent) : (s.raise n).online a = s.online a := rfl

theorem goDown_buf (s : State) (h : Handle) : s.goDown.buf h = s.engineStopped.buf h := by
  simp only [State.buf, goDown_eq, raise_keeps, recheckDown_keeps]

theorem goDown_scrub (s : State) : s.goDown.scrub = s.engineStopped.scrub := by
  simp [goDown_eq]

theorem goDown_pool (s : State) (p : PoolId) : s.goDown.pool p = (s.tagsLost (List.finRange 64)).pool p := by
  simp only [State.pool, goDown_eq, raise_keeps, recheckDown_keeps, engineStopped_eq, scrubLinkDown_keeps]

theorem goDown_link (s : State) : s.goDown.mem.link = .down := by
  simp [goDown_eq, engineStopped_eq]

theorem goDown_hold (s : State) : s.goDown.checker.hold = none := by
  rw [goDown_eq, (raise_keeps _ _).2.2.1, recheckDown_hold]

theorem goDown_tag (s : State) (i : TagIndex) : s.goDown.tag i = (s.tag i).lost := by
  rw [← tagsLost_tag s (List.nodup_finRange 64) (List.mem_finRange i)]
  simp only [State.tag, goDown_eq, raise_keeps, recheckDown_keeps, engineStopped_eq, scrubLinkDown_keeps]

theorem goDown_mgmt (s : State) : s.goDown.mgmt = { s.mgmt with notices := s.goDown.mgmt.notices } := by
  obtain ⟨-, -, -, -, -, -, -, own, receiver, frame, rest, scan, answer, enable, limit, idle, -⟩ := goDown_keeps s
  dsimp only
  rw [← own, ← receiver, ← frame, ← rest, ← scan, ← answer, ← enable, ← limit, ← idle]

theorem goDown_notice (s : State) (n : Notice) :
    s.goDown.notice n = true ↔ s.notice n = true ∨ n = .memoryDown ∨
      (n = .scrubFailed ∧ ∃ c, s.scrub.engine = .failing c) ∨
      ∃ x h k, s.checker.hold = some x ∧ x.handle = some h ∧ bufferCheck (s.goDown.buf h) x = some k ∧
        (s.agent x.agent).slot = none ∧ n = .fault x.agent := by
  rw [goDown_eq, notice_raise, Bool.or_eq_true, decide_eq_true_iff, recheckDown_notice, engineStopped_notice,
    engineStopped_hold, ← goDown_eq]
  simp only [engineStopped_agent, goDown_buf]
  rw [or_comm, ← or_assoc, or_left_comm, or_assoc, or_assoc]

theorem goDown_entry (s : State) (a : Agent) (g : StageTag) :
    let reported : Prop := ∃ i, s.Reports i a g
    let held : Prop := ∃ x, s.checker.hold = some x ∧ x.agent = a ∧ x.tag = g
    (reported ∨ held → s.goDown.entry a g = none) ∧ (¬reported → ¬held → s.goDown.entry a g = s.entry a g) := by
  intro reported held
  obtain ⟨cleared, kept⟩ := tagsLost_entry s (List.nodup_finRange 64) a g
  rw [← engineStopped_entry] at cleared kept
  rw [goDown_eq, entry_raise]
  cases hold : s.checker.hold with
  | none =>
    rw [recheckDown_unheld ((engineStopped_hold s).trans hold)]
    refine ⟨?_, fun none_reports _ => kept fun i _ reports => none_reports ⟨i, reports⟩⟩
    rintro (⟨i, reports⟩ | ⟨x, held, -⟩)
    · exact cleared ⟨i, List.mem_finRange i, reports⟩
    · rw [hold] at held
      cases held
  | some x =>
    rw [recheckDown_entry_held ((engineStopped_hold s).trans hold), holdLeft_entry]
    refine ⟨?_, fun none_reports unheld => ?_⟩
    · rintro (⟨i, reports⟩ | ⟨y, holds, rfl, rfl⟩)
      · rw [cleared ⟨i, List.mem_finRange i, reports⟩, ite_self]
      · rw [hold] at holds
        cases holds
        rw [if_pos ⟨rfl, rfl⟩]
    · rw [if_neg fun own => unheld ⟨x, hold, own.1.symm, own.2.symm⟩]
      exact kept fun i _ reports => none_reports ⟨i, reports⟩

/-! ### The responses and the held access -/

theorem goDown_responses_unheld {s : State} (empty : s.checker.hold = none) :
    s.goDown.sent.responses = s.sent.responses ++ (List.finRange 64).filterMap s.lostResponse := by
  rw [goDown_eq, recheckDown_unheld ((engineStopped_hold s).trans empty)]
  exact engineStopped_responses s

theorem goDown_online (s : State) (a : Agent) : s.goDown.online a = s.online a := by
  rw [goDown_eq, online_raise, recheckDown_online, State.online, engineStopped_agent, State.online]

theorem goDown_agent_other {s : State} {a : Agent} (other : ∀ x, s.checker.hold = some x → x.agent ≠ a) :
    s.goDown.agent a = s.agent a := by
  rw [goDown_eq, agent_raise, recheckDown_agent_other (by rwa [engineStopped_hold]), engineStopped_agent]

/-- R113, R127: a held access that passes its checks is answered MEM_DOWN. -/
theorem goDown_held_passes {s : State} {x : Txn} {h : Handle} (held : s.checker.hold = some x) (named : x.handle = some h)
    (passes : bufferCheck (s.goDown.buf h) x = none) :
    s.goDown.sent.responses =
        s.sent.responses ++ (List.finRange 64).filterMap s.lostResponse ++ [⟨x.agent, x.tag, .memDown, none, []⟩] ∧
      s.goDown.agent x.agent = s.agent x.agent := by
  rw [goDown_buf] at passes
  have down : s.goDown = ((s.engineStopped.holdLeft x).answerTxn x .memDown).raise .memoryDown := by
    rw [goDown_eq, recheckDown_pass ((engineStopped_hold s).trans held) named passes]
    rfl
  rw [down, ← engineStopped_responses]
  exact ⟨rfl, engineStopped_agent s x.agent⟩

/-- R113, R114, R115: one that does not is refused. -/
theorem goDown_held_refused {s : State} {x : Txn} {h : Handle} {k : FaultKind} (held : s.checker.hold = some x)
    (named : x.handle = some h) (failed : bufferCheck (s.goDown.buf h) x = some k) :
    s.goDown.sent.responses =
        s.sent.responses ++ (List.finRange 64).filterMap s.lostResponse ++ [⟨x.agent, x.tag, .refused, some k, []⟩] ∧
      ((s.agent x.agent).slot ≠ none → s.goDown.agent x.agent = s.agent x.agent) ∧
      ((s.agent x.agent).slot = none → s.goDown.notice (.fault x.agent) = true ∧
        (s.goDown.agent x.agent).slot = some
          { kind := k, handle := x.handleField, offset := x.offsetField, access := x.kind, sizeLess1 := x.sizeLess1
            bufState := some (s.goDown.buf h).state, cycleCount := s.timer.cycleCount }) := by
  have timer : s.engineStopped.timer = s.timer := by simp [engineStopped_eq]
  have check := failed
  rw [goDown_buf] at check
  have down : s.goDown =
      ((s.engineStopped.holdLeft x).refuse x k (some (s.engineStopped.buf h).state)).raise .memoryDown := by
    rw [goDown_eq, recheckDown_refuse ((engineStopped_hold s).trans held) named check]
    rfl
  have agent : (s.engineStopped.holdLeft x).agent x.agent = s.agent x.agent := engineStopped_agent s x.agent
  refine ⟨?_, fun occupied => ?_, fun empty => ⟨?_, ?_⟩⟩
  · rw [down, ← engineStopped_responses]
    exact refuse_responses _ _ _ _
  · obtain ⟨f, slot⟩ := Option.ne_none_iff_exists'.mp occupied
    rw [down, refuse_occupied (agent ▸ slot)]
    exact agent
  · exact (goDown_notice s _).mpr (.inr (.inr (.inr ⟨x, h, k, held, named, failed, empty, rfl⟩)))
  · rw [← timer, goDown_buf, down, agent_raise, refuse_empty (agent ▸ empty), agent_raise, agent_setAgentRec, if_pos rfl]
    rfl

/-! ### The engine -/

theorem tagsLost_engine (s : State) (l : List TagIndex) : (s.tagsLost l).scrub.engine = s.scrub.engine := by simp

/-- R136: an ISSUING engine pauses, at the lowest burst it lost. -/
theorem goDown_issuing {s : State} {c : ScrubCtx} (issuing : s.scrub.engine = .issuing c) :
    s.goDown.scrub.engine = .paused { c with issue := rewindPoint c.issue c.inFlight, inFlight := [] } := by
  rw [goDown_scrub, engineStopped_eq, scrubLinkDown_issuing ((tagsLost_engine s _).trans issuing)]
  rfl

theorem goDown_failing {s : State} {c : ScrubCtx} (failing : s.scrub.engine = .failing c) : s.goDown.scrub.engine = .idle := by
  rw [goDown_scrub, engineStopped_eq, scrubLinkDown_failing ((tagsLost_engine s _).trans failing)]
  rfl

theorem goDown_idle {s : State} (idle : s.scrub.engine = .idle) : s.goDown.scrub.engine = .idle := by
  have lost := (tagsLost_engine s (List.finRange 64)).trans idle
  rw [goDown_scrub, engineStopped_eq, scrubLinkDown_idle lost, lost]

theorem goDown_paused {s : State} {c : ScrubCtx} (paused : s.scrub.engine = .paused c) : s.goDown.scrub.engine = .paused c := by
  have lost := (tagsLost_engine s (List.finRange 64)).trans paused
  rw [goDown_scrub, engineStopped_eq, scrubLinkDown_paused lost, lost]

/-! ### The custody unit -/

/-- The buffer of a failed scrub is WITHHELD, with what its record holds after the tags are lost. -/
theorem goDown_buf_failing {s : State} {c : ScrubCtx} (failing : s.scrub.engine = .failing c) :
    s.goDown.buf c.handle = { ((s.tagsLost (List.finRange 64)).buf c.handle).bare with state := .withheld } := by
  rw [goDown_buf, engineStopped_eq, scrubLinkDown_buf_failing ((tagsLost_engine s _).trans failing)]

theorem goDown_buf_other {s : State} (fits : s.recordsFit) {h : Handle}
    (other : ∀ c, s.scrub.engine = .failing c → c.handle ≠ h) :
    s.goDown.buf h = (s.buf h).ended (s.scrubsOn h) (s.accessesEnded h fun _ => true) := by
  rw [goDown_buf, engineStopped_eq, scrubLinkDown_buf (by rwa [tagsLost_engine]), (tagsLost_custody fits).1]

/-- R5: the buffer that the engine works on is SCRUBBING. -/
theorem State.Collected.failing {s : State} (collected : s.Collected) {c : ScrubCtx} (failing : s.scrub.engine = .failing c) :
    (s.buf c.handle).state = .scrubbing :=
  (collected.scrub c.handle).mp (.inr (by rw [failing]; rfl))

theorem ended_undrained {r : BufRec} {n : Nat} (left : r.state ≠ .draining ∨ n < r.inFlight) (scrubs : Bool) :
    r.ended scrubs n = { r with inFlight := r.inFlight - n } := by
  rw [BufRec.ended, if_neg fun gone => left.elim (fun other => other gone.1) fun more => Nat.not_le_of_lt more gone.2]

theorem ended_drained {r : BufRec} {n : Nat} (draining : r.state = .draining) (gone : r.inFlight ≤ n) (scrubs : Bool) :
    r.ended scrubs n =
      if scrubs = true then { r.bare with state := .scrubbing }
      else { r.bare with state := .free, generation := r.generation + 1, written := false } := by
  rw [BufRec.ended, if_pos ⟨draining, gone⟩]
  rfl

theorem heldFor_iff_use (r : TagRec) (h : Handle) : r.heldFor h = true ↔ ∃ a g n, r.use = some ⟨.access a g h, n⟩ := by
  unfold TagRec.heldFor
  split
  · next busy => simp [busy]
  · next busy => simp [busy]
  · next free => simp [free]

theorem goDown_queue {s : State} (fits : s.recordsFit) :
    s.goDown.scrub.queue = s.scrub.queue ++ ((List.finRange 64).filterMap s.drainEnd).filter s.scrubsOn := by
  rw [goDown_scrub, engineStopped_eq, ← (tagsLost_custody fits).2.1]
  simp

theorem goDown_pools {s : State} (fits : s.recordsFit) (p : PoolId) :
    s.goDown.pool p = (s.pool p).joined (((List.finRange 64).filterMap s.drainEnd).filter fun h =>
      !s.scrubsOn h && decide ((s.buf h).pool = p)) :=
  (goDown_pool s p).trans ((tagsLost_custody fits).2.2 p)

/-! ### O35 -/

/-- Settles O35: the tags are lost one by one, then the engine answers, then the held access is judged; each part of the state
reads as the step that writes it leaves it. -/
theorem linkDownEndsEverything : Obligations.LinkDownEndsEverything := by
  intro s high
  obtain ⟨queues, waiting, pointer, settling, preference, timer, edit, -, -, -, -, -, -, -, -, -, resetLow, requests, bus, -⟩ :=
    goDown_keeps s
  refine ⟨exec_linkDown_down, fun up laws => ⟨s.goDown, exec_linkDown_up high up, goDown_link s, goDown_hold s,
    (goDown_notice s _).mpr (.inr (.inl rfl)), fun i => ?tags, ?responses, fun c issuing => ?issuing, fun c failing => ?failing,
    goDown_idle, fun lawful => ?custody, queues, waiting, pointer, goDown_entry s,
    fun a => ⟨goDown_online s a, goDown_agent_other⟩, goDown_notice s, fun c => goDown_paused, settling, preference, timer, edit,
    goDown_mgmt s, requests, bus, resetLow⟩⟩
  case tags =>
    rw [goDown_tag]
    exact ⟨rfl, rfl⟩
  case responses =>
    refine ⟨goDown_responses_unheld, fun x h held named => ⟨?_, goDown_held_passes held named, fun k => goDown_held_refused held named⟩⟩
    exact (goDown_entry s x.agent x.tag).1 (.inr ⟨x, held, rfl, rfl⟩)
  case issuing =>
    refine ⟨_, goDown_issuing issuing, fun unlisted => ?_, fun listed => ⟨?_, (rewindPoint_least _ _).2⟩⟩
    · rw [unlisted]
      rfl
    · exact rewindPoint_mem listed (laws.issuing issuing).1.below
  case failing =>
    refine ⟨goDown_failing failing, (goDown_notice s _).mpr (.inr (.inr (.inl ⟨rfl, c, failing⟩))), ?_⟩
    rw [goDown_buf_failing failing]
  case custody =>
    obtain ⟨fits, -, collected⟩ := lawful
    intro access ended all scrubs bare drained
    refine ⟨fun i h => heldFor_iff_use _ h, fun h left other => ?_, fun h draining gone => ?_, fun c failing => ?_,
      goDown_queue fits, goDown_pools fits⟩
    · exact (goDown_buf_other fits other).trans (ended_undrained left _)
    · refine (goDown_buf_other fits fun c failing same => ?_).trans (ended_drained draining gone _)
      have scrubbing := collected.failing failing
      rw [same, draining] at scrubbing
      cases scrubbing
    · have undrained : (s.buf c.handle).state ≠ .draining := by simp [collected.failing failing]
      rw [goDown_buf_failing failing, (tagsLost_custody fits).1, ended_undrained (.inl undrained)]
      rfl

end Sys2Proof.Machine
end
